-- ==== Sys2Proof/Word.lean ====
section
/-!
DEFINITION. The words of the machine: bytes, 32-bit and 64-bit words, lane masks, and sparse tables
whose unlisted entries read as zero.
-/
namespace Sys2Proof

abbrev Byte := BitVec 8
abbrev W16 := BitVec 16
abbrev W32 := BitVec 32
abbrev W64 := BitVec 64

/-- A set of lanes: bit t stands for thread t (R12, R209). -/
abbrev LaneMask := BitVec 32

/-- A sparse map from keys to words: keys strictly rising, no listed word zero (the form `Sparse.wf`
of Machine/Sparse.lean). An unlisted key reads as zero. -/
abbrev Sparse (w : Nat) := List (Nat × BitVec w)

/-- Memory: bytes by address, in the form of `Sparse` (a list of `Host.Cell`). -/
abbrev Memory := Sparse 8

/-- The lane numbers 0 to 31 in ascending thread order (R14). -/
def lanes : List Nat := List.range 32

end Sys2Proof
end

