-- ==== Sys2Proof/Syntax.lean ====
section
/-!
DEFINITION. The instructions and device steps of the opcode table, one constructor per row. A native
instruction carries the fields of its internal word (R86) as typed operands; its form is kept, since
the signature of a course folds the whole internal word (R101).
-/
namespace Sys2Proof

/-- The encoded forms (R84, R86). -/
inductive Form where
  | compact | six | eight | twelve
deriving DecidableEq, Repr, Inhabited

/-- The type codes 0 to 15 (R66). -/
inductive ETy where
  | i32 | n32 | i16x2 | n16x2 | i8x4 | n8x4 | i4x8 | n4x8
  | f32 | h16x2 | bf16x2 | ln16x2 | ln8x4 | ln4x8 | b64 | none
deriving DecidableEq, Repr, Inhabited

/-- The two predicate spaces of a guard (R86, bit [80]). -/
inductive PredSpace where
  | p | q
deriving DecidableEq, Repr, Inhabited

/-- The guard of an instruction (R91); `off` is the disabled guard. -/
inductive Guard where
  | off
  | on (space : PredSpace) (neg : Bool) (num : BitVec 3)
deriving DecidableEq, Repr, Inhabited

/-- Register class codes (R89): default, vector, uniform, course temporary. -/
inductive Cls where
  | dflt | v | s | k
deriving DecidableEq, Repr, Inhabited

/-- The legal modifier nibbles (R93). -/
inductive Modif where
  | none | h0 | h1 | hx | b0 | b1 | b2 | b3 | rev | pair | bcl | bch
deriving DecidableEq, Repr, Inhabited

/-- Memory scopes (R95, R132). -/
inductive Scope where
  | grp | team | clu | dev | sys
deriving DecidableEq, Repr, Inhabited

/-- Ordering codes (R95, R133). -/
inductive Ord where
  | plain | acq | rel
deriving DecidableEq, Repr, Inhabited

/-- Access sizes (R95): by type, 8, 16 and 128 bits. -/
inductive Size where
  | byType | s8 | s16 | s128
deriving DecidableEq, Repr, Inhabited

/-- What every form of a native instruction carries beside its operands. -/
structure Hdr where
  form  : Form
  guard : Guard
  stall : BitVec 4
  last  : Bool            -- the end flag
deriving DecidableEq, Repr, Inhabited

/-- The compact form's fields (R84, R97). -/
structure CompactOp where
  stall : BitVec 2
  d     : BitVec 8
  a     : BitVec 8
  b     : BitVec 8
deriving DecidableEq, Repr, Inhabited

/-- Register-form classes 0x000 to 0x14B and 0x180 to 0x18B (R86, R94). -/
structure VOp where
  h  : Hdr
  ty : ETy
  dst : BitVec 9
  a  : BitVec 9
  b  : BitVec 9
  c  : BitVec 9
  cd : Cls
  ca : Cls
  cb : Cls
  cc : Cls
  ma : Modif
  mb : Modif
  mc : Modif
  opt : BitVec 11
deriving DecidableEq, Repr, Inhabited

/-- Memory class 0x18C, 0x18D and 0x200 to 0x20C (R95). -/
structure MemOp where
  h  : Hdr
  ty : ETy
  dst : BitVec 9
  a  : BitVec 9
  b  : BitVec 9
  c  : BitVec 9
  scope : Scope
  ord : Ord
  size : Size
  op : BitVec 4
  af : Bool
  sc : BitVec 2
  dk : Bool
  ik : Bool
  nd : Bool               -- bit [13]
  bank : Bool             -- bit [12]
  imm : BitVec 12
deriving DecidableEq, Repr, Inhabited

/-- The long-immediate variant of the twelve-byte form (R88). -/
structure LiOp where
  h  : Hdr
  ty : ETy
  dst : BitVec 9
  a  : BitVec 9
  b  : BitVec 9
  imm32 : W32
  ext8 : BitVec 8
deriving DecidableEq, Repr, Inhabited

/-- System class 0x340 to 0x346 (R94). -/
structure SysOp where
  h  : Hdr
  ty : ETy
  dst : BitVec 9
  a  : BitVec 9
  b  : BitVec 9
  c  : BitVec 9
  cd : Cls
  ca : Cls
  num : BitVec 12
deriving DecidableEq, Repr, Inhabited

/-- Asynchronous, barrier, matrix and register-form control instructions, whose ext and modifiers are zero. -/
structure POp where
  h  : Hdr
  ty : ETy
  dst : BitVec 9
  a  : BitVec 9
  b  : BitVec 9
  c  : BitVec 9
deriving DecidableEq, Repr, Inhabited

/-- A resident group, by its core (0 to 255) and its resident slot (0 to 31: pipe x 16 + slot; R125, R199),
as core x 32 + slot. -/
abbrev Gid := Nat

/-- The access kinds a peer or a host brings over a link (R129, R276). -/
inductive LinkReq where
  | read (addr : Nat) (size : Nat)
  | write (addr : Nat) (data : List Byte)
  | atom (op : BitVec 4) (ty : ETy) (addr : Nat) (operand : W64)
  | cas (addr : Nat) (size : Nat) (cmp new : W64)
deriving DecidableEq, Repr, Inhabited

/-- How a pending variable-latency result moves (R29, R134): performed only, or performed and delivered. -/
inductive ArrivalMove where
  | perform | deliver
deriving DecidableEq, Repr, Inhabited

/-- How a store moves (R134): out of its group's queue, or from the core to its point of coherence. -/
inductive StoreMove where
  | leave | reach (index : Nat)
deriving DecidableEq, Repr, Inhabited

/-- An end of a UDP datagram (R279, R280): an IPv4 or IPv6 address of 4 or 16 bytes, and a port. -/
structure Endpoint where
  addr : List Byte
  port : W16
deriving DecidableEq, Repr, Inhabited

/-- A management request as received (R280): the ends of its datagram, and its header with its body's bytes. -/
structure MgmtMsg where
  src : Endpoint
  dst : Endpoint
  magic : W16
  version : Byte
  op : Byte
  keyId : W32
  seq : W32
  stamp : W64
  len : W16
  flags : BitVec 16       -- header bits [47:32]: RESP, ERR, DUP and zero bits
  zero : W64              -- header bits [255:192]
  body : List Byte
  sig : List Byte
deriving DecidableEq, Repr, Inhabited

/-- The memories that SECDED protects (R235), with the protected word. -/
inductive ProtWord where
  | hbm (word : Nat)                        -- address / 8
  | host (word : Nat)
  | peer (dev : Nat) (word : Nat)
  | bank (word : Nat)
  | scratch (team : Nat) (word : Nat)
  | vreg (g : Gid) (reg lane : Nat)
  | ureg (g : Gid) (reg : Nat)
  | tile (team : Nat) (elem : Nat)
  | l2 (word : Nat)                         -- the home L2's copy of an HBM word
  | l1 (core : Nat) (home : ProtWord)       -- a core's L1 copy of an HBM, host or peer word
deriving DecidableEq, Repr, Inhabited

/-- The functions that READY reports (R247). -/
inductive Function where
  | keystone | hub | markhor | os | die (d : Nat) | hbm (s : Nat) | link (i : Nat) | mgmt
deriving DecidableEq, Repr, Inhabited

/-- Thermal marks (R241). -/
inductive Mark where
  | warn | hot (die : Nat) | critical
deriving DecidableEq, Repr, Inhabited

/-- A register the control space or BAR0 holds (R249, R276). -/
inductive RegSpace where
  | control | bar0
deriving DecidableEq, Repr, Inhabited

/-- What a register write carries: a request of some bytes and their value (R249, R276). -/
structure RegData where
  bytes : Nat
  value : W64
deriving DecidableEq, Repr, Inhabited

/-- A put of a group: its place among those of the group's oldest operation that has any left (R130). -/
structure PutRef where
  g : Gid
  put : Nat
deriving DecidableEq, Repr, Inhabited

/-- A PCIe configuration write the endpoint acts on (R275 to R277). -/
inductive PcieCfg where
  | bar2Size (log2 : Nat)
  | msixMask (vector : Nat) (masked : Bool)
  | msixEntry (vector : Nat) (addr : W64) (data : W32)   -- the address and the data of a vector's message
  | msixControl (enable functionMask : Bool)
deriving DecidableEq, Repr, Inhabited

/-- The rows of the opcode table. -/
inductive Instr where
  -- compact form (R97)
  | nopCompact (o : CompactOp)
  | addI32Compact (o : CompactOp)
  | subI32Compact (o : CompactOp)
  | mulI32Compact (o : CompactOp)
  | minI32Compact (o : CompactOp)
  | maxI32Compact (o : CompactOp)
  | andCompact (o : CompactOp)
  | orCompact (o : CompactOp)
  | xorCompact (o : CompactOp)
  | shlN32Compact (o : CompactOp)
  | shrN32Compact (o : CompactOp)
  | sarI32Compact (o : CompactOp)
  | movCompact (o : CompactOp)
  | faddF32Compact (o : CompactOp)
  | fsubF32Compact (o : CompactOp)
  | fmulF32Compact (o : CompactOp)
  | fminF32Compact (o : CompactOp)
  | fmaxF32Compact (o : CompactOp)
  | faddH16x2Compact (o : CompactOp)
  | fmulH16x2Compact (o : CompactOp)
  | lmulLn8x4Compact (o : CompactOp)
  | lmulLn4x8Compact (o : CompactOp)
  | saddCompact (o : CompactOp)
  | ssubCompact (o : CompactOp)
  | sandCompact (o : CompactOp)
  | sorCompact (o : CompactOp)
  | sxorCompact (o : CompactOp)
  | popcCompact (o : CompactOp)
  | clzCompact (o : CompactOp)
  | brevCompact (o : CompactOp)
  | notCompact (o : CompactOp)
  | absI32Compact (o : CompactOp)
  -- integer and bit
  | abs (o : VOp)
  | add (o : VOp)
  | sub (o : VOp)
  | mul (o : VOp)
  | mulhi (o : VOp)
  | mad (o : VOp)
  | min (o : VOp)
  | max (o : VOp)
  | and (o : VOp)
  | or (o : VOp)
  | xor (o : VOp)
  | not (o : VOp)
  | shl (o : VOp)
  | shr (o : VOp)
  | sar (o : VOp)
  | fsl (o : VOp)
  | fsr (o : VOp)
  | bfx (o : VOp)
  | bfi (o : VOp)
  | popc (o : VOp)
  | clz (o : VOp)
  | brev (o : VOp)
  | cmp (o : VOp)
  | sel (o : VOp)
  | lea (o : VOp)
  | idot (o : VOp)
  -- floating
  | fadd (o : VOp)
  | fsub (o : VOp)
  | fmul (o : VOp)
  | ffma (o : VOp)
  | fmin (o : VOp)
  | fmax (o : VOp)
  | fcmp (o : VOp)
  | fcvt (o : VOp)
  | frcp (o : VOp)
  | frsq (o : VOp)
  | fex2 (o : VOp)
  | flg2 (o : VOp)
  | fsin (o : VOp)
  | fcos (o : VOp)
  -- logarithmic
  | lmul (o : VOp)
  | ldiv (o : VOp)
  | lscl (o : VOp)
  | lcvt (o : VOp)
  | lqnt (o : VOp)
  | ldot (o : VOp)
  -- matrix
  | mfmt (o : POp)
  | mlay (o : POp)
  | mma (o : POp)
  | mloop (o : POp)
  | mzero (o : POp)
  | mrd (o : POp)
  | mwr (o : POp)
  -- data and cross-lane
  | mov (o : VOp)
  | movi (o : LiOp)
  | rdx (o : VOp)
  | wrx (o : VOp)
  | vtos (o : VOp)
  | stov (o : VOp)
  | shfl (o : VOp)
  | redux (o : VOp)
  | pfx (o : VOp)
  | matchKeys (o : VOp)
  | vote (o : VOp)
  | nzscan (o : VOp)
  -- uniform
  | sadd (o : VOp)
  | ssub (o : VOp)
  | smul (o : VOp)
  | sand (o : VOp)
  | sor (o : VOp)
  | sxor (o : VOp)
  | sshl (o : VOp)
  | sshr (o : VOp)
  | scmp (o : VOp)
  | ssel (o : VOp)
  | smovi (o : LiOp)
  | slea (o : VOp)
  | sld (o : MemOp)
  | sst (o : MemOp)
  -- memory
  | ld (o : MemOp)
  | ldv (o : MemOp)
  | lds (o : MemOp)
  | ldb (o : MemOp)
  | st (o : MemOp)
  | stv (o : MemOp)
  | sts (o : MemOp)
  | stb (o : MemOp)
  | bop (o : MemOp)
  | atom (o : MemOp)
  | cas (o : MemOp)
  | red (o : MemOp)
  | fence (o : MemOp)
  -- asynchronous and barrier
  | kick (o : POp)
  | barinit (o : POp)
  | waitb (o : POp)
  | waitc (o : POp)
  | sleep (o : POp)
  | bar (o : POp)
  | cbar (o : POp)
  | gbar (o : POp)
  | join (o : POp)
  | leave (o : POp)
  -- control
  | want (o : LiOp)
  | wantr (o : POp)
  | call (o : LiOp)
  | callr (o : POp)
  | ret (o : POp)
  | exit (o : POp)
  | park (o : LiOp)
  | rejoin (o : LiOp)
  | region (o : LiOp)
  | pfor (o : POp)
  | pend (o : POp)
  -- system
  | nop (o : SysOp)
  | csrr (o : SysOp)
  | csrw (o : SysOp)
  | time (o : SysOp)
  | trap (o : SysOp)
  | eret (o : SysOp)
  | brk (o : SysOp)
  -- steps of the groups and engines (95_what_each_step_holds.md)
  | arbitrationTurn (core pipe : Nat)
  | courseBoundary (g : Gid)
  | idempotentRollback (g : Gid)
  | valueArrival (g : Gid) (index : Nat) (move : ArrivalMove)
  | storePerform (g : Gid) (move : StoreMove)
  | parkNeRead (g : Gid) (lane : Nat)
  | parkConditionWake (g : Gid)
  | sleepWake (g : Gid)
  | lateCopyTrap (g : Gid)
  | faultRecordWrite (g : Gid)
  | matrixStep (team tile : Nat)
  | formatEmulation (g : Gid)
  | hodDestinationWrite (g : Gid) (kick request row : Nat)
  | bankOperationPerform (g : Gid)
  | remoteAcknowledge (g : Gid)
  | peerRequest (port : Nat) (dev : Nat) (req : LinkReq)
  | putReceive (port : Nat) (phys : BitVec 48) (data : List Byte)
  | putErrorResponse (p : PutRef)
  | flitReceive (port : Nat)
  | pauseFlitReceive (port : Nat)
  | resumeFlitReceive (port : Nat)
  | linkInjection (link : Nat)
  | deterministicDrain (launch : Nat)
  | gbarRelease (launch : Nat)
  | islandResume
  -- scheduler
  | launch (q : Nat)
  | waitev (q : Nat)
  | signal (q : Nat)
  | setdet (q : Nat)
  | teamPlace
  | teamFree (team : Nat)
  | launchComplete (launch : Nat)
  -- pre-emption
  | preemptDrain (value : W64)
  | seizeBegin
  | teamSaveComplete (team : Nat)
  | seizeDeadline
  | preemptRestore (value : W64)
  -- translation control
  | fbreplyReplay (slot : Nat)
  | fbreplyKill (slot : Nat)
  | faultBufferConfigure (size : Bool) (value : W64)
  | tlbinvContext (ctx : Nat)
  | tlbinvPage (ctx : Nat) (vpn : Nat)
  | tlbinvAll
  | tlbInvalidationComplete
  -- links, clocks, registers
  | injcfgWrite (link : Nat) (value : W64)
  | clockStepChange (island step : Nat)
  | clockRatioChange (island ratio step : Nat)
  | ratioSettleEnd (island : Nat)
  | registerWrite (space : RegSpace) (offset : Nat) (value : RegData)
  | feataccWrite (value : W64)
  | hostBar2Access (req : LinkReq)
  | droopAlarm (island : Nat)
  | droopStretchEnd (island : Nat)
  | droopCapEnd (island : Nat)
  -- thermal, reliability, bring-up
  | thermalWarn
  | alertRepeat
  | thermalHot (die : Nat)
  | thermalCritical
  | thermalMarkClear (mark : Mark)
  | lifetimeWriteback
  | laneRetire (die site lane : Nat)
  | powerOn
  | functionBringup (f : Function)
  | functionLevelReset
  | vilazRestart
  | ethernetFrameReceive (dst : BitVec 48) (group : Bool)
  -- management operations
  | getready (m : MgmtMsg)
  | getstatus (m : MgmtMsg)
  | getcount (m : MgmtMsg)
  | gettemp (m : MgmtMsg)
  | flashopen (m : MgmtMsg)
  | flashdata (m : MgmtMsg)
  | flashclose (m : MgmtMsg)
  | setboot (m : MgmtMsg)
  | setcoll (m : MgmtMsg)
  | alertack (m : MgmtMsg)
  | settrust (m : MgmtMsg)
  | setstore (m : MgmtMsg)
  -- system calls
  | exitCall (ctx : Nat)
  | write (ctx : Nat)
  | memAlloc (ctx : Nat)
  | memFree (ctx : Nat)
  | memMap (ctx : Nat)
  | objLoad (ctx : Nat)
  | objUnload (ctx : Nat)
  | objLookup (ctx : Nat)
  | launchCall (ctx : Nat)
  | eventWait (ctx : Nat)
  | eventWaitTimeout (ctx : Nat)
  | eventQuery (ctx : Nat)
  | queueCreate (ctx : Nat)
  | queueDestroy (ctx : Nat)
  | featureQuery (ctx : Nat)
  | timeNow (ctx : Nat)
  | peerOpen (ctx : Nat)
  | peerMap (ctx : Nat)
  | attestReport (ctx : Nat)
  | debugAttach (ctx : Nat)
  | yield (ctx : Nat)
  -- module events
  | powerLoss (orderly : Bool)
  | deviceReset
  | functionFault (f : Function)
  | secdedError (w : ProtWord) (corrected : Bool)
  | pcieConfigurationWrite (c : PcieCfg)
  | imageStart (image : List Byte)
  | unassignedCallNumber (ctx : Nat)
  | unknownOperation (m : MgmtMsg)
deriving DecidableEq, Repr

/-- A part of a Galbel object as the translator takes it apart (R268 to R270), its instructions with their byte offsets: code
that runs once for the team; or a parallel-for region, with its `pfor`, the vector register of the index, the uniform register
of the count, and the pieces between its `bar` instructions, each of which every logical thread runs. -/
inductive GalbelPart where
  | team (code : List (Nat × Instr))
  | region (start : Nat) (index count : BitVec 9) (pieces : List (List (Nat × Instr)))
deriving Inhabited

/-- How the logical threads of a region are mapped (R270). -/
inductive Mapping where
  | lanes | coarse (each : Nat) | serial
deriving DecidableEq, Repr, Inhabited

end Sys2Proof
end

