-- ==== Sys2Proof/WellFormed.lean ====
section
/-!
DEFINITION. Which native instructions are legal as encoded (R88 to R97, R44, R59, R63 and the operand
rules of the reference entries): everything that does not depend on the state of the group.
-/
namespace Sys2Proof

/-- Types with more than one element (R93: codes 2 to 7 and 9 to 13). -/
def ETy.packed : ETy → Bool
  | .i16x2 | .n16x2 | .i8x4 | .n8x4 | .i4x8 | .n4x8 | .h16x2 | .bf16x2 | .ln16x2 | .ln8x4 | .ln4x8 => true
  | _ => false

/-- The element count of a type (R66). -/
def ETy.count : ETy → Nat
  | .i16x2 | .n16x2 | .h16x2 | .bf16x2 | .ln16x2 => 2
  | .i8x4 | .n8x4 | .ln8x4 => 4
  | .i4x8 | .n4x8 | .ln4x8 => 8
  | .none => 0
  | _ => 1

def intTypes : List ETy := [.i32, .n32, .i16x2, .n16x2, .i8x4, .n8x4, .i4x8, .n4x8]
def signedTypes : List ETy := [.i32, .i16x2, .i8x4, .i4x8]
def naturalTypes : List ETy := [.n32, .n16x2, .n8x4, .n4x8]
def wordTypes : List ETy := intTypes ++ [.f32, .h16x2, .bf16x2, .ln16x2, .ln8x4, .ln4x8]
def logTypes : List ETy := [.ln16x2, .ln8x4, .ln4x8]
def floatTypes : List ETy := [.f32, .h16x2, .bf16x2]

def forms6 : List Form := [.six, .eight, .twelve]
def forms8 : List Form := [.eight, .twelve]
def forms12 : List Form := [.twelve]
def formsShort : List Form := [.six, .eight]

/-- What a register field may hold (R89, R90). -/
inductive Slot where
  | zero                 -- not used
  | vdst (pair : Bool)   -- a vector or course-temporary destination
  | vsrc (pair : Bool)   -- a vector, course-temporary or uniform source
  | vlocal (pair : Bool) -- a vector or course-temporary source
  | vbase                -- a vector register only
  | ureg                 -- a uniform register
  | pred                 -- a predicate number
  | imm (bound : Nat)    -- an immediate below the bound
deriving DecidableEq, Repr

/-- A register number of a class: v 0 to 511, s 0 to 127, k 0 to 7; a pair is named by its even register (R59, R89). -/
def regOk (pair : Bool) (x : BitVec 9) : Cls → Bool
  | .dflt | .v => !pair || x.toNat % 2 == 0
  | .s => x.toNat < 128
  | .k => x.toNat < 8 && (!pair || x.toNat % 2 == 0)

def Slot.ok (x : BitVec 9) (c : Cls) : Slot → Bool
  | .zero => x == 0 && c == .dflt
  | .vdst pair => c != .s && regOk pair x c
  | .vsrc pair => regOk pair x c
  | .vlocal pair => c != .s && regOk pair x c
  | .vbase => c == .dflt || c == .v
  | .ureg => (c == .dflt || c == .s) && x.toNat < 128
  | .pred => c == .dflt && x.toNat < 8
  | .imm bound => c == .dflt && x.toNat < bound

/-- Legality of the guard with the form: only the eight- and twelve-byte forms hold one (R87, R91). -/
def Hdr.ok (h : Hdr) (forms : List Form) : Bool :=
  forms.contains h.form && h.form != .compact &&
  (h.form != .six || h.guard == .off)

/-- No vector-predicate guard (R91, R54 and the entries). -/
def Guard.uniform : Guard → Bool
  | .off => true
  | .on .q _ _ => true
  | .on .p _ _ => false

/-- A modifier on a source of the given type (R93). -/
def Modif.ok (m : Modif) (ty : ETy) : Bool := m == .none || ty.packed

/-- The short forms hold no class codes, modifiers or ext, and the six-byte form no c (R87). -/
def VOp.fits (o : VOp) : Bool :=
  match o.h.form with
  | .twelve => true
  | .eight => o.cd == .dflt && o.ca == .dflt && o.cb == .dflt && o.cc == .dflt &&
      o.ma == .none && o.mb == .none && o.mc == .none && o.opt == 0
  | .six => o.c == 0 && o.cd == .dflt && o.ca == .dflt && o.cb == .dflt && o.cc == .dflt &&
      o.ma == .none && o.mb == .none && o.mc == .none && o.opt == 0
  | .compact => false

/-- The operand shape of a register-form instruction. -/
structure Shape where
  forms : List Form
  types : List ETy
  dst : Slot := .zero
  a : Slot := .zero
  b : Slot := .zero
  c : Slot := .zero
  mods : ETy × ETy × ETy := (.none, .none, .none)   -- the type each modifier acts on
  optMask : BitVec 11 := 0                          -- the OPT bits the opcode has
  vguard : Bool := true                             -- accepts a vector guard

def VOp.has (o : VOp) (s : Shape) : Bool :=
  o.h.ok s.forms && o.fits && s.types.contains o.ty &&
  s.dst.ok o.dst o.cd && s.a.ok o.a o.ca && s.b.ok o.b o.cb && s.c.ok o.c o.cc &&
  o.ma.ok s.mods.1 && o.mb.ok s.mods.2.1 && o.mc.ok s.mods.2.2 &&
  (o.opt &&& ~~~s.optMask) == 0 && (s.vguard || o.h.guard.uniform)

/-- OPT fields (R94). -/
def VOp.sat (o : VOp) : Bool := o.opt.getLsbD 0
def VOp.cond (o : VOp) : BitVec 3 := o.opt.extractLsb' 1 3
def VOp.rnd (o : VOp) : BitVec 2 := o.opt.extractLsb' 0 2
def VOp.fcond (o : VOp) : BitVec 3 := o.opt.extractLsb' 2 3
def VOp.fstype (o : VOp) : BitVec 4 := o.opt.extractLsb' 5 4
def VOp.lstype (o : VOp) : BitVec 4 := o.opt.extractLsb' 1 4
def VOp.len (o : VOp) : Nat := (o.opt.extractLsb' 0 6).toNat
def VOp.mode (o : VOp) : BitVec 2 := o.opt.extractLsb' 0 2
def VOp.xop (o : VOp) : BitVec 3 := o.opt.extractLsb' 0 3
def VOp.ex (o : VOp) : Bool := o.opt.getLsbD 3
def VOp.si (o : VOp) : Bool := o.opt.getLsbD 1

/-- The type of a code (R66). -/
def ETy.ofCode (c : BitVec 4) : ETy :=
  match c.toNat with
  | 0 => .i32 | 1 => .n32 | 2 => .i16x2 | 3 => .n16x2 | 4 => .i8x4 | 5 => .n8x4 | 6 => .i4x8 | 7 => .n4x8
  | 8 => .f32 | 9 => .h16x2 | 10 => .bf16x2 | 11 => .ln16x2 | 12 => .ln8x4 | 13 => .ln4x8 | 14 => .b64 | _ => .none

def satMask : BitVec 11 := 1
def condMask : BitVec 11 := 0b1110

def VOp.is64 (o : VOp) : Bool := o.ty == .b64

/-- Integer and bit shapes. -/
def intUn (types : List ETy) (optMask : BitVec 11 := 0) (o : VOp) : Shape :=
  { forms := forms6, types, dst := .vdst o.is64, a := .vsrc o.is64, mods := (o.ty, .none, .none), optMask }
def intBin (types : List ETy) (optMask : BitVec 11 := 0) (o : VOp) : Shape :=
  { forms := forms6, types, dst := .vdst o.is64, a := .vsrc o.is64, b := .vsrc o.is64,
    mods := (o.ty, o.ty, .none), optMask }
def intTri (types : List ETy) (optMask : BitVec 11 := 0) (o : VOp) : Shape :=
  { forms := forms8, types, dst := .vdst false, a := .vsrc false, b := .vsrc false, c := .vsrc false,
    mods := (o.ty, o.ty, o.ty), optMask }

def bitTypes : List ETy := intTypes ++ [.b64]

/-- The pairs of destination and source that `fcvt` accepts, and whether b is a source (R313). -/
def fcvtPair : ETy → ETy → Option Bool
  | .f32, .i32 | .f32, .n32 | .f32, .h16x2 | .f32, .bf16x2 => some false
  | .h16x2, .f32 | .bf16x2, .f32 => some true
  | .h16x2, .bf16x2 | .bf16x2, .h16x2 => some false
  | .i32, .f32 | .n32, .f32 => some false
  | _, _ => none

def fcvtShape (o : VOp) : Shape :=
  let s := ETy.ofCode o.fstype
  { forms := forms6, types := [.f32, .h16x2, .bf16x2, .i32, .n32], dst := .vdst false, a := .vsrc false,
    b := if fcvtPair o.ty s == some true then .vsrc false else .zero,
    mods := (s, .none, .none), optMask := 0b00111100011 }

def special (o : VOp) : Bool :=
  o.has { forms := forms6, types := [.f32], dst := .vdst false, a := .vsrc false }

def logBin (o : VOp) : Bool := o.has (intBin logTypes 0 o)

def lcvtElems (d : ETy) : Nat := if d == .f32 then 1 else 2

def lcvtOk (o : VOp) : Bool :=
  let d := ETy.ofCode o.lstype
  floatTypes.contains d &&
  o.has { forms := forms12, types := logTypes, dst := .vdst false, a := .vsrc false,
          b := .imm (o.ty.count + 1 - lcvtElems d), mods := (o.ty, .none, .none), optMask := 0b11110 }

def lqntOk (o : VOp) : Bool :=
  let s := ETy.ofCode o.lstype
  floatTypes.contains s &&
  o.has { forms := forms12, types := logTypes, dst := .vdst false, a := .vsrc false,
          mods := (s, .none, .none), optMask := 0b11111 }

def shflOk (o : VOp) : Bool :=
  o.has { forms := forms8, types := wordTypes ++ [.b64], dst := .vdst o.is64, a := .vsrc o.is64,
          b := if o.sat then .imm 32 else .vsrc false,
          c := if o.si then .imm o.ty.count else .vsrc false, optMask := 0b11 }

def foldOk (exMask : BitVec 11) (o : VOp) : Bool :=
  o.has (intUn (intTypes ++ [.f32]) (0b111 ||| exMask) o) &&
  (o.xop.toNat < 3 || (o.xop.toNat < 6 && o.ty != .f32))

def matchOk (o : VOp) : Bool :=
  o.has { forms := forms6, types := [.n32, .b64], dst := if o.sat then .pred else .vdst false,
          a := .vsrc o.is64, optMask := 1 }

def voteOk (o : VOp) : Bool :=
  o.has { forms := forms6, types := [.none], dst := if o.mode == 0 then .ureg else .pred, a := .pred,
          optMask := 0b11 } && o.mode != 3

def rdxOk (dst : Slot) (o : VOp) : Bool :=
  o.has { forms := forms12, types := [.n32], dst, a := .vbase, b := .vsrc false, optMask := 0b111111 } &&
  decide (2 ≤ o.len) && decide (o.len ≤ 32)

/-- Uniform instructions (R352): s registers, no modifier, no vector guard. -/
def uniTypes : List ETy := [.i32, .n32, .b64]
def uniBin (optMask : BitVec 11) (o : VOp) : Bool :=
  o.has { forms := forms6, types := uniTypes, dst := .ureg, a := .ureg, b := .ureg, optMask, vguard := false } &&
  (!o.sat || o.ty != .b64)
def scmpOk (o : VOp) : Bool :=
  o.has { forms := forms6, types := uniTypes, dst := .pred, a := .ureg, b := .ureg, optMask := condMask,
          vguard := false } && o.cond != 7
def sselOk (o : VOp) : Bool :=
  o.has { forms := forms8, types := uniTypes, dst := .ureg, a := .ureg, b := .ureg, c := .pred, vguard := false }
def sleaOk (o : VOp) : Bool :=
  o.has { forms := forms8, types := [.b64], dst := .ureg, a := .ureg, b := .ureg, c := .imm 32, vguard := false }

/-- The short forms hold no memory field but a and b, and the six-byte form no c (R87, R325). -/
def MemOp.fits (o : MemOp) : Bool :=
  let plain := o.scope == .grp && o.ord == .plain && o.size == .byType && o.op == 0 && !o.af && o.sc == 0 &&
    !o.dk && !o.ik && !o.nd && !o.bank && o.imm == 0
  match o.h.form with
  | .twelve => true
  | .eight => plain
  | .six => plain && o.c == 0
  | .compact => false

/-- The address form (R95, R325). -/
def MemOp.addrOk (o : MemOp) : Bool :=
  if o.af then
    o.sc == 0 &&
    (if o.b == 0 then regOk true o.a (if o.ik then .k else .v)
     else o.b == 1 && !o.ik && o.a.toNat < 128)
  else o.a.toNat < 128 && (!o.ik || o.b.toNat < 8)

/-- The data register and the pair of size and type (R118, R325). -/
def MemOp.dataOk (o : MemOp) (quad : Bool) : Bool :=
  let kOk := !o.dk || o.dst.toNat < 8
  match o.size with
  | .byType => (wordTypes.contains o.ty && kOk) || (o.ty == .b64 && regOk true o.dst (if o.dk then .k else .v))
  | .s8 | .s16 => (o.ty == .i32 || o.ty == .n32) && kOk
  | .s128 => quad && o.ty == .b64 && o.dst.toNat % 4 == 0 && kOk

/-- ORD and SCOPE (R133): `ords` lists the accepted orderings, each with the accepted scopes. -/
def MemOp.ordOk (o : MemOp) (ords : List (Ord × List Scope)) : Bool :=
  ords.any fun p => p.1 == o.ord && p.2.contains o.scope

def allScopes : List Scope := [.grp, .team, .clu, .dev, .sys]
def teamScopes : List Scope := [.grp, .team, .clu]

def accessOk (forms : List Form) (quad : Bool) (ords : List (Ord × List Scope)) (ops : List (BitVec 4)) (o : MemOp) : Bool :=
  o.h.ok forms && o.fits && o.addrOk && o.dataOk quad && o.ordOk ords && ops.contains o.op &&
  o.c == 0 && !o.nd && !o.bank

def loadOrds (sc : List Scope) : List (Ord × List Scope) := [(.plain, [.grp]), (.acq, sc)]
def storeOrds (sc : List Scope) : List (Ord × List Scope) := [(.plain, [.grp]), (.rel, sc)]
def plainOrds : List (Ord × List Scope) := [(.plain, [.grp])]

/-- The pairs of operation and type of `atom` (R290). -/
def atomTypeOk (op : BitVec 4) (ty : ETy) : Bool :=
  match op.toNat with
  | 0 => [ETy.i32, .n32, .b64, .f32, .bf16x2].contains ty
  | 1 | 2 => [ETy.i32, .n32, .b64, .f32].contains ty
  | 3 | 4 | 5 => [ETy.i32, .n32, .b64].contains ty
  | 6 => [ETy.i32, .n32, .f32, .b64].contains ty
  | _ => false

def atomicOk (o : MemOp) (ords : List (Ord × List Scope)) : Bool :=
  o.h.ok forms8 && o.fits && o.addrOk && o.size == .byType && o.ordOk ords

def anyOrds : List (Ord × List Scope) := [(.plain, allScopes), (.acq, allScopes), (.rel, allScopes)]

def atomOk (o : MemOp) : Bool :=
  atomicOk o anyOrds && atomTypeOk o.op o.ty &&
  regOk (o.ty == .b64) o.dst (if o.dk then .k else .v) && regOk (o.ty == .b64) o.c .v

def casOk (o : MemOp) : Bool :=
  atomicOk o anyOrds && [ETy.i32, .n32, .b64].contains o.ty && o.op == 0 && !o.bank &&
  regOk (o.ty == .b64) o.dst (if o.dk then .k else .v) && regOk true o.c .v

def redOk (o : MemOp) : Bool :=
  atomicOk o [(.plain, allScopes), (.rel, allScopes)] && atomTypeOk o.op o.ty && o.op.toNat < 6 &&
  o.dst == 0 && !o.dk && !o.nd && regOk (o.ty == .b64) o.c .v

def uniMemOk (o : MemOp) : Bool :=
  o.h.ok forms6 && o.fits && o.h.guard.uniform && uniTypes.contains o.ty && o.dst.toNat < 128 && o.a.toNat < 128 &&
  o.b == 0 && o.c == 0 && o.scope == .grp && o.ord == .plain && o.op == 0 && !o.af && o.sc == 0 &&
  !o.dk && !o.ik && !o.nd && !o.bank &&
  (o.size == .byType || ((o.size == .s8 || o.size == .s16) && o.ty != .b64))

def bopOk (o : MemOp) : Bool :=
  o.h.ok [.six, .twelve] && o.fits && o.h.guard.uniform && [ETy.i32, .f32, .bf16x2].contains o.ty &&
  o.dst.toNat < 128 && o.a.toNat < 128 && o.b.toNat < 128 && o.c.toNat < 128 && o.op.toNat < 5 &&
  (o.op == 1 || o.op == 4 || o.c == 0) && (o.op != 1 || o.a == 0) &&
  o.scope == .grp && o.ord == .plain && o.size == .byType && !o.af && o.sc == 0 && !o.dk && !o.ik && !o.nd &&
  !o.bank && o.imm == 0

def fenceOk (o : MemOp) : Bool :=
  o.h.ok forms6 && o.fits && o.h.guard.uniform && o.ty == .none && o.dst == 0 && o.a == 0 && o.b == 0 && o.c == 0 &&
  o.ord == .plain && o.size == .byType && o.op == 0 && !o.af && o.sc == 0 && !o.dk && !o.ik && !o.nd && !o.bank &&
  o.imm == 0

/-- A plain-operand instruction: forms, types, bounds below which each field must lie, and the vector guard. -/
def POp.has (o : POp) (forms : List Form) (types : List ETy) (dst a b c : Nat) (vguard : Bool := false) : Bool :=
  o.h.ok forms && (o.h.form != .six || o.c == 0) && types.contains o.ty && decide (o.dst.toNat < dst) &&
  decide (o.a.toNat < a) && decide (o.b.toNat < b) && decide (o.c.toNat < c) && (vguard || o.h.guard.uniform)

def LiOp.has (o : LiOp) (types : List ETy) (dst a b : Nat) (ext : Nat) (vguard : Bool) : Bool :=
  o.h.ok forms12 && types.contains o.ty && decide (o.dst.toNat < dst) && decide (o.a.toNat < a) &&
  decide (o.b.toNat < b) && decide (o.ext8.toNat < ext) && (vguard || o.h.guard.uniform)

def SysOp.has (o : SysOp) (forms : List Form) (types : List ETy) (num : Nat) : Bool :=
  o.h.ok forms && types.contains o.ty && o.b == 0 && o.c == 0 && decide (o.num.toNat < num) &&
  (o.h.form == .twelve || (o.cd == .dflt && o.ca == .dflt && o.num == 0))

def SysOp.bare (o : SysOp) : Bool := o.dst == 0 && o.a == 0 && o.cd == .dflt && o.ca == .dflt

/-- Special registers by number: assigned, lane scope, and how a kernel may write them (R62, R63). -/
inductive CsrAccess where
  | unassigned | ro | rw | handler
deriving DecidableEq, Repr

def csrAccess (n : Nat) : CsrAccess :=
  if n ≤ 0x00F then .ro
  else if n ≤ 0x013 then .rw
  else if n ≤ 0x01B then .ro
  else if n = 0x01C then .rw
  else if n < 0x020 then .unassigned
  else if n ≤ 0x024 then .handler
  else if n ≤ 0x028 then .rw
  else if n = 0x029 then .ro
  else if n < 0x030 then .unassigned
  else if n ≤ 0x032 then .ro
  else .unassigned

def csrLane (n : Nat) : Bool := n == 0x000 || n == 0x00E || n == 0x01C

/-- Reads marked variable in R62. -/
def csrVariable (n : Nat) : Bool :=
  n == 0x013 || n == 0x014 || n == 0x015 || n == 0x01B || n == 0x031 || n == 0x032

def csrrOk (o : SysOp) : Bool :=
  o.has forms12 [.n32, .b64] 4096 && o.a == 0 && o.ca == .dflt && csrAccess o.num.toNat != .unassigned &&
  (if o.cd == .s then o.dst.toNat < 128 && !csrLane o.num.toNat && o.h.guard.uniform
   else regOk (o.ty == .b64) o.dst o.cd)

def csrwOk (o : SysOp) : Bool :=
  o.has forms12 [.n32, .b64] 4096 && o.dst == 0 && o.cd == .dflt &&
  (if o.num == 0x01C then o.ty == .n32 && (o.ca == .dflt || o.ca == .v)
   else o.ty == .b64 && o.ca == .s && o.a.toNat < 128 && o.h.guard.uniform &&
     (csrAccess o.num.toNat == .rw || csrAccess o.num.toNat == .handler))

def timeOk (o : SysOp) : Bool :=
  o.has forms6 [.n32, .b64] 1 && o.a == 0 && o.ca == .dflt && (o.cd == .dflt || o.cd == .s) &&
  o.dst.toNat < 128 && o.h.guard.uniform

/-- A compact instruction over vector registers; `un` for the unary ops, whose b must be zero (R97). -/
def CompactOp.binOk (_ : CompactOp) : Bool := true
def CompactOp.unOk (o : CompactOp) : Bool := o.b == 0
def CompactOp.uniOk (o : CompactOp) : Bool := o.d.toNat < 128 && o.a.toNat < 128 && o.b.toNat < 128
def CompactOp.nopOk (o : CompactOp) : Bool := o.d == 0 && o.a == 0 && o.b == 0

/-- Legality as encoded. A device step has no encoding and is always well formed. -/
def Instr.wf : Instr → Bool
  | .nopCompact o => o.nopOk
  | .addI32Compact o | .subI32Compact o | .mulI32Compact o | .minI32Compact o | .maxI32Compact o
  | .andCompact o | .orCompact o | .xorCompact o | .shlN32Compact o | .shrN32Compact o | .sarI32Compact o
  | .faddF32Compact o | .fsubF32Compact o | .fmulF32Compact o | .fminF32Compact o | .fmaxF32Compact o
  | .faddH16x2Compact o | .fmulH16x2Compact o | .lmulLn8x4Compact o | .lmulLn4x8Compact o => o.binOk
  | .movCompact o | .popcCompact o | .clzCompact o | .brevCompact o | .notCompact o | .absI32Compact o => o.unOk
  | .saddCompact o | .ssubCompact o | .sandCompact o | .sorCompact o | .sxorCompact o => o.uniOk
  | .abs o => o.has (intUn signedTypes satMask o)
  | .add o | .sub o | .mul o => o.has (intBin intTypes satMask o)
  | .mulhi o | .min o | .max o | .shl o | .shr o => o.has (intBin intTypes 0 o)
  | .mad o => o.has (intTri intTypes satMask o)
  | .and o | .or o | .xor o => o.has (intBin bitTypes 0 o)
  | .not o => o.has (intUn bitTypes 0 o)
  | .sar o => o.has (intBin signedTypes 0 o)
  | .fsl o | .fsr o => o.has (intTri naturalTypes 0 o)
  | .bfx o | .bfi o => o.has (intTri [.i32, .n32] 0 o)
  | .popc o | .clz o | .brev o => o.has (intUn [.n32, .b64] 0 o)
  | .cmp o => o.has { intBin [.i32, .n32] condMask o with dst := .pred } && o.cond != 7
  | .sel o => o.has { intBin (wordTypes ++ [.b64]) 0 o with forms := forms8, c := .pred }
  | .lea o => o.has { forms := forms8, types := [.n32, .b64], dst := .vdst o.is64, a := .vsrc o.is64,
                      b := .vsrc false, c := .imm 32 }
  | .idot o => o.has { intTri [.i8x4, .n8x4, .i4x8, .n4x8] satMask o with mods := (o.ty, o.ty, .none) }
  | .fadd o | .fsub o | .fmul o => o.has (intBin floatTypes 0b11 o)
  | .ffma o => o.has (intTri floatTypes 0b11 o)
  | .fmin o | .fmax o => o.has (intBin floatTypes 0 o)
  | .fcmp o => o.has { intBin [.f32] 0b11100 o with dst := .pred }
  | .fcvt o => (fcvtPair o.ty (ETy.ofCode o.fstype)).isSome && o.has (fcvtShape o)
  | .frcp o | .frsq o | .fex2 o | .flg2 o | .fsin o | .fcos o => special o
  | .lmul o | .ldiv o | .lscl o => logBin o
  | .lcvt o => lcvtOk o
  | .lqnt o => lqntOk o
  | .ldot o => o.has { intTri [.ln8x4, .ln4x8] 0 o with mods := (o.ty, o.ty, .none) }
  | .mfmt o => o.has forms6 [.none] 1 128 1 1
  | .mlay o => o.has forms8 [.none] 512 128 128 4
  | .mma o => o.has forms6 [.none] 8 512 512 1
  | .mloop o => o.has forms8 [.none] 8 4 4 128
  | .mzero o => o.has forms6 [.none] 8 1 1 1
  | .mrd o => o.has forms6 [.f32, .ln8x4] 512 8 16 1
  | .mwr o => o.has forms6 [.f32] 8 16 512 1
  | .mov o => o.has (intUn (wordTypes ++ [.b64]) 0 o)
  | .movi o => o.has (wordTypes ++ [.b64]) 512 1 1 1 true && (o.ty != .b64 || o.dst.toNat % 2 == 0)
  | .rdx o => rdxOk (.vdst false) o
  | .wrx o => rdxOk (.vsrc false) o
  | .vtos o => o.has { forms := forms6, types := uniTypes, dst := .ureg, a := .vlocal o.is64 }
  | .stov o => o.has { forms := forms6, types := [.n32, .b64], dst := .vdst o.is64, a := .ureg }
  | .shfl o => shflOk o
  | .redux o => foldOk 0 o
  | .pfx o => foldOk 0b1000 o
  | .matchKeys o => matchOk o
  | .vote o => voteOk o
  | .nzscan o => o.has (intUn wordTypes 0 o)
  | .sadd o | .ssub o | .smul o => uniBin satMask o
  | .sand o | .sor o | .sxor o | .sshl o | .sshr o => uniBin 0 o
  | .scmp o => scmpOk o
  | .ssel o => sselOk o
  | .smovi o => o.has uniTypes 128 1 1 1 false
  | .slea o => sleaOk o
  | .sld o | .sst o => uniMemOk o
  | .ld o | .ldb o => accessOk forms6 true (loadOrds allScopes) [0] o
  | .ldv o | .stv o => accessOk forms6 false plainOrds [0] o
  | .lds o => accessOk forms6 true (loadOrds teamScopes) [0, 1] o
  | .st o | .stb o => accessOk forms6 true (storeOrds allScopes) [0] o
  | .sts o => accessOk forms6 true (storeOrds teamScopes) [0, 1] o
  | .bop o => bopOk o
  | .atom o => atomOk o
  | .cas o => casOk o
  | .red o => redOk o
  | .fence o => fenceOk o
  | .kick o => o.has formsShort [.none] 128 128 128 1
  | .barinit o => o.has formsShort [.none] 1 128 128 1
  | .waitb o => o.has formsShort [.none, .b64] 1 128 128 1 && (o.ty == .b64 || o.b == 0)
  | .waitc o => o.has formsShort [.none] 1 4 64 1
  | .sleep o => o.has formsShort [.none] 1 128 1 1
  | .bar o | .cbar o | .gbar o | .join o | .leave o => o.has formsShort [.none] 1 1 1 1
  | .want o | .call o => o.has [.none] 1 1 1 1 true
  | .wantr o | .callr o => o.has formsShort [.n32] 1 512 1 1 true
  | .ret o | .exit o => o.has formsShort [.none] 1 1 1 1 true
  | .park o => o.has [.none] 1 128 128 3 true && (o.ext8 == 0 || o.b == 0)
  | .rejoin o => o.has [.none] 1 128 1 1 true
  | .region o => o.has [.none] 1 1 1 1 false
  | .pfor o => o.has forms12 [.n32] 512 128 1 1
  | .pend o => o.has forms12 [.none] 1 1 1 1
  | .nop o => o.has forms6 [.none] 1 && o.bare
  | .csrr o => csrrOk o
  | .csrw o => csrwOk o
  | .time o => timeOk o
  | .trap o => o.has forms6 [.none] 4096 && o.bare && o.h.guard.uniform
  | .eret o => o.has formsShort [.none] 1 && o.bare && o.h.guard == .off && o.h.last
  | .brk o => o.has formsShort [.none] 1 && o.bare && o.h.guard.uniform
  | _ => true

/-- Rows that have an encoding: the compact and native instructions. -/
def Instr.native : Instr → Bool
  | .arbitrationTurn .. | .courseBoundary .. | .idempotentRollback .. | .valueArrival .. | .storePerform ..
  | .parkNeRead .. | .parkConditionWake .. | .sleepWake .. | .lateCopyTrap .. | .faultRecordWrite ..
  | .matrixStep .. | .formatEmulation .. | .hodDestinationWrite .. | .bankOperationPerform ..
  | .remoteAcknowledge .. | .peerRequest .. | .putReceive .. | .putErrorResponse .. | .flitReceive ..
  | .pauseFlitReceive .. | .resumeFlitReceive .. | .linkInjection .. | .deterministicDrain .. | .gbarRelease ..
  | .islandResume | .launch .. | .waitev .. | .signal .. | .setdet .. | .teamPlace | .teamFree ..
  | .launchComplete .. | .preemptDrain .. | .seizeBegin | .teamSaveComplete .. | .seizeDeadline
  | .preemptRestore .. | .fbreplyReplay .. | .fbreplyKill .. | .faultBufferConfigure .. | .tlbinvContext ..
  | .tlbinvPage .. | .tlbinvAll | .tlbInvalidationComplete | .injcfgWrite .. | .clockStepChange ..
  | .clockRatioChange .. | .ratioSettleEnd .. | .registerWrite .. | .feataccWrite .. | .hostBar2Access ..
  | .droopAlarm .. | .droopStretchEnd .. | .droopCapEnd .. | .thermalWarn | .alertRepeat | .thermalHot ..
  | .thermalCritical | .thermalMarkClear .. | .lifetimeWriteback | .laneRetire .. | .powerOn
  | .functionBringup .. | .functionLevelReset | .vilazRestart | .ethernetFrameReceive .. | .getready ..
  | .getstatus .. | .getcount .. | .gettemp .. | .flashopen .. | .flashdata .. | .flashclose .. | .setboot ..
  | .setcoll .. | .alertack .. | .settrust .. | .setstore .. | .exitCall .. | .write .. | .memAlloc ..
  | .memFree .. | .memMap .. | .objLoad .. | .objUnload .. | .objLookup .. | .launchCall .. | .eventWait ..
  | .eventWaitTimeout .. | .eventQuery .. | .queueCreate .. | .queueDestroy .. | .featureQuery .. | .timeNow ..
  | .peerOpen .. | .peerMap .. | .attestReport .. | .debugAttach .. | .yield .. | .powerLoss .. | .deviceReset
  | .functionFault .. | .secdedError .. | .pcieConfigurationWrite .. | .imageStart .. | .unassignedCallNumber ..
  | .unknownOperation .. => false
  | _ => true

end Sys2Proof
end

