-- ==== Sys2Proof/Machine/Flags.lean ====
section
/-!
DEFINITION. The sticky flags of FFLAGS and LFLAGS (R64, R65), elements of a typed value (R66), modifiers
(R93) and integer narrowing (R82).
-/
namespace Sys2Proof

/-- The flags one operation raises: FFLAGS bits NV, OF, UF, NX and LFLAGS bits LINV, LUND, LSAT (R64). -/
structure Fl where
  ff : W32 := 0
  lf : W32 := 0
deriving DecidableEq, Repr, Inhabited

def Fl.or (a b : Fl) : Fl := { ff := a.ff ||| b.ff, lf := a.lf ||| b.lf }

def flNX : W32 := 1
def flUF : W32 := 2
def flOF : W32 := 4
def flNV : W32 := 8
def flSAT : W32 := 1
def flUND : W32 := 2
def flINV : W32 := 4

/-- The bits each status register holds; the rest read as zero and ignore writes (R64). -/
def fflagsMask : W32 := 0xF
def lflagsMask : W32 := 0x7
def fmodeMask : W32 := 0x7

/-- The width of an element (R66). -/
def ETy.width : ETy → Nat
  | .i32 | .n32 | .f32 | .none => 32
  | .i16x2 | .n16x2 | .h16x2 | .bf16x2 | .ln16x2 => 16
  | .i8x4 | .n8x4 | .ln8x4 => 8
  | .i4x8 | .n4x8 | .ln4x8 => 4
  | .b64 => 64

def ETy.signed : ETy → Bool
  | .i32 | .i16x2 | .i8x4 | .i4x8 => true
  | _ => false

/-- Sub-element k of width w (R66). -/
def elem (w x k : Nat) : Nat := x / 2 ^ (w * k) % 2 ^ w

/-- The elements of a value, element 0 first. -/
def elems (ty : ETy) (x : Nat) : List Nat := (List.range ty.count).map (elem ty.width x)

/-- Elements packed into one value, element 0 lowest. -/
def pack (w : Nat) : List Nat → Nat
  | [] => 0
  | x :: r => x % 2 ^ w + 2 ^ w * pack w r

/-- The number an element stands for: two's complement for i types, natural for the others (R66). -/
def toInt (signed : Bool) (w x : Nat) : Int :=
  if signed && 2 ^ (w - 1) ≤ x then (x : Int) - 2 ^ w else x

/-- The low w bits of an exact integer (R82). -/
def wrap (w : Nat) (y : Int) : Nat := (y % (2 ^ w : Nat)).toNat

def minOf (signed : Bool) (w : Nat) : Int := if signed then -(2 ^ (w - 1) : Nat) else 0
def maxOf (signed : Bool) (w : Nat) : Int := if signed then (2 ^ (w - 1) : Nat) - 1 else (2 ^ w : Nat) - 1

/-- An exact result clamped to the element's range (R82). -/
def clamp (signed : Bool) (w : Nat) (y : Int) : Int :=
  if y < minOf signed w then minOf signed w else if maxOf signed w < y then maxOf signed w else y

/-- The result of an integer operation: clamped with `.sat`, else wrapped (R82). -/
def narrow (sat signed : Bool) (w : Nat) (y : Int) : Nat := wrap w (if sat then clamp signed w y else y)

/-- The value a modifier gives (R93), before the type interprets it. -/
def Modif.apply (m : Modif) (ty : ETy) (x : Nat) : Nat :=
  let n := ty.count
  let w := ty.width
  let pick (f : Nat → Nat) : Nat := pack w ((List.range n).map fun k => elem w x (f k))
  match m with
  | .none => x
  | .h0 => pack 16 [elem 16 x 0, elem 16 x 0]
  | .h1 => pack 16 [elem 16 x 1, elem 16 x 1]
  | .hx => pack 16 [elem 16 x 1, elem 16 x 0]
  | .b0 => pack 8 (List.replicate 4 (elem 8 x 0))
  | .b1 => pack 8 (List.replicate 4 (elem 8 x 1))
  | .b2 => pack 8 (List.replicate 4 (elem 8 x 2))
  | .b3 => pack 8 (List.replicate 4 (elem 8 x 3))
  | .rev => pick fun k => n - 1 - k
  | .pair => pick fun k => if k % 2 == 0 then k + 1 else k - 1
  | .bcl => pick fun _ => 0
  | .bch => pick fun _ => n - 1

/-- Sign or zero extension of the low w bits to 64 bits (R59, R118). -/
def extend (signed : Bool) (w : Nat) (x : Nat) : W64 := BitVec.ofInt 64 (toInt signed w (x % 2 ^ w))

/-- Whether a scope's point of coherence lies beyond the core (R132). -/
def Scope.wide : Scope → Bool
  | .grp | .team => false
  | _ => true

end Sys2Proof
end

