-- ==== Sys2Proof/Machine/Float.lean ====
section
/-!
DEFINITION. Floating point (R74 to R77, R290, R310 to R315): values are exact, m * 2^e with a sign, and
are rounded once.
-/
namespace Sys2Proof

structure FFmt where
  ebits : Nat
  mbits : Nat
deriving DecidableEq, Repr

def fmt32 : FFmt := ⟨8, 23⟩
def fmt16 : FFmt := ⟨5, 10⟩
def fmtBf : FFmt := ⟨8, 7⟩

/-- The element format of a floating type (R66, R74, R75). -/
def ETy.ffmt : ETy → FFmt
  | .h16x2 => fmt16
  | .bf16x2 => fmtBf
  | _ => fmt32

namespace FFmt
def bias (f : FFmt) : Nat := 2 ^ (f.ebits - 1) - 1
def width (f : FFmt) : Nat := f.ebits + f.mbits + 1
def signBit (f : FFmt) (s : Bool) : Nat := if s then 2 ^ (f.ebits + f.mbits) else 0
def zero (f : FFmt) (s : Bool) : Nat := f.signBit s
def inf (f : FFmt) (s : Bool) : Nat := f.signBit s + (2 ^ f.ebits - 1) * 2 ^ f.mbits
def maxFinite (f : FFmt) (s : Bool) : Nat := f.inf s - 1
/-- The canonical NaN (R74, R75). -/
def nan (f : FFmt) : Nat := (2 ^ f.ebits - 1) * 2 ^ f.mbits + 2 ^ (f.mbits - 1)
def expField (f : FFmt) (x : Nat) : Nat := x / 2 ^ f.mbits % 2 ^ f.ebits
def mantField (f : FFmt) (x : Nat) : Nat := x % 2 ^ f.mbits
def neg (f : FFmt) (x : Nat) : Bool := x / 2 ^ (f.ebits + f.mbits) % 2 == 1
def isSub (f : FFmt) (x : Nat) : Bool := f.expField x == 0 && f.mantField x != 0
end FFmt

/-- A floating value: NaN (with its signalling mark), infinity, or the exact ±m * 2^e. -/
inductive FVal where
  | nan (signalling : Bool)
  | inf (s : Bool)
  | fin (s : Bool) (m : Nat) (e : Int)
deriving DecidableEq, Repr

def FFmt.decode (f : FFmt) (x : Nat) : FVal :=
  let s := f.neg x
  let ex := f.expField x
  let m := f.mantField x
  if ex = 0 then .fin s m (1 - (f.bias : Int) - f.mbits)
  else if ex = 2 ^ f.ebits - 1 then (if m = 0 then .inf s else .nan (m < 2 ^ (f.mbits - 1)))
  else .fin s (m + 2 ^ f.mbits) ((ex : Int) - f.bias - f.mbits)

/-- Rounding modes of FMODE.RM (R64): 0 nearest even, 1 toward zero, 2 up, 3 down. -/
def roundShift (mode : Nat) (s : Bool) (m : Nat) (sh : Int) : Nat × Bool :=
  if sh ≤ 0 then (m * 2 ^ (-sh).toNat, false)
  else
    let d := 2 ^ sh.toNat
    let q := m / d
    let r := m % d
    let up := match mode with
      | 0 => decide (d < 2 * r) || (2 * r == d && q % 2 == 1)
      | 1 => false
      | 2 => !s && r != 0
      | _ => s && r != 0
    (if up then q + 1 else q, r != 0)

/-- The exact ±m * 2^e rounded to the format, with OF, UF and NX; tininess is detected after rounding (R74). -/
def FFmt.round (f : FFmt) (mode : Nat) (s : Bool) (m : Nat) (e : Int) : Nat × W32 :=
  if m = 0 then (f.zero s, 0)
  else
    let top : Int := (Nat.log2 m : Int) + e
    let emin : Int := 1 - f.bias
    let q : Int := max top emin - f.mbits
    let (sig, inexact) := roundShift mode s m (q - e)
    let free := roundShift mode s m (top - f.mbits - e)
    let tiny := top < emin && !(top == emin - 1 && free.1 == 2 ^ (f.mbits + 1))
    let carry := sig == 2 ^ (f.mbits + 1)
    let sig := if carry then 2 ^ f.mbits else sig
    let q := if carry then q + 1 else q
    if (f.bias : Int) < q + f.mbits && 2 ^ f.mbits ≤ sig then
      let toInf := match mode with
        | 0 => true
        | 1 => false
        | 2 => !s
        | _ => s
      (if toInf then f.inf s else f.maxFinite s, flOF ||| flNX)
    else
      let bits := if sig < 2 ^ f.mbits then sig
        else (q + f.mbits + f.bias).toNat * 2 ^ f.mbits + (sig - 2 ^ f.mbits)
      (f.signBit s + bits, (if inexact then flNX else 0) ||| (if tiny && inexact then flUF else 0))

/-- Under FTZ a subnormal source reads as zero of its sign (R77). -/
def FFmt.flushSrc (f : FFmt) (ftz : Bool) (x : Nat) : Nat := if ftz && f.isSub x then f.zero (f.neg x) else x

/-- Under FTZ a subnormal result is flushed after rounding, setting UF and NX (R77, R310). -/
def FFmt.flushRes (f : FFmt) (ftz : Bool) (r : Nat × W32) : Nat × W32 :=
  if ftz && f.isSub r.1 then (f.zero (f.neg r.1), r.2 ||| flUF ||| flNX) else r

/-- The exact signed sum of two finite values as an integer at the smaller exponent. -/
def exactSum (s1 : Bool) (m1 : Nat) (e1 : Int) (s2 : Bool) (m2 : Nat) (e2 : Int) : Int × Int :=
  let e := min e1 e2
  let a : Int := m1 * (2 ^ (e1 - e).toNat : Nat)
  let b : Int := m2 * (2 ^ (e2 - e).toNat : Nat)
  ((if s1 then -a else a) + (if s2 then -b else b), e)

/-- The rounded sum of two finite values, with the sign of an exact zero by R310. -/
def FFmt.roundSum (f : FFmt) (mode : Nat) (s1 : Bool) (m1 : Nat) (e1 : Int) (s2 : Bool) (m2 : Nat) (e2 : Int) :
    Nat × W32 :=
  if m1 = 0 && m2 = 0 && s1 == s2 then (f.zero s1, 0)
  else
    let (n, e) := exactSum s1 m1 e1 s2 m2 e2
    if n = 0 then (f.zero (mode == 3), 0) else f.round mode (n < 0) n.natAbs e

def FVal.signals : FVal → Bool
  | .nan sg => sg
  | _ => false

def FVal.isNan : FVal → Bool
  | .nan _ => true
  | _ => false

def nvIf (b : Bool) : W32 := if b then flNV else 0

/-- x + y (R310). -/
def FFmt.addV (f : FFmt) (mode : Nat) (x y : FVal) : Nat × W32 :=
  match x, y with
  | .nan a, y => (f.nan, nvIf (a || y.signals))
  | x, .nan b => (f.nan, nvIf (b || x.signals))
  | .inf s, .inf t => if s == t then (f.inf s, 0) else (f.nan, flNV)
  | .inf s, _ => (f.inf s, 0)
  | _, .inf t => (f.inf t, 0)
  | .fin s m e, .fin t n d => f.roundSum mode s m e t n d

/-- x * y (R310). -/
def FFmt.mulV (f : FFmt) (mode : Nat) (x y : FVal) : Nat × W32 :=
  match x, y with
  | .nan a, y => (f.nan, nvIf (a || y.signals))
  | x, .nan b => (f.nan, nvIf (b || x.signals))
  | .inf s, .inf t => (f.inf (s != t), 0)
  | .inf s, .fin t n _ => if n = 0 then (f.nan, flNV) else (f.inf (s != t), 0)
  | .fin s m _, .inf t => if m = 0 then (f.nan, flNV) else (f.inf (s != t), 0)
  | .fin s m e, .fin t n d => f.round mode (s != t) (m * n) (e + d)

/-- Whether a product is 0 * Inf. -/
def zeroTimesInf : FVal → FVal → Bool
  | .inf _, .fin _ m _ => m == 0
  | .fin _ m _, .inf _ => m == 0
  | _, _ => false

/-- x * y + z with one rounding (R310). -/
def FFmt.fmaV (f : FFmt) (mode : Nat) (x y z : FVal) : Nat × W32 :=
  if zeroTimesInf x y then (f.nan, flNV)
  else if x.isNan || y.isNan || z.isNan then (f.nan, nvIf (x.signals || y.signals || z.signals))
  else match x, y, z with
    | .fin s m e, .fin t n d, .fin u k c => f.roundSum mode (s != t) (m * n) (e + d) u k c
    | .fin _ _ _, .fin _ _ _, .inf u => (f.inf u, 0)
    | .inf s, .inf t, z => f.addV mode (.inf (s != t)) z
    | .inf s, .fin t _ _, z => f.addV mode (.inf (s != t)) z
    | .fin s _ _, .inf t, z => f.addV mode (.inf (s != t)) z
    | _, _, _ => (f.nan, 0)

def FVal.negate : FVal → FVal
  | .nan g => .nan g
  | .inf s => .inf (!s)
  | .fin s m e => .fin (!s) m e

/-- a < b of two values that are not NaN; zeros are equal. -/
def FVal.lt : FVal → FVal → Bool
  | .inf s, .inf t => s && !t
  | .inf s, _ => s
  | _, .inf t => !t
  | .fin s m e, .fin t n d => decide ((exactSum s m e (!t) n d).1 < 0)
  | _, _ => false

/-- fmin and fmax (R311): a NaN gives the canonical NaN, and −0 is smaller than +0. -/
def FFmt.minMax (f : FFmt) (wantMax : Bool) (x y : Nat) : Nat × W32 :=
  let a := f.decode x
  let b := f.decode y
  if a.isNan || b.isNan then (f.nan, nvIf (a.signals || b.signals))
  else
    let less := a.lt b || (!b.lt a && f.neg x && !f.neg y)
    (if wantMax then (if less then y else x) else (if less then x else y), 0)

/-- Element arithmetic with the FTZ rules of R77 (FTZ only for f32). -/
def fadd1 (f : FFmt) (mode : Nat) (ftz : Bool) (x y : Nat) : Nat × W32 :=
  f.flushRes ftz (f.addV mode (f.decode (f.flushSrc ftz x)) (f.decode (f.flushSrc ftz y)))
def fsub1 (f : FFmt) (mode : Nat) (ftz : Bool) (x y : Nat) : Nat × W32 :=
  f.flushRes ftz (f.addV mode (f.decode (f.flushSrc ftz x)) (f.decode (f.flushSrc ftz y)).negate)
def fmul1 (f : FFmt) (mode : Nat) (ftz : Bool) (x y : Nat) : Nat × W32 :=
  f.flushRes ftz (f.mulV mode (f.decode (f.flushSrc ftz x)) (f.decode (f.flushSrc ftz y)))
def ffma1 (f : FFmt) (mode : Nat) (ftz : Bool) (x y z : Nat) : Nat × W32 :=
  f.flushRes ftz (f.fmaV mode (f.decode (f.flushSrc ftz x)) (f.decode (f.flushSrc ftz y)) (f.decode (f.flushSrc ftz z)))
def fmin1 (f : FFmt) (ftz : Bool) (x y : Nat) : Nat × W32 := f.minMax false (f.flushSrc ftz x) (f.flushSrc ftz y)
def fmax1 (f : FFmt) (ftz : Bool) (x y : Nat) : Nat × W32 := f.minMax true (f.flushSrc ftz x) (f.flushSrc ftz y)

/-- fcmp (R312): the predicate and NV. -/
def fcmp1 (ftz : Bool) (cond : Nat) (x y : Nat) : Bool × W32 :=
  let a := fmt32.decode (fmt32.flushSrc ftz x)
  let b := fmt32.decode (fmt32.flushSrc ftz y)
  let un := a.isNan || b.isNan
  let sig := a.signals || b.signals
  let lt := a.lt b
  let gt := b.lt a
  match cond with
  | 0 => (!un && !lt && !gt, nvIf sig)
  | 1 => (un || lt || gt, nvIf sig)
  | 2 => (!un && lt, nvIf un)
  | 3 => (!un && !gt, nvIf un)
  | 4 => (!un && gt, nvIf un)
  | 5 => (!un && !lt, nvIf un)
  | 6 => (un, nvIf sig)
  | _ => (!un, nvIf sig)

/-- A value in one format converted to another, rounded (R313). -/
def fconv (src dst : FFmt) (mode : Nat) (x : Nat) : Nat × W32 :=
  match src.decode x with
  | .nan g => (dst.nan, nvIf g)
  | .inf s => (dst.inf s, 0)
  | .fin s m e => if m = 0 then (dst.zero s, 0) else dst.round mode s m e

/-- f32 to an integer (R314). -/
def ftoi (signed : Bool) (mode : Nat) (x : Nat) : Nat × W32 :=
  match fmt32.decode x with
  | .nan _ => (0, flNV)
  | .inf s => (wrap 32 (if s then minOf signed 32 else maxOf signed 32), flNV)
  | .fin s m e =>
    let (n, inexact) := roundShift mode s m (-e)
    let y : Int := if s then -(n : Int) else n
    if y < minOf signed 32 then (wrap 32 (minOf signed 32), flNV)
    else if maxOf signed 32 < y then (wrap 32 (maxOf signed 32), flNV)
    else (wrap 32 y, if inexact then flNX else 0)

/-- An integer to f32 (R313). -/
def itof (signed : Bool) (mode : Nat) (x : Nat) : Nat × W32 :=
  let y := toInt signed 32 x
  fmt32.round mode (y < 0) y.natAbs 0

/-- The integer square root, bit by bit from bit n − 1. -/
def isqrt : Nat → Nat → Nat → Nat
  | 0, _, r => r
  | n + 1, x, r => isqrt n x (if (r + 2 ^ n) * (r + 2 ^ n) ≤ x then r + 2 ^ n else r)

/-- 1/x of a non-zero finite value (R315). -/
def rcpRound (s : Bool) (m : Nat) (e : Int) : Nat × W32 :=
  let k := Nat.log2 m + 60
  let q := 2 ^ k / m
  fmt32.round 0 s (2 * q + (if 2 ^ k % m = 0 then 0 else 1)) (-(k : Int) - e - 1)

/-- 1/√x of a positive finite value (R315). -/
def rsqRound (m : Nat) (e : Int) : Nat × W32 :=
  let odd := e % 2 == 1
  let m := if odd then 2 * m else m
  let h := (if odd then e - 1 else e) / 2
  let k := Nat.log2 m + 48
  let q := isqrt (k + 2) (2 ^ (2 * k) / m) 0
  fmt32.round 0 false (2 * q + (if q * q * m = 2 ^ (2 * k) then 0 else 1)) (-(k : Int) - h - 1)

/-! Transcendental functions: integer fixed point with P fraction bits; the true value lies within the returned
error above the returned lower bound. The precision is doubled until both bounds round alike (assumption 11). -/

/-- ln 2, with error below P + 4. -/
def ln2Fix (P : Nat) : Nat := ((List.range (P + 2)).map fun n => 2 ^ P / ((n + 1) * 2 ^ (n + 1))).foldl (· + ·) 0

/-- Sum of exp terms: term n, remaining count. -/
def expTerms (P y : Nat) : Nat → Nat → Nat → Nat
  | 0, _, _ => 0
  | c + 1, n, t => t + expTerms P y c (n + 1) (t * y / 2 ^ P / (n + 1))

/-- 2^(fm / 2^fk) for a fraction below 1: lower bound, with error below 8P + 32. -/
def exp2Fix (P fm fk : Nat) : Nat := expTerms P (fm * ln2Fix P / 2 ^ fk) P 0 (2 ^ P)

/-- Terms of Σ z^(2n+1) / (2n+1), alternating or not. -/
def atanTerms (P z2 : Nat) (alternate : Bool) : Nat → Nat → Int → Nat → Int
  | 0, _, _, _ => 0
  | c + 1, n, sg, t =>
    sg * (t / (2 * n + 1) : Nat) + atanTerms P z2 alternate c (n + 1) (if alternate then -sg else sg) (t * z2 / 2 ^ P)

/-- ln y for y = a / b in [1, 2): lower bound, with error below 8P + 32. -/
def lnFix (P a b : Nat) : Nat :=
  let z := (a - b) * 2 ^ P / (a + b)
  2 * (atanTerms P (z * z / 2 ^ P) false P 0 1 z).toNat

/-- atan(1 / d), within 4P + 8 on either side. -/
def atanInv (P d : Nat) : Int := atanTerms P (2 ^ P / (d * d)) true P 0 1 (2 ^ P / d)

/-- π by Machin's formula, within 128P + 256 on either side. -/
def piFix (P : Nat) : Int := 16 * atanInv P 5 - 4 * atanInv P 239

/-- Terms of sin (from n = 1, t = r) or cos (from n = 0, t = 1): t / n! with alternating signs. -/
def sincosTerms (P r2 : Nat) : Nat → Nat → Int → Nat → Int
  | 0, _, _, _ => 0
  | c + 1, n, sg, t => sg * t + sincosTerms P r2 c (n + 2) (-sg) (t * r2 / 2 ^ P / ((n + 1) * (n + 2)))

/-- Rounds an irrational value between lo and hi (fixed point P): the result when both ends round alike. -/
def roundBetween (P : Nat) (lo hi : Int) : Option (Nat × W32) :=
  if (lo < 0) != (hi < 0) || lo = 0 then none
  else
    let a := fmt32.round 0 (lo < 0) (2 * lo.natAbs + 1) (-(P : Int) - 1)
    let b := fmt32.round 0 (hi < 0) (2 * hi.natAbs + 1) (-(P : Int) - 1)
    if a = b then some a else none

/-- Doubles the precision until the bounds round alike; the last bound decides if the fuel ends. -/
def refine (bounds : Nat → Int × Int) : Nat → Nat → Nat × W32
  | 0, P => let (lo, _) := bounds P; fmt32.round 0 (lo < 0) (2 * lo.natAbs + 1) (-(P : Int) - 1)
  | n + 1, P =>
    let (lo, hi) := bounds P
    match roundBetween P lo hi with
    | some r => r
    | none => refine bounds n (2 * P)

/-- 2^x for a non-zero finite x (R315). -/
def ex2Round (s : Bool) (m : Nat) (e : Int) : Nat × W32 :=
  let mag : Int := (Nat.log2 m : Int) + e
  if 8 ≤ mag then (if s then fmt32.round 0 false 1 (-400) else fmt32.round 0 false 1 400)
  else
    -- x = n + fm / 2^fk, n the floor
    let fk := (-e).toNat
    let x : Int := if s then -((m : Int) * (2 ^ e.toNat : Nat)) else (m : Int) * (2 ^ e.toNat : Nat)
    let n : Int := x / (2 ^ fk : Nat)
    let fm := (x % (2 ^ fk : Nat)).toNat
    if fm = 0 then fmt32.round 0 false 1 n
    else
      let bounds (P : Nat) : Nat × Nat := let v := exp2Fix P fm fk; (v, v + 8 * P + 32)
      let rec go : Nat → Nat → Nat × W32
        | 0, P => fmt32.round 0 false (2 * (bounds P).1 + 1) (n - P - 1)
        | c + 1, P =>
          let a := fmt32.round 0 false (2 * (bounds P).1 + 1) (n - P - 1)
          let b := fmt32.round 0 false (2 * (bounds P).2 + 1) (n - P - 1)
          if a = b && 2 ^ P < (bounds P).1 then a else go c (2 * P)
      go 4 64

/-- log2 x for a positive finite x that is no power of two (R315). -/
def lg2Round (m : Nat) (e : Int) : Nat × W32 :=
  let l := Nat.log2 m
  refine (fun P =>
    let a := lnFix P m (2 ^ l)
    let ln2 := ln2Fix P
    let lo : Int := (a * 2 ^ P / (ln2 + P + 4) : Nat)
    let hi : Int := ((a + 8 * P + 32) * 2 ^ P / ln2 + 1 : Nat)
    let n : Int := ((l : Int) + e) * (2 ^ P : Nat)
    (n + lo, n + hi)) 4 128

/-- sin (or cos) of a non-zero finite x in radians (R76, R315). -/
def sincosRound (cosine : Bool) (s : Bool) (m : Nat) (e : Int) : Nat × W32 :=
  refine (fun P =>
    let Q := P + 160
    -- x and π/2 at 2^-Q; k quadrants and the remainder r, floor
    let x : Nat := m * 2 ^ ((Q : Int) + e).toNat / 2 ^ (-((Q : Int) + e)).toNat
    let half : Nat := (piFix Q).toNat / 2
    let k := x / half
    let err := (k + 1) * (64 * Q + 256)
    let r := x % half / 2 ^ 160
    let rerr := err / 2 ^ 160 + 2
    let useCos := (k % 2 == 1) != cosine
    let r2 := r * r / 2 ^ P
    let v := if useCos then sincosTerms P r2 P 0 1 (2 ^ P) else sincosTerms P r2 P 1 1 r
    let slack : Int := (4 * P + 16 + 2 * rerr : Nat)
    let negative := (if cosine then (k + 1) % 4 ≥ 2 else k % 4 ≥ 2) != (s && !cosine)
    if negative then (-(v + slack), -(v - slack)) else (v - slack, v + slack)) 4 256

/-- The special functions of R315 on one lane. -/
def sfu1 (fn : Nat) (ftz : Bool) (x : Nat) : Nat × W32 :=
  let f := fmt32
  let x := f.flushSrc ftz x
  f.flushRes ftz <| match f.decode x with
  | .nan g => (f.nan, nvIf g)
  | .inf s => match fn with
    | 0 => (f.zero s, 0)
    | 1 => if s then (f.nan, flNV) else (f.zero false, 0)
    | 2 => if s then (f.zero false, 0) else (f.inf false, 0)
    | 3 => if s then (f.nan, flNV) else (f.inf false, 0)
    | _ => (f.nan, flNV)
  | .fin s m e =>
    if m = 0 then match fn with
      | 0 => (f.inf s, 0)
      | 1 => (f.inf s, 0)
      | 2 => (0x3F800000, 0)
      | 3 => (f.inf true, 0)
      | 4 => (f.zero s, 0)
      | _ => (0x3F800000, 0)
    else match fn with
      | 0 => rcpRound s m e
      | 1 => if s then (f.nan, flNV) else rsqRound m e
      | 2 => ex2Round s m e
      | 3 =>
        if s then (f.nan, flNV)
        else if m = 2 ^ Nat.log2 m then f.round 0 ((Nat.log2 m : Int) + e < 0) ((Nat.log2 m : Int) + e).natAbs 0
        else lg2Round m e
      | 4 => sincosRound false s m e
      | _ => sincosRound true s m e

end Sys2Proof
end

