-- ==== Sys2Proof/Machine/Log.lean ====
section
/-!
DEFINITION. Logarithmic numbers (R67 to R73, R78, R162): conversion to linear by the coarse and fine
tables, quantising, and arithmetic in the log domain.
-/
namespace Sys2Proof

/-- The fraction bits F of a log format (R67). -/
def ETy.logF : ETy → Nat
  | .ln16x2 => 7
  | .ln8x4 => 3
  | _ => 1

/-- The excess X (R67). -/
def ETy.logX (ty : ETy) : Nat := 2 ^ (ty.width - 2)

/-- The largest field (R67). -/
def ETy.logMax (ty : ETy) : Nat := 2 ^ (ty.width - 1) - 1

/-- NaR: field 0 with the sign set (R68). -/
def ETy.nar (ty : ETy) : Nat := 2 ^ (ty.width - 1)

def ETy.logField (ty : ETy) (c : Nat) : Nat := c % 2 ^ (ty.width - 1)
def ETy.logSign (ty : ETy) (c : Nat) : Bool := 2 ^ (ty.width - 1) ≤ c
/-- The exponent e of a code, in units of 2^-F (R67). -/
def ETy.logExp (ty : ETy) (c : Nat) : Int := (ty.logField c : Int) - ty.logX

/-- The coarse and fine tables (R70). -/
def tableC : List Nat := [0, 5932, 12400, 19454, 27146, 35534, 44682, 54658]
def tableF : List Nat := [0, 356, 714, 1073, 1435, 1799, 2164, 2532, 2902, 3273, 3647, 4022, 4400, 4780, 5162, 5546]

/-- n / d to the nearest integer, ties to even. -/
def rneDiv (n : Int) (d : Nat) : Int :=
  let q := n / (d : Int)
  let r := n % (d : Int)
  if 2 * r < d then q else if (d : Int) < 2 * r then q + 1 else if q % 2 = 0 then q else q + 1

/-- R69: the mantissa in units of 2^-16 and the exponent I of an aligned log exponent E (units of 1 / 128). -/
def logToLinear (E : Int) : Nat × Int :=
  let f := (E % 128).toNat
  ((rneDiv (((65536 + tableC.getD (f / 16) 0) * (65536 + tableF.getD (f % 16) 0) : Nat) : Int) 65536).toNat, E / 128)

/-- The aligned exponent of a code or of a sum of exponents in the format's units (R69). -/
def ETy.align (ty : ETy) (e : Int) : Int := e * (2 ^ (7 - ty.logF) : Nat)

/-- lcvt to f32 (R71). -/
def logToF32 (ty : ETy) (ftz : Bool) (c : Nat) : Nat × Fl :=
  if c = ty.nar then (fmt32.nan, { lf := flINV })
  else if c = 0 then (0, {})
  else
    let (m, i) := logToLinear (ty.align (ty.logExp c))
    let r := fmt32.flushRes ftz (fmt32.round 0 (ty.logSign c) m (i - 16))
    (r.1, { ff := r.2 })

/-- lcvt to a packed format, rounded to nearest even (R324). -/
def logToPacked (ty : ETy) (f : FFmt) (c : Nat) : Nat × Fl :=
  if c = ty.nar then (f.nan, { lf := flINV })
  else if c = 0 then (0, {})
  else
    let (m, i) := logToLinear (ty.align (ty.logExp c))
    let r := f.round 0 (ty.logSign c) m (i - 16)
    (r.1, { ff := r.2 })

/-- floor(2^(F+1) * log2 (m * 2^e)), exactly. -/
def log2Floor (F m : Nat) (e : Int) : Int := (Nat.log2 (m ^ 2 ^ (F + 1)) : Int) + e * (2 ^ (F + 1) : Nat)

/-- lqnt (R72): the code of a linear value, `.rz` or `.rn`. -/
def quantise (ty : ETy) (rz : Bool) (v : FVal) : Nat × Fl :=
  let sgn (s : Bool) : Nat := if s then ty.nar else 0
  match v with
  | .nan _ => (ty.nar, { lf := flINV })
  | .inf s => (sgn s + ty.logMax, { lf := flSAT })
  | .fin s m e =>
    if m = 0 then (0, {})
    else
      let n := log2Floor ty.logF m e
      let top : Int := (ty.logMax : Int) - ty.logX
      let k : Int := if rz then n / 2 else (n + 1) / 2
      if 2 * top + 1 ≤ n then (sgn s + ty.logMax, { lf := flSAT })
      else if top < k then (sgn s + ty.logMax, {})
      else if k < 1 - (ty.logX : Int) then (0, { lf := flUND })
      else (sgn s + (k + ty.logX).toNat, {})

/-- `apply` of R73: a code moved by d in the log domain. -/
def logApply (ty : ETy) (a : Nat) (sb bz bnar : Bool) (d : Int) : Nat × Fl :=
  if a = ty.nar || bnar then (ty.nar, { lf := flINV })
  else if a = 0 || bz then (0, {})
  else
    let s := if ty.logSign a != sb then ty.nar else 0
    let f : Int := (ty.logField a : Int) + d
    if (ty.logMax : Int) < f then (s + ty.logMax, { lf := flSAT })
    else if f < 1 then (0, { lf := flUND })
    else (s + f.toNat, {})

def lmul1 (ty : ETy) (a b : Nat) : Nat × Fl :=
  logApply ty a (ty.logSign b) (b == 0) (b == ty.nar) (ty.logExp b)

def ldiv1 (ty : ETy) (a b : Nat) : Nat × Fl :=
  if b = 0 && a != ty.nar then (0, { lf := flINV })
  else logApply ty a (ty.logSign b) (b == 0) (b == ty.nar) (-ty.logExp b)

/-- lscl (R73, R332): c is an LN16 code, rounded to the destination's step. -/
def lscl1 (ty : ETy) (a c : Nat) : Nat × Fl :=
  logApply ty a (32768 ≤ c) (c == 0) (c == 0x8000)
    (rneDiv ((c % 32768 : Nat) - 16384) (2 ^ (7 - ty.logF)))

/-- An exact linear sum held as an integer in units of 2^-40 (R78). The products of LN8 and LN4 need no more. -/
def productUnits (ty : ETy) (a b : Nat) : Int :=
  let (m, i) := logToLinear (ty.align (ty.logExp a + ty.logExp b))
  let v : Int := (m * 2 ^ (i + 24).toNat : Nat)
  if ty.logSign a != ty.logSign b then -v else v

/-- The exact sum of the products of paired LN8 or LN4 elements, and whether any is NaR (R78, R163). -/
def dotUnits (ty : ETy) : List (Nat × Nat) → Int × Bool
  | [] => (0, false)
  | (a, b) :: r =>
    let (s, n) := dotUnits ty r
    if a = ty.nar || b = ty.nar then (s, true)
    else if a != 0 && b != 0 then (s + productUnits ty a b, n)
    else (s, n)

/-- acc + n * 2^e rounded once to f32, nearest even, acc an f32 value (R78, R163). -/
def addExact (acc : FVal) (n : Int) (e : Int) : Nat × W32 := fmt32.addV 0 acc (.fin (n < 0) n.natAbs e)

/-- ldot (R78, R333) on one lane. An exact sum of zero is added as +0. DEDUCED (assumption 88). -/
def ldot1 (ty : ETy) (ftz : Bool) (a b c : Nat) : Nat × Fl :=
  let (s, nar) := dotUnits ty ((elems ty a).zip (elems ty b))
  if nar then (fmt32.nan, { lf := flINV })
  else
    let r := fmt32.flushRes ftz (addExact (fmt32.decode (fmt32.flushSrc ftz c)) s (-40))
    (r.1, { ff := r.2 })

end Sys2Proof
end

