-- ==== Sys2Proof/Decode.lean ====
section
/-!
DEFINITION. From bytes to instructions and back (R84 to R102). Decoding is total on any bytes and
rejects by name; the encoder is written from the same tables and follows it.
-/
namespace Sys2Proof

/-- The internal word (R86). The 40 low bits hold c, the modifier nibbles and ext, or imm32 and ext8 (R88). -/
structure IWord where
  form : Form
  opcode : BitVec 10
  guard : BitVec 6
  stall : BitVec 4
  last : Bool
  ty : BitVec 4
  dst : BitVec 9
  a : BitVec 9
  b : BitVec 9
  low : BitVec 40
deriving DecidableEq, Repr

/-- Codes of the enumerated fields. -/
def Form.code : Form → BitVec 4
  | .compact => 0 | .six => 1 | .eight => 2 | .twelve => 3

def ETy.code : ETy → BitVec 4
  | .i32 => 0 | .n32 => 1 | .i16x2 => 2 | .n16x2 => 3 | .i8x4 => 4 | .n8x4 => 5 | .i4x8 => 6 | .n4x8 => 7
  | .f32 => 8 | .h16x2 => 9 | .bf16x2 => 10 | .ln16x2 => 11 | .ln8x4 => 12 | .ln4x8 => 13 | .b64 => 14 | .none => 15

def Cls.code : Cls → BitVec 2
  | .dflt => 0 | .v => 1 | .s => 2 | .k => 3

def Cls.ofCode (c : BitVec 2) : Cls :=
  match c.toNat with
  | 0 => .dflt | 1 => .v | 2 => .s | _ => .k

/-- Modifier nibbles (R93). -/
def Modif.code : Modif → BitVec 4
  | .none => 0b0000 | .h0 => 0b0100 | .h1 => 0b0101 | .hx => 0b0111
  | .b0 => 0b1000 | .b1 => 0b1001 | .b2 => 0b1010 | .b3 => 0b1011
  | .rev => 0b1100 | .pair => 0b1101 | .bcl => 0b1110 | .bch => 0b1111

/-- Mode 00 with a non-zero selector and the reserved selector have no meaning (R93). -/
def Modif.ofCode (c : BitVec 4) : Option Modif :=
  match c.toNat with
  | 0 => some .none | 4 => some .h0 | 5 => some .h1 | 7 => some .hx
  | 8 => some .b0 | 9 => some .b1 | 10 => some .b2 | 11 => some .b3
  | 12 => some .rev | 13 => some .pair | 14 => some .bcl | 15 => some .bch
  | _ => Option.none

/-- Guard bits [81:76] (R91): enable, space, negate, number. -/
def Guard.code : Guard → BitVec 6
  | .off => 0
  | .on sp neg num =>
    1#1 ++ (match sp with | .p => 0#1 | .q => 1#1) ++ BitVec.ofBool neg ++ num

/-- A disabled guard with another bit set is illegal (R91). -/
def Guard.ofCode (c : BitVec 6) : Option Guard :=
  if c.getLsbD 5 then
    some (.on (if c.getLsbD 4 then .q else .p) (c.getLsbD 3) (c.extractLsb' 0 3))
  else if c == 0 then some .off else Option.none

def Scope.code : Scope → BitVec 3
  | .grp => 0 | .team => 1 | .clu => 2 | .dev => 3 | .sys => 4

def Scope.ofCode (c : BitVec 3) : Option Scope :=
  match c.toNat with
  | 0 => some .grp | 1 => some .team | 2 => some .clu | 3 => some .dev | 4 => some .sys | _ => Option.none

def Ord.code : Ord → BitVec 2
  | .plain => 0 | .acq => 1 | .rel => 2

def Ord.ofCode (c : BitVec 2) : Option Ord :=
  match c.toNat with
  | 0 => some .plain | 1 => some .acq | 2 => some .rel | _ => Option.none

def Size.code : Size → BitVec 3
  | .byType => 0 | .s8 => 1 | .s16 => 2 | .s128 => 3

def Size.ofCode (c : BitVec 3) : Option Size :=
  match c.toNat with
  | 0 => some .byType | 1 => some .s8 | 2 => some .s16 | 3 => some .s128 | _ => Option.none

/-! ### The internal word and the operand records -/

def IWord.hdr (w : IWord) : Option Hdr :=
  (Guard.ofCode w.guard).map fun g => { form := w.form, guard := g, stall := w.stall, last := w.last }

def IWord.c (w : IWord) : BitVec 9 := w.low.extractLsb' 31 9

def IWord.unpackV (w : IWord) : Option VOp := do
  let h ← w.hdr
  let ma ← Modif.ofCode (w.low.extractLsb' 27 4)
  let mb ← Modif.ofCode (w.low.extractLsb' 23 4)
  let mc ← Modif.ofCode (w.low.extractLsb' 19 4)
  return { h, ty := ETy.ofCode w.ty, dst := w.dst, a := w.a, b := w.b, c := w.c,
           cd := Cls.ofCode (w.low.extractLsb' 17 2), ca := Cls.ofCode (w.low.extractLsb' 15 2),
           cb := Cls.ofCode (w.low.extractLsb' 13 2), cc := Cls.ofCode (w.low.extractLsb' 11 2),
           ma, mb, mc, opt := w.low.extractLsb' 0 11 }

def IWord.unpackMem (w : IWord) : Option MemOp := do
  let h ← w.hdr
  let scope ← Scope.ofCode (w.low.extractLsb' 28 3)
  let ord ← Ord.ofCode (w.low.extractLsb' 26 2)
  let size ← Size.ofCode (w.low.extractLsb' 23 3)
  return { h, ty := ETy.ofCode w.ty, dst := w.dst, a := w.a, b := w.b, c := w.c, scope, ord, size,
           op := w.low.extractLsb' 19 4, af := w.low.getLsbD 18, sc := w.low.extractLsb' 16 2,
           dk := w.low.getLsbD 15, ik := w.low.getLsbD 14, nd := w.low.getLsbD 13, bank := w.low.getLsbD 12,
           imm := w.low.extractLsb' 0 12 }

def IWord.unpackLi (w : IWord) : Option LiOp := do
  let h ← w.hdr
  return { h, ty := ETy.ofCode w.ty, dst := w.dst, a := w.a, b := w.b,
           imm32 := w.low.extractLsb' 8 32, ext8 := w.low.extractLsb' 0 8 }

def IWord.unpackSys (w : IWord) : Option SysOp := do
  let h ← w.hdr
  if w.low.extractLsb' 19 12 != 0 || w.low.extractLsb' 12 3 != 0 then Option.none
  else return { h, ty := ETy.ofCode w.ty, dst := w.dst, a := w.a, b := w.b, c := w.c,
                cd := Cls.ofCode (w.low.extractLsb' 17 2), ca := Cls.ofCode (w.low.extractLsb' 15 2),
                num := w.low.extractLsb' 0 12 }

def IWord.unpackP (w : IWord) : Option POp := do
  let h ← w.hdr
  if w.low.extractLsb' 0 31 != 0 then Option.none
  else return { h, ty := ETy.ofCode w.ty, dst := w.dst, a := w.a, b := w.b, c := w.c }

def Hdr.pack (h : Hdr) (opcode : BitVec 10) (ty : ETy) (dst a b : BitVec 9) (low : BitVec 40) : IWord :=
  { form := h.form, opcode, guard := h.guard.code, stall := h.stall, last := h.last, ty := ty.code, dst, a, b, low }

def VOp.pack (o : VOp) (opcode : BitVec 10) : IWord :=
  o.h.pack opcode o.ty o.dst o.a o.b
    (o.c ++ o.ma.code ++ o.mb.code ++ o.mc.code ++ o.cd.code ++ o.ca.code ++ o.cb.code ++ o.cc.code ++ o.opt)

def MemOp.pack (o : MemOp) (opcode : BitVec 10) : IWord :=
  o.h.pack opcode o.ty o.dst o.a o.b
    (o.c ++ o.scope.code ++ o.ord.code ++ o.size.code ++ o.op ++ BitVec.ofBool o.af ++ o.sc ++
      BitVec.ofBool o.dk ++ BitVec.ofBool o.ik ++ BitVec.ofBool o.nd ++ BitVec.ofBool o.bank ++ o.imm)

def LiOp.pack (o : LiOp) (opcode : BitVec 10) : IWord :=
  o.h.pack opcode o.ty o.dst o.a o.b (o.imm32 ++ o.ext8)

def SysOp.pack (o : SysOp) (opcode : BitVec 10) : IWord :=
  o.h.pack opcode o.ty o.dst o.a o.b (o.c ++ 0#12 ++ o.cd.code ++ o.ca.code ++ 0#3 ++ o.num)

def POp.pack (o : POp) (opcode : BitVec 10) : IWord :=
  o.h.pack opcode o.ty o.dst o.a o.b (o.c ++ 0#31)

/-- The expansion of a compact instruction (R87, R97). -/
def CompactOp.pack (o : CompactOp) (opcode : BitVec 10) (ty : BitVec 4) : IWord :=
  { form := .compact, opcode, guard := 0, stall := o.stall.setWidth 4, last := false, ty,
    dst := o.d.setWidth 9, a := o.a.setWidth 9, b := o.b.setWidth 9, low := 0 }

/-- The 96 bits of the internal word (R86), which SIGACC folds (R101). -/
def IWord.word (w : IWord) : BitVec 96 :=
  w.form.code ++ w.opcode ++ w.guard ++ w.stall ++ BitVec.ofBool w.last ++ w.ty ++ w.dst ++ w.a ++ w.b ++ w.low

/-! ### Opcodes (R96, R97) -/

/-- The instruction of a six-, eight- or twelve-byte word by its opcode (R96); `none` for an unassigned opcode or
a field with no meaning. -/
def IWord.candidate (w : IWord) : Option Instr :=
  match w.opcode.toNat with
  | 0x000 => (w.unpackV).map .add
  | 0x001 => (w.unpackV).map .sub
  | 0x002 => (w.unpackV).map .mul
  | 0x003 => (w.unpackV).map .mulhi
  | 0x004 => (w.unpackV).map .mad
  | 0x005 => (w.unpackV).map .min
  | 0x006 => (w.unpackV).map .max
  | 0x007 => (w.unpackV).map .abs
  | 0x008 => (w.unpackV).map .and
  | 0x009 => (w.unpackV).map .or
  | 0x00A => (w.unpackV).map .xor
  | 0x00B => (w.unpackV).map .not
  | 0x00C => (w.unpackV).map .shl
  | 0x00D => (w.unpackV).map .shr
  | 0x00E => (w.unpackV).map .sar
  | 0x00F => (w.unpackV).map .fsl
  | 0x010 => (w.unpackV).map .fsr
  | 0x011 => (w.unpackV).map .bfx
  | 0x012 => (w.unpackV).map .bfi
  | 0x013 => (w.unpackV).map .popc
  | 0x014 => (w.unpackV).map .clz
  | 0x015 => (w.unpackV).map .brev
  | 0x016 => (w.unpackV).map .cmp
  | 0x017 => (w.unpackV).map .sel
  | 0x018 => (w.unpackV).map .lea
  | 0x019 => (w.unpackV).map .idot
  | 0x080 => (w.unpackV).map .fadd
  | 0x081 => (w.unpackV).map .fsub
  | 0x082 => (w.unpackV).map .fmul
  | 0x083 => (w.unpackV).map .ffma
  | 0x084 => (w.unpackV).map .fmin
  | 0x085 => (w.unpackV).map .fmax
  | 0x086 => (w.unpackV).map .fcmp
  | 0x087 => (w.unpackV).map .fcvt
  | 0x088 => (w.unpackV).map .frcp
  | 0x089 => (w.unpackV).map .frsq
  | 0x08A => (w.unpackV).map .fex2
  | 0x08B => (w.unpackV).map .flg2
  | 0x08C => (w.unpackV).map .fsin
  | 0x08D => (w.unpackV).map .fcos
  | 0x100 => (w.unpackV).map .lmul
  | 0x101 => (w.unpackV).map .ldiv
  | 0x102 => (w.unpackV).map .lcvt
  | 0x103 => (w.unpackV).map .lqnt
  | 0x104 => (w.unpackV).map .lscl
  | 0x105 => (w.unpackV).map .ldot
  | 0x140 => (w.unpackV).map .mov
  | 0x141 => (w.unpackLi).map .movi
  | 0x142 => (w.unpackV).map .rdx
  | 0x143 => (w.unpackV).map .wrx
  | 0x144 => (w.unpackV).map .vtos
  | 0x145 => (w.unpackV).map .stov
  | 0x146 => (w.unpackV).map .shfl
  | 0x147 => (w.unpackV).map .redux
  | 0x148 => (w.unpackV).map .pfx
  | 0x149 => (w.unpackV).map .matchKeys
  | 0x14A => (w.unpackV).map .vote
  | 0x14B => (w.unpackV).map .nzscan
  | 0x180 => (w.unpackV).map .sadd
  | 0x181 => (w.unpackV).map .ssub
  | 0x182 => (w.unpackV).map .smul
  | 0x183 => (w.unpackV).map .sand
  | 0x184 => (w.unpackV).map .sor
  | 0x185 => (w.unpackV).map .sxor
  | 0x186 => (w.unpackV).map .sshl
  | 0x187 => (w.unpackV).map .sshr
  | 0x188 => (w.unpackV).map .scmp
  | 0x189 => (w.unpackV).map .ssel
  | 0x18A => (w.unpackLi).map .smovi
  | 0x18B => (w.unpackV).map .slea
  | 0x18C => (w.unpackMem).map .sld
  | 0x18D => (w.unpackMem).map .sst
  | 0x200 => (w.unpackMem).map .ld
  | 0x201 => (w.unpackMem).map .st
  | 0x202 => (w.unpackMem).map .ldv
  | 0x203 => (w.unpackMem).map .stv
  | 0x204 => (w.unpackMem).map .lds
  | 0x205 => (w.unpackMem).map .sts
  | 0x206 => (w.unpackMem).map .ldb
  | 0x207 => (w.unpackMem).map .stb
  | 0x208 => (w.unpackMem).map .bop
  | 0x209 => (w.unpackMem).map .atom
  | 0x20A => (w.unpackMem).map .cas
  | 0x20B => (w.unpackMem).map .red
  | 0x20C => (w.unpackMem).map .fence
  | 0x280 => (w.unpackP).map .kick
  | 0x281 => (w.unpackP).map .barinit
  | 0x282 => (w.unpackP).map .waitb
  | 0x283 => (w.unpackP).map .waitc
  | 0x284 => (w.unpackP).map .sleep
  | 0x285 => (w.unpackP).map .bar
  | 0x286 => (w.unpackP).map .cbar
  | 0x287 => (w.unpackP).map .gbar
  | 0x288 => (w.unpackP).map .join
  | 0x289 => (w.unpackP).map .leave
  | 0x2C0 => (w.unpackP).map .mfmt
  | 0x2C1 => (w.unpackP).map .mlay
  | 0x2C2 => (w.unpackP).map .mma
  | 0x2C3 => (w.unpackP).map .mloop
  | 0x2C4 => (w.unpackP).map .mzero
  | 0x2C5 => (w.unpackP).map .mrd
  | 0x2C6 => (w.unpackP).map .mwr
  | 0x300 => (w.unpackLi).map .want
  | 0x301 => (w.unpackP).map .wantr
  | 0x302 => (w.unpackLi).map .call
  | 0x303 => (w.unpackP).map .callr
  | 0x304 => (w.unpackP).map .ret
  | 0x305 => (w.unpackP).map .exit
  | 0x306 => (w.unpackLi).map .park
  | 0x307 => (w.unpackLi).map .rejoin
  | 0x308 => (w.unpackLi).map .region
  | 0x309 => (w.unpackP).map .pfor
  | 0x30A => (w.unpackP).map .pend
  | 0x340 => (w.unpackSys).map .nop
  | 0x341 => (w.unpackSys).map .csrr
  | 0x342 => (w.unpackSys).map .csrw
  | 0x343 => (w.unpackSys).map .time
  | 0x344 => (w.unpackSys).map .trap
  | 0x345 => (w.unpackSys).map .eret
  | 0x346 => (w.unpackSys).map .brk
  | _ => Option.none

/-- The instruction of a compact op (R97). -/
def compactInstr (op : BitVec 5) (o : CompactOp) : Instr :=
  match op.toNat with
  | 0 => .nopCompact o
  | 1 => .addI32Compact o
  | 2 => .subI32Compact o
  | 3 => .mulI32Compact o
  | 4 => .minI32Compact o
  | 5 => .maxI32Compact o
  | 6 => .andCompact o
  | 7 => .orCompact o
  | 8 => .xorCompact o
  | 9 => .shlN32Compact o
  | 10 => .shrN32Compact o
  | 11 => .sarI32Compact o
  | 12 => .movCompact o
  | 13 => .faddF32Compact o
  | 14 => .fsubF32Compact o
  | 15 => .fmulF32Compact o
  | 16 => .fminF32Compact o
  | 17 => .fmaxF32Compact o
  | 18 => .faddH16x2Compact o
  | 19 => .fmulH16x2Compact o
  | 20 => .lmulLn8x4Compact o
  | 21 => .lmulLn4x8Compact o
  | 22 => .saddCompact o
  | 23 => .ssubCompact o
  | 24 => .sandCompact o
  | 25 => .sorCompact o
  | 26 => .sxorCompact o
  | 27 => .popcCompact o
  | 28 => .clzCompact o
  | 29 => .brevCompact o
  | 30 => .notCompact o
  | _ => .absI32Compact o

/-- The internal word of a native instruction; none for a device step. -/
def Instr.iword : Instr → Option IWord
  | .add o => some (o.pack 0x000)
  | .sub o => some (o.pack 0x001)
  | .mul o => some (o.pack 0x002)
  | .mulhi o => some (o.pack 0x003)
  | .mad o => some (o.pack 0x004)
  | .min o => some (o.pack 0x005)
  | .max o => some (o.pack 0x006)
  | .abs o => some (o.pack 0x007)
  | .and o => some (o.pack 0x008)
  | .or o => some (o.pack 0x009)
  | .xor o => some (o.pack 0x00A)
  | .not o => some (o.pack 0x00B)
  | .shl o => some (o.pack 0x00C)
  | .shr o => some (o.pack 0x00D)
  | .sar o => some (o.pack 0x00E)
  | .fsl o => some (o.pack 0x00F)
  | .fsr o => some (o.pack 0x010)
  | .bfx o => some (o.pack 0x011)
  | .bfi o => some (o.pack 0x012)
  | .popc o => some (o.pack 0x013)
  | .clz o => some (o.pack 0x014)
  | .brev o => some (o.pack 0x015)
  | .cmp o => some (o.pack 0x016)
  | .sel o => some (o.pack 0x017)
  | .lea o => some (o.pack 0x018)
  | .idot o => some (o.pack 0x019)
  | .fadd o => some (o.pack 0x080)
  | .fsub o => some (o.pack 0x081)
  | .fmul o => some (o.pack 0x082)
  | .ffma o => some (o.pack 0x083)
  | .fmin o => some (o.pack 0x084)
  | .fmax o => some (o.pack 0x085)
  | .fcmp o => some (o.pack 0x086)
  | .fcvt o => some (o.pack 0x087)
  | .frcp o => some (o.pack 0x088)
  | .frsq o => some (o.pack 0x089)
  | .fex2 o => some (o.pack 0x08A)
  | .flg2 o => some (o.pack 0x08B)
  | .fsin o => some (o.pack 0x08C)
  | .fcos o => some (o.pack 0x08D)
  | .lmul o => some (o.pack 0x100)
  | .ldiv o => some (o.pack 0x101)
  | .lcvt o => some (o.pack 0x102)
  | .lqnt o => some (o.pack 0x103)
  | .lscl o => some (o.pack 0x104)
  | .ldot o => some (o.pack 0x105)
  | .mov o => some (o.pack 0x140)
  | .rdx o => some (o.pack 0x142)
  | .wrx o => some (o.pack 0x143)
  | .vtos o => some (o.pack 0x144)
  | .stov o => some (o.pack 0x145)
  | .shfl o => some (o.pack 0x146)
  | .redux o => some (o.pack 0x147)
  | .pfx o => some (o.pack 0x148)
  | .matchKeys o => some (o.pack 0x149)
  | .vote o => some (o.pack 0x14A)
  | .nzscan o => some (o.pack 0x14B)
  | .sadd o => some (o.pack 0x180)
  | .ssub o => some (o.pack 0x181)
  | .smul o => some (o.pack 0x182)
  | .sand o => some (o.pack 0x183)
  | .sor o => some (o.pack 0x184)
  | .sxor o => some (o.pack 0x185)
  | .sshl o => some (o.pack 0x186)
  | .sshr o => some (o.pack 0x187)
  | .scmp o => some (o.pack 0x188)
  | .ssel o => some (o.pack 0x189)
  | .slea o => some (o.pack 0x18B)
  | .sld o => some (o.pack 0x18C)
  | .sst o => some (o.pack 0x18D)
  | .ld o => some (o.pack 0x200)
  | .st o => some (o.pack 0x201)
  | .ldv o => some (o.pack 0x202)
  | .stv o => some (o.pack 0x203)
  | .lds o => some (o.pack 0x204)
  | .sts o => some (o.pack 0x205)
  | .ldb o => some (o.pack 0x206)
  | .stb o => some (o.pack 0x207)
  | .bop o => some (o.pack 0x208)
  | .atom o => some (o.pack 0x209)
  | .cas o => some (o.pack 0x20A)
  | .red o => some (o.pack 0x20B)
  | .fence o => some (o.pack 0x20C)
  | .movi o => some (o.pack 0x141)
  | .smovi o => some (o.pack 0x18A)
  | .want o => some (o.pack 0x300)
  | .call o => some (o.pack 0x302)
  | .park o => some (o.pack 0x306)
  | .rejoin o => some (o.pack 0x307)
  | .region o => some (o.pack 0x308)
  | .kick o => some (o.pack 0x280)
  | .barinit o => some (o.pack 0x281)
  | .waitb o => some (o.pack 0x282)
  | .waitc o => some (o.pack 0x283)
  | .sleep o => some (o.pack 0x284)
  | .bar o => some (o.pack 0x285)
  | .cbar o => some (o.pack 0x286)
  | .gbar o => some (o.pack 0x287)
  | .join o => some (o.pack 0x288)
  | .leave o => some (o.pack 0x289)
  | .mfmt o => some (o.pack 0x2C0)
  | .mlay o => some (o.pack 0x2C1)
  | .mma o => some (o.pack 0x2C2)
  | .mloop o => some (o.pack 0x2C3)
  | .mzero o => some (o.pack 0x2C4)
  | .mrd o => some (o.pack 0x2C5)
  | .mwr o => some (o.pack 0x2C6)
  | .wantr o => some (o.pack 0x301)
  | .callr o => some (o.pack 0x303)
  | .ret o => some (o.pack 0x304)
  | .exit o => some (o.pack 0x305)
  | .pfor o => some (o.pack 0x309)
  | .pend o => some (o.pack 0x30A)
  | .nop o => some (o.pack 0x340)
  | .csrr o => some (o.pack 0x341)
  | .csrw o => some (o.pack 0x342)
  | .time o => some (o.pack 0x343)
  | .trap o => some (o.pack 0x344)
  | .eret o => some (o.pack 0x345)
  | .brk o => some (o.pack 0x346)
  | .nopCompact o => some (o.pack 0x340 15)
  | .addI32Compact o => some (o.pack 0x000 0)
  | .subI32Compact o => some (o.pack 0x001 0)
  | .mulI32Compact o => some (o.pack 0x002 0)
  | .minI32Compact o => some (o.pack 0x005 0)
  | .maxI32Compact o => some (o.pack 0x006 0)
  | .andCompact o => some (o.pack 0x008 1)
  | .orCompact o => some (o.pack 0x009 1)
  | .xorCompact o => some (o.pack 0x00A 1)
  | .shlN32Compact o => some (o.pack 0x00C 1)
  | .shrN32Compact o => some (o.pack 0x00D 1)
  | .sarI32Compact o => some (o.pack 0x00E 0)
  | .movCompact o => some (o.pack 0x140 1)
  | .faddF32Compact o => some (o.pack 0x080 8)
  | .fsubF32Compact o => some (o.pack 0x081 8)
  | .fmulF32Compact o => some (o.pack 0x082 8)
  | .fminF32Compact o => some (o.pack 0x084 8)
  | .fmaxF32Compact o => some (o.pack 0x085 8)
  | .faddH16x2Compact o => some (o.pack 0x080 9)
  | .fmulH16x2Compact o => some (o.pack 0x082 9)
  | .lmulLn8x4Compact o => some (o.pack 0x100 12)
  | .lmulLn4x8Compact o => some (o.pack 0x100 13)
  | .saddCompact o => some (o.pack 0x180 14)
  | .ssubCompact o => some (o.pack 0x181 14)
  | .sandCompact o => some (o.pack 0x183 14)
  | .sorCompact o => some (o.pack 0x184 14)
  | .sxorCompact o => some (o.pack 0x185 14)
  | .popcCompact o => some (o.pack 0x013 1)
  | .clzCompact o => some (o.pack 0x014 1)
  | .brevCompact o => some (o.pack 0x015 1)
  | .notCompact o => some (o.pack 0x00B 1)
  | .absI32Compact o => some (o.pack 0x007 0)
  | _ => Option.none

/-- The compact op of a compact instruction (R97). -/
def Instr.compactOp : Instr → Option (BitVec 5 × CompactOp)
  | .nopCompact o => some (0, o)
  | .addI32Compact o => some (1, o)
  | .subI32Compact o => some (2, o)
  | .mulI32Compact o => some (3, o)
  | .minI32Compact o => some (4, o)
  | .maxI32Compact o => some (5, o)
  | .andCompact o => some (6, o)
  | .orCompact o => some (7, o)
  | .xorCompact o => some (8, o)
  | .shlN32Compact o => some (9, o)
  | .shrN32Compact o => some (10, o)
  | .sarI32Compact o => some (11, o)
  | .movCompact o => some (12, o)
  | .faddF32Compact o => some (13, o)
  | .fsubF32Compact o => some (14, o)
  | .fmulF32Compact o => some (15, o)
  | .fminF32Compact o => some (16, o)
  | .fmaxF32Compact o => some (17, o)
  | .faddH16x2Compact o => some (18, o)
  | .fmulH16x2Compact o => some (19, o)
  | .lmulLn8x4Compact o => some (20, o)
  | .lmulLn4x8Compact o => some (21, o)
  | .saddCompact o => some (22, o)
  | .ssubCompact o => some (23, o)
  | .sandCompact o => some (24, o)
  | .sorCompact o => some (25, o)
  | .sxorCompact o => some (26, o)
  | .popcCompact o => some (27, o)
  | .clzCompact o => some (28, o)
  | .brevCompact o => some (29, o)
  | .notCompact o => some (30, o)
  | .absI32Compact o => some (31, o)
  | _ => Option.none

/-! ### Bytes (R84) -/

/-- The big-endian value of a byte list (R84, R11). -/
def beNat (bs : List Byte) : Nat := bs.foldl (fun n b => n * 256 + b.toNat) 0

/-- The first n bytes as a big-endian integer, if there are n. -/
def takeBe (n : Nat) (bs : List Byte) : Option Nat :=
  if (bs.take n).length = n then some (beNat (bs.take n)) else Option.none

/-- An integer of 8n bits as n bytes, first byte most significant. -/
def toBe (n : Nat) (w : Nat) : List Byte :=
  (List.range n).map fun i => BitVec.ofNat 8 (w / 256 ^ (n - 1 - i))

/-- Why bytes are no instruction: too few of them, a malformed encoding (R102), or a well-formed word that
breaks the rules of R103, with its length in bytes. -/
inductive DecodeError where
  | truncated
  | prefixReserved
  | trailerOpcode
  | illegal (len : Nat)
deriving DecidableEq, Repr

def wordSix (x : BitVec 48) : IWord :=
  { form := .six, opcode := x.extractLsb' 36 10, guard := 0, stall := x.extractLsb' 32 4, last := x.getLsbD 31,
    ty := x.extractLsb' 27 4, dst := x.extractLsb' 18 9, a := x.extractLsb' 9 9, b := x.extractLsb' 0 9, low := 0 }

def wordEight (x : BitVec 64) : IWord :=
  { form := .eight, opcode := x.extractLsb' 51 10, guard := x.extractLsb' 45 6, stall := x.extractLsb' 41 4,
    last := x.getLsbD 40, ty := x.extractLsb' 36 4, dst := x.extractLsb' 27 9, a := x.extractLsb' 18 9,
    b := x.extractLsb' 9 9, low := x.extractLsb' 0 9 ++ 0#31 }

def wordTwelve (x : BitVec 96) : IWord :=
  { form := .twelve, opcode := x.extractLsb' 82 10, guard := x.extractLsb' 76 6, stall := x.extractLsb' 72 4,
    last := x.getLsbD 71, ty := x.extractLsb' 67 4, dst := x.extractLsb' 58 9, a := x.extractLsb' 49 9,
    b := x.extractLsb' 40 9, low := x.extractLsb' 0 40 }

/-- The instruction a word stands for, if it is legal as encoded (R103). -/
def IWord.instr (w : IWord) (len : Nat) : Except DecodeError (Instr × Nat) :=
  if w.opcode == 0x3FF then .error .trailerOpcode
  else match w.candidate with
    | some i => if i.wf then .ok (i, len) else .error (.illegal len)
    | Option.none => .error (.illegal len)

def compactOfWord (x : BitVec 32) : BitVec 5 × CompactOp :=
  (x.extractLsb' 26 5, { stall := x.extractLsb' 24 2, d := x.extractLsb' 16 8, a := x.extractLsb' 8 8, b := x.extractLsb' 0 8 })

/-- The instruction at the head of a byte list, with its length in bytes (R84 to R103). -/
def decode (bs : List Byte) : Except DecodeError (Instr × Nat) :=
  match bs with
  | [] => .error .truncated
  | b0 :: _ =>
    if b0.toNat < 0x80 then
      match takeBe 4 bs with
      | some n =>
        let x := compactOfWord (BitVec.ofNat 32 n)
        let i := compactInstr x.1 x.2
        if i.wf then .ok (i, 4) else .error (.illegal 4)
      | Option.none => .error .truncated
    else if b0.toNat < 0xC0 then
      match takeBe 6 bs with
      | some n => (wordSix (BitVec.ofNat 48 n)).instr 6
      | Option.none => .error .truncated
    else if b0.toNat < 0xE0 then
      match takeBe 8 bs with
      | some n => (wordEight (BitVec.ofNat 64 n)).instr 8
      | Option.none => .error .truncated
    else if b0.toNat < 0xF0 then
      match takeBe 12 bs with
      | some n => (wordTwelve (BitVec.ofNat 96 n)).instr 12
      | Option.none => .error .truncated
    else .error .prefixReserved

/-- The internal word of the bytes at the head of a list, whatever they stand for (R86); none for the malformed prefix. -/
def wordAt (bs : List Byte) : Option IWord :=
  let n := ((bs.head?.map (·.toNat)).getD 0xF0)
  if n < 0x80 then (takeBe 4 bs).bind fun n => let x := compactOfWord (BitVec.ofNat 32 n); (compactInstr x.1 x.2).iword
  else if n < 0xC0 then (takeBe 6 bs).map fun n => wordSix (BitVec.ofNat 48 n)
  else if n < 0xE0 then (takeBe 8 bs).map fun n => wordEight (BitVec.ofNat 64 n)
  else if n < 0xF0 then (takeBe 12 bs).map fun n => wordTwelve (BitVec.ofNat 96 n)
  else Option.none

/-- The length in bytes that a first byte announces (R84); 0 for the malformed prefix. -/
def lengthOf (b0 : Byte) : Nat :=
  if b0.toNat < 0x80 then 4 else if b0.toNat < 0xC0 then 6 else if b0.toNat < 0xE0 then 8
  else if b0.toNat < 0xF0 then 12 else 0

/-! ### The encoder -/

def compactWord (op : BitVec 5) (o : CompactOp) : BitVec 32 := 0#1 ++ op ++ o.stall ++ o.d ++ o.a ++ o.b

def IWord.six (w : IWord) : BitVec 48 :=
  0b10#2 ++ w.opcode ++ w.stall ++ BitVec.ofBool w.last ++ w.ty ++ w.dst ++ w.a ++ w.b

def IWord.eight (w : IWord) : BitVec 64 :=
  0b110#3 ++ w.opcode ++ w.guard ++ w.stall ++ BitVec.ofBool w.last ++ w.ty ++ w.dst ++ w.a ++ w.b ++ w.c

def IWord.twelve (w : IWord) : BitVec 96 :=
  0b1110#4 ++ w.opcode ++ w.guard ++ w.stall ++ BitVec.ofBool w.last ++ w.ty ++ w.dst ++ w.a ++ w.b ++ w.low

/-- The bytes of a native instruction (R84, R113); none for a device step. -/
def encode (i : Instr) : Option (List Byte) :=
  match i.compactOp with
  | some (op, o) => some (toBe 4 (compactWord op o).toNat)
  | Option.none =>
    i.iword.map fun w =>
      match w.form with
      | .compact => []
      | .six => toBe 6 w.six.toNat
      | .eight => toBe 8 w.eight.toNat
      | .twelve => toBe 12 w.twelve.toNat

/-! ### The trailer (R100) -/

/-- A course's trailer: its awaited registers (uniform flag and number), CHK and SIG. -/
structure Trailer where
  awaited : List (Bool × BitVec 9)
  chk : Bool
  sig : W16
deriving DecidableEq, Repr, Inhabited

/-- The awaited registers fill AW0 upwards; a field at or above NAW and its UNI bit must be zero (R100), and so must SIG without CHK
(R101); a trailer in which it is not is malformed (R102). DEDUCED (assumption 108). -/
def trailerOfWord (x : BitVec 96) : Option Trailer :=
  let n := (x.extractLsb' 67 4).toNat
  let uni (j : Nat) : Bool := x.getLsbD (76 + j)
  let aw (j : Nat) : BitVec 9 := x.extractLsb' (58 - 9 * j) 9
  if x.extractLsb' 92 4 == 0b1110 && x.extractLsb' 82 10 == 0x3FF && x.extractLsb' 80 2 == 0 &&
     x.extractLsb' 71 5 == 0 && decide (n ≤ 4) && x.extractLsb' 17 14 == 0 &&
     ((List.range 4).all fun j => decide (j < n) || (!uni j && aw j == 0)) &&
     (x.getLsbD 16 || x.extractLsb' 0 16 == 0)
  then some { awaited := (List.range n).map fun j => (uni j, aw j), chk := x.getLsbD 16, sig := x.extractLsb' 0 16 }
  else Option.none

/-- Whether a word is a trailer word at all, well formed or not (R102). -/
def isTrailerWord (x : BitVec 96) : Bool := x.extractLsb' 92 4 == 0b1110 && x.extractLsb' 82 10 == 0x3FF

/-- The trailer at the head of a byte list. -/
def decodeTrailer (bs : List Byte) : Option Trailer :=
  match takeBe 12 bs with
  | some n => trailerOfWord (BitVec.ofNat 96 n)
  | Option.none => Option.none

/-- The instruction that the decoder reads from a table word of `nbits` bits. A Trefold instruction is one
big-endian integer (R84); every byte beyond the given bits is zero. -/
def tableBytes (nbits w : Nat) : List Byte := toBe (nbits / 8) w ++ List.replicate 12 0

def decodeTableWord (nbits w : Nat) : Option Instr :=
  match decode (tableBytes nbits w) with
  | .ok (i, _) => some i
  | .error _ => Option.none

end Sys2Proof
end

