-- ==== Sys2Proof/Machine/Sparse.lean ====
section
/-!
DEFINITION. Sparse words by key in one canonical form, little-endian accesses to memory (R11), and keyed
tables. These are the named operations over memory and register files.
-/
namespace Sys2Proof

/-- The canonical form: keys strictly rising, no listed word zero. DESIGN CHOICE (assumption 2). -/
def Sparse.wf {w : Nat} : Sparse w → Bool
  | [] => true
  | [(_, x)] => x != 0
  | (a, x) :: (b, y) :: r => x != 0 && decide (a < b) && Sparse.wf ((b, y) :: r)

/-- Memory in its canonical form. -/
abbrev Memory.wf (m : Memory) : Bool := Sparse.wf m

/-- A word; an unlisted key reads zero. -/
def Sparse.get {w : Nat} : Sparse w → Nat → BitVec w
  | [], _ => 0
  | (a, x) :: r, k => if a = k then x else Sparse.get r k

/-- Writes a word; writing zero removes the entry. -/
def Sparse.set {w : Nat} : Sparse w → Nat → BitVec w → Sparse w
  | [], k, v => if v = 0 then [] else [(k, v)]
  | (a, x) :: r, k, v =>
    if a < k then (a, x) :: Sparse.set r k v
    else if a = k then (if v = 0 then r else (k, v) :: r)
    else if v = 0 then (a, x) :: r else (k, v) :: (a, x) :: r

/-- Clears the keys from lo to hi − 1. -/
def Sparse.clear {w : Nat} (m : Sparse w) (lo hi : Nat) : Sparse w :=
  m.filter fun e => !(lo ≤ e.1 && e.1 < hi)

/-- Replaces the keys from lo to hi − 1 by the words of a list, in ascending keys from lo. -/
def Sparse.block {w : Nat} (m : Sparse w) (lo hi : Nat) (vals : List (BitVec w)) : Sparse w :=
  (m.filter fun e => e.1 < lo) ++ ((vals.zipIdx lo).filterMap fun p => if p.1 = 0 then none else some (p.2, p.1)) ++
    (m.filter fun e => hi ≤ e.1)

/-- The n bytes at address a, as a natural number, the lowest address least significant (R11). -/
def Memory.readNat (m : Memory) (a : Nat) : Nat → Nat
  | 0 => 0
  | n + 1 => (m.get a).toNat + 256 * Memory.readNat m (a + 1) n

/-- The n bytes at address a in ascending order. -/
def Memory.readBytes (m : Memory) (a : Nat) : Nat → List Byte
  | 0 => []
  | n + 1 => m.get a :: Memory.readBytes m (a + 1) n

def Memory.writeBytes (m : Memory) (a : Nat) : List Byte → Memory
  | [] => m
  | b :: r => Memory.writeBytes (Sparse.set m a b) (a + 1) r

/-- Copies the n bytes at `src` of one memory to `dst` of another. -/
def Memory.copyBlock (m : Memory) (dst : Nat) (from_ : Memory) (src n : Nat) : Memory :=
  (m.filter fun e => e.1 < dst) ++ ((from_.filter fun e => src ≤ e.1 && e.1 < src + n).map fun e => (e.1 - src + dst, e.2)) ++
    (m.filter fun e => dst + n ≤ e.1)

/-- The n little-endian bytes of a natural number. -/
def bytesOf (x : Nat) : Nat → List Byte
  | 0 => []
  | n + 1 => BitVec.ofNat 8 (x % 256) :: bytesOf (x / 256) n

def natOfBytes : List Byte → Nat
  | [] => 0
  | b :: r => b.toNat + 256 * natOfBytes r

def Memory.writeNat (m : Memory) (a x n : Nat) : Memory := m.writeBytes a (bytesOf x n)

/-- Keyed tables: the entry of a key, if any. -/
def tfind {α : Type} : List (Nat × α) → Nat → Option α
  | [], _ => none
  | (a, x) :: r, k => if a = k then some x else tfind r k

/-- Puts the entry of a key, keys rising. -/
def tput {α : Type} : List (Nat × α) → Nat → α → List (Nat × α)
  | [], k, v => [(k, v)]
  | (a, x) :: r, k, v =>
    if a < k then (a, x) :: tput r k v
    else if a = k then (k, v) :: r
    else (k, v) :: (a, x) :: r

def tdel {α : Type} (t : List (Nat × α)) (k : Nat) : List (Nat × α) := t.filter fun e => e.1 != k

def tget {α : Type} (t : List (Nat × α)) (k : Nat) (d : α) : α := (tfind t k).getD d

/-- Changes the entry of a key, if it has one. -/
def tmod {α : Type} (t : List (Nat × α)) (k : Nat) (f : α → α) : List (Nat × α) :=
  match tfind t k with
  | some x => tput t k (f x)
  | none => t

/-- Bit tests and lane masks (R12, R209). -/
def maskOf (ls : List Nat) : LaneMask := ls.foldl (fun m t => m ||| (1#32 <<< t)) 0

def lanesOf (m : LaneMask) : List Nat := lanes.filter fun t => m.getLsbD t

/-- The lowest lane of a mask (R53). -/
def lowest (m : LaneMask) : Option Nat := (lanesOf m).head?

def allLanes : LaneMask := 0xFFFFFFFF

end Sys2Proof
end

