-- ==== Sys2Proof/Machine/State.lean ====
section
/-!
DEFINITION. The state of the device as plain data: groups, teams, launches, queues, contexts, memories,
islands, links, control registers and the management controller; the fault and refusal names; reset.
-/
namespace Sys2Proof.Machine

/-- Why a run stops with a fault: for no reason. Every trap of R209 is taken as a next state and a killed context is a
next state too (R213), so no step stops with a fault. -/
inductive Fault
deriving DecidableEq, Repr

/-- Why an instruction has no meaning. -/
inductive Refusal where
  /-- Raised by a Dispatch arm whose instruction has no meaning yet. Safe: the model stops. -/
  | notModelled (mnemonic : String)
deriving DecidableEq, Repr

/-- Where an access is performed (R117, R120, R128 to R130). DESIGN CHOICE (assumption 16). -/
inductive Place where
  | hbm
  | host
  | peer (dev : Nat)
  | peerScratch (dev : Nat)
  | scratch (team : Nat)
  | bank
deriving DecidableEq, Repr, Inhabited

/-- The classes of outstanding operations (R145). -/
inductive OpClass where
  | matrix | hod | bank | remote
deriving DecidableEq, Repr, Inhabited

/-- The wait record of a parked lane (R37, R47, R48, R50). -/
inductive WaitRec where
  /-- `.ne`: address, value, the `park`, the tick of the next read (none: at the next census), whether the last
  read differed, and the slot of the fault record on whose replay a read waits. -/
  | ne (va : W64) (value : W32) (iaddr : W32) (due : Option W64) (holds : Bool) (faulted : Option Nat)
  | bar (offset : Nat)
  | time (target : W64)
  | rejoin (addr : W32) (mask : LaneMask)
deriving DecidableEq, Repr, Inhabited

/-- One write of a result (R57, R62). -/
inductive RegWrite where
  | lane (k : Bool) (reg lane : Nat) (val : W32)
  | uni (reg : Nat) (val : W64)
  | pred (reg : Nat) (mask val : LaneMask)
  | upred (reg : Nat) (val : Bool)
  | csr (num : Nat) (val : W64)
  | lk (lane : Nat) (val : W32)
deriving DecidableEq, Repr, Inhabited

/-- A fixed-latency result that has not landed (R107), and the flags that land with it (R65). -/
structure Pend where
  land : Nat
  csr : Bool
  writer : W32
  writes : List RegWrite
  ff : W32
  lf : W32
  window : Nat × Nat := (0, 0)     -- first register and count of a `wrx` window, counted as written (R61)
deriving DecidableEq, Repr, Inhabited

/-- A register named in a trailer (R29, R100). -/
structure AwName where
  uni : Bool
  reg : Nat
  count : Nat            -- registers the name covers: 1, 2 for a pair, 4, 8 or 16 for a window
  k : Bool               -- a course temporary: pending, though no trailer can name it
deriving DecidableEq, Repr, Inhabited

/-- One lane's translated access. -/
structure Access where
  lane : Nat
  place : Place
  addr : Nat
  va : W64
  operand : W64
  operand2 : W64
deriving DecidableEq, Repr, Inhabited

/-- What a variable-latency result waits for (R28, R29). -/
inductive Request where
  | load (vol : Bool) (acq : Option Scope) (size : Nat) (sext : Bool) (accs : List Access) (k : Bool) (dst : Nat)
  | sload (size : Nat) (sext : Bool) (acc : Access) (dst : Nat)
  | atom (op : BitVec 4) (ty : ETy) (size : Nat) (scope : Scope) (ord : Ord) (accs : List Access) (k : Bool) (dst : Nat)
  | cas (size : Nat) (scope : Scope) (ord : Ord) (accs : List Access) (k : Bool) (dst : Nat)
  | red (op : BitVec 4) (ty : ETy) (size : Nat) (scope : Scope) (ord : Ord) (accs : List Access)
  | sampled
  | engine                         -- `mrd`: the engine returns the band
  | windows                        -- `mloop`: its windows, until it retires (R160)
deriving DecidableEq, Repr, Inhabited

/-- Which course temporaries an awaited value goes to (R30, R206, R211): those in use, those of the stopped course while
its handler runs, or none any more, since that course was abandoned. DEDUCED (assumption 68). -/
inductive KHome where
  | here | stopped | lost
deriving DecidableEq, Repr, Inhabited

structure Await where
  seq : Nat
  iaddr : W32
  names : List AwName
  req : Request
  val : Option (List RegWrite)     -- the performed value, not yet arrived
  lf : W32
  home : KHome := .here
  marks : List (Nat × Nat) := []   -- registers and lanes that a band of `mrd` fills from poisoned elements (R235)
deriving DecidableEq, Repr, Inhabited

/-- One byte of a store. -/
structure StByte where
  place : Place
  addr : Nat
  val : Byte
deriving DecidableEq, Repr, Inhabited

/-- A store in its group's queue (R134), or one that has left it and not reached its home (R136). -/
structure StEntry where
  gid : Gid
  seq : Nat
  vol : Bool
  rel : Option Scope
  bytes : List StByte
deriving DecidableEq, Repr, Inhabited

/-- An outstanding operation (R145). -/
structure OpRec where
  cls : OpClass
  seq : Nat
  finished : Bool
  region : Nat                     -- the region sequence number at issue (R234)
  puts : List W64                  -- the virtual addresses of its puts (R130)
deriving DecidableEq, Repr, Inhabited

/-- A course visit (R25 to R31, R40). -/
structure Visit where
  start : W32
  pos : W32
  count : Nat
  slot : Nat
  active : LaneMask
  wanted : LaneMask
  lastVec : Option Nat             -- the slot a uniform partner may share (R31)
  ended : Bool                     -- the end-flagged instruction has issued
  lastPc : W32                     -- the last instruction issued (R223)
  region : Nat                     -- the region sequence number at the course's first instruction (R234)
  raised : Option (Nat × W64) := none   -- cause and value of a `brk` or `trap` that ended it, taken at its trailer (R210)
deriving DecidableEq, Repr, Inhabited

/-- The trap shadow and what `eret` needs (R206, R211). -/
structure Shadow where
  wl : Sparse 32
  lk : Sparse 32
  parked : LaneMask
  ended : LaneMask                 -- the done flags
  waits : List (Nat × WaitRec)
  cursor : W32
  sweeps : W32
  sigacc : W16
  k : Sparse 32
  visit : Option Visit
  epc : W32
  pos : Nat
  cause : Nat
  lastTrailer : W32                -- the trailer and anchor of the course that ended before the trap (R231)
  lastAnchor : Option Nat
deriving DecidableEq, Repr, Inhabited

inductive StopKind where
  | bar | cbar | gbar
  | waitc (cls : OpClass) (n : Nat)
deriving DecidableEq, Repr, Inhabited

inductive Status where
  | ready                          -- waits for its pipe's issue turn
  | running                        -- holds its pipe's issue turn
  | stopped (k : StopKind)         -- R25
  | asleep                         -- R41
  | napping                        -- `sleep` (R363)
  | faulted (slot : Option Nat)    -- parked on a translation fault (R125); none: the ring was full
  | emulating                      -- parked on a format fault handed to the firmware (R171)
  | rolling                        -- a rollback that waits for its operations (R234)
  | retired
deriving DecidableEq, Repr, Inhabited

/-- A matrix operation or tile access in the engine's order (R158 to R161). -/
inductive EngineOp where
  /-- seq of its OpRec, the instruction, tile, format record, layout slots (word 0, word 1, window), next step, step
  count; for `mma` the captured fragments and scales, empty for `mloop`; the region sequence number at issue (R234). -/
  | steps (gid : Gid) (seq : Nat) (iaddr : W32) (tile : Nat) (fmt : W64) (la lb : W64 × W64 × Nat)
      (next total : Nat) (one : Bool) (fa fb : List W32) (sa sb : List W16) (region : Nat)
  | zero (tile : Nat)
  | write (tile band : Nat) (vals : List W32)
  | read (gid : Gid) (seq : Nat) (tile band : Nat) (ln : Bool) (dst : Nat)
deriving DecidableEq, Repr, Inhabited

/-- A hod request: its record and the rows not yet written (R175, R176, R181). -/
structure HodReq where
  record : BitVec 256
  rows : List Nat
  fault : Option Nat
  dests : List Nat                 -- destination teams, by team number
deriving DecidableEq, Repr, Inhabited

structure Kick where
  gid : Gid
  seq : Nat
  iaddr : W32
  reqs : List HodReq
  promise : W64
deriving DecidableEq, Repr, Inhabited

/-- A bank operation waiting at the bank units (R188). -/
structure BankOp where
  gid : Gid
  seq : Nat
  op : Nat
  ty : ETy
  dst : Nat
  src : Nat
  n : Nat
  scalar : W32
deriving DecidableEq, Repr, Inhabited

/-- A group: its architectural registers and its hidden state (R37, R57, R62, R206 to R225, R232). -/
structure Group where
  team : Nat := 0
  ctx : Nat := 0
  groupix : Nat := 0
  nreg : Nat := 16
  status : Status := .ready
  v : Sparse 32 := []              -- register * 32 + lane
  k : Sparse 32 := []
  p : Sparse 32 := []              -- a lane mask per predicate
  s : Sparse 64 := []
  q : BitVec 8 := 0
  wl : Sparse 32 := []
  lk : Sparse 32 := []
  parked : LaneMask := 0
  ended : LaneMask := 0            -- the done flags
  waits : List (Nat × WaitRec) := []
  cursor : W32 := 0
  sweeps : W32 := 0
  fflags : W32 := 0
  lflags : W32 := 0
  fmode : W32 := 0
  conflicts : W32 := 0
  sigacc : W16 := 0
  regionl : W32 := 0
  regionlSeen : W32 := 0           -- REGIONL as `csrr` reads it: `region` changes it two slots later (R28, R107)
  entrylk : Sparse 32 := []
  entrydone : LaneMask := 0
  rollbacks : Nat := 0
  regionSeq : Nat := 0
  trapcause : W32 := 0
  trapaddr : W64 := 0
  traplanes : W32 := 0
  trapval : W64 := 0
  epc : W32 := 0
  stepctl : W32 := 0
  bpaddr : W32 := 0
  watcha : W32 := 0
  watchm : W32 := 0
  dbgmbox : W64 := 0
  shadow : Option Shadow := none
  suppress : Option W32 := none    -- the watchpoint match at this offset is suppressed (R211)
  visit : Option Visit := none
  lastTrailer : W32 := 0           -- the trailer of the course that has just ended (R231)
  lastAnchor : Option Nat := none  -- the region sequence number at its first instruction (R234)
  pend : List Pend := []
  await : List Await := []
  stq : List StEntry := []
  ops : List OpRec := []
  seq : Nat := 0                   -- memory operations issued, in program order
  mfmt : W64 := 0
  mlay : List (W64 × W64 × Nat) := [(0, 0, 0), (0, 0, 0), (0, 0, 0), (0, 0, 0)]
  wake : W64 := 0
  redSeq : Nat := 0
  pendingTrap : Option (Nat × W32 × W64 × Nat) := none   -- cause, anchor, value, region sequence (R170, R235)
  putErr : Option W64 := none
  faultWord : BitVec 256 := 0      -- the fault record that waits for a slot of a full ring (R125)
  stepDue : Bool := false          -- the single step of an instruction that stopped the group (R223, R294)
deriving DecidableEq, Repr, Inhabited

inductive Residence where
  | resident | saving | saved
deriving DecidableEq, Repr, Inhabited

/-- Where the save area of a team lies in HBM (R221): its base, its size, and its scratch image. -/
structure SaveArea where
  base : Nat
  size : Nat
  scratchAt : Nat
deriving DecidableEq, Repr, Inhabited

structure Team where
  launch : Nat := 0
  ctx : Nat := 0
  teamix : Nat := 0
  core : Nat := 0
  groups : Nat := 1
  nreg : Nat := 16
  scratchSize : Nat := 0
  heavy : Nat := 1
  vcore : Nat := 0
  clusterix : Nat := 0
  teamincl : Nat := 0
  member : Bool := false
  residence : Residence := .resident
  slots : List (Nat × Gid) := []           -- GROUPIX and resident slot
  saved : List (Nat × Group) := []         -- the save image of its groups (R221)
  oldSlots : List (Nat × Gid) := []        -- GROUPIX and slot at the save, which a saved team keeps (R217)
  area : Option SaveArea := none           -- its save area while it is saved (R221)
  savedMarks : List ProtWord := []         -- poison marks of the saved registers, by GROUPIX
  scratch : Memory := []
  tiles : Sparse 32 := []                  -- tile * 4096 + row * 64 + column
  engine : List EngineOp := []
  hod : List Kick := []
  bank : List BankOp := []
  barArr : List Nat := []                  -- groups arrived at `bar`
  cbarArr : List Nat := []                 -- groups arrived at `cbar`
deriving DecidableEq, Repr, Inhabited

/-- A reduction-buffer entry (R202). -/
structure RedEntry where
  core : Nat
  spilled : Bool
  place : Place
  addr : Nat
  size : Nat
  ty : ETy
  op : BitVec 4
  operand : W64
  vcore : Nat
  teamix : Nat
  groupix : Nat
  lane : Nat
  seq : Nat
  age : Nat                        -- entries of a buffer spill oldest first
deriving DecidableEq, Repr, Inhabited

inductive LaunchState where
  | placing | running | complete | reset
deriving DecidableEq, Repr, Inhabited

structure Launch where
  ctx : Nat := 0
  queue : Nat := 0
  obj : Nat := 0
  entry : W32 := 0                         -- heap offset of the entry course
  groups : Nat := 1
  nreg : Nat := 16
  scratch : Nat := 0
  heavy : Nat := 1
  det : Nat := 0
  check : Bool := false
  coop : Bool := false
  prio : Nat := 0
  grid : Nat := 1
  clw : Nat := 1
  clh : Nat := 1
  args : W64 := 0
  sigev : Option Nat := none
  bound : List Nat := []                   -- translations bound (R265)
  nextTeam : Nat := 0
  freed : Nat := 0
  phase : LaunchState := .placing
  origins : List (Nat × Nat) := []         -- cluster index and origin core
  red : List RedEntry := []
  gbarArr : List Nat := []                 -- team * 32 + GROUPIX of the groups arrived at `gbar`
  debug : W64 := 0
deriving DecidableEq, Repr, Inhabited

structure Queue where
  ctx : Option Nat := none
  prio : Nat := 0
  packets : List (BitVec 512) := []
  level : Nat := 0
  reason : Nat := 0
  debug : W64 := 0
deriving DecidableEq, Repr, Inhabited

/-- The error report of a killed or reset context (R213). -/
structure ErrorReport where
  cause : Nat
  addr : W32
  val : W64
  core : Nat
  slot : Nat
deriving DecidableEq, Repr, Inhabited

/-- A put whose bytes the bounce ring in HBM holds (R219), from a 256-byte flit of the ring on. DESIGN CHOICE
(assumption 39). -/
structure Put where
  team : Nat
  offset : Nat
  flit : Nat
  length : Nat
deriving DecidableEq, Repr, Inhabited

/-- What a control program's handle names (R256, calls 15 and 16). -/
inductive Handle where
  | peer (dev : Nat)
  | storage (entry : List Byte)    -- the entry of the storage list as it was opened (R284)
deriving DecidableEq, Repr, Inhabited

/-- A memory allocation or mapping of a context (R256). -/
structure Alloc where
  kind : Nat       -- 0 HBM, 1 host, 2 bank grant, 3 host mapping, 4 peer mapping, 5 storage, 6 mailboxes
  va : Nat
  size : Nat
  phys : Nat
  handle : Nat     -- the peer, the namespace or the queue
  offset : Nat
  writable : Bool
deriving DecidableEq, Repr, Inhabited

structure Ctx where
  live : Bool := false
  events : List Nat := []
  error : Option ErrorReport := none
  regs : Sparse 64 := []                   -- a0 to a7 of the control program, by offset 0 to 7, while no hart runs it
  handles : List Handle := []
  image : List Byte := []
  mem : Memory := []                       -- the control program's memory, by its addresses
  allocs : List Alloc := []
  bounce : List Put := []                  -- the puts that the ring holds, in arrival order
  bounceNext : Nat := 0                    -- the ring's next flit
  waiting : Option (Nat × Option W64) := none   -- event_wait in progress: event and deadline
  preempted : Bool := false                -- its queues start nothing (R214)
  restoring : Bool := false                -- its saved teams are being placed (R220)
  running : Bool := false                  -- its control program is running
deriving DecidableEq, Repr, Inhabited

/-- A loaded translation of an object (R259 to R266, R272). -/
structure Translation where
  id : Nat
  ctx : Nat
  heapoff : Nat
  codeSize : Nat
  size : Nat
  starts : List Nat                        -- object offsets of course starts
  kernels : List (BitVec 256)              -- R261, with the entry translated
  rawEntries : List Nat                    -- the entries as the packet names them
  symbols : List (List Byte × Nat)
  name : List Byte
  deps : List Nat                          -- heap offsets of translations patched to
  digest : BitVec 256
  requires : BitVec 8
  bound : Nat
  superseded : Bool
  unloaded : Bool
  freed : Bool
  regions : List (Nat × Nat) := []         -- Galbel regions: where a translation begins, and its count's register (R268)
deriving DecidableEq, Repr, Inhabited

/-- The fault-buffer records in use and who waits on each (R125, R181, R48). -/
inductive FaultOwner where
  | group (g : Gid)
  | park (g : Gid) (lanes : LaneMask)
  | hod (team : Nat) (g : Gid) (kick request : Nat)
  | stale
deriving DecidableEq, Repr, Inhabited

/-- A cached L1 line: the first address / 128 (R120). -/
structure Line where
  place : Place
  line : Nat
  bytes : List Byte
deriving DecidableEq, Repr, Inhabited

/-- A line of HBM that its home L2 holds (R120): the first address / 128, and whether it is still to be written back.
The field `hbm` of the state holds each byte's value at its point of coherence. DEDUCED (assumption 75). -/
structure L2Line where
  line : Nat
  dirty : Bool
deriving DecidableEq, Repr, Inhabited

structure Core where
  l1 : List Line := []
  flight : List StEntry := []
  chkcmp : W64 := 0
  chkskip : W64 := 0
  engineTeam : Nat := 0                    -- the team after which the matrix engine looks for its next step (R173)
  rr : List Nat := [0, 0]                  -- the next slot of the round-robin on each pipe
  due : List (List Nat) := [[], []]        -- slots that were ready at the start of the round
  served : List (List Nat) := [[], []]     -- slots served in the round
deriving DecidableEq, Repr, Inhabited

structure Island where
  cycle : W64 := 0
  droopth : W32 := 0x04000
  droopcnt : W32 := 0
  capState : Nat := 0                      -- 0 free, 1 stretching, 2 capped
  capLeft : Nat := 0
  window : List Nat := []                  -- lane operations of the last 16 cycles, newest first
  alarms : List Nat := []                  -- cycles until each pending alarm
  ratio : Nat := 0
  stepIdx : Nat := 0
  settling : Nat := 0                      -- ticks until the converter settles
  phase : Nat := 0
  temp : W16 := 0
  started : List Nat := []                 -- pipes (core * 2 + pipe) that started in the last cycle
  tick : W64 := 0                          -- TIMEREF up to which the island has been run
deriving DecidableEq, Repr, Inhabited

/-- A Quoin port (0 to 17) or die-to-die link (18 to 25): R131, R236. -/
structure Link where
  injcfg : W64 := 0
  injmask : W64 := 0
  armed : Bool := false
  flits : Nat := 0                         -- flits since arming, or since the last injection
  due : Nat := 0                           -- injections that are to act
  lateUntil : W64 := 0                     -- when a share that the injector delayed arrives (R236)
  reserve : Nat := 0                       -- occupied flits of the receive reserve
  pausing : Bool := false                  -- a pause flit has been sent
  paused : Bool := false                   -- a pause flit has been received
  stopIn : Nat := 0                        -- flits that may still be started after a pause,
  stopAt : W64 := 0                        -- and the tick from which none is
  injected : Nat := 0
  retransmits : Nat := 0
deriving DecidableEq, Repr, Inhabited

/-- The TLBs: one of 64 entries on each core, and one of 8,192 entries on each die (R123). -/
inductive TlbAt where
  | core (c : Nat)
  | die (d : Nat)
deriving DecidableEq, Repr, Inhabited

/-- A cached translation (R123, R252). -/
structure TlbEntry where
  place : TlbAt
  ctx : Nat
  vpn : Nat
  pages : Nat                              -- 64 KiB pages the leaf covers
  leaf : W64
deriving DecidableEq, Repr, Inhabited

/-- A command of the storage service (R283). -/
inductive NvmeCmd where
  | connect (qid depth : Nat)
  | propertyGet (offset : Nat)
  | propertySet (offset value : Nat)
  | identify (cns nsid : Nat)
  | keepAlive
  | getLogPage (page : Nat)
  | read (block count : Nat)
  | write (block count : Nat) (data : List Byte)
  | flush
deriving DecidableEq, Repr, Inhabited

/-- A controller of a storage subsystem that Vilaz is connected to (R283, R284). -/
structure Conn where
  nsid : Nat
  queues : Nat                             -- I/O queues, 1 to 8
  depth : Nat                              -- of each I/O queue, at most 128
  block : Nat                              -- bytes of a logical block, 512 or 4,096
  headerDigest : Bool
  dataDigest : Bool
deriving DecidableEq, Repr, Inhabited

/-- What the device sends to the outside: management messages, console bytes, flits and puts. DESIGN CHOICE (assumption 62). -/
inductive OutMsg where
  | mgmt (dst : Endpoint) (op : Byte) (err dup : Bool) (seq : W32) (stamp : W64) (body : List Byte) (sig : List Byte)
  | imageRefused (error : W64)
  | stream (ctx num : Nat) (bytes : List Byte)
  | pause (port : Nat)
  | resume (port : Nat)
  | put (dev addr : Nat) (data : List Byte)
  | ack (port : Nat)
  | putError (port : Nat)
  | data (port : Nat) (bytes : List Byte)
  | nvme (space qid : Nat) (cmd : NvmeCmd)
  | frame (vilaz mgmt : Bool)
  | hostData (bytes : List Byte)
  | msix (vector : Nat) (addr : W64) (data : W32)
deriving DecidableEq, Repr, Inhabited

/-- The IP addresses of an owner of the Ethernet port (R279): those taken by DHCP, DHCPv6 or stateless autoconfiguration, and
static values in flash. -/
structure NetAddrs where
  taken : List (List Byte) := []
  fixed : List (List Byte) := []
deriving DecidableEq, Repr, Inhabited

/-- The management controller and the on-module flash (R237, R238, R246, R278 to R284). -/
structure Mgmt where
  live : Sparse 64 := []                   -- lifetime counters by GETCOUNT index
  flash : Sparse 64 := []
  bootSlot : Bool := false                 -- false A, true B
  slots : List (Bool × Nat × Memory) := [(false, 0, []), (false, 0, [])]   -- verified, size, image
  openImage : Option (Bool × Nat × Memory) := none                         -- slot, size, image
  stamp : W64 := 0                         -- the device's own counter
  stamps : List (Nat × W64) := []          -- key identifier and last accepted STAMP
  responses : List (W32 × W32 × Byte × Bool × List Byte) := []   -- key, SEQ, OP, ERR and body, newest first
  alertSeq : Nat := 0
  unacked : List (W32 × W32) := []         -- alert SEQ and cause, oldest first
  collector : List Byte := []
  trust : List (List (List Byte)) := [[], []]     -- the image and the management list: entries of 68 bytes
  storage : List (Nat × List Byte) := []   -- entries by index
  retiredLanes : Sparse 64 := []           -- retirement masks by die * 72 + site
  hubTemp : W16 := 0
  net : NetAddrs := {}                     -- the management controller's addresses
  vilazNet : NetAddrs := {}                -- those of Vilaz
deriving DecidableEq, Repr, Inhabited

/-- The interrupt controller of the Markhor harts (R249): a RISC-V PLIC with sources 1 to 7 and two contexts for each hart,
2h for its M mode and 2h + 1 for its S mode. Its pending bits are `Ctrl.irq`. PRESUMED (assumption 91). -/
structure Plic where
  prio : Sparse 32 := []                   -- by source
  enable : Sparse 8 := []                  -- enabled sources by context
  threshold : Sparse 32 := []              -- by context
  claimed : BitVec 8 := 0                  -- sources claimed and not completed
  held : BitVec 8 := 0                     -- of these, sources that have been raised again
deriving DecidableEq, Repr, Inhabited

/-- An access of a Markhor hart to the interrupt controller. PRESUMED (assumption 91). -/
inductive PlicAccess where
  | priority (source : Nat) (value : W32)
  | enable (context : Nat) (sources : BitVec 8)
  | threshold (context : Nat) (value : W32)
  | claim (context reg : Nat)              -- the answer goes to an x register of the hart
  | complete (context source : Nat)
deriving DecidableEq, Repr, Inhabited

/-- The modes of a Markhor hart (R245). -/
inductive HartMode where
  | machine | supervisor | user
deriving DecidableEq, Repr, Inhabited

/-- A Markhor hart (R245): in user mode it runs the control program of a context. Its registers are those of RV64GCV.
PRESUMED (assumption 98). -/
structure Hart where
  mode : HartMode := .machine
  process : Option Nat := none
  pc : W64 := 0
  x : Sparse 64 := []
  f : Sparse 64 := []
  v : List (Nat × Byte) := []              -- the vector registers, byte by byte
  csr : Sparse 64 := []
deriving DecidableEq, Repr, Inhabited

/-- The permitted partitions (R3): one die, dies 0 and 1 or 2 and 3, or all four. -/
inductive Partition where
  | die (d : Fin 4)
  | pair (upper : Bool)
  | all
deriving DecidableEq, Repr

/-- The dies of a partition (R3). -/
def Partition.dies : Partition → List Nat
  | .die d => [d.val]
  | .pair false => [0, 1]
  | .pair true => [2, 3]
  | .all => [0, 1, 2, 3]

/-- The registers of the control space and of BAR0 (R248 to R254, R276). -/
structure Ctrl where
  ctxtbl : W64 := 0
  fbbase : W64 := 0
  fbsize : W64 := 0
  fbhead : W64 := 0
  tlbovf : Bool := false
  tlbreqs : List W64 := []
  preState : Nat := 0
  preCtx : Nat := 0
  preReset : Bool := false
  preRestored : Bool := false
  restoreCtx : Nat := 0                    -- the context of the last restore (R254)
  preDeadline : W64 := 0
  critRun : Bool := false                  -- the sequence of R226 runs
  critQueue : List Nat := []               -- contexts that it has yet to seize
  tdrain : W64 := 10500000
  tseize : W64 := 1050000
  irq : BitVec 8 := 0                      -- pending sources of the interrupt controller (R249)
  plic : Plic := {}
  ready : W64 := 0
  featoff : W64 := 0x3FF
  featacc : W64 := 0
  featWritten : Bool := false
  bar2base : W64 := 0
  bar2log2 : Nat := 28
  msistat : W64 := 0
  msimask : W64 := 0xFFFFFFFFFFFFFFFF      -- the mask bits of the MSI-X vector table (R277, assumption 53)
  msipend : W64 := 0                       -- raised while masked
  msixAddr : Sparse 64 := []               -- the vector table: address and data of each vector's message
  msixData : Sparse 32 := []
  msixOn : Bool := false                   -- MSI-X enable
  msixOff : Bool := false                  -- function mask
  mgmtstat : W64 := 0                      -- the status word as last formed (R282)
  repl : Bool := false                     -- replacement requested (R238)
deriving DecidableEq, Repr, Inhabited

/-- Hardware errors that the outside world may strike (R168, R231). DESIGN CHOICE (assumption 28). -/
inductive Upset where
  | census (g : Gid)               -- one of the two census circuits of a group
  | checksum (team row : Nat)      -- a chunk sum of one row of a team's next matrix step
deriving DecidableEq, Repr

/-- Which agent moves in the next step (assumption 3). DESIGN CHOICE. -/
inductive Turn where
  | row (i : Instr)                -- an event of the device
  | issue (g : Gid)                -- a group that holds its pipe's turn issues
  | auto                           -- the device picks one of its internal events
  | upset (u : Upset)              -- an error strikes
  | sensors (temps : List W16)     -- the sensors of islands 0 to 23 and of the hub show these values
  | partition (p : Partition)      -- the device is partitioned
  | plic (a : PlicAccess)
  | hart (h : Nat) (x : Hart)      -- a hart's own instructions
  | lifetime (h index : Nat)       -- Vilaz reads a lifetime counter
  | address (vilaz fixed : Bool) (addrs : List (List Byte))   -- an owner of the Ethernet port takes addresses
  | nvme (space : Nat) (cmd : NvmeCmd)   -- Vilaz sends an admin command
  | program (ctx : Nat) (regs : List (Nat × W64)) (bytes : List (Nat × Byte))   -- a control program's own instructions
  | outside (bytes : List StByte)  -- a Markhor hart, the host or a peer stores
deriving DecidableEq, Repr

structure State where
  -- the model's own
  agenda : List Turn := []
  freeCtr : Nat := 0
  cur : Option Gid := none
  upsets : List Upset := []        -- errors that have struck and not yet shown
  -- memories
  hbm : Memory := []
  host : Memory := []
  peers : List (Nat × Memory) := []
  spaces : List (Nat × Memory) := []       -- the namespaces of storage subsystems, by subsystem and identifier
  conns : List (Nat × Conn) := []          -- the controllers that Vilaz is connected to
  bank : Memory := []
  l2 : List L2Line := []                   -- the lines that the dies' L2s hold, the newest first
  poison : List ProtWord := []
  -- the device's clock, islands and sites
  timeref : W64 := 0
  sites : List (List Nat) := [List.range 64, List.range 64, List.range 64, List.range 64]
  deadSites : List Nat := []               -- die * 72 + site
  fusedBad : Sparse 64 := []               -- bad lanes by die * 72 + site
  laneBad : Sparse 64 := []                -- complement of LANEMAP by die * 72 + site, formed at reset
  islands : List (Nat × Island) := []
  hot : List Nat := []                     -- dies over the hot mark
  warn : Bool := false
  critical : Bool := false
  partition : Partition := .all            -- R3
  gbarPtr : Nat := 0
  resumeQ : List (Nat × Nat) := []         -- launch and island, in the order of R204
  resumed : List W64 := []                 -- the ticks of the last resumes of islands
  -- cores and groups
  cores : List (Nat × Core) := []
  groups : List (Nat × Group) := []
  teams : List (Nat × Team) := []
  launches : List (Nat × Launch) := []
  queues : List (Nat × Queue) := []
  lastServed : List (Nat × Nat) := []      -- priority and the queue served last
  ctxs : List (Nat × Ctx) := []
  objects : List Translation := []
  nextObj : Nat := 1
  reserved : List (Nat × Nat) := []        -- HBM that Vilaz has allocated: base and size
  hostUsed : List (Nat × Nat) := []        -- host memory that Vilaz has allocated
  nextLaunch : Nat := 0
  faults : List (Nat × FaultOwner) := []
  tlb : List TlbEntry := []
  -- the hub
  ctrl : Ctrl := {}
  links : List (Nat × Link) := []
  mgmt : Mgmt := {}
  powered : Bool := true
  harts : List (Nat × Hart) := []
  osFound : Bool := false                  -- a slot's Vilaz image verified
  confined : Bool := false                 -- neither verified: the device serves only the management port (R246)
  vilaz : Bool := false                    -- slot of the running Vilaz: false A, true B
  vilazDigest : BitVec 256 := 0            -- the SM3 digest of the image that it was started from (R274)
  outbox : List OutMsg := []
deriving DecidableEq, Repr

/-- The handover header's reset contents (R272): MAGIC 0x4C5A_4844 and VERSION 1, at 0x9F_FC00_0000. -/
def handoverBase : Nat := 0x9FFC000000

def resetHbm : Memory :=
  [(handoverBase, 0x44), (handoverBase + 1, 0x48), (handoverBase + 2, 0x5A), (handoverBase + 3, 0x4C),
   (handoverBase + 4, 1)]

/-- The machine right after reset (R34, R240, R246 to R254, R272). DESIGN CHOICE (assumption 1). -/
def State.reset : State := { hbm := resetHbm }

end Sys2Proof.Machine
end

