-- ==== Sys2Proof/Machine/Operands.lean ====
section
/-!
DEFINITION. Operands: reading sources by class and modifier (R59, R89, R93), destinations, the registers an
instruction names (R29, R58, R61, R108), issue classes (R375) and latencies (R28).
-/
namespace Sys2Proof

/-- A register an instruction reads or writes. -/
inductive RegName where
  | v (n : Nat) | k (n : Nat) | s (n : Nat) | p (n : Nat) | q (n : Nat)
deriving DecidableEq, Repr

structure Names where
  reads : List RegName := []
  writes : List RegName := []
deriving DecidableEq, Repr

def vspan (n count : Nat) : List RegName := (List.range count).map fun i => .v (n + i)
def kspan (n count : Nat) : List RegName := (List.range count).map fun i => .k (n + i)

/-- The registers of an operand of a vector instruction: `count` consecutive ones, one uniform register (R59, R89). -/
def opRegs (c : Cls) (r : BitVec 9) (count : Nat) : List RegName :=
  match c with
  | .s => if count = 0 then [] else [.s r.toNat]
  | .k => kspan r.toNat count
  | _ => vspan r.toNat count

/-- Register count of a value of a type. -/
def ETy.regs (ty : ETy) : Nat := if ty == .b64 then 2 else 1

def VOp.names1 (o : VOp) : Names := { reads := opRegs o.ca o.a o.ty.regs, writes := opRegs o.cd o.dst o.ty.regs }
def VOp.names2 (o : VOp) : Names :=
  { reads := opRegs o.ca o.a o.ty.regs ++ opRegs o.cb o.b o.ty.regs, writes := opRegs o.cd o.dst o.ty.regs }
def VOp.names3 (o : VOp) : Names :=
  { reads := opRegs o.ca o.a 1 ++ opRegs o.cb o.b 1 ++ opRegs o.cc o.c 1, writes := opRegs o.cd o.dst 1 }
def VOp.namesU (o : VOp) (n : Nat) : Names :=
  { reads := (if n = 0 then [] else [RegName.s o.a.toNat]) ++ (if n = 2 then [RegName.s o.b.toNat] else []), writes := [.s o.dst.toNat] }

def CompactOp.names1 (o : CompactOp) : Names := { reads := [.v o.a.toNat], writes := [.v o.d.toNat] }
def CompactOp.names2 (o : CompactOp) : Names := { reads := [.v o.a.toNat, .v o.b.toNat], writes := [.v o.d.toNat] }
def CompactOp.namesU (o : CompactOp) : Names := { reads := [.s o.a.toNat, .s o.b.toNat], writes := [.s o.d.toNat] }

/-- The access size in bytes (R95, R116). -/
def MemOp.bytes (o : MemOp) : Nat :=
  match o.size with
  | .byType => if o.ty == .b64 then 8 else 4
  | .s8 => 1
  | .s16 => 2
  | .s128 => 16

/-- Address registers by form (R95). -/
def MemOp.addrRegs (o : MemOp) : List RegName :=
  if o.af then (if o.b == 0 then opRegs (if o.ik then .k else .v) o.a 2 else [.s o.a.toNat])
  else .s o.a.toNat :: opRegs (if o.ik then .k else .v) o.b 1

/-- Data registers of a load or store (R118). -/
def MemOp.dataRegs (o : MemOp) : List RegName :=
  opRegs (if o.dk then .k else .v) o.dst (if o.size == .s128 then 4 else o.ty.regs)

def Guard.names : Guard → List RegName
  | .on .p _ n => [.p n.toNat]
  | .on .q _ n => [.q n.toNat]
  | .off => []

/-- The header of an instruction that has one. -/
def Instr.hdr : Instr → Option Hdr
  | .abs o | .add o | .sub o | .mul o | .mulhi o | .mad o | .min o | .max o | .and o | .or o | .xor o | .not o
  | .shl o | .shr o | .sar o | .fsl o | .fsr o | .bfx o | .bfi o | .popc o | .clz o | .brev o | .cmp o | .sel o
  | .lea o | .idot o | .fadd o | .fsub o | .fmul o | .ffma o | .fmin o | .fmax o | .fcmp o | .fcvt o | .frcp o
  | .frsq o | .fex2 o | .flg2 o | .fsin o | .fcos o | .lmul o | .ldiv o | .lscl o | .lcvt o | .lqnt o | .ldot o
  | .mov o | .rdx o | .wrx o | .vtos o | .stov o | .shfl o | .redux o | .pfx o | .matchKeys o | .vote o | .nzscan o
  | .sadd o | .ssub o | .smul o | .sand o | .sor o | .sxor o | .sshl o | .sshr o | .scmp o | .ssel o | .slea o =>
    some o.h
  | .movi o | .smovi o | .want o | .call o | .park o | .rejoin o | .region o => some o.h
  | .sld o | .sst o | .ld o | .ldv o | .lds o | .ldb o | .st o | .stv o | .sts o | .stb o | .bop o | .atom o | .cas o
  | .red o | .fence o => some o.h
  | .mfmt o | .mlay o | .mma o | .mloop o | .mzero o | .mrd o | .mwr o | .kick o | .barinit o | .waitb o | .waitc o
  | .sleep o | .bar o | .cbar o | .gbar o | .join o | .leave o | .wantr o | .callr o | .ret o | .exit o | .pfor o
  | .pend o => some o.h
  | .nop o | .csrr o | .csrw o | .time o | .trap o | .eret o | .brk o => some o.h
  | _ => none

/-- The compact fields of a compact instruction. -/
def Instr.compact (i : Instr) : Option CompactOp := i.compactOp.map (·.2)

def Instr.guard (i : Instr) : Guard := (i.hdr.map (·.guard)).getD .off
def Instr.last (i : Instr) : Bool := (i.hdr.map (·.last)).getD false
def Instr.stall (i : Instr) : Nat :=
  match i.hdr with
  | some h => h.stall.toNat
  | none => (i.compact.map fun o => o.stall.toNat).getD 0

/-- Bytes of an instruction (R84). -/
def Instr.len (i : Instr) : Nat :=
  match i.hdr with
  | some h => match h.form with
    | .compact => 4
    | .six => 6
    | .eight => 8
    | .twelve => 12
  | none => 4

/-- The registers an instruction names, but for its guard and the windows of `mloop` (R29, R61, R108). -/
def Instr.names0 : Instr → Names
  | .addI32Compact o | .subI32Compact o | .mulI32Compact o | .minI32Compact o | .maxI32Compact o | .andCompact o
  | .orCompact o | .xorCompact o | .shlN32Compact o | .shrN32Compact o | .sarI32Compact o | .faddF32Compact o
  | .fsubF32Compact o | .fmulF32Compact o | .fminF32Compact o | .fmaxF32Compact o | .faddH16x2Compact o
  | .fmulH16x2Compact o | .lmulLn8x4Compact o | .lmulLn4x8Compact o => o.names2
  | .movCompact o | .popcCompact o | .clzCompact o | .brevCompact o | .notCompact o | .absI32Compact o => o.names1
  | .saddCompact o | .ssubCompact o | .sandCompact o | .sorCompact o | .sxorCompact o => o.namesU
  | .abs o | .not o | .popc o | .clz o | .brev o | .frcp o | .frsq o | .fex2 o | .flg2 o | .fsin o | .fcos o
  | .lcvt o | .lqnt o | .mov o | .redux o | .pfx o | .nzscan o => o.names1
  | .add o | .sub o | .mul o | .mulhi o | .min o | .max o | .and o | .or o | .xor o | .shl o | .shr o | .sar o
  | .fadd o | .fsub o | .fmul o | .fmin o | .fmax o | .lmul o | .ldiv o | .lscl o => o.names2
  | .mad o | .fsl o | .fsr o | .bfx o | .idot o | .ffma o | .ldot o => o.names3
  | .bfi o => { o.names3 with reads := opRegs o.cd o.dst 1 ++ o.names3.reads }
  | .cmp o | .fcmp o => { reads := opRegs o.ca o.a 1 ++ opRegs o.cb o.b 1, writes := [.p o.dst.toNat] }
  | .sel o => { o.names2 with reads := .p o.c.toNat :: o.names2.reads }
  | .lea o => { reads := opRegs o.ca o.a o.ty.regs ++ opRegs o.cb o.b 1, writes := opRegs o.cd o.dst o.ty.regs }
  | .fcvt o =>
    { reads := opRegs o.ca o.a 1 ++ (if fcvtPair o.ty (ETy.ofCode o.fstype) == some true then opRegs o.cb o.b 1 else []),
      writes := opRegs o.cd o.dst 1 }
  | .movi o => { writes := vspan o.dst.toNat o.ty.regs }
  | .rdx o => { reads := opRegs o.ca o.a o.len ++ opRegs o.cb o.b 1, writes := opRegs o.cd o.dst 1 }
  | .wrx o => { reads := opRegs o.cd o.dst 1 ++ opRegs o.cb o.b 1, writes := opRegs o.ca o.a o.len }
  | .vtos o => { reads := opRegs o.ca o.a o.ty.regs, writes := [.s o.dst.toNat] }
  | .stov o => { reads := [.s o.a.toNat], writes := opRegs o.cd o.dst o.ty.regs }
  | .shfl o =>
    { reads := opRegs o.ca o.a o.ty.regs ++ (if o.sat then [] else opRegs o.cb o.b 1) ++ (if o.si then [] else opRegs o.cc o.c 1),
      writes := opRegs o.cd o.dst o.ty.regs }
  | .matchKeys o => { reads := opRegs o.ca o.a o.ty.regs, writes := if o.sat then [.p o.dst.toNat] else opRegs o.cd o.dst 1 }
  | .vote o => { reads := [.p o.a.toNat], writes := if o.mode == 0 then [.s o.dst.toNat] else [.q o.dst.toNat] }
  | .sadd o | .ssub o | .smul o | .sand o | .sor o | .sxor o | .sshl o | .sshr o | .slea o => o.namesU 2
  | .scmp o => { o.namesU 2 with writes := [.q o.dst.toNat] }
  | .ssel o => { o.namesU 2 with reads := [.s o.a.toNat, .s o.b.toNat, .q o.c.toNat] }
  | .smovi o => { writes := [.s o.dst.toNat] }
  | .sld o => { reads := [.s o.a.toNat], writes := [.s o.dst.toNat] }
  | .sst o => { reads := [.s o.a.toNat, .s o.dst.toNat] }
  | .ld o | .ldv o | .lds o | .ldb o => { reads := o.addrRegs, writes := o.dataRegs }
  | .st o | .stv o | .sts o | .stb o => { reads := o.addrRegs ++ o.dataRegs }
  | .bop o => { reads := [.s o.dst.toNat, .s o.b.toNat] ++ (if o.op == 1 then [] else [.s o.a.toNat]) ++
      (if o.op == 1 || o.op == 4 then [.s o.c.toNat] else []) }
  | .atom o => { reads := o.addrRegs ++ vspan o.c.toNat o.ty.regs, writes := o.dataRegs }
  | .cas o => { reads := o.addrRegs ++ vspan o.c.toNat (2 * o.ty.regs), writes := o.dataRegs }
  | .red o => { reads := o.addrRegs ++ vspan o.c.toNat o.ty.regs }
  | .kick o => { reads := [.s o.a.toNat, .s o.b.toNat], writes := [.s o.dst.toNat] }
  | .barinit o => { reads := [.s o.a.toNat, .s o.b.toNat] }
  | .waitb o => { reads := .s o.a.toNat :: (if o.ty == .b64 then [.s o.b.toNat] else []) }
  | .sleep o => { reads := [.s o.a.toNat] }
  | .mfmt o => { reads := [.s o.a.toNat] }
  | .mlay o => { reads := [.s o.a.toNat, .s o.b.toNat] }
  | .mma o => { reads := vspan o.a.toNat 16 ++ vspan o.b.toNat 16 }
  | .mloop o => { reads := [.s o.c.toNat] }
  | .mrd o => { writes := vspan o.dst.toNat (if o.ty == .f32 then 8 else 2) }
  | .mwr o => { reads := vspan o.b.toNat 8 }
  | .wantr o | .callr o => { reads := vspan o.a.toNat 1 }
  | .park o => { reads := .s o.a.toNat :: (if o.ext8 == 0 then [.s o.b.toNat] else []) }
  | .rejoin o => { reads := [.s o.a.toNat] }
  | .csrr o => { writes := if o.cd == .s then [.s o.dst.toNat] else opRegs o.cd o.dst o.ty.regs }
  | .csrw o => { reads := if o.ca == .s then [.s o.a.toNat] else opRegs o.ca o.a 1 }
  | .time o => { writes := [.s o.dst.toNat] }
  | _ => {}

/-- With the guard predicate (R108). -/
def Instr.names (i : Instr) : Names := { i.names0 with reads := i.guard.names ++ i.names0.reads }

/-- The name by which a trailer must await the destination (R29, R326, R161); none for a fixed-latency result. -/
def Instr.awaited : Instr → Option Machine.AwName
  | .ld o | .ldv o | .lds o | .ldb o => some ⟨false, o.dst.toNat, if o.size == .s128 then 4 else o.ty.regs, o.dk⟩
  | .atom o | .cas o => some ⟨false, o.dst.toNat, o.ty.regs, o.dk⟩
  | .sld o => some ⟨true, o.dst.toNat, 1, false⟩
  | .mrd o => some ⟨false, o.dst.toNat, if o.ty == .f32 then 8 else 2, false⟩
  | .csrr o =>
    if csrVariable o.num.toNat then
      some (if o.cd == .s then ⟨true, o.dst.toNat, 1, false⟩ else ⟨false, o.dst.toNat, o.ty.regs, o.cd == .k⟩)
    else none
  | _ => none

/-- The fixed latency of a result, in slots (R28). -/
def Instr.latency : Instr → Nat
  | .fadd _ | .fsub _ | .fmul _ | .ffma _ | .fmin _ | .fmax _ | .fcmp _ | .fcvt _ | .faddF32Compact _ | .fsubF32Compact _
  | .fmulF32Compact _ | .fminF32Compact _ | .fmaxF32Compact _ | .faddH16x2Compact _ | .fmulH16x2Compact _ => 4
  | .lcvt _ | .lqnt _ | .vtos _ | .rdx _ | .wrx _ => 3
  | .ldot _ | .idot _ => 5
  | .frcp _ | .frsq _ | .fex2 _ | .flg2 _ | .fsin _ | .fcos _ => 12
  | .shfl _ | .redux _ | .pfx _ | .matchKeys _ => 6
  | .nzscan _ => 8
  | .sadd _ | .ssub _ | .smul _ | .sand _ | .sor _ | .sxor _ | .sshl _ | .sshr _ | .scmp _ | .ssel _ | .smovi _ | .slea _
  | .saddCompact _ | .ssubCompact _ | .sandCompact _ | .sorCompact _ | .sxorCompact _ => 1
  | _ => 2

/-- The registers a pending name covers. -/
def Machine.AwName.regs (a : Machine.AwName) : List RegName :=
  if a.uni then [.s a.reg] else if a.k then kspan a.reg a.count else vspan a.reg a.count

/-- The names that are pending for the course in use: a temporary of another course is not (R29, R30). -/
def Machine.Await.pending (a : Machine.Await) : List Machine.AwName :=
  if a.home == .here then a.names else a.names.filter fun n => !n.k

/-- Issue classes (R375). -/
inductive IClass where
  | vector | uniform | other
deriving DecidableEq, Repr

namespace Machine

/-! Sources. -/

def Group.vreg (g : Group) (r t : Nat) : Nat := (g.v.get (r * 32 + t)).toNat
def Group.kreg (g : Group) (r t : Nat) : Nat := (g.k.get (r * 32 + t)).toNat
def Group.sreg (g : Group) (r : Nat) : W64 := g.s.get r

/-- A source of a vector instruction in a lane: a register, a pair by its even register, or a uniform register read by
every lane (R59, R89). -/
def Group.src (g : Group) (c : Cls) (r : BitVec 9) (pair : Bool) (t : Nat) : Nat :=
  let n := r.toNat
  match c with
  | .s => if pair then (g.sreg n).toNat else (g.sreg n).toNat % 2 ^ 32
  | .k => if pair then g.kreg n t + 2 ^ 32 * g.kreg (n + 1) t else g.kreg n t
  | _ => if pair then g.vreg n t + 2 ^ 32 * g.vreg (n + 1) t else g.vreg n t

/-- The writes of a lane's result: one register, or a pair for b64 (R59). -/
def destWrites (c : Cls) (r : BitVec 9) (pair : Bool) (t x : Nat) : List RegWrite :=
  let k := c == .k
  if pair then [.lane k r.toNat t (BitVec.ofNat 32 x), .lane k (r.toNat + 1) t (BitVec.ofNat 32 (x / 2 ^ 32))]
  else [.lane k r.toNat t (BitVec.ofNat 32 x)]

/-- A predicate's bit in a lane. -/
def Group.pbit (g : Group) (n t : Nat) : Bool := (g.p.get n).getLsbD t

/-- Whether a uniform guard holds, and the lanes a guard leaves (R52, R91). -/
def Group.guardMask (g : Group) (gd : Guard) (active : LaneMask) : Option LaneMask :=
  match gd with
  | .off => some active
  | .on .q neg n => if g.q.getLsbD n.toNat != neg then some active else none
  | .on .p neg n => some (active &&& (if neg then ~~~(g.p.get n.toNat) else g.p.get n.toNat))

end Machine

/-- The three sources of a register-form instruction in a lane, after their modifiers (R93). -/
def VOp.srcA (o : VOp) (g : Machine.Group) (t : Nat) : Nat := o.ma.apply o.ty (g.src o.ca o.a (o.ty == .b64) t)
def VOp.srcB (o : VOp) (g : Machine.Group) (t : Nat) : Nat := o.mb.apply o.ty (g.src o.cb o.b (o.ty == .b64) t)
def VOp.srcC (o : VOp) (g : Machine.Group) (t : Nat) : Nat := o.mc.apply o.ty (g.src o.cc o.c false t)

/-- The destination's writes in a lane. -/
def VOp.dest (o : VOp) (t x : Nat) : List Machine.RegWrite := Machine.destWrites o.cd o.dst (o.ty == .b64) t x

end Sys2Proof
end

