-- ==== Sys2Proof/Config.lean ====
section
/-!
DEFINITION. What an implementation fixes and the spec leaves open: free values with no body, and the
algorithms the spec names without defining.
-/
namespace Sys2Proof.Config

/-- A free 64-bit value for each draw of `State.freeCtr`: nothing constrains it. DESIGN CHOICE (assumption 4). -/
opaque freeWord : Nat → W64

/-- A free truth value for each draw. DESIGN CHOICE (assumption 4). -/
opaque freeBool : Nat → Bool

/-- The SM3 digest, which R10 names and no rule defines (assumption 7). -/
opaque sm3 : List Byte → BitVec 256

/-- The bytes of the signature of a digest that the holder of a public key makes (R10; assumption 7). -/
opaque sm2Byte : List Byte → BitVec 256 → Nat → Byte

/-- That signature, of 64 bytes (R258, R280). -/
def sm2Signature (key : List Byte) (digest : BitVec 256) : List Byte := (List.range 64).map (sm2Byte key digest)

/-- Whether some other signature of a digest verifies under a public key too (R10; assumption 7). -/
opaque sm2Other : List Byte → BitVec 256 → List Byte → Bool

/-- Whether an SM2 signature of a digest verifies under a public key (R10, R258, R280; assumption 7): the signature of the
key's holder does, and others of 64 bytes may. -/
def sm2Verify (key : List Byte) (digest : BitVec 256) (sig : List Byte) : Bool :=
  sig == sm2Signature key digest || (sig.length == 64 && sm2Other key digest sig)

/-- The device identity key, which the keystone holds (R10). -/
opaque identityKey : List Byte

/-- The signature of a digest by the device identity key, of 64 bytes (R10, R274, R280; assumption 7). -/
def sm2Sign (digest : BitVec 256) : List Byte := sm2Signature identityKey digest

/-- The report header that R274 names and no rule lays out (assumption 7). -/
opaque attestHeader : List Byte

/-- The hub firmware (0) and the Markhor firmware (1) that the part holds, and their signatures (R246, R274; assumption 7). -/
opaque firmware : Nat → List Byte
opaque firmwareSignature : Nat → List Byte

/-- The public key under which the keystone verifies firmware and the images of Vilaz (R10, R246; assumption 7). -/
opaque firmwareKey : List Byte

/-- The body of a signed flash image, which no rule lays out, and its signature (R246, R278; assumption 7). -/
opaque imageParts : List Byte → List Byte × List Byte

/-- Whether a Quoin path to a device exists, beside the port it takes (R256, call 15). -/
opaque peerReachable : Nat → Bool

/-- The Quoin port through which another device is reached: R6 and R129 give no routing (assumption 76). -/
opaque peerPort : Nat → Nat

/-- Where in the object that the translator forms the translation of each region begins (R268; assumption 17). -/
opaque regionStart : List Byte → Nat → W64 → Nat → Nat

/-- The firmware's result for one element of a format-faulted operation (R171), by record and draw. -/
opaque emulatedElement : W64 → Nat → W32

/-- The bytes of the header, group control and trap shadow blocks of a save area, which R221 only outlines, by draw
(assumption 15). -/
opaque savedByte : Nat → Nat → BitVec 8

/-- The bytes that one reduction-buffer entry takes in a spill region (R202 gives none; assumption 19). -/
opaque spillEntryBytes : Nat

/-- Where in HBM the 4 GiB code heap of R259 lies, in 64 KiB pages before it is brought into range (assumption 21). -/
opaque codeHeapPage : Nat

/-- Whether the keystone verifies an image: the signature of the SM3 digest of its body (R10, R246, R278, R281). -/
def imageVerifies (image : List Byte) : Bool := sm2Verify firmwareKey (sm3 (imageParts image).1) (imageParts image).2

/-- Whether the keystone verifies the hub firmware (0) and the Markhor firmware (1) (R10, R246). -/
def firmwareVerifies (i : Nat) : Bool := sm2Verify firmwareKey (sm3 (firmware i)) (firmwareSignature i)

/-- The section table of an image (R258): kind, offset and length of each section. R258 gives no layout (assumption 22). -/
opaque imageSections : List Byte → List (Nat × Nat × Nat)

/-- The bytes of a namespace of a storage subsystem (R283, R284). -/
opaque namespaceSize : Nat → Nat

/-- What a storage subsystem's controller offers (R283; assumption 96): its I/O queues and their depth, which are taken up to
8 and 128, whether its blocks have 512 bytes or 4,096, and whether it offers header and data digests. -/
opaque offeredQueues : Nat → Nat
opaque offeredDepth : Nat → Nat
opaque smallBlocks : Nat → Bool
opaque offersHeaderDigest : Nat → Bool
opaque offersDataDigest : Nat → Bool

/-- The lower of the two fused MAC addresses (R279). -/
opaque macBase : BitVec 48

end Sys2Proof.Config
end

