-- ==== Sys2Proof/Machine/Ops.lean ====
section
/-!
DEFINITION. The named operations over the state: topology, memories and caches, context descriptors and
translation, registers and landing results, island time, killing a context, and taking and leaving a trap.
-/
namespace Sys2Proof.Machine

/-- The outcome of a step: every meaning answers a next state. -/
abbrev Out := Host.Outcome State Fault Refusal

/-! Topology (R2, R16, R18). -/

/-- die * 72 + site of a logical core. -/
def State.site (s : State) (core : Nat) : Nat := core / 64 * 72 + (s.sites.getD (core / 64) []).getD (core % 64) 0

def islandOfSite (key : Nat) : Nat := 6 * (key / 72) + 2 * (key % 72 / 12 / 2) + key % 72 % 12 / 6

def State.islandOf (s : State) (core : Nat) : Nat := islandOfSite (s.site core)

/-- LANEMAP of a core (R16, R64). -/
def State.lanemap (s : State) (core : Nat) : W64 := ~~~ (s.laneBad.get (s.site core))

def popcount {w : Nat} (x : BitVec w) : Nat := ((List.range w).filter fun i => x.getLsbD i).length

/-- The good lanes of a pipe: 0 west, 1 east. -/
def State.goodLanes (s : State) (core pipe : Nat) : Nat := popcount ((s.lanemap core).extractLsb' (32 * pipe) 32)

/-- The pass count of a pipe, 0 when it is disabled (R16). -/
def passesOf (good : Nat) : Nat := if good = 32 then 1 else if 16 ≤ good then 2 else 0

def State.passes (s : State) (core pipe : Nat) : Nat := passesOf (s.goodLanes core pipe)

def coreOf (g : Gid) : Nat := g / 32
def pipeOf (g : Gid) : Nat := g % 32 / 16

/-! Keyed parts of the state. -/

def State.group (s : State) (g : Gid) : Option Group := tfind s.groups g
def State.putGroup (s : State) (g : Gid) (x : Group) : State := { s with groups := tput s.groups g x }
def State.modGroup (s : State) (g : Gid) (f : Group → Group) : State := { s with groups := tmod s.groups g f }
def State.team (s : State) (t : Nat) : Team := tget s.teams t {}
def State.modTeam (s : State) (t : Nat) (f : Team → Team) : State := { s with teams := tmod s.teams t f }
def State.launchOf (s : State) (l : Nat) : Launch := tget s.launches l {}
def State.modLaunch (s : State) (l : Nat) (f : Launch → Launch) : State := { s with launches := tmod s.launches l f }
def State.core (s : State) (c : Nat) : Core := tget s.cores c {}
def State.modCore (s : State) (c : Nat) (f : Core → Core) : State := { s with cores := tput s.cores c (f (s.core c)) }
def State.island (s : State) (k : Nat) : Island := tget s.islands k {}
def State.putIsland (s : State) (k : Nat) (x : Island) : State := { s with islands := tput s.islands k x }
def State.ctx (s : State) (c : Nat) : Ctx := tget s.ctxs c {}
def State.modCtx (s : State) (c : Nat) (f : Ctx → Ctx) : State := { s with ctxs := tput s.ctxs c (f (s.ctx c)) }
def State.queue (s : State) (q : Nat) : Queue := tget s.queues q {}
def State.modQueue (s : State) (q : Nat) (f : Queue → Queue) : State := { s with queues := tput s.queues q (f (s.queue q)) }
def State.link (s : State) (l : Nat) : Link := tget s.links l {}
def State.modLink (s : State) (l : Nat) (f : Link → Link) : State := { s with links := tput s.links l (f (s.link l)) }
def State.modCtrl (s : State) (f : Ctrl → Ctrl) : State := { s with ctrl := f s.ctrl }
def State.modMgmt (s : State) (f : Mgmt → Mgmt) : State := { s with mgmt := f s.mgmt }
def State.send (s : State) (m : OutMsg) : State := { s with outbox := s.outbox ++ [m] }

/-- A free value is drawn at each counter value (assumption 4). -/
def State.draw (s : State) : State := { s with freeCtr := s.freeCtr + 1 }

/-- Raises an interrupt source of the Markhor harts (R249): it is pending, or while the source is claimed it is held.
PRESUMED (assumption 91). -/
def State.interrupt (s : State) (n : Nat) : State :=
  s.modCtrl fun c =>
    if c.plic.claimed.getLsbD n then { c with plic := { c.plic with held := c.plic.held ||| (1#8 <<< n) } }
    else { c with irq := c.irq ||| (1#8 <<< n) }

/-- Whether a vector is masked: by its own bit of the vector table or by the function mask (R277). PRESUMED (assumption 53). -/
def Ctrl.masks (c : Ctrl) (v : Nat) : Bool := c.msixOff || c.msimask.getLsbD v

/-- The message of an MSI-X vector: the address and the data of its entry in the vector table (R277). -/
def State.sendMsix (s : State) (v : Nat) : State := s.send (.msix v (s.ctrl.msixAddr.get v) (s.ctrl.msixData.get v))

/-- A cause of an MSI-X vector: its MSISTAT bit is set, and where MSI-X is enabled the vector is raised, or kept pending while it
is masked (R276, R277); a device that serves only the management port raises none (R246). PRESUMED (assumption 53). -/
def State.msi (s : State) (v : Nat) : State :=
  let s := s.modCtrl fun c => { c with msistat := c.msistat ||| (1#64 <<< v) }
  if s.confined || !s.ctrl.msixOn then s
  else if s.ctrl.masks v then s.modCtrl fun c => { c with msipend := c.msipend ||| (1#64 <<< v) }
  else s.sendMsix v

/-! The management status word and the lifetime counters (R237, R238, R282). -/

/-- The good lanes of a site's pipes suffice for one pipe at least (R16). -/
def State.siteGood (s : State) (key : Nat) : Bool :=
  let good (lo : Nat) : Nat := ((List.range 32).filter fun i => !(s.laneBad.get key).getLsbD (lo + i)).length
  !s.deadSites.contains key && (decide (16 ≤ good 0) || decide (16 ≤ good 32))

/-- A die with no good site left that is not enabled (R238). -/
def State.noSpare (s : State) (die : Nat) : Bool :=
  !((List.range 72).any fun i => !(s.sites.getD die []).contains i && s.siteGood (die * 72 + i))

/-- Whether a lifetime counter has passed its replacement threshold (R237). DEDUCED (assumption 42). -/
def overThreshold (live : Sparse 64) : Bool :=
  let c (i : Nat) : Nat := (live.get i).toNat
  decide (2000 < c 16 + c 17 + c 18 + c 19) || decide (1000 ≤ c 1068) || decide (1000 ≤ c 1069) || decide (100 ≤ c 1070) ||
  decide (64 ≤ c 1071) || live.any fun e => decide (44 ≤ e.1) && decide (e.1 ≤ 1067) && decide (10000 ≤ e.2.toNat)

/-- The management status word (R282). -/
def State.statusWord (s : State) : W64 :=
  let b (i : Nat) (x : Bool) : W64 := if x then 1#64 <<< i else 0
  let mark : W64 := if s.critical then 3 else if !s.hot.isEmpty then 2 else if s.warn then 1 else 0
  b 7 s.vilaz ||| b 6 (s.ctrl.ready.getLsbD 3) ||| (mark <<< 4) ||| b 3 (!s.mgmt.unacked.isEmpty) |||
  b 2 (s.ctrl.ready.extractLsb' 8 4 != 0xF) ||| b 1 ((List.range 4).any s.noSpare) ||| b 0 s.ctrl.repl

/-- The 32-byte header of a message (R280). -/
def headerBytes (keyId seq : Nat) (stamp len flags op : Nat) : List Byte :=
  bytesOf 0x4D47 2 ++ bytesOf 1 1 ++ bytesOf op 1 ++ bytesOf flags 2 ++ bytesOf len 2 ++ bytesOf seq 4 ++ bytesOf keyId 4 ++
  bytesOf stamp 8 ++ bytesOf 0 8

/-- A response or an alert: KEYID 0, the device's own counter in STAMP, and the signature of the device identity key (R280). -/
def State.sendSigned (s : State) (dst : Endpoint) (op : Byte) (err dup : Bool) (seq : W32) (body : List Byte) : State :=
  let stamp := s.mgmt.stamp + 1
  let flags := 1 + (if err then 2 else 0) + (if dup then 4 else 0)
  let head := headerBytes 0 seq.toNat stamp.toNat body.length flags op.toNat
  (s.modMgmt fun m => { m with stamp }).send (.mgmt dst op err dup seq stamp body (Config.sm2Sign (Config.sm3 (head ++ body))))

/-- The collector that SETCOLL names: an IPv4 address stands in the first 4 of its 16 bytes (R281). DEDUCED (assumption 60). -/
def collectorEnd (c : List Byte) : Endpoint :=
  { addr := (c.drop 1).take (if c.head? == some 4 then 4 else 16), port := BitVec.ofNat 16 (natOfBytes ((c.drop 17).take 2)) }

/-- ALERT (R281, R282): cause bits and the status word, to the collector. -/
def State.sendAlert (s : State) (seq cause : W32) : State :=
  if s.mgmt.collector.isEmpty then s
  else s.sendSigned (collectorEnd s.mgmt.collector) 0x21 false false seq (bytesOf cause.toNat 4 ++ bytesOf s.statusWord.toNat 8)

/-- An alert is raised (R282). -/
def State.raiseAlert (s : State) (cause : W32) : State :=
  let seq := BitVec.ofNat 32 (s.mgmt.alertSeq + 1)
  (s.modMgmt fun m => { m with alertSeq := m.alertSeq + 1, unacked := m.unacked ++ [(seq, cause)] }).sendAlert seq cause

/-- The word is formed again: a change is told to the host, and a bit of [5:0] that rises raises an alert (R282). ALERT rises
with the alert itself, which names it too. DEDUCED (assumption 95). -/
def State.refreshStatus (s : State) : State :=
  let s := if overThreshold s.mgmt.live || (List.range 4).any s.noSpare then s.modCtrl fun c => { c with repl := true } else s
  let old := s.ctrl.mgmtstat
  let rose := s.statusWord &&& ~~~old &&& 0x37
  let s := if rose = 0 then s else s.raiseAlert ((rose ||| (0x8 &&& ~~~old)).setWidth 32)
  let new := s.statusWord
  if new = old then s else (s.modCtrl fun c => { c with mgmtstat := new }).msi 1

/-- A READY bit changes (R247, R249, R277). -/
def State.setReady (s : State) (bit : Nat) (v : Bool) : State :=
  if s.ctrl.ready.getLsbD bit == v then s
  else
    let s := s.modCtrl fun c => { c with ready := if v then c.ready ||| (1#64 <<< bit) else c.ready &&& ~~~(1#64 <<< bit) }
    ((s.interrupt 6).msi 0).refreshStatus

/-- Counts a lifetime event once (R234, R237), saturating at its width. -/
def State.count (s : State) (idx width : Nat) : State :=
  let one (m : Mgmt) : Mgmt :=
    if (m.live.get idx).toNat + 1 < 2 ^ width then { m with live := m.live.set idx (m.live.get idx + 1) } else m
  (s.modMgmt one).refreshStatus

def State.teamOf (s : State) (g : Group) : Team := s.team g.team
def State.launchOfGroup (s : State) (g : Group) : Launch := s.launchOf (s.teamOf g).launch

/-! Memories at their points of coherence (R117, R120, R127 to R130). -/

def State.readByte (s : State) (p : Place) (a : Nat) : Byte :=
  match p with
  | .hbm => s.hbm.get a
  | .host => s.host.get a
  | .peer d => (tget s.peers d []).get a
  | .peerScratch _ => 0
  | .scratch t => (s.team t).scratch.get a
  | .bank => s.bank.get a

def State.writeByte (s : State) (p : Place) (a : Nat) (b : Byte) : State :=
  match p with
  | .hbm => { s with hbm := s.hbm.set a b }
  | .host => { s with host := s.host.set a b }
  | .peer d => { s with peers := tput s.peers d ((tget s.peers d []).set a b) }
  | .peerScratch _ => s
  | .scratch t => s.modTeam t fun x => { x with scratch := x.scratch.set a b }
  | .bank => { s with bank := s.bank.set a b }

/-! The L2 of each die (R5, R120): its home lines of HBM, written back when they leave it (assumption 75). -/

def lineOf (a : Nat) : Nat := a / 128

/-- The die that is home to an HBM address (R120). -/
def homeDie (a : Nat) : Nat := a / (160 * 2 ^ 30)

/-- Lines that one L2 holds: 32 MiB (R5). -/
def l2Lines : Nat := 2 ^ 25 / 128

/-- The words of a line (R235). -/
def lineWords (n : Nat) : List Nat := (List.range 16).map fun i => 16 * n + i

def State.l2Line (s : State) (a : Nat) : Option L2Line := s.l2.find? fun l => l.line == lineOf a

/-- A line leaves its L2: a dirty one is written back whole, with its marks; under a clean one HBM keeps its own. -/
def State.evictL2 (s : State) (l : L2Line) : State :=
  let ws := lineWords l.line
  let s : State := { s with l2 := s.l2.filter fun x => x.line != l.line }
  if s.poison.isEmpty then s
  else
    let back := if l.dirty then ws.filter fun w => s.poison.contains (.l2 w) else []
    { s with poison := (s.poison.filter fun p => match p with
        | .l2 w => !ws.contains w
        | .hbm w => !(l.dirty && ws.contains w)
        | _ => true) ++ back.map .hbm }

/-- Every line leaves the L2s. -/
def State.flushL2 (s : State) : State := s.l2.foldl State.evictL2 s

/-- A line is read into its home L2, with the marks of its words; a full L2 gives up its oldest line. -/
def State.fillL2 (s : State) (n : Nat) : State :=
  let marks := if s.poison.isEmpty then [] else ((lineWords n).filter fun w => s.poison.contains (.hbm w)).map .l2
  let mine := s.l2.filter fun l => homeDie (128 * l.line) == homeDie (128 * n)
  let s := if mine.length < l2Lines then s else match mine.getLast? with
    | some l => s.evictL2 l
    | none => s
  { s with
    l2 := ⟨n, false⟩ :: s.l2
    poison := if marks.isEmpty then s.poison else s.poison.filter (fun p => !marks.contains p) ++ marks }

/-- An access at the home L2 that allocates its line. A line whose marks differ from those under it may have left and come
back before (assumption 75). -/
def State.useL2 (s : State) (a : Nat) : State :=
  match s.l2Line a with
  | none => s.fillL2 (lineOf a)
  | some l =>
    if s.poison.isEmpty || (lineWords l.line).all (fun w => s.poison.contains (.l2 w) == s.poison.contains (.hbm w)) ||
        !Config.freeBool s.freeCtr then s
    else (s.evictL2 l).fillL2 l.line

/-- Lines that bytes are written into are to be written back. -/
def State.dirtyLines (s : State) (bs : List StByte) : State :=
  let mark (l : L2Line) : L2Line :=
    if bs.any fun b => b.place == .hbm && lineOf b.addr == l.line then { l with dirty := true } else l
  if s.l2.isEmpty then s else { s with l2 := s.l2.map mark }

/-- The protected word that holds a byte (R235). -/
def protWord : Place → Nat → Option ProtWord
  | .hbm, a => some (.hbm (a / 8))
  | .host, a => some (.host (a / 8))
  | .peer d, a => some (.peer d (a / 8))
  | .peerScratch _, _ => none
  | .scratch t, a => some (.scratch t (a / 8))
  | .bank, a => some (.bank (a / 8))

/-- The protected word that an access at the point of coherence meets: the home L2's copy of an HBM word, if there is one. -/
def State.homeWord (s : State) (p : Place) (a : Nat) : Option ProtWord :=
  if p == .hbm && (s.l2Line a).isSome then some (.l2 (a / 8)) else protWord p a

def State.poisoned (s : State) (p : Place) (a : Nat) : Bool :=
  !s.poison.isEmpty && match s.homeWord p a with
    | some w => s.poison.contains w
    | none => false

/-- Writes bytes at their point of coherence; a word all of whose bytes are written loses its mark (R235). -/
def State.writeBytesAt (s : State) (bs : List StByte) : State :=
  let covered (b : StByte) : Bool :=
    (List.range 8).all fun i => bs.any fun c => c.place == b.place && c.addr == b.addr / 8 * 8 + i
  let s := if s.poison.isEmpty then s else
    { s with poison := s.poison.filter fun w => !(bs.any fun b => s.homeWord b.place b.addr == some w && covered b) }
  bs.foldl (fun s b => s.writeByte b.place b.addr b.val) (s.dirtyLines bs)

/-- Writes bytes that leave the marks of the words they touch (R235: reductions). DEDUCED (assumption 36). -/
def State.mergeBytesAt (s : State) (bs : List StByte) : State :=
  bs.foldl (fun s b => s.writeByte b.place b.addr b.val) (s.dirtyLines bs)

/-- Bytes of HBM written over as a block: their marks go, in the L2 too, and their lines are to be written back (R235). -/
def State.clearHbmMarks (s : State) (a n : Nat) : State :=
  let inside (w : Nat) : Bool := decide (a ≤ 8 * w) && decide (8 * w + 8 ≤ a + n)
  let touched (l : L2Line) : Bool := decide (a < 128 * l.line + 128) && decide (128 * l.line < a + n)
  let s : State := if s.l2.isEmpty then s else { s with l2 := s.l2.map fun l => if touched l then { l with dirty := true } else l }
  if s.poison.isEmpty then s
  else { s with poison := s.poison.filter fun p => match p with
    | .hbm w => !(inside w && (s.l2Line (8 * w)).isNone)
    | .l2 w => !inside w
    | _ => true }

/-- Bytes written into the scratch of a saved team go into its image in the save area too (R218, R221). -/
def State.mirror (s : State) (bs : List StByte) : State :=
  bs.foldl (fun s b => match b.place with
    | .scratch t => match (s.team t).area with
      | some x => s.writeByte .hbm (x.scratchAt + b.addr) b.val
      | none => s
    | _ => s) s

def State.readBytesAt (s : State) (p : Place) (a : Nat) : Nat → List Byte
  | 0 => []
  | n + 1 => s.readByte p a :: s.readBytesAt p (a + 1) n

def State.readAt (s : State) (p : Place) (a n : Nat) : Nat := natOfBytes (s.readBytesAt p a n)

def storeBytes (p : Place) (a : Nat) : List Byte → List StByte
  | [] => []
  | b :: r => ⟨p, a, b⟩ :: storeBytes p (a + 1) r

/-! L1 (R120): an allocated line may be dropped at any time (assumption 12). -/

/-- The L1 holds reads of HBM, host and peer memory (R120). -/
def Place.cached : Place → Bool
  | .hbm | .host | .peer _ => true
  | _ => false

/-- The line of an address that the L1 holds, if any (R120). -/
def Core.line (c : Core) (p : Place) (a : Nat) : Option Line :=
  if p.cached then c.l1.find? fun l => l.place == p && l.line == lineOf a else none

/-- Whether a core's L1 copy of a byte's word is poisoned (R235). -/
def State.linePoisoned (s : State) (core : Nat) (p : Place) (a : Nat) : Bool :=
  !s.poison.isEmpty && match protWord p a with
    | some w => s.poison.contains (.l1 core w)
    | none => false

/-- A core's L1 lines dropped (R139). -/
def State.invalidateL1 (s : State) (core : Nat) : State :=
  if (s.core core).l1.isEmpty then s else s.modCore core fun c => { c with l1 := [] }

/-- A store that leaves its queue updates the core's line if one is present (R134). -/
def Core.updateLine (c : Core) (b : StByte) : Core :=
  { c with l1 := c.l1.map fun l =>
      if l.place == b.place && l.line == lineOf b.addr then { l with bytes := l.bytes.set (b.addr % 128) b.val } else l }

/-! Context descriptors (R250). -/

def State.desc (s : State) (ctx off n : Nat) : Nat := s.hbm.readNat ((s.ctrl.ctxtbl).toNat + 128 * ctx + off) n
def State.descValid (s : State) (ctx : Nat) : Bool := s.desc ctx 0 1 % 2 == 1
def State.descDbg (s : State) (ctx : Nat) : Bool := s.desc ctx 0 1 / 2 % 2 == 1
def State.root (s : State) (ctx : Nat) : Nat := s.desc ctx 8 8
def State.bankFirst (s : State) (ctx : Nat) : Nat := s.desc ctx 20 2
def State.bankCount (s : State) (ctx : Nat) : Nat := s.desc ctx 22 2
def State.htbl (s : State) (ctx : Nat) : Nat := s.desc ctx 32 8
def State.spillTbl (s : State) (ctx : Nat) : Nat := s.desc ctx 40 8
def State.bounceBase (s : State) (ctx : Nat) : Nat := s.desc ctx 56 8
def State.bounceSize (s : State) (ctx : Nat) : Nat := s.desc ctx 48 8
def State.saveBase (s : State) (ctx : Nat) : Nat := s.desc ctx 72 8
def State.saveSize (s : State) (ctx : Nat) : Nat := s.desc ctx 64 8
def State.codebase (s : State) (ctx : Nat) : W64 := BitVec.ofNat 64 (s.desc ctx 80 8)

/-- A bank memory range lies below 2^28 and in the context's grant (R117, R189). -/
def State.bankOk (s : State) (ctx a n : Nat) : Bool :=
  a + n ≤ 2 ^ 28 && s.bankFirst ctx ≤ a / 65536 && (a + n - 1) / 65536 < s.bankFirst ctx + s.bankCount ctx

/-! Translation (R123, R124). -/

inductive AccessKind where
  | load | store | atomic | fetch | put
deriving DecidableEq, Repr

inductive Walk where
  | leaf (e : W64) (bits : Nat)
  | fault (level : Nat)
  | violation
deriving DecidableEq, Repr

/-- Levels left to walk, the table and the address. -/
def State.walk (s : State) (va : Nat) : Nat → Nat → Walk
  | 0, _ => .violation
  | n + 1, table =>
    let bits := 16 + 12 * n
    let e := BitVec.ofNat 64 (s.hbm.readNat (table + 8 * (va / 2 ^ bits % 4096)) 8)
    let space := (e.extractLsb' 5 2).toNat
    if !e.getLsbD 0 then .fault (3 - n)
    else if e.extractLsb' 48 16 != 0 || e.getLsbD 4 || (space < 2 && e.extractLsb' 7 8 != 0) then .violation
    else if e.getLsbD 1 then
      if (e.extractLsb' 15 33).toNat * 2 ^ 15 % 2 ^ bits != 0 then .violation else .leaf e bits
    else if n = 0 then .violation
    else s.walk va n ((e.extractLsb' 15 33).toNat * 2 ^ 15)

inductive Trans where
  | ok (p : Place) (a : Nat)
  | fault (level : Nat)
  | violation
deriving DecidableEq, Repr

def hbmSize : Nat := 640 * 2 ^ 30

/-- What a leaf gives an access (R124, R128 to R130, R248 QUOIN). DEDUCED (assumption 23). -/
def State.useLeaf (s : State) (e : W64) (bits va : Nat) (k : AccessKind) : Trans :=
  let space := (e.extractLsb' 5 2).toNat
  let dev := (e.extractLsb' 7 8).toNat
  let phys := (e.extractLsb' 15 33).toNat * 2 ^ 15 + va % 2 ^ bits
  let writes := k == .store || k == .atomic || k == .put
  if (writes && !e.getLsbD 2) || (k == .fetch && !e.getLsbD 3) || (space == 3 && k != .store && k != .put) then .violation
  else if 2 ≤ space && !s.ctrl.featacc.getLsbD 4 then .violation
  else match space with
    | 0 => if phys < hbmSize then .ok .hbm phys else .violation
    | 1 => .ok .host phys
    | 2 => .ok (.peer dev) phys
    | _ => .ok (.peerScratch dev) phys

/-- A cached translation of an address that a TLB holds. -/
def State.cached (s : State) (place : TlbAt) (ctx va : Nat) : Option TlbEntry :=
  s.tlb.find? fun t => t.place == place && t.ctx == ctx && t.vpn ≤ va / 65536 && va / 65536 < t.vpn + t.pages

/-- The leaf that an access of a core uses: one that its core's TLB or its die's holds and that differs from the tables
may or may not be used (R123, assumption 13). -/
def State.cachedLeaf (s : State) (core ctx va : Nat) (walked : Option W64) : Option TlbEntry :=
  let stale (p : TlbAt) : Option TlbEntry := (s.cached p ctx va).filter fun t => walked != some t.leaf
  match stale (.core core), stale (.die (core / 64)) with
  | none, none => none
  | some t, u => if Config.freeBool s.freeCtr then some t else if Config.freeBool (s.freeCtr + 1) then u else none
  | none, some u => if Config.freeBool s.freeCtr then some u else none

/-- Translation of an address of a context for an access of a core (R123, R124). -/
def State.translate (s : State) (core ctx : Nat) (k : AccessKind) (va : W64) : Trans :=
  if va.extractLsb' 52 12 != 0 then .violation
  else
    let w := s.walk va.toNat 3 (s.root ctx)
    let leaf := match w with
      | .leaf e _ => some e
      | _ => none
    match s.cachedLeaf core ctx va.toNat leaf with
    | some t => s.useLeaf t.leaf (16 + Nat.log2 t.pages) va.toNat k
    | none => match w with
      | .leaf e bits => s.useLeaf e bits va.toNat k
      | .fault l => .fault l
      | .violation => .violation

/-- A TLB holds a translation: a full one gives up its oldest (R123). -/
def State.fillOne (s : State) (place : TlbAt) (size : Nat) (ctx va : Nat) (e : W64) (bits : Nat) : State :=
  if (s.cached place ctx va).isSome then s
  else
    let mine := (s.tlb.filter fun t => t.place == place).take (size - 1)
    { s with tlb := ⟨place, ctx, va / 2 ^ bits * 2 ^ (bits - 16), 2 ^ (bits - 16), e⟩ :: mine ++ s.tlb.filter fun t => t.place != place }

/-- The TLBs of a core and of its die cache the leaf that an access used (R123). -/
def State.fillTlb (s : State) (core ctx : Nat) (va : W64) : State :=
  match s.walk va.toNat 3 (s.root ctx) with
  | .leaf e bits => (s.fillOne (.core core) 64 ctx va.toNat e bits).fillOne (.die (core / 64)) 8192 ctx va.toNat e bits
  | _ => s

/-! Island time (R7, R239 to R243). -/

def freqOf (ratio step : Nat) : Nat :=
  match ratio with
  | 0 => [105, 100, 95, 90].getD step 105
  | 1 => [84, 80, 75].getD step 84
  | _ => [63, 55, 45].getD step 63

def Island.freq (i : Island) : Nat := freqOf i.ratio i.stepIdx

def sumList (l : List Nat) : Nat := l.foldl (· + ·) 0

/-- One delivered edge in which `ops` lane operations start (R240, R242). -/
def Island.edge (i : Island) (ops : Nat) : Island :=
  let window := (ops :: i.window).take 16
  let pending := i.alarms.map (· - 1)
  let fires := pending.contains 0
  let stretched := i.capState == 1
  let left := i.capLeft - 1
  let (st, lf) :=
    if fires then (1, 6)
    else if i.capState = 0 then (0, 0)
    else if left = 0 then (if i.capState = 1 then (2, 64) else (0, 0))
    else (i.capState, left)
  let cond := decide (i.droopth.toNat + sumList (window.drop 8) < sumList (window.take 8))
  let ignored := st == 1 && 2 ≤ lf
  let phase := i.phase + 105 * (if stretched then 2 else 1)
  { i with
    cycle := i.cycle + 1
    window := window
    droopcnt := if fires then i.droopcnt + 1 else i.droopcnt
    capState := st
    capLeft := lf
    alarms := (if fires then [] else pending) ++ (if cond && !ignored then [2] else [])
    phase := phase % i.freq
    tick := i.tick + BitVec.ofNat 64 (phase / i.freq) }

/-- Nothing in the estimator can change without new starts. -/
def Island.quiet (i : Island) : Bool := i.capState == 0 && i.alarms.isEmpty && i.window.all (· == 0)

/-- Idle edges up to a tick. -/
def Island.idleTo (i : Island) (now : W64) : Nat → Island
  | 0 => i
  | n + 1 =>
    if now ≤ i.tick then i
    else if i.quiet then
      let edges := max 1 ((now - i.tick).toNat * i.freq / 105)
      let total := i.phase + 105 * edges
      { i with cycle := i.cycle + BitVec.ofNat 64 edges, phase := total % i.freq,
               tick := i.tick + BitVec.ofNat 64 (total / i.freq), started := [] }
    else Island.idleTo { i.edge 0 with started := [] } now n

/-- Alarms fired are counted in the lifetime counters too, each once (R237, R240). -/
def State.countDroops (s : State) (k : Nat) : Nat → State
  | 0 => s
  | n + 1 => (s.count (20 + k) 48).countDroops k n

/-- An island run up to a tick, after any settling of its converter (R239). -/
def Island.runTo (i : Island) (now : W64) : Island :=
  let gone := (now - i.tick).toNat
  if i.settling = 0 then i.idleTo now 128
  else if gone < i.settling then { i with settling := i.settling - gone, tick := now }
  else ({ i with settling := 0, tick := i.tick + BitVec.ofNat 64 i.settling } : Island).idleTo now 128

/-- An island's next state, with the alarms that have fired in it counted. -/
def State.setIsland (s : State) (k : Nat) (j : Island) : State :=
  (s.putIsland k j).countDroops k (j.droopcnt - (s.island k).droopcnt).toNat

/-- An island brought up to TIMEREF (R239). -/
def State.syncIsland (s : State) (k : Nat) : State := s.setIsland k ((s.island k).runTo s.timeref)

/-- One edge of an island with its time; `start` is the pipe that starts an instruction. -/
def State.edge (s : State) (k ops : Nat) (start : Option Nat) : State :=
  let j := { (s.island k).edge ops with started := start.toList }
  let s := s.setIsland k j
  if s.timeref < j.tick then { s with timeref := j.tick } else s

/-- The island of a core brought to the present, after any settling of its converter (R239). -/
def State.wakeIsland (s : State) (core : Nat) : State :=
  let k := s.islandOf core
  let s := s.syncIsland k
  if (s.island k).settling = 0 then s
  else ({ s with timeref := s.timeref + BitVec.ofNat 64 (s.island k).settling } : State).syncIsland k

/-- The tick at the start of the cycle in which a core issues (R244). -/
def State.now (s : State) (core : Nat) : W64 := (s.island (s.islandOf core)).tick

/-- The cycle in which a pipe may start: in a capped cycle it starts only if it started none in the cycle before (R242). -/
def State.startCycle (s : State) (core pipe : Nat) : State :=
  let k := s.islandOf core
  let s := s.wakeIsland core
  if (s.island k).capState == 2 && (s.island k).started.contains (core * 2 + pipe) then s.edge k 0 none else s

/-- Time passes on the island of a core: a start on `pipe` with the lane operations of its cycles, then idle edges.
DESIGN CHOICE (assumption 8). -/
def State.spend (s : State) (core pipe : Nat) (ops : List Nat) (idle : Nat) : State :=
  let k := s.islandOf core
  let s := match ops with
    | [] => s.wakeIsland core
    | o :: r => r.foldl (fun s o => s.edge k o none) ((s.startCycle core pipe).edge k o (some (core * 2 + pipe)))
  (List.replicate idle 0).foldl (fun s o => s.edge k o none) s

def State.idle (s : State) (g : Gid) (n : Nat) : State := s.spend (coreOf g) (pipeOf g) [] n

/-! Results (R57, R65, R107, R235). -/

/-- A register write of a group. Reserved bits of a status register ignore it (R13, R64, R210, R222 to R224). -/
def Group.writeCsr (g : Group) (num : Nat) (v : W64) : Group :=
  let w : W32 := v.setWidth 32
  match num with
  | 0x010 => { g with fflags := w &&& fflagsMask }
  | 0x011 => { g with lflags := w &&& lflagsMask }
  | 0x012 => { g with fmode := w &&& fmodeMask }
  | 0x013 => { g with conflicts := w }
  | 0x018 => { g with regionlSeen := w }
  | 0x020 => { g with trapcause := w &&& 0x31F }
  | 0x021 => { g with trapaddr := v &&& 0xFFFFFFFF }
  | 0x022 => { g with traplanes := w }
  | 0x023 => { g with trapval := v }
  | 0x024 => { g with epc := w &&& 0xFFFFFFFE }
  | 0x025 => { g with stepctl := w &&& 3 }
  | 0x026 => { g with bpaddr := w &&& 0xFFFFFFF1 }
  | 0x027 => { g with watcha := w &&& 0xFFFFF }
  | 0x028 => { g with watchm := w &&& 0xE00FFFFF }
  | _ => g

def Group.write (g : Group) : RegWrite → Group
  | .lane false r t v => { g with v := g.v.set (r * 32 + t) v }
  | .lane true r t v => { g with k := g.k.set (r * 32 + t) v }
  | .uni r v => { g with s := g.s.set r v }
  | .pred r m v => { g with p := g.p.set r ((g.p.get r &&& ~~~m) ||| (v &&& m)) }
  | .upred r v => { g with q := if v then g.q ||| (1#8 <<< r) else g.q &&& ~~~(1#8 <<< r) }
  | .csr n v => g.writeCsr n v
  | .lk t v =>
    match g.shadow with
    | some sh => { g with shadow := some { sh with lk := sh.lk.set t (v &&& 0xFFFFFFF0) } }
    | none => { g with lk := g.lk.set t (v &&& 0xFFFFFFF0) }

def Group.landOne (g : Group) (p : Pend) : Group :=
  let g := p.writes.foldl Group.write g
  { g with fflags := g.fflags ||| p.ff, lflags := g.lflags ||| p.lf }

/-- The key by which results land: by slot, and in one slot a `csrw` before results and flags (R65, R307). -/
def Pend.key (p : Pend) : Nat := 2 * p.land + (if p.csr then 0 else 1)

/-- Adds a result behind those that land no later (R107: of two in one slot the later-issued stays). -/
def addPend : List Pend → Pend → List Pend
  | [], p => [p]
  | q :: r, p => if q.key ≤ p.key then q :: addPend r p else p :: q :: r

/-- The results visible at a slot land (R107). -/
def Group.land (g : Group) (slot : Nat) : Group :=
  let g' := (g.pend.filter fun p => p.land ≤ slot).foldl Group.landOne g
  { g' with pend := g.pend.filter fun p => slot < p.land }

/-- Flags and bank conflicts that arise beside the group's own results: a `csrw` that has issued and is still to land leaves
them set (R65). -/
def Group.raiseFlags (g : Group) (ff lf : W32) (conflicts : Nat) : Group :=
  let late (w : RegWrite) : RegWrite := match w with
    | .csr 0x010 v => .csr 0x010 (v ||| ff.setWidth 64)
    | .csr 0x011 v => .csr 0x011 (v ||| lf.setWidth 64)
    | .csr 0x013 v => .csr 0x013 (v + BitVec.ofNat 64 conflicts)
    | w => w
  { g with
    fflags := g.fflags ||| ff
    lflags := g.lflags ||| lf
    conflicts := g.conflicts + BitVec.ofNat 32 conflicts
    pend := g.pend.map fun p => { p with writes := p.writes.map late } }

/-- Every fixed-latency result completes (R27, R206). -/
def Group.landAll (g : Group) : Group := { g.pend.foldl Group.landOne g with pend := [] }

/-- Writing a register replaces a poisoned word (R235). -/
def clearsMark (gid : Gid) (w : RegWrite) (p : ProtWord) : Bool :=
  match w, p with
  | .lane false r t _, .vreg g r' t' => g == gid && r == r' && t == t'
  | .uni r _, .ureg g r' => g == gid && r == r'
  | _, _ => false

def State.clearMarks (s : State) (gid : Gid) (ws : List RegWrite) : State :=
  if s.poison.isEmpty then s
  else { s with poison := s.poison.filter fun p => !(ws.any fun w => clearsMark gid w p) }

/-- The results of a group that are visible at a slot land, and replace the marks of their registers (R107, R235). -/
def State.landAt (s : State) (gid : Gid) (g : Group) (slot : Nat) : State :=
  (s.clearMarks gid ((g.pend.filter fun p => p.land ≤ slot).flatMap (·.writes))).putGroup gid (g.land slot)

/-- Every fixed-latency result of a group lands (R27, R206), and replaces the marks of their registers (R235). -/
def State.putLanded (s : State) (gid : Gid) (g : Group) : State :=
  (s.clearMarks gid (g.pend.flatMap (·.writes))).putGroup gid g.landAll

/-! Events, killing a context, taking a trap and returning from it. -/

/-- Sets an event of a context (R192). -/
def State.setEvent (s : State) (ctx e : Nat) : State :=
  s.modCtx ctx fun c => { c with events := if c.events.contains e then c.events else e :: c.events }

def State.setSigev (s : State) (ctx : Nat) (e : Option Nat) : State :=
  match e with
  | some e => s.setEvent ctx e
  | none => s

/-- The bytes of a handover entry (R272). -/
def handoverEntry (o : Translation) : List Byte :=
  bytesOf o.id 4 ++ bytesOf o.ctx 4 ++ bytesOf o.heapoff 4 ++ bytesOf o.size 4 ++ bytesOf o.bound 4 ++
  bytesOf ((if o.unloaded then 1 else 0) + (if o.superseded then 2 else 0)) 12 ++ bytesOf o.digest.toNat 32

/-- Vilaz brings the handover table up to date (R272): one entry for each translation that has not been freed. -/
def State.writeHandover (s : State) : State :=
  let es := (s.objects.filter fun o => !o.freed).flatMap handoverEntry
  let m := Memory.writeNat (Memory.writeBytes s.hbm (handoverBase + 64) es) (handoverBase + 8) (es.length / 64) 4
  { s with hbm := Memory.writeNat m (handoverBase + 16) (Config.sm3 es).toNat 32 }

/-- Whether Vilaz frees a translation (R265). -/
def State.freeable (s : State) (o : Translation) : Bool :=
  (o.unloaded || o.superseded) && o.bound == 0 && !o.freed &&
  !(s.objects.any fun p => !p.freed && p.heapoff != o.heapoff && p.deps.contains o.heapoff)

/-- Clears the leaf that maps the 64 KiB page of a virtual address, if there is one; Vilaz invalidates the TLBs after it (R123, R252). -/
def State.unmapPage (s : State) (ctx va : Nat) : State :=
  let entry (table level : Nat) : Nat := table + 8 * (va / 2 ^ (16 + 12 * level) % 4096)
  let next (a : Nat) : Nat := ((BitVec.ofNat 64 (s.hbm.readNat a 8)).extractLsb' 15 33).toNat * 2 ^ 15
  let e1 := entry (s.root ctx) 2
  let e2 := entry (next e1) 1
  let e3 := entry (next e2) 0
  if (s.hbm.get e1).getLsbD 0 && (s.hbm.get e2).getLsbD 0 && (s.hbm.get e3).getLsbD 0 then
    { s with
      hbm := Memory.writeNat s.hbm e3 0 8
      tlb := s.tlb.filter fun t => !(t.ctx == ctx && t.vpn ≤ va / 65536 && va / 65536 < t.vpn + t.pages) }
  else s

/-- Frees what may be freed, one translation after another; its pages are unmapped (R259, R265). -/
def State.freeObjects (s : State) : Nat → State
  | 0 => s
  | n + 1 =>
    match s.objects.find? s.freeable with
    | none => s
    | some o =>
      let mark (p : Translation) : Translation := if p.heapoff == o.heapoff && !p.freed then { p with freed := true } else p
      let s : State := { s with objects := s.objects.map mark }
      let pages := (o.size + 65535) / 65536
      let s := (List.range pages).foldl (fun s i => s.unmapPage o.ctx ((s.codebase o.ctx).toNat + o.heapoff + 65536 * i)) s
      s.freeObjects n

/-- A launch ends: its bindings are released (R265), and SIGEV is set (R196, R216). -/
def State.endLaunch (s : State) (l : Nat) (phase : LaunchState) : State :=
  let x := s.launchOf l
  if x.phase == .complete || x.phase == .reset then s
  else
    let s := s.modLaunch l fun y => { y with phase, red := [], gbarArr := [] }
    let less (o : Translation) : Translation := if x.bound.contains o.heapoff && !o.freed then { o with bound := o.bound - 1 } else o
    let s := if x.bound.isEmpty then s
      else (({ s with objects := s.objects.map less } : State).freeObjects s.objects.length).writeHandover
    let s : State := { s with resumeQ := s.resumeQ.filter fun e => e.1 != l }
    let s := s.setSigev x.ctx x.sigev
    let s := s.interrupt 4
    if x.sigev.isSome then s.msi (4 + x.queue) else s

/-- SIGEV of a packet, when V is 1 (R193). -/
def packetSigev (p : BitVec 512) : Option Nat :=
  if p.getLsbD 335 then some (p.extractLsb' 320 10).toNat else none

/-- Stores that a forced reset discards may or may not have reached memory (R216): each by a free choice. -/
def State.dropFlights (s : State) (es : List StEntry) : State :=
  es.foldl (fun s e => (if Config.freeBool s.freeCtr then s.writeBytesAt e.bytes else s).draw) s

/-- The forced reset of a context (R216). -/
def State.forcedReset (s : State) (ctx : Nat) : State :=
  let gone := (s.groups.filter fun e => e.2.ctx == ctx).map (·.1)
  let lost := s.cores.flatMap fun c => c.2.flight.filter fun e => gone.contains e.gid
  let s := s.dropFlights lost
  let s : State := { s with cores := s.cores.map fun c => (c.1, { c.2 with flight := c.2.flight.filter fun e => !gone.contains e.gid }) }
  let teams := (s.teams.filter fun e => e.2.ctx == ctx).map (·.1)
  let s : State := { s with
    groups := s.groups.filter fun e => e.2.ctx != ctx
    teams := s.teams.filter fun e => e.2.ctx != ctx
    poison := s.poison.filter fun p => match p with
      | .vreg g _ _ => !gone.contains g
      | .ureg g _ => !gone.contains g
      | .scratch t _ => !teams.contains t
      | .tile t _ => !teams.contains t
      | _ => true
    faults := s.faults.map fun f => match f.2 with
      | .group g => if gone.contains g then (f.1, .stale) else f
      | .park g _ => if gone.contains g then (f.1, .stale) else f
      | .hod t _ _ _ => if teams.contains t then (f.1, .stale) else f
      | .stale => f
    cur := match s.cur with
      | some g => if gone.contains g then none else some g
      | none => none }
  let s := ((s.launches.map (·.1)).filter fun l => (s.launchOf l).ctx == ctx).foldl (fun s l => s.endLaunch l .reset) s
  let own := s.queues.filter fun e => e.2.ctx == some ctx
  let s := own.foldl (fun s e => e.2.packets.foldl (fun s p =>
    match (if p.extractLsb' 0 8 == 0 then packetSigev p else none) with
    | some ev => (s.setEvent ctx ev).msi (4 + e.1)
    | none => s) s) s
  let s : State := { s with queues := s.queues.map fun e => if e.2.ctx == some ctx then (e.1, {}) else e }
  let s := s.modCtx ctx fun c => { c with bounce := [], bounceNext := 0, preempted := false, restoring := false }
  let s := if (s.ctrl.preState == 1 || s.ctrl.preState == 2) && s.ctrl.preCtx == ctx then
      (s.modCtrl fun c => { c with preState := 3, preReset := true }).interrupt 3
    else s
  s.msi 2

/-! The Markhor harts and the control programs that they run (R245). PRESUMED (assumption 98). -/

def State.hart (s : State) (h : Nat) : Hart := tget s.harts h {}
def State.putHart (s : State) (h : Nat) (x : Hart) : State := { s with harts := tput s.harts h x }

/-- An x register of a hart is written; x0 stays zero. -/
def State.setX (s : State) (h reg : Nat) (v : W64) : State :=
  if h < 8 && 0 < reg && reg < 32 then s.putHart h { s.hart h with x := (s.hart h).x.set reg v } else s

/-- The hart that runs a context's control program, in user mode. -/
def State.hartOf (s : State) (ctx : Nat) : Option Nat :=
  (s.harts.find? fun e => e.2.mode == .user && e.2.process == some ctx).map (·.1)

/-- a0 to a7 of a control program, x10 to x17 of the hart that runs it; those kept for it while none does. -/
def State.userRegs (s : State) (ctx : Nat) : Sparse 64 :=
  match s.hartOf ctx with
  | some h => (List.range 8).foldl (fun m i => m.set i ((s.hart h).x.get (10 + i))) []
  | none => (s.ctx ctx).regs

/-- One of a0 to a7 of a control program is written. -/
def State.setUser (s : State) (ctx i : Nat) (v : W64) : State :=
  match s.hartOf ctx with
  | some h => s.setX h (10 + i) v
  | none => s.modCtx ctx fun c => { c with regs := c.regs.set i v }

/-- The hart that runs a context's control program goes back to Vilaz, which keeps the program's registers. -/
def State.stopProgram (s : State) (ctx : Nat) : State :=
  let back (h : Hart) : Hart := if h.process == some ctx then { h with mode := .supervisor, process := none } else h
  let s := if (s.hartOf ctx).isSome then s.modCtx ctx fun c => { c with regs := s.userRegs ctx } else s
  { s with harts := s.harts.map fun e => (e.1, back e.2) }

/-- A context is killed (R213): the forced reset and the error report. DESIGN CHOICE (assumption 72). -/
def State.killCtx (s : State) (ctx : Nat) (r : ErrorReport) : State :=
  ((s.forcedReset ctx).stopProgram ctx).modCtx ctx fun c => { c with live := false, running := false, error := some r }

/-- What a trap records (R209, R210). -/
structure TrapInfo where
  cause : Nat
  addr : W32
  val : W64
  lanes : LaneMask
  epc : W32
  pos : Nat
deriving DecidableEq, Repr

def newVisit (start : W32) (mask : LaneMask) (region : Nat) : Visit :=
  { start, pos := start, count := 0, slot := 0, active := mask, wanted := 0, lastVec := none, ended := false,
    lastPc := start, region }

/-- Kills the context of a group for a cause (R213). -/
def State.killFor (s : State) (gid : Gid) (g : Group) (cause : Nat) (addr : W32) (val : W64) : State :=
  s.killCtx g.ctx { cause, addr, val, core := coreOf gid, slot := gid % 32 }

/-- The handler table entry of a cause (R207). -/
def State.handler (s : State) (ctx cause : Nat) : Option W32 :=
  let e := BitVec.ofNat 64 (s.hbm.readNat (s.htbl ctx + 8 * cause) 8)
  if e.getLsbD 32 then some (e.setWidth 32 &&& 0xFFFFFFF0) else none

/-- Handler start (R206): the shadow, the trap registers and the handler's sweep state; the handler's first census runs at
its next turn. A uniform instruction that trapped issues alone afterwards (R31). -/
def Group.enterTrap (g : Group) (t : TrapInfo) (entry : W32) : Group :=
  let g := g.landAll
  let sh : Shadow :=
    { wl := g.wl, lk := g.lk, parked := g.parked, ended := g.ended, waits := g.waits, cursor := g.cursor,
      sweeps := g.sweeps, sigacc := g.sigacc, k := g.k, visit := g.visit.map fun v => { v with lastVec := none }, epc := t.epc &&& 0xFFFFFFFE, pos := t.pos,
      cause := t.cause, lastTrailer := g.lastTrailer, lastAnchor := g.lastAnchor }
  { g with
    shadow := some sh
    trapcause := BitVec.ofNat 32 (t.cause + 256 * t.pos)
    trapaddr := t.addr.setWidth 64
    traplanes := t.lanes
    trapval := t.val
    epc := t.epc &&& 0xFFFFFFFE
    wl := lanes.foldl (fun m l => m.set l entry) []
    lk := []
    parked := 0
    ended := 0
    waits := []
    k := []
    cursor := entry
    sweeps := 0
    sigacc := 0
    visit := none
    await := g.await.map fun a => { a with home := if a.home == .here then .stopped else a.home }
    status := .ready }

/-- Taking a trap (R206 to R209, R213): the one shared operation. Causes 2 and 22 are fatal, as is any cause inside
a handler or without a handler entry. -/
def State.takeTrap (s : State) (gid : Gid) (t : TrapInfo) : State :=
  match s.group gid with
  | none => s
  | some g =>
    let s : State := { s with cur := none }
    match g.shadow with
    | some sh =>
      s.killFor gid g 22 t.addr (BitVec.ofNat 64 (sh.cause + 65536 * t.cause))
    | none =>
      if t.cause = 2 then s.killFor gid g 2 t.addr t.val
      else match s.handler g.ctx t.cause with
        | none => s.killFor gid g t.cause t.addr t.val
        | some entry => (s.putLanded gid g).putGroup gid (g.enterTrap t entry)

/-- The shadow restored (R211); `resumes` is whether the stopped course goes on. -/
def Group.restoreShadow (g : Group) (sh : Shadow) (resumes : Bool) : Group :=
  let home (h : KHome) : KHome := if h == .stopped then (if resumes then .here else .lost) else h
  { g with
    await := g.await.map fun a => { a with home := home a.home }
    wl := sh.wl, lk := sh.lk, parked := sh.parked, ended := sh.ended, waits := sh.waits, cursor := sh.cursor,
    sweeps := sh.sweeps, sigacc := sh.sigacc, k := sh.k, visit := sh.visit, lastTrailer := sh.lastTrailer,
    lastAnchor := sh.lastAnchor, shadow := none, status := .ready }

end Sys2Proof.Machine
end

