-- ==== Sys2Proof/Machine/Pages.lean ====
section
/-!
DEFINITION. What Vilaz does with memory (R5, R120, R123, R225, R256, R259): free room in a space, page tables, mappings.
Where the spec leaves a choice to Vilaz it is a free value, kept inside the room that is free (assumption 21).
-/
namespace Sys2Proof.Machine

/-- The control region: the top 64 MiB of HBM (R5). -/
def controlBase : Nat := 0x9FFC000000

def heapSize : Nat := 2 ^ 32

/-- The physical base of the code heap (R259). -/
def heapBase : Nat := Config.codeHeapPage % ((controlBase - heapSize) / 65536 + 1) * 65536

/-- Whether a range is free of given ones and ends by a limit. -/
def roomFree (used : List (Nat × Nat)) (limit a n : Nat) : Bool :=
  a + n ≤ limit && used.all fun u => u.1 + u.2 ≤ a || a + n ≤ u.1

/-- An aligned free range: the free choice when it is free, else the first behind a used one. -/
def chooseRoom (used : List (Nat × Nat)) (lo limit align n choice : Nat) : Option Nat :=
  let up (a : Nat) : Nat := (a + align - 1) / align * align
  let free (a : Nat) : Bool := decide (lo ≤ a) && roomFree used limit a n
  let c := choice % (limit / align + 1) * align
  if free c then some c else ((lo :: used.map fun u => u.1 + u.2).map up).find? free

/-- HBM that Vilaz may not allocate: what it has allocated, the code heap, the context table and the fault buffer. -/
def State.hbmUsed (s : State) : List (Nat × Nat) :=
  (heapBase, heapSize) :: (s.ctrl.ctxtbl.toNat, 8192) :: (s.ctrl.fbbase.toNat, 32 * s.ctrl.fbsize.toNat) :: s.reserved

/-- Vilaz allocates HBM, in a die's range when there is room there (R256, call 2); `die` 4 or more prefers none. -/
def State.allocHbm (s : State) (die align n : Nat) : Option (State × Nat) :=
  let c := (Config.freeWord s.freeCtr).toNat
  let d := 160 * 2 ^ 30
  let first := if 4 ≤ die then none
    else chooseRoom s.hbmUsed (d * die) (min (d * (die + 1)) controlBase) align n c
  let a := match first with
    | some a => some a
    | none => chooseRoom s.hbmUsed 0 controlBase align n c
  a.map fun a => ({ s with reserved := (a, n) :: s.reserved }.draw, a)

/-- A cleared page table of 32 KiB (R123). -/
def State.newTable (s : State) : Option (State × Nat) :=
  (s.allocHbm 4 32768 32768).map fun r => ({ r.1 with hbm := r.1.hbm.clear r.2 (r.2 + 32768) }, r.2)

/-- The next table of a walk, made if it is missing. -/
def State.stepTable (s : State) (table index : Nat) : Option (State × Nat) :=
  let e := BitVec.ofNat 64 (s.hbm.readNat (table + 8 * index) 8)
  if e.getLsbD 0 && e.getLsbD 1 then none
  else if e.getLsbD 0 then some (s, (e.extractLsb' 15 33).toNat * 2 ^ 15)
  else match s.newTable with
    | none => none
    | some (s, a) => some ({ s with hbm := Memory.writeNat s.hbm (table + 8 * index) (a + 1) 8 }, a)

/-- Maps one 64 KiB page (R123). -/
def State.mapPage (s : State) (ctx va leaf : Nat) : Option State :=
  match s.stepTable (s.root ctx) (va / 2 ^ 40 % 4096) with
  | none => none
  | some (s, t2) => match s.stepTable t2 (va / 2 ^ 28 % 4096) with
    | none => none
    | some (s, t3) => some { s with hbm := Memory.writeNat s.hbm (t3 + 8 * (va / 2 ^ 16 % 4096)) leaf 8 }

/-- Maps a range page by page; `leaf` gives a page's entry. -/
def State.mapPages (s : State) (ctx va : Nat) (leaf : Nat → Nat) : Nat → Option State
  | 0 => some s
  | n + 1 => match s.mapPages ctx va leaf n with
    | none => none
    | some s => s.mapPage ctx (va + 65536 * n) (leaf n)

def State.unmapPages (s : State) (ctx va n : Nat) : State :=
  (List.range n).foldl (fun s i => s.unmapPage ctx (va + 65536 * i)) s

def pagesOf (n : Nat) : Nat := (n + 65535) / 65536

/-- A leaf (R123): valid, leaf, W, X, SPACE and PEER at a physical address. -/
def leafOf (w x : Bool) (space peer phys : Nat) : Nat :=
  3 + (if w then 4 else 0) + (if x then 8 else 0) + 32 * space + 128 * peer + phys

/-- Virtual ranges of a context in use: its allocations and the window of the code heap. -/
def State.vaUsed (s : State) (ctx : Nat) : List (Nat × Nat) :=
  ((s.codebase ctx).toNat, heapSize) :: (s.ctx ctx).allocs.filterMap fun a =>
    if a.kind == 2 then none else some (a.va, 65536 * pagesOf a.size)

/-- A free virtual range of a context. -/
def State.chooseVa (s : State) (ctx n : Nat) : Option Nat :=
  chooseRoom (s.vaUsed ctx) 65536 (2 ^ 52) 65536 (65536 * pagesOf n) (Config.freeWord s.freeCtr).toNat

/-- Vilaz reserves a spill region on every core whose entry of the spill table is empty (R202, R250); its size is free. -/
def State.reserveSpill (s : State) (ctx : Nat) : State :=
  if s.spillTbl ctx = 0 then s
  else (List.range 256).foldl (fun s core =>
    let e := s.spillTbl ctx + 16 * core
    if s.hbm.readNat (e + 8) 8 != 0 then s
    else
      let n := 65536 * (1 + (Config.freeWord s.freeCtr).toNat % 256)
      match s.draw.allocHbm (core / 64) 65536 n with
      | some (t, a) => { t with hbm := Memory.writeNat (Memory.writeNat t.hbm e a 8) (e + 8) n 8 }
      | none => s) s

/-- Vilaz maps the mailboxes that a launch needs (R225): pages that are not mapped yet get memory.
DESIGN CHOICE (assumption 66). -/
def State.mapMailbox (s : State) (ctx base n : Nat) : State :=
  let first := base / 65536
  (List.range ((base + n + 65535) / 65536 - first)).foldl (fun s i =>
    let va := (first + i) * 65536
    match s.walk va 3 (s.root ctx) with
    | .fault _ => match s.allocHbm 4 65536 65536 with
      | none => s
      | some (t, a) => (t.mapPage ctx va (leafOf true false 0 0 a)).getD s
    | _ => s) s

end Sys2Proof.Machine
end

