-- ==== Sys2Proof/Machine/Code.lean ====
section
/-!
DEFINITION. Code as the sequencer sees it: fetching an instruction's bytes (R104, R124), course starts (R45),
and the trailer of a course (R99, R100).
-/
namespace Sys2Proof.Machine

/-- A place from which a byte of code is fetched. -/
def State.codeAt (s : State) (core ctx : Nat) (off : Nat) : Trans :=
  s.translate core ctx .fetch (s.codebase ctx + BitVec.ofNat 64 (off % 2 ^ 32))

inductive Fetched where
  | bytes (bs : List Byte)
  | fault (straddle : Bool) (level : Nat) (va : W64)
  | violation (va : W64)
deriving DecidableEq, Repr

/-- The bytes of the instruction at an offset (R84, R104): its first byte's page, and the page its last byte lies on
when that is another; the first byte alone for the malformed prefix. -/
def State.fetch (s : State) (core ctx off : Nat) : Fetched :=
  let va (o : Nat) : W64 := s.codebase ctx + BitVec.ofNat 64 (o % 2 ^ 32)
  match s.codeAt core ctx off with
  | .violation => .violation (va off)
  | .fault l => .fault false l (va off)
  | .ok p a =>
    let len := max 1 (lengthOf (s.readByte p a))
    let next := (off / 65536 + 1) * 65536
    let here := min len (next - off)
    if len ≤ here then .bytes (s.readBytesAt p a len)
    else match s.codeAt core ctx next with
      | .violation => .violation (va next)
      | .fault l => .fault true l (va next)
      | .ok p' a' => .bytes (s.readBytesAt p a here ++ s.readBytesAt p' a' (len - here))

/-- The translations that a fetch used are cached (R123). -/
def State.noteFetch (s : State) (core ctx off len : Nat) : State :=
  let va (o : Nat) : W64 := s.codebase ctx + BitVec.ofNat 64 (o % 2 ^ 32)
  let s := s.fillTlb core ctx (va off)
  if off / 65536 == (off + len - 1) / 65536 then s else s.fillTlb core ctx (va (off + len - 1))

/-- The end flag as encoded (R84, R86): bit [31], [40] or [71] of the form's integer. A compact instruction has none. -/
def endFlag (bs : List Byte) : Bool :=
  match bs.length with
  | 6 => (beNat bs).testBit 31
  | 8 => (beNat bs).testBit 40
  | 12 => (beNat bs).testBit 71
  | _ => false

/-- The translation of the context that holds an offset, not freed (R45, R265). -/
def State.objectAt (s : State) (ctx : Nat) (off : Nat) : Option Translation :=
  s.objects.find? fun o => o.ctx == ctx && !o.freed && o.heapoff ≤ off && off < o.heapoff + o.codeSize

/-- The bytes of the instruction at an offset, whether or not its page is mapped: those that a fetch meets, or where its page is
missing those of the object that the loader has placed there (R104, R264). DEDUCED (assumption 113). -/
def State.codeBytes (s : State) (core ctx off : Nat) : Option (List Byte) :=
  match s.fetch core ctx off with
  | .bytes bs => some bs
  | _ =>
    let at' := heapBase + off % 2 ^ 32
    if (s.objectAt ctx (off % 2 ^ 32)).isSome then some (s.readBytesAt .hbm at' (max 1 (lengthOf (s.hbm.get at')))) else none

/-- The offset of the trailer word of the course that continues at an offset, looking at most n instructions ahead. -/
def State.trailerOff (s : State) (core ctx : Nat) : Nat → Nat → Option Nat
  | _, 0 => none
  | off, n + 1 =>
    match s.codeBytes core ctx off with
    | some bs =>
      if bs.length = 0 then none
      else if endFlag bs then some (off + bs.length)
      else s.trailerOff core ctx (off + bs.length) n
    | none => none

/-- The trailer at an offset, when there is code and it is well formed (R100, R102). -/
def State.trailerAt (s : State) (core ctx off : Nat) : Option Trailer := (s.codeBytes core ctx off).bind decodeTrailer

/-- The registers a course's trailer names; none when the course has no trailer. -/
def State.courseTrailer (s : State) (core ctx : Nat) (v : Visit) : Option Trailer :=
  match s.trailerOff core ctx v.pos.toNat (24 - v.count) with
  | some o => s.trailerAt core ctx o
  | none => none

/-- The next course in layout order after a trailer (R40, R99): the next 16-byte boundary. -/
def nextCourse (trailer : Nat) : W32 := BitVec.ofNat 32 ((trailer + 12 + 15) / 16 * 16)

/-- next(C) of the course being run (R40, R99), by the bytes of its code, be its page there to fetch or not (R104). A course with no
trailer has none: a free value (assumption 4). DESIGN CHOICE (assumption 24). -/
def State.nextOf (s : State) (core ctx : Nat) (v : Visit) : W32 :=
  match s.trailerOff core ctx v.pos.toNat (24 - v.count) with
  | some o => nextCourse o
  | none => (Config.freeWord s.freeCtr).setWidth 32 &&& 0xFFFFFFF0

/-- The count register of a Galbel region whose translation begins at an offset (R268). -/
def State.regionCount (s : State) (ctx off : Nat) : Option Nat :=
  (s.objectAt ctx off).bind fun o => tfind o.regions (off - o.heapoff)

/-- Whether an offset is the start of a course of an object the context has loaded (R45). -/
def State.isStart (s : State) (ctx : Nat) (off : W32) : Bool :=
  match s.objectAt ctx off.toNat with
  | some o => o.starts.contains (off.toNat - o.heapoff)
  | none => false

/-- The heap base of the object that holds an offset (R45). -/
def State.objectBase (s : State) (ctx : Nat) (off : W32) : W32 :=
  match s.objectAt ctx off.toNat with
  | some o => BitVec.ofNat 32 o.heapoff
  | none => 0

end Sys2Proof.Machine
end

