-- ==== Sys2Proof/Machine/MemOps.lean ====
section
/-!
DEFINITION. The memory system of a core (R120, R134 to R146): the store queues, stores in flight, the L1, the
performance of loads and atomics in program order, and the outstanding operations that they finish.
-/
namespace Sys2Proof.Machine

/-! Outstanding operations (R145). -/

/-- Operations retire in issue order within their class. -/
def settleOps : List OpRec → List OpClass → List OpRec
  | [], _ => []
  | o :: r, blocked =>
    if o.finished && !blocked.contains o.cls then settleOps r blocked
    else o :: settleOps r (o.cls :: blocked)

def Group.counter (g : Group) (c : OpClass) : Nat := (g.ops.filter fun o => o.cls == c).length

/-- A group stopped at `waitc` is ready once its counter is low enough (R146, R372). -/
def Group.wakeWaitc (g : Group) : Group :=
  match g.status with
  | .stopped (.waitc c n) => if g.counter c ≤ n then { g with status := .ready } else g
  | _ => g

/-- An operation has finished; the operations that can retire do (R145). The windows of an `mloop` are pending until it
retires (R160). -/
def Group.finish (g : Group) (seq : Nat) : Group :=
  let ops := settleOps (g.ops.map fun o => if o.seq == seq then { o with finished := true } else o) []
  let await := g.await.filter fun a => !(a.req == .windows) || ops.any fun o => o.seq == a.seq
  ({ g with ops, await } : Group).wakeWaitc

def Group.enter (g : Group) (c : OpClass) (puts : List W64) : Group :=
  { g with ops := g.ops ++ [{ cls := c, seq := g.seq, finished := false, region := g.regionSeq, puts }] }

/-- The spaces of the remote class (R145). -/
def Place.remote : Place → Bool
  | .host => true
  | .peer _ => true
  | .peerScratch _ => true
  | _ => false

/-! Stores. -/

def StEntry.overlaps (e : StEntry) (bs : List (Place × Nat)) : Bool :=
  e.bytes.any fun b => bs.any fun a => a.1 == b.place && a.2 == b.addr

def StEntry.spots (e : StEntry) : List (Place × Nat) := e.bytes.map fun b => (b.place, b.addr)

/-- Bytes whose accesses one unit performs in the order in which they reach it: the same byte, or one bank (R137, R328). -/
def clash (x y : Place × Nat) : Bool :=
  x.1 == y.1 && (x.2 == y.2 || (x.1 == .bank && x.2 / 65536 == y.2 / 65536))

def StEntry.meets (e : StEntry) (bs : List (Place × Nat)) : Bool := e.spots.any fun x => bs.any (clash x)

/-- A store in flight that a later one may not pass: one to a byte or a bank of its own (R137, R328), or a volatile one of
the same group before a volatile one (R126). -/
def StEntry.before (e f : StEntry) : Bool := e.meets f.spots || (e.vol && f.vol && f.gid == e.gid)

/-- The Quoin port through which the device reaches another (R6, R129; assumption 76). -/
def portTo (dev : Nat) : Nat := Config.peerPort dev % 18

/-- Whether a port starts n more data flits: a paused one starts those of the 64 flit times after the pause at most (R131).
DEDUCED (assumption 54). -/
def State.portTakes (s : State) (port n : Nat) : Bool :=
  let l := s.link port
  !l.paused || (decide (n ≤ l.stopIn) && decide (s.timeref < l.stopAt))

/-- Whether the ports start the flits of requests now, given by device and flits; what goes out through one port counts
together. -/
def State.sends (s : State) (rs : List (Nat × Nat)) : Bool :=
  rs.all fun r => s.portTakes (portTo r.1) (sumList ((rs.filter fun x => portTo x.1 == portTo r.1).map (·.2)))

/-- The device that an access to a place reaches through a port. -/
def Place.dev? : Place → Option Nat
  | .peer d => some d
  | .peerScratch d => some d
  | _ => none

/-- Whether the ports of places take a request of one flit for each of them now (R131). -/
def State.portsOpen (s : State) (ps : List Place) : Bool := s.sends (ps.filterMap fun p => p.dev?.map fun d => (d, 1))

/-- Flits that data of n bytes takes (R6): 256 bytes each, and one for a request with none. -/
def flitsOf (n : Nat) : Nat := max 1 ((n + 255) / 256)

/-- A request of n bytes of data goes out through the port of a device; a paused port counts its last flits (R131). -/
def State.sendFlits (s : State) (dev n : Nat) : State :=
  if (s.link (portTo dev)).paused then s.modLink (portTo dev) fun l => { l with stopIn := l.stopIn - flitsOf n } else s

/-- The devices that bytes at places are for, and how many bytes each. -/
def byDevice (ps : List Place) : List (Nat × Nat) :=
  (ps.filterMap Place.dev?).eraseDups.map fun d => (d, (ps.filter fun p => p.dev? == some d).length)

/-- Requests of bytes for other devices go out. -/
def State.sendBytes (s : State) (ps : List Place) : State := (byDevice ps).foldl (fun s d => s.sendFlits d.1 d.2) s

/-- Whether the ports take the flits of bytes for other devices now (R131). -/
def State.bytesOpen (s : State) (ps : List Place) : Bool := s.sends ((byDevice ps).map fun d => (d.1, flitsOf d.2))

def StEntry.places (e : StEntry) : List Place := e.bytes.map (·.place)

/-- A store reaches its home (R120, R127 to R130): its bytes are performed there; a put leaves the device. A store that is
not volatile allocates its HBM lines in their home L2s (R126). -/
def State.perform (s : State) (e : StEntry) : State :=
  let puts := e.bytes.filter fun b => match b.place with
    | .peerScratch _ => true
    | _ => false
  let s := s.sendBytes e.places
  let s := if e.vol then s else (e.bytes.filter fun b => b.place == .hbm).foldl (fun s b => s.useL2 b.addr) s
  let s := (s.writeBytesAt e.bytes).mirror e.bytes
  let s := puts.foldl (fun s b => match b.place with
    | .peerScratch d => s.send (.put d b.addr [b.val])
    | _ => s) s
  if e.bytes.any (fun b => b.place.remote) then s else s.modGroup e.gid fun g => g.finish e.seq

/-- The stores in flight that satisfy a test, with every earlier one that one of them may not pass. -/
def chosen (p : StEntry → Bool) : List StEntry → List (StEntry × Bool)
  | [] => []
  | e :: r =>
    let l := chosen p r
    (e, p e || l.any fun f => f.2 && e.before f.1) :: l

/-- The chosen stores that can go are performed in their order, and those that stay are left: a closed port keeps its stores, and
they keep the stores that may not pass them. A store uses up flits of a paused port before the next one is judged (R131). -/
def State.reachEach (s : State) : List (StEntry × Bool) → List StEntry → State × List StEntry
  | [], _ => (s, [])
  | (e, sel) :: r, kept =>
    if sel && s.bytesOpen e.places && !(kept.any fun f => f.before e) then (s.perform e).reachEach r kept
    else
      let x := s.reachEach r (if sel then e :: kept else kept)
      (x.1, e :: x.2)

/-- Stores in flight of a core that satisfy a test reach their homes, and those that they may not pass before them, in the
order in which they left. DESIGN CHOICE (assumption 71). -/
def State.reachWhere (s : State) (core : Nat) (p : StEntry → Bool) : State :=
  let flight := (s.core core).flight
  let x := s.reachEach (chosen p flight) []
  if x.2.length == flight.length then s else x.1.modCore core fun c => { c with flight := x.2 }

/-- Stores in flight to given bytes or their banks. -/
def State.reachBytes (s : State) (core : Nat) (bs : List (Place × Nat)) : State :=
  s.reachWhere core fun e => e.meets bs

/-- One store in flight reaches its home, unless an earlier one that it may not pass has not (R126, R137, R328), or its port
is paused (R131). -/
def State.reachOne (s : State) (core index : Nat) : State :=
  match (s.core core).flight.drop index with
  | [] => s
  | e :: _ =>
    if !s.bytesOpen e.places || ((s.core core).flight.take index).any fun f => f.before e then s
    else (s.modCore core fun c => { c with flight := c.flight.eraseIdx index }).perform e

def Place.isScratchOf (p : Place) (t : Nat) : Bool :=
  match p with
  | .scratch u => u == t
  | _ => false

/-! Loads and atomics. -/

/-- The youngest queued value of a byte among older stores (R135). -/
def queued (stq : List StEntry) (seq : Nat) (p : Place) (a : Nat) : Option Byte :=
  stq.foldl (fun acc e => if e.seq < seq then
    match e.bytes.reverse.find? fun b => b.place == p && b.addr == a with
    | some b => some b.val
    | none => acc
    else acc) none

/-- A byte as the core sees it before home: a store that has left a queue and is on its way. Those to local HBM, host and
peer memory, which the L1 holds, every group of the core sees (R134, R139); others only their own group. -/
def Core.inFlight (c : Core) (gid : Gid) (p : Place) (a : Nat) : Option Byte :=
  c.flight.foldl (fun acc e => if e.gid == gid || p.cached then
    match e.bytes.reverse.find? fun b => b.place == p && b.addr == a with
    | some b => some b.val
    | none => acc
    else acc) none

def State.coreByte (s : State) (gid : Gid) (p : Place) (a : Nat) : Byte :=
  ((s.core (coreOf gid)).inFlight gid p a).getD (s.readByte p a)

def lineSpots (p : Place) (a : Nat) : List (Place × Nat) := (List.range 128).map fun i => (p, lineOf a * 128 + i)

/-- The marks of a line's words at their home, for the copy that a core's L1 takes (R235). -/
def State.lineMarks (s : State) (core : Nat) (p : Place) (a : Nat) : List ProtWord :=
  if s.poison.isEmpty then []
  else (List.range 16).filterMap fun i =>
    let x := lineOf a * 128 + 8 * i
    if s.poisoned p x then (protWord p x).map (.l1 core) else none

/-- A core's L1 reads a line: from the home L2, which allocates it too, or from host or peer memory (R120). -/
def State.fillLine (s : State) (gid : Gid) (p : Place) (a : Nat) : State :=
  let core := coreOf gid
  let s := if s.poison.isEmpty then s else s.reachBytes core (lineSpots p a)
  let s := if p == .hbm then s.useL2 a else s
  let s := match p.dev? with
    | some d => s.sendFlits d 0
    | none => s
  let fresh := (lineSpots p a).map fun x => s.coreByte gid p x.2
  let words := (List.range 16).filterMap fun i => (protWord p (lineOf a * 128 + 8 * i)).map (.l1 core)
  let s : State := if s.poison.isEmpty then s
    else { s with poison := s.poison.filter (fun w => !words.contains w) ++ s.lineMarks core p a }
  s.modCore core fun c =>
    { c with l1 := (⟨p, lineOf a, fresh⟩ :: c.l1.filter fun l => !(l.place == p && l.line == lineOf a)).take 512 }

/-- The core's line for an address, allocated if absent. A held line that differs from memory may have been dropped
(assumption 12), but not one that its paused port would have to bring again (R131). -/
def State.useLine (s : State) (gid : Gid) (p : Place) (a : Nat) : State :=
  if !p.cached then s
  else
    let core := coreOf gid
    let same (l : Line) : Bool :=
      l.bytes == (lineSpots p a).map (fun x => s.coreByte gid p x.2) &&
      (s.poison.isEmpty || (lineSpots p a).all fun x => s.linePoisoned core p x.2 == s.poisoned p x.2)
    let keep := match (s.core core).line p a with
      | some l => same l || (p.dev?.any fun d => (s.link (portTo d)).paused) || !Config.freeBool s.freeCtr
      | none => false
    if keep then s else s.fillLine gid p a

def State.dropLine (s : State) (core : Nat) (p : Place) (a : Nat) : State :=
  if ((s.core core).line p a).isSome then
    s.modCore core fun c => { c with l1 := c.l1.filter fun l => !(l.place == p && l.line == lineOf a) }
  else s

/-- A byte for a plain load: the group's queue, the L1, the core's stores in flight, home (R134 to R136). -/
def State.plainByte (s : State) (gid : Gid) (stq : List StEntry) (seq : Nat) (p : Place) (a : Nat) : Byte :=
  match queued stq seq p a with
  | some b => b
  | none =>
    match (s.core (coreOf gid)).line p a with
    | some l => l.bytes.getD (a % 128) 0
    | none => s.coreByte gid p a

/-- Bytes for an acquire at group or team scope: the L1 line if present, the home point otherwise (R139). -/
def State.coreAcqByte (s : State) (gid : Gid) (p : Place) (a : Nat) : Byte :=
  match (s.core (coreOf gid)).line p a with
  | some l => l.bytes.getD (a % 128) 0
  | none => s.coreByte gid p a

def spotsOf (accs : List Access) (size : Nat) : List (Place × Nat) :=
  accs.flatMap fun a => (List.range size).map fun i => (a.place, a.addr + i)

/-- The value an instruction leaves at a location (R290), on 32- or 64-bit values. -/
def atomNew (op : Nat) (ty : ETy) (x c : Nat) : Nat :=
  let w := if ty == .b64 then 64 else 32
  let sgn := ty == .i32 || ty == .b64
  match op with
  | 0 => match ty with
    | .f32 => (fadd1 fmt32 0 false x c).1
    | .bf16x2 => pack 16 [(fadd1 fmtBf 0 false (elem 16 x 0) (elem 16 c 0)).1, (fadd1 fmtBf 0 false (elem 16 x 1) (elem 16 c 1)).1]
    | _ => (x + c) % 2 ^ w
  | 1 => if ty == .f32 then (fmin1 fmt32 false x c).1 else if toInt sgn w c < toInt sgn w x then c else x
  | 2 => if ty == .f32 then (fmax1 fmt32 false x c).1 else if toInt sgn w x < toInt sgn w c then c else x
  | 3 => x &&& c
  | 4 => x ||| c
  | 5 => x ^^^ c
  | _ => c

/-- Register writes of one lane's loaded value: 1, 2 or 4 registers (R59, R118). -/
def laneWrites (k : Bool) (reg lane : Nat) (size : Nat) (sext : Bool) (x : Nat) : List RegWrite :=
  if size = 16 then (List.range 4).map fun i => .lane k (reg + i) lane (BitVec.ofNat 32 (x / 2 ^ (32 * i)))
  else if size = 8 then [.lane k reg lane (BitVec.ofNat 32 x), .lane k (reg + 1) lane (BitVec.ofNat 32 (x / 2 ^ 32))]
  else [.lane k reg lane ((extend sext (8 * size) x).setWidth 32)]

/-- Lanes of one atomic in ascending thread order; each reads what the lower lanes left (R143, R291).
DESIGN CHOICE (assumption 27). -/
def State.atomLanes (s : State) (f : Access → Nat → Option Nat) (size : Nat) : List Access → State × List (Nat × Nat)
  | [] => (s, [])
  | a :: r =>
    let x := s.readAt a.place a.addr size
    let s := match f a x with
      | some y => s.mergeBytesAt (storeBytes a.place a.addr (bytesOf y size))
      | none => s
    let (s, rest) := s.atomLanes f size r
    (s, (a.lane, x) :: rest)

/-- Whether a request still has to be performed by the memory system. -/
def Await.unperformed (a : Await) : Bool :=
  a.val.isNone && match a.req with
    | .engine => false
    | .windows => false
    | _ => true

/-- Stores of the group in flight that a release at team scope makes visible to the team: those to bank memory and to the
scratch of other teams, which no L1 holds (R138). -/
def StEntry.beyondCore (e : StEntry) : Bool := e.bytes.any fun b => !b.place.cached && !b.place.remote

/-- The stores in flight of a core that a release of a group waits for (R138): at cluster scope and wider all of them, for
what the group has seen of others is ordered too (R140). -/
def releases (gid : Gid) (sc : Scope) (e : StEntry) : Bool :=
  sc.wide || (sc == .team && e.gid == gid && e.beyondCore)

/-- Whether what a release at a scope orders before it is complete (R132, R138): older loads and atomics performed, older
stores out of the queue and performed, and at system scope those to host, peers and peer scratch acknowledged. -/
def State.ordered (s : State) (gid : Gid) (seq : Nat) (sc : Scope) : Bool :=
  match s.group gid with
  | none => true
  | some g =>
    !(g.await.any fun a => a.unperformed && decide (a.seq < seq)) && !(g.stq.any fun e => decide (e.seq < seq)) &&
    !((s.core (coreOf gid)).flight.any (releases gid sc)) &&
    (sc != .sys || !(g.ops.any fun o => o.cls == .remote && decide (o.seq < seq) && !o.finished))

/-- The bytes of a store that have left the queue of a group: those for the team's own scratch are performed, and the
core's L1 lines are updated; words that they cover whole lose their marks there (R134, R235). -/
def State.leaves (s : State) (core team : Nat) (e : StEntry) : State :=
  let own := e.bytes.filter fun b => b.place.isScratchOf team
  let out := e.bytes.filter fun b => !b.place.isScratchOf team
  let covered (b : StByte) : Bool :=
    (List.range 8).all fun i => out.any fun c => c.place == b.place && c.addr == b.addr / 8 * 8 + i
  let s := s.writeBytesAt own
  if out.isEmpty then s
  else
    let s : State := if s.poison.isEmpty then s else
      { s with poison := s.poison.filter fun w => !(out.any fun b => covered b && (protWord b.place b.addr).map (.l1 core) == some w) }
    s.modCore core fun c =>
      let c := if c.l1.isEmpty then c else out.foldl Core.updateLine c
      { c with flight := c.flight ++ [{ e with bytes := out }] }

/-- The oldest store of a group leaves its queue (R134), once every older load has been performed; a releasing one once what
its release orders before it is complete (R138). -/
def State.leaveHead (s : State) (gid : Gid) : State :=
  match (s.group gid).bind fun g => g.stq.head? with
  | none => s
  | some e =>
    let s := match e.rel with
      | some sc => s.reachWhere (coreOf gid) (releases gid sc)
      | none => s
    match s.group gid with
    | none => s
    | some g =>
      let waits := match e.rel with
        | some sc => !s.ordered gid e.seq sc
        | none => g.await.any fun a => a.unperformed && decide (a.seq < e.seq)
      if waits then s else (s.putGroup gid { g with stq := g.stq.tail }).leaves (coreOf gid) g.team e

/-- Stores older than a sequence number leave the queue. -/
def State.leaveOlder (s : State) (gid : Gid) (seq : Nat) : Nat → State
  | 0 => s
  | n + 1 =>
    match (s.group gid).bind fun g => g.stq.head? with
    | some e => if e.seq < seq then (s.leaveHead gid).leaveOlder gid seq n else s
    | none => s

def State.leaveAll (s : State) (gid : Gid) (seq : Nat) : State :=
  s.leaveOlder gid seq (((s.group gid).map fun g => g.stq.length).getD 0)

/-- The end of the group's queued stores, older than a sequence number, that satisfy a test. -/
def queuedUpTo (stq : List StEntry) (seq : Nat) (p : StEntry → Bool) : Nat :=
  stq.foldl (fun m e => if e.seq < seq && p e then e.seq + 1 else m) 0

/-- Older stores of the group to given bytes are performed where a reader beyond the queue reads (R135). -/
def State.drainBytes (s : State) (gid : Gid) (seq : Nat) (bs : List (Place × Nat)) (home : Bool) : State :=
  let upTo := ((s.group gid).map fun g => queuedUpTo g.stq seq fun e => e.overlaps bs).getD 0
  let s := if upTo = 0 then s else s.leaveAll gid upTo
  if home then s.reachBytes (coreOf gid) bs else s

/-- Older volatile stores of the group are performed before a volatile load (R126). -/
def State.leaveVolatile (s : State) (gid : Gid) (seq : Nat) : State :=
  let upTo := ((s.group gid).map fun g => queuedUpTo g.stq seq fun e => e.vol).getD 0
  let s := if upTo = 0 then s else s.leaveAll gid upTo
  s.reachWhere (coreOf gid) fun e => e.vol && e.gid == gid

/-- What a release at a scope orders before it is performed, as far as it can be (R138). -/
def State.releaseStores (s : State) (gid : Gid) (seq : Nat) (sc : Scope) : State :=
  (s.leaveAll gid seq).reachWhere (coreOf gid) (releases gid sc)

/-- An acquire's effect on the core (R139). -/
def State.acquire (s : State) (gid : Gid) (sc : Scope) : State :=
  if sc.wide then s.invalidateL1 (coreOf gid) else s

/-! What a request waits for, and what it does. -/

/-- The accesses of a request. -/
def Request.accesses : Request → List Access × Nat
  | .load _ _ size _ accs _ _ => (accs, size)
  | .sload size _ acc _ => ([acc], size)
  | .atom _ _ size _ _ accs _ _ => (accs, size)
  | .cas size _ _ accs _ _ => (accs, size)
  | .red _ _ size _ _ accs => (accs, size)
  | _ => ([], 0)

def Request.spots (r : Request) : List (Place × Nat) := spotsOf r.accesses.1 r.accesses.2

/-- How a request reads: beside its own group's queue and the L1, or at the point of coherence; volatile; and the release
before it (R126, R135, R138, R139). -/
structure Manner where
  plain : Bool                     -- it may take a value from the group's queue
  home : Bool                      -- it reads at the point of coherence
  vol : Bool
  rel : Option Scope

def Request.manner : Request → Manner
  | .load vol acq .. => { plain := !vol && acq.isNone, home := vol || (acq.map Scope.wide).getD false, vol, rel := none }
  | .atom _ _ _ sc ord .. => { plain := false, home := true, vol := false, rel := if ord == .rel then some sc else none }
  | .cas _ sc ord .. => { plain := false, home := true, vol := false, rel := if ord == .rel then some sc else none }
  | .red _ _ _ sc ord _ => { plain := false, home := true, vol := false, rel := if ord == .rel then some sc else none }
  | _ => { plain := true, home := false, vol := false, rel := none }

/-- The stores in flight that a request waits for: those to its bytes when it reads at home, and in any case those to a bank
or another team's scratch, which no L1 stands before (R135, R328); and older volatile ones (R126). -/
def Request.behind (r : Request) (gid : Gid) (e : StEntry) : Bool :=
  let m := r.manner
  e.meets (if m.home then r.spots else if m.plain then r.spots.filter fun x => x.1 == .bank
    else r.spots.filter fun x => !x.1.cached) || (m.vol && e.vol && e.gid == gid)

/-- Older stores of the group that a request waits for leave the queue and are performed, as far as they can be. -/
def State.prepare (s : State) (gid : Gid) (a : Await) : State :=
  let m := a.req.manner
  let s := match m.rel with
    | some sc => s.releaseStores gid a.seq sc
    | none => s
  let s := if m.vol then s.leaveVolatile gid a.seq else s
  let s := if m.plain then s else s.drainBytes gid a.seq a.req.spots false
  s.reachWhere (coreOf gid) (a.req.behind gid)

/-- The places to which the accesses of a request go beyond the core, one for each request that goes out: each of those at
home, and a line once for the others, as often as a full L1 has given it up. -/
def State.fetches (s : State) (gid : Gid) (r : Request) : List Place :=
  let absent (s : State) (c : Access) : Bool := ((s.core (coreOf gid)).line c.place c.addr).isNone
  if r.manner.home then r.accesses.1.map (·.place)
  else if r.manner.plain then
    (r.accesses.1.foldl (fun x c => (x.1.useLine gid c.place c.addr, if absent x.1 c then x.2 ++ [c.place] else x.2)) (s, [])).2
  else ((r.accesses.1.filter (absent s)).map fun c => (c.place, lineOf c.addr)).eraseDups.map (·.1)

/-- Whether nothing keeps a request from being performed: the stores it waits for, its release, or a paused port (R131). -/
def State.prepared (s : State) (gid : Gid) (a : Await) : Bool :=
  let m := a.req.manner
  let queue := ((s.group gid).map (·.stq)).getD []
  (match m.rel with
    | some sc => s.ordered gid a.seq sc
    | none => true) &&
  !(queue.any fun e => decide (e.seq < a.seq) && ((!m.plain && e.overlaps a.req.spots) || (m.vol && e.vol))) &&
  !((s.core (coreOf gid)).flight.any (a.req.behind gid)) && (s.links.all (!·.2.paused) || s.portsOpen (s.fetches gid a.req))

/-- The lines of the accesses of a plain load are read one after another, each access as its line has come: a full L1 may give up
the line of an earlier one for that of a later one. -/
def State.eachLine {α : Type} (s : State) (gid : Gid) (f : State → Access → α) : List Access → State × List α
  | [] => (s, [])
  | c :: r =>
    let s := s.useLine gid c.place c.addr
    let x := f s c
    let y := s.eachLine gid f r
    (y.1, x :: y.2)

/-- Volatile and home accesses through a port take its flits; those at a home L2 that allocate, its line. -/
def State.reachHome (s : State) (vol : Bool) (accs : List Access) (size : Nat) : State :=
  accs.foldl (fun s c =>
    let s := match c.place.dev? with
      | some d => s.sendFlits d size
      | none => s
    if c.place == .hbm && !vol then s.useL2 c.addr else s) s

/-- Performs a request for which nothing waits: the state after it, and the register writes of its result.
DESIGN CHOICE (assumption 10). -/
def State.performReq (s : State) (gid : Gid) (a : Await) : State × List RegWrite :=
  let core := coreOf gid
  let drop (s : State) (accs : List Access) : State := accs.foldl (fun s c => s.dropLine core c.place c.addr) s
  match a.req with
  | .sampled => (s, a.val.getD [])
  | .engine => (s, [])
  | .windows => (s, [])
  | .sload size sext acc dst =>
    let s := s.useLine gid acc.place acc.addr
    let stq := ((s.group gid).map (·.stq)).getD []
    let x := natOfBytes ((List.range size).map fun i => s.plainByte gid stq a.seq acc.place (acc.addr + i))
    (s, [.uni dst (extend sext (8 * size) x)])
  | .load vol acq size sext accs k dst =>
    let value (f : Place → Nat → Byte) (c : Access) : Nat := natOfBytes ((List.range size).map fun i => f c.place (c.addr + i))
    let written (f : Place → Nat → Byte) (c : Access) : List RegWrite := laneWrites k dst c.lane size sext (value f c)
    let writes (f : Place → Nat → Byte) : List RegWrite := accs.flatMap (written f)
    match vol, acq with
    | false, none =>
      let stq := ((s.group gid).map (·.stq)).getD []
      let x := s.eachLine gid (fun s c => written (s.plainByte gid stq a.seq) c) accs
      (x.1, x.2.flatten)
    | false, some sc =>
      if sc.wide then
        let s := s.reachHome false accs size
        (s.acquire gid sc, writes s.readByte)
      else (s, writes (s.coreAcqByte gid))
    | true, _ =>
      let s := s.reachHome true accs size
      (drop s accs, writes s.readByte)
  | .atom op ty size sc ord accs k dst =>
    let (s, olds) := (s.reachHome false accs size).atomLanes (fun c x => some (atomNew op.toNat ty x c.operand.toNat)) size accs
    let s := drop s accs
    let s := if ord == .acq then s.acquire gid sc else s
    (s.modGroup gid fun g => g.finish a.seq, olds.flatMap fun o => laneWrites k dst o.1 size false o.2)
  | .cas size sc ord accs k dst =>
    let (s, olds) := (s.reachHome false accs size).atomLanes
      (fun c x => if x == c.operand.toNat then some c.operand2.toNat else none) size accs
    let s := drop s accs
    let s := if ord == .acq then s.acquire gid sc else s
    (s.modGroup gid fun g => g.finish a.seq, olds.flatMap fun o => laneWrites k dst o.1 size false o.2)
  | .red op ty size _ _ accs =>
    let (s, _) := (s.reachHome false accs size).atomLanes (fun c x => some (atomNew op.toNat ty x c.operand.toNat)) size accs
    let s := drop s accs
    (if accs.any (fun c => c.place.remote) then s else s.modGroup gid fun g => g.finish a.seq, [])

/-- Performs a request once nothing keeps it waiting; one with no destination is gone once performed. -/
def State.performSeq (s : State) (gid : Gid) (a : Await) : State :=
  let s := s.prepare gid a
  if !s.prepared gid a then s
  else
    let (s, w) := s.performReq gid a
    let bare := match a.req with
      | .red .. => true
      | _ => false
    s.modGroup gid fun g => { g with
      await := if bare then g.await.filter fun b => b.seq != a.seq
        else g.await.map fun b => if b.seq == a.seq then { b with val := some w } else b }

/-- Whether the request of a sequence number is still to be performed. -/
def State.waitsStill (s : State) (gid : Gid) (seq : Nat) : Bool :=
  ((s.group gid).map fun g => g.await.any fun a => a.unperformed && a.seq == seq).getD false

/-- Requests are performed in program order, up to the first that has to wait (R134). -/
def State.performEach (s : State) (gid : Gid) : List Await → State
  | [] => s
  | a :: rest =>
    let s := s.performSeq gid a
    if s.waitsStill gid a.seq then s else s.performEach gid rest

/-- Every request up to a sequence number is performed, in program order (R134). -/
def State.performUpTo (s : State) (gid : Gid) (seq : Nat) : State :=
  s.performEach gid (((s.group gid).map fun g => g.await.filter fun a => a.unperformed && decide (a.seq ≤ seq)).getD [])

/-- Where an arriving value is written: a course temporary belongs to the course that issued the load (R30, R206). -/
def Group.receive (g : Group) (home : KHome) (w : RegWrite) : Group :=
  match w, home with
  | .lane true r t v, .stopped =>
    { g with shadow := g.shadow.map fun sh => { sh with k := sh.k.set (r * 32 + t) v } }
  | .lane true _ _ _, .lost => g
  | _, _ => g.write w

/-- A performed value arrives and is written, over the marks of its registers; a retired group discards it (R29, R309). The marks
of a band that `mrd` read are set with its value (R235). -/
def State.deliver (s : State) (gid : Gid) (seq : Nat) : State :=
  match (s.group gid).bind fun g => g.await.find? fun a => a.seq == seq with
  | none => s
  | some a =>
    match a.val with
    | none => s
    | some w =>
      let s := s.clearMarks gid w
      let s : State := if a.marks.isEmpty then s else { s with poison := s.poison ++ a.marks.map fun m => .vreg gid m.1 m.2 }
      s.modGroup gid fun g =>
        let g := if g.status == .retired then g else w.foldl (fun g x => g.receive a.home x) g
        ({ g with await := g.await.filter fun b => b.seq != seq } : Group).raiseFlags 0 a.lf 0

/-- VALUE_ARRIVAL (R29): the request at an index is performed after the older ones; then its value may arrive. -/
def State.arrive (s : State) (gid : Gid) (index : Nat) (m : ArrivalMove) : State :=
  match (s.group gid).bind fun g => g.await[index]? with
  | none => s
  | some a =>
    let s := s.performUpTo gid a.seq
    match m with
    | .perform => s
    | .deliver => s.deliver gid a.seq

/-- The oldest store leaves its queue, after every older load has been performed (R134). -/
def State.storeLeaves (s : State) (gid : Gid) : State :=
  match (s.group gid).bind fun g => g.stq.head? with
  | none => s
  | some e => (s.performUpTo gid e.seq).leaveHead gid

/-- Older stores of a group leave its queue, each after the loads before it (R134). DESIGN CHOICE (assumption 34). -/
def State.leaveOwn (s : State) (gid : Gid) : State :=
  let seq := ((s.group gid).map (·.seq)).getD 0
  (s.performUpTo gid seq).leaveAll gid seq

/-- Stores of the group to given bytes leave its queue, each after the loads before it (R134, R135). -/
def State.leaveBytes (s : State) (gid : Gid) (seq : Nat) (bs : List (Place × Nat)) : State :=
  let upTo := ((s.group gid).map fun g => queuedUpTo g.stq seq fun e => e.overlaps bs).getD 0
  if upTo = 0 then s else (s.performUpTo gid upTo).leaveAll gid upTo

/-- Whether the group's queue still holds a store to given bytes. -/
def State.queuedBytes (s : State) (gid : Gid) (bs : List (Place × Nat)) : Bool :=
  ((s.group gid).map fun g => g.stq.any fun e => e.overlaps bs).getD false

/-- Whether the group's queue is empty. -/
def State.queueEmpty (s : State) (gid : Gid) : Bool := ((s.group gid).map fun g => g.stq.isEmpty).getD true

/-- A fence at a scope (R138, R141, R317): loads, stores and atomics older than it are performed, as far as they can be. -/
def State.fenceAt (s : State) (gid : Gid) (sc : Scope) : State :=
  let seq := ((s.group gid).map (·.seq)).getD 0
  (s.performUpTo gid seq).releaseStores gid seq sc

/-- Whether a fence at a scope has nothing left to wait for. -/
def State.fenced (s : State) (gid : Gid) (sc : Scope) : Bool :=
  s.ordered gid (((s.group gid).map (·.seq)).getD 0) sc

/-- Every store and request of the group is complete and has arrived, as far as they can be (R215, R234). -/
def State.settleGroup (s : State) (gid : Gid) : State :=
  let s := (s.fenceAt gid .dev).invalidateL1 (coreOf gid)
  let seqs := ((s.group gid).map fun g => g.await.map (·.seq)).getD []
  seqs.foldl (fun s q => s.deliver gid q) s

/-! A volatile read that no instruction makes (R48), and poisoned data (R235). -/

/-- A volatile read of the group (R48, R126): its older accesses in their order first; none while they or a port wait. -/
def State.volatileRead (s : State) (gid : Gid) (p : Place) (a size : Nat) : State × Option Nat :=
  let acc : Access := { lane := 0, place := p, addr := a, va := 0, operand := 0, operand2 := 0 }
  let seq := ((s.group gid).map (·.seq)).getD 0
  let x : Await :=
    { seq, iaddr := 0, names := [], req := .load true none size false [acc] false 0, val := none, lf := 0 }
  let s := (s.performUpTo gid seq).prepare gid x
  let older := ((s.group gid).map fun g => g.await.any Await.unperformed).getD false
  if older || !s.prepared gid x then (s, none)
  else
    let s := s.reachHome true [acc] size
    (s.dropLine (coreOf gid) p a, some (s.readAt p a size))

/-- Whether a request that has issued and is still to be performed reads one of some words. -/
def State.readLater (s : State) (ws : List ProtWord) : Bool :=
  s.groups.any fun e => e.2.await.any fun a => a.unperformed && a.req.spots.any fun x => ((protWord x.1 x.2).map ws.contains).getD false

/-- Requests that would read words about to be marked are performed first: they read before the error (assumption 77). -/
def State.readFirst (s : State) (ws : List ProtWord) : State :=
  s.groups.foldl (fun s e => e.2.await.foldl (fun s a =>
    if a.unperformed && a.req.spots.any (fun x => ((protWord x.1 x.2).map ws.contains).getD false) then s.performUpTo e.1 a.seq
    else s) s) s

/-- What an access finds among the marks (R235). -/
inductive Marks where
  | clean (s : State)
  | poisoned (a : Nat)
  | waits (s : State)

/-- Whether a mark stands at any copy that an access of a core may read (R235). -/
def State.markedAt (s : State) (core : Nat) (spots : List (Place × Nat)) : Bool :=
  !s.poison.isEmpty && spots.any fun x => match protWord x.1 x.2 with
    | some w => s.poison.contains w || s.poison.contains (.l1 core w) || (x.1 == .hbm && s.poison.contains (.l2 (x.2 / 8)))
    | none => false

/-- The line that an access of a request reads is brought into the core's L1 or the home L2, as its performance does. -/
def State.fetchLine (s : State) (gid : Gid) (m : Manner) (c : Access) : State :=
  if m.home then (if c.place == .hbm && !m.vol then s.useL2 c.addr else s)
  else if m.plain then s.useLine gid c.place c.addr
  else s

/-- The first spot of a request's accesses that fails a test where it is read: each access is looked at as its line has come. -/
def State.firstBad (s : State) (gid : Gid) (m : Manner) (size : Nat) (bad : State → Place × Nat → Bool) :
    List Access → Option (Place × Nat)
  | [] => none
  | c :: r =>
    let s := s.fetchLine gid m c
    match (spotsOf [c] size).find? (bad s) with
    | some x => some x
    | none => s.firstBad gid m size bad r

/-- Whether a request consumes a poisoned word: it is looked at where it reads, after the stores it waits for; bytes that
come from the group's own queue consume nothing (R135, R235). The request itself is then performed on the state that is left,
and brings the same lines. -/
def State.consumes (s : State) (gid : Gid) (a : Await) : Marks :=
  let core := coreOf gid
  let m := a.req.manner
  let s := (s.performUpTo gid a.seq).prepare gid a
  let s := s.reachBytes core a.req.spots
  let stq := ((s.group gid).map (·.stq)).getD []
  let older := ((s.group gid).map fun g => g.await.any fun b => b.unperformed && decide (b.seq < a.seq)).getD false
  if older || !s.prepared gid a || (s.core core).flight.any (fun e => e.meets a.req.spots) then .waits s
  else
    let bad (s : State) (x : Place × Nat) : Bool :=
      !(m.plain && (queued stq a.seq x.1 x.2).isSome) &&
      (if !m.home && ((s.core core).line x.1 x.2).isSome then s.linePoisoned core x.1 x.2 else s.poisoned x.1 x.2)
    match s.firstBad gid m a.req.accesses.2 bad a.req.accesses.1 with
    | some x => .poisoned (x.2 / 8 * 8)
    | none => .clean s

end Sys2Proof.Machine
end

