-- ==== Sys2Proof/Machine/Tiles.lean ====
section
/-!
DEFINITION. The tiles of a team and the engine's order on them (R150, R161): the operations that stand in it, and the tile
accesses that no earlier step precedes.
-/
namespace Sys2Proof.Machine

def EngineOp.tile : EngineOp → Nat
  | .steps _ _ _ t .. => t
  | .zero t => t
  | .write t _ _ => t
  | .read _ _ t .. => t

def EngineOp.isStep : EngineOp → Bool
  | .steps .. => true
  | _ => false

/-- A step whose fragments were read at its issue: an `mma`'s (R158). -/
def EngineOp.captured : EngineOp → Bool
  | .steps _ _ _ _ _ _ _ _ _ one .. => one
  | _ => false

/-! The tiles (R150, R161). -/

def tileKey (tile m n : Nat) : Nat := tile * 4096 + m * 64 + n

def Team.tile (t : Team) (tile : Nat) : List W32 := (List.range 4096).map fun i => t.tiles.get (tile * 4096 + i)

def Team.putTile (t : Team) (tile : Nat) (vals : List W32) : Team :=
  { t with tiles := t.tiles.block (tile * 4096) (tile * 4096 + 4096) vals }

/-- The order of a band's 256 elements: register, then lane (R150). -/
def bandKey (tile band i : Nat) : Nat := tileKey tile (4 * band + i % 32 / 8) (i / 32 * 8 + i % 8)

/-- `mwr` stores a subnormal as zero of its sign and every NaN as the canonical one (R161). -/
def canonical32 (x : W32) : W32 :=
  let y := fmt32.flushSrc true x.toNat
  BitVec.ofNat 32 (if (fmt32.decode y).isNan then fmt32.nan else y)

def State.clearTileMarks (s : State) (team : Nat) (p : Nat → Bool) : State :=
  if s.poison.isEmpty then s
  else { s with poison := s.poison.filter fun w => match w with
    | .tile t k => !(t == team && p k)
    | _ => true }

/-- The register writes of a band read back (R150, R161), its flags, and the tile elements read. -/
def Team.readBand (t : Team) (tile band : Nat) (ln : Bool) (dst : Nat) : List RegWrite × Fl × List (Nat × Nat × Nat) :=
  if !ln then
    ((List.range 256).map fun i => .lane false (dst + i / 32) (i % 32) (t.tiles.get (bandKey tile band i)), {},
     (List.range 256).map fun i => (bandKey tile band i, dst + i / 32, i % 32))
  else
    let q (m n : Nat) : Nat × Fl := quantise .ln8x4 false (fmt32.decode (t.tiles.get (tileKey tile m n)).toNat)
    let rs := (List.range 64).map fun i =>
      let r := i / 32
      let lane := i % 32
      let es := (List.range 4).map fun b => q (4 * band + lane / 8) (32 * r + lane % 8 * 4 + b)
      (RegWrite.lane false (dst + r) lane (BitVec.ofNat 32 (pack 8 (es.map (·.1)))), es.foldl (fun f e => f.or e.2) ({} : Fl))
    (rs.map (·.1), rs.foldl (fun f r => f.or r.2) {},
     (List.range 256).map fun i =>
       let lane := i / 4 % 32
       (tileKey tile (4 * band + lane / 8) (32 * (i / 128) + lane % 8 * 4 + i % 4), dst + i / 128, lane))

/-- A tile access that no earlier step precedes is performed (R161). A poisoned element read marks the register it fills, as
the value arrives. DEDUCED (assumption 30). -/
def State.tileAccess (s : State) (team : Nat) (o : EngineOp) : State :=
  match o with
  | .zero tile =>
    (s.modTeam team fun t => { t with tiles := t.tiles.clear (tile * 4096) (tile * 4096 + 4096) }).clearTileMarks team
      fun k => k / 4096 == tile
  | .write tile band vals =>
    let keys := (List.range 256).map (bandKey tile band)
    (s.modTeam team fun t => { t with tiles := (keys.zip vals).foldl (fun m p => m.set p.1 (canonical32 p.2)) t.tiles }).clearTileMarks
      team fun k => keys.contains k
  | .read gid seq tile band ln dst =>
    let (ws, fl, es) := (s.team team).readBand tile band ln dst
    let marks := if s.poison.isEmpty then [] else (es.filter fun e => s.poison.contains (.tile team e.1)).map (·.2)
    s.modGroup gid fun g => { g with await := g.await.map fun a =>
      if a.seq == seq then { a with val := some ws, lf := fl.lf, marks } else a }
  | .steps .. => s

/-- The tile accesses at the front of a tile's order are performed. -/
def State.settleTile (s : State) (team tile : Nat) : Nat → State
  | 0 => s
  | n + 1 =>
    let ops := (s.team team).engine
    match ops.findIdx? fun o => o.tile == tile with
    | none => s
    | some i =>
      match ops[i]? with
      | none => s
      | some o =>
        if o.isStep then s
        else ((s.modTeam team fun t => { t with engine := t.engine.eraseIdx i }).tileAccess team o).settleTile team tile n

def State.settle (s : State) (team tile : Nat) : State := s.settleTile team tile (s.team team).engine.length

/-- The tile accesses at the front of every tile's order are performed. -/
def State.settleAll (s : State) (team : Nat) : State := (List.range 8).foldl (fun s k => s.settle team k) s

end Sys2Proof.Machine
end

