-- ==== Sys2Proof/Machine/Sweep.lean ====
section
/-!
DEFINITION. The sweep (R37 to R56, R212): fault records of the group (R125), barriers that a retirement may
release (R293), the census, and the course boundary with its checks; idempotent regions (R232 to R234).
-/
namespace Sys2Proof.Machine

/-! The fault buffer (R125, R253). -/

/-- What a fault record says. -/
structure FaultRec where
  straddle : Bool
  level : Nat
  kind : Nat
  ctx : Nat
  gid : Gid
  iaddr : W32
  lanes : LaneMask
  va : W64
deriving DecidableEq, Repr

/-- The record's 256 bits with VALID set (R125). DEDUCED (assumption 25). -/
def FaultRec.word (r : FaultRec) : BitVec 256 :=
  1#1 ++ 0#102 ++ BitVec.ofBool r.straddle ++ BitVec.ofNat 2 r.level ++ BitVec.ofNat 3 r.kind ++ BitVec.ofNat 6 r.ctx ++
  BitVec.ofNat 5 (r.gid % 32) ++ BitVec.ofNat 8 (coreOf r.gid) ++ r.iaddr ++ r.lanes ++ r.va

/-- Whether the ring has a free slot at FBHEAD (R253). -/
def State.ringFree (s : State) : Bool :=
  s.ctrl.fbsize != 0 && !((s.hbm.get (s.ctrl.fbbase.toNat + 32 * s.ctrl.fbhead.toNat + 31)).getLsbD 7)

/-- Writes a record's word at FBHEAD for its owner; the slot taken. -/
def State.putFaultWord (s : State) (w : BitVec 256) (owner : FaultOwner) : State × Nat :=
  let slot := s.ctrl.fbhead.toNat
  let s : State := { s with
    hbm := s.hbm.writeNat (s.ctrl.fbbase.toNat + 32 * slot) w.toNat 32
    faults := tput s.faults slot owner }
  ((s.modCtrl fun c => { c with fbhead := BitVec.ofNat 64 ((slot + 1) % c.fbsize.toNat) }).interrupt 1, slot)

/-- Writes a record at FBHEAD for its owner; the slot taken. -/
def State.putFault (s : State) (r : FaultRec) (owner : FaultOwner) : State × Nat := s.putFaultWord r.word owner

/-- A translation fault of a group (R125): it parks; with a full ring it waits parked for a slot. A uniform instruction whose
fetch faulted issues alone afterwards, in a slot of its own (R31, R106). -/
def State.parkFault (s : State) (gid : Gid) (r : FaultRec) : State :=
  let s : State := { s with cur := none }
  let s := s.modGroup gid fun g => { g with visit := g.visit.map fun v => { v with lastVec := none } }
  if s.ringFree then
    let (s, slot) := s.putFault r (.group gid)
    s.modGroup gid fun g => { g with status := .faulted (some slot) }
  else s.modGroup gid fun g => { g with status := .faulted none, faultWord := r.word }

/-! Barriers (R293, R319). -/

/-- The groups of a team that have not retired, resident or saved. -/
def State.liveGroups (s : State) (t : Team) : List Nat :=
  (t.slots.filter fun e => match s.group e.2 with
    | some g => g.status != .retired
    | none => false).map (·.1) ++
  (t.saved.filter fun e => e.2.status != .retired).map (·.1)

/-- Makes the groups of a team that wait at a barrier ready. -/
def State.releaseGroups (s : State) (t : Team) (k : StopKind) : State :=
  t.slots.foldl (fun s e => s.modGroup e.2 fun g => if g.status == .stopped k then { g with status := .ready } else g) s

def Team.releaseSaved (t : Team) (k : StopKind) : Team :=
  { t with saved := t.saved.map fun e => (e.1, if e.2.status == .stopped k then { e.2 with status := .ready } else e.2) }

/-- The team barrier releases when the arrivals equal the groups that have not retired (R293). -/
def State.barCheck (s : State) (team : Nat) : State :=
  match tfind s.teams team with
  | none => s
  | some t =>
    if !t.barArr.isEmpty && (s.liveGroups t).length ≤ t.barArr.length then
      (s.releaseGroups t .bar).modTeam team fun t => { t.releaseSaved .bar with barArr := [] }
    else s

def State.clusterTeams (s : State) (t : Team) : List (Nat × Team) :=
  s.teams.filter fun e => e.2.launch == t.launch && e.2.clusterix == t.clusterix

/-- The cluster barrier releases when every team that has not ended has arrived (R293); it acts as a cluster fence (R142). -/
def State.cbarCheck (s : State) (team : Nat) : State :=
  match tfind s.teams team with
  | none => s
  | some t =>
    let ts := s.clusterTeams t
    let arrived := ts.all fun e => (s.liveGroups e.2).all fun x => e.2.cbarArr.contains x
    if arrived && ts.any (fun e => !e.2.cbarArr.isEmpty) then
      ts.foldl (fun s e => ((s.releaseGroups e.2 .cbar).invalidateL1 e.2.core).modTeam e.1
        fun t => { t.releaseSaved .cbar with cbarArr := [] }) s
    else s

/-! Regions (R231 to R235). -/

/-- A rollback (R234, R166): the steps of unretired matrix operations that have not read their fragments are cancelled, and
so are unretired hod requests; the matrix and hod counters are then 0, and the group waits for the rest. An `mma` has read
its fragments at its issue, and completes; of an `mloop` nothing is left to come, so its windows are pending no more. The
tile accesses that stood behind cancelled steps are performed (R161). An event of a matrix operation that waits for the
boundary stays pending (R170). -/
def State.rollback (s : State) (gid : Gid) (g : Group) : State :=
  let s := (s.putLanded gid g).modTeam g.team fun t => { t with
    engine := t.engine.filter fun e => match e with
      | .steps x _ _ _ _ _ _ _ _ one .. => !(x == gid && !one)
      | _ => true
    hod := t.hod.filter fun k => k.gid != gid }
  let s : State := { s with faults := s.faults.map fun f => match f.2 with
    | .hod _ x _ _ => if x == gid then (f.1, .stale) else f
    | .park x _ => if x == gid then (f.1, .stale) else f
    | _ => f }
  (s.settleAll g.team).modGroup gid fun g => { g with
    ops := g.ops.filter fun o => o.cls != .matrix && o.cls != .hod
    await := g.await.filter fun a => a.req != .windows
    visit := none
    k := []
    wake := 0
    stepDue := false
    status := .rolling }

/-- Signature, census, checksum and poison events (R234): rolled back inside an open region, else fatal. Inside a
handler they are a double fault (R208). -/
def State.regionEvent (s : State) (gid : Gid) (cause : Nat) (anchor : Nat) (addr : W32) (val : W64) : State :=
  match s.group gid with
  | none => s
  | some g =>
    let s : State := { s with cur := none }
    let s := if cause = 18 then s.count 1068 32 else if cause = 20 then s.count 1070 32 else s
    match g.shadow with
    | some sh => s.killFor gid g 22 addr (BitVec.ofNat 64 (sh.cause + 65536 * cause))
    | none =>
      if g.regionl.getLsbD 0 && anchor == g.regionSeq && g.rollbacks < 3 then s.rollback gid g
      else s.killFor gid g cause addr val

/-! The census (R41, R47 to R50). -/

/-- Whether an older store of the group to a barrier object's 8 bytes is still queued (R48, R185). -/
def Group.objectQueued (g : Group) (off : Nat) : Bool :=
  g.stq.any fun e => e.bytes.any fun b => b.place == .scratch g.team && b.addr / 8 == off / 8

/-- COUNT of a barrier object (R182). -/
def State.objectCount (s : State) (team off : Nat) : Nat := s.readAt (.scratch team) (off / 8 * 8) 4

/-- A volatile read of a `.ne` condition (R48): whether the word differs; a translation fault; an access violation; or it
cannot be made yet, since older accesses of the group or a paused port keep it. -/
inductive NeRead where
  | value (s : State) (differs : Bool)
  | fault (level : Nat)
  | violation
  | waits (s : State)

def neAddr (va : W64) : W64 := va &&& ~~~3#64

def State.readNe (s : State) (gid : Gid) (ctx : Nat) (va : W64) (value : W32) : NeRead :=
  match s.translate (coreOf gid) ctx .load (neAddr va) with
  | .ok p a =>
    match (s.fillTlb (coreOf gid) ctx (neAddr va)).volatileRead gid p a 4 with
    | (s, some x) => .value s (x != value.toNat)
    | (s, none) => .waits s
  | .fault l => .fault l
  | .violation => .violation

/-- The reads that are due, one wait record at a time, each 64 ticks after the read before it; none when a read meets an
access violation, which kills the context (R48). A first read that older accesses or a paused port keep is due from then on.
With a full ring a read that faults writes no record and waits for no slot: it is made again 64 ticks later.
DESIGN CHOICE (assumption 78). -/
def State.readDue (s : State) (gid : Gid) : List (Nat × WaitRec) → Option State
  | [] => some s
  | (t, .ne va value iaddr due holds faulted) :: rest =>
    match s.group gid with
    | none => some s
    | some g =>
      let wanted := match due with
        | none => true
        | some d => decide (d ≤ s.timeref)
      let this : WaitRec := .ne va value iaddr due holds faulted
      if !wanted || faulted.isSome || tfind g.waits t != some this then s.readDue gid rest
      else
        let same := lanesOf (maskOf ((g.waits.filter fun e => e.2 == this).map (·.1)))
        let setAll (w : WaitRec) (s : State) : State :=
          s.modGroup gid fun g => { g with waits := same.foldl (fun ws t => tput ws t w) g.waits }
        match s.readNe gid g.ctx va value with
        | .violation => none
        | .value s d => (setAll (.ne va value iaddr (some (s.timeref + 64)) d none) s).readDue gid rest
        | .waits s => (if due.isNone then setAll (.ne va value iaddr (some s.timeref) holds none) s else s).readDue gid rest
        | .fault l =>
          if s.ringFree then
            let r : FaultRec := { straddle := false, level := l, kind := 4, ctx := g.ctx, gid, iaddr, lanes := maskOf same, va }
            let (s, slot) := s.putFault r (.park gid (maskOf same))
            (setAll (.ne va value iaddr (some (s.timeref + 64)) holds (some slot)) s).readDue gid rest
          else (setAll (.ne va value iaddr (some (s.timeref + 64)) holds none) s).readDue gid rest
  | _ :: rest => s.readDue gid rest

/-- Whether a lane's park condition holds (R47, R48). -/
def State.condHolds (s : State) (g : Group) : WaitRec → Bool
  | .ne _ _ _ _ holds _ => holds
  | .bar off => !g.objectQueued off && s.objectCount g.team off == 0
  | .time t => decide (t ≤ s.timeref)
  | .rejoin _ _ => false

def WaitRec.isRejoin : WaitRec → Bool
  | .rejoin _ _ => true
  | _ => false

/-- Step 2 of R41: the lanes released at one rejoin address, or none. -/
def rejoinSet (ended : LaneMask) (waits : List (Nat × WaitRec)) (a : W32) : LaneMask :=
  let at' := waits.filter fun e => match e.2 with
    | .rejoin b _ => a == b
    | _ => false
  let w := maskOf (at'.map (·.1))
  let need := (at'.foldl (fun m e => match e.2 with
    | .rejoin _ k => m ||| k ||| (1#32 <<< e.1)
    | _ => m) 0) &&& ~~~ended
  if need &&& ~~~w == 0 then w else 0

/-- Steps 1 and 2 of the census: the lanes released. -/
def State.released (s : State) (g : Group) : LaneMask × LaneMask :=
  let byCond := maskOf ((g.waits.filter fun e => s.condHolds g e.2).map (·.1))
  let rest := g.waits.filter fun e => !byCond.getLsbD e.1
  let addrs := rest.filterMap fun e => match e.2 with
    | .rejoin a _ => some a
    | _ => none
  (byCond, addrs.foldl (fun m a => m ||| rejoinSet g.ended rest a) 0)

/-- The smallest of a list of wanted labels. -/
def minLabel : List W32 → Option W32
  | [] => none
  | x :: r => match minLabel r with
    | none => some x
    | some y => some (if x.toNat ≤ y.toNat then x else y)

/-- Step 3's choice (R41): the course and whether it wraps. -/
def chooseCourse (wl : Sparse 32) (cursor : W32) (e : List Nat) : Option (W32 × Bool) :=
  let labels := e.map fun t => wl.get t
  match minLabel (labels.filter fun x => cursor.toNat ≤ x.toNat) with
  | some c => some (c, false)
  | none => (minLabel labels).map fun c => (c, true)

/-- Retirement (R41, R293, R309): the group is done; barriers that it held back may release. A pending matrix trap of
the group kills the context (R170). -/
def State.retire (s : State) (gid : Gid) (g : Group) : State :=
  match g.pendingTrap with
  | some (cause, addr, val, _) => (if cause = 20 then s.count 1070 32 else s).killFor gid g cause addr val
  | none =>
    let s := s.putGroup gid { g with status := .retired, visit := none, regionl := g.regionl &&& 0xFFFFFFF0 }
    (s.barCheck g.team).cbarCheck g.team

/-- Step 3 of the census and what follows (R41, R43, R222), on a group whose parked lanes have been released. Every census
costs its cycles, one repeated as a sleeping group wakes too. DESIGN CHOICE (assumption 79). -/
def State.choose (s : State) (gid : Gid) (g : Group) : State :=
  let core := coreOf gid
  let pipe := pipeOf gid
  let s := s.spend core pipe [] (s.passes core pipe)
  let e := lanesOf (~~~(g.parked ||| g.ended))
  match chooseCourse g.wl g.cursor e with
  | none =>
    if g.ended == allLanes then s.retire gid g
    else if (lanesOf (~~~g.ended)).all (fun t => match tfind g.waits t with
        | some w => w.isRejoin
        | none => false) then
      let addr := match (lanesOf (~~~g.ended)).head?.bind fun t => tfind g.waits t with
        | some (.rejoin a _) => a
        | _ => 0
      (s.putGroup gid g).takeTrap gid
        { cause := 10, addr, val := 0, lanes := ~~~g.ended, epc := (g.visit.map (·.start)).getD g.cursor, pos := 2 }
    else s.putGroup gid { g with status := .asleep, visit := none }
  | some (c, wrap) =>
    let s := s.spend core pipe [] (if wrap then 6 else if c == g.cursor then 0 else 2)
    let mask := maskOf (e.filter fun t => g.wl.get t == c)
    let g := { g with
      sweeps := if wrap then g.sweeps + 1 else g.sweeps
      cursor := c
      k := []
      sigacc := 0xFFFF
      visit := some (newVisit c mask g.regionSeq)
      status := .ready }
    let s := s.putGroup gid g
    if g.bpaddr.getLsbD 0 && g.bpaddr &&& 0xFFFFFFF0 == c && g.shadow.isNone then
      s.takeTrap gid { cause := 15, addr := c, val := 0, lanes := mask, epc := c, pos := 0 }
    else s

/-- An access violation met by a later read of a `.ne` condition kills the context (R48). The report names the first
wait record, by thread, whose address is refused, due or not. DESIGN CHOICE (assumption 78). -/
def State.neViolation (s : State) (gid : Gid) (g : Group) : State :=
  let hit := g.waits.findSome? fun e => match e.2 with
    | .ne va _ ia .. => if s.translate (coreOf gid) g.ctx .load (neAddr va) == .violation then some (va, ia) else none
    | _ => none
  s.killFor gid g 2 (hit.map (·.2) |>.getD 0) (hit.map (·.1) |>.getD 0)

/-- The census of R41 itself. A release by `.ne` is an acquire at system scope (R49). -/
def State.censusNow (s : State) (gid : Gid) : State :=
  match s.group gid with
  | none => s
  | some g =>
    match s.readDue gid g.waits with
    | none => s.neViolation gid g
    | some s =>
      match s.group gid with
      | none => s
      | some g =>
        let (a, b) := s.released g
        let s := if g.waits.any (fun e => a.getLsbD e.1 && match e.2 with
            | .ne .. => true
            | _ => false) then s.invalidateL1 (coreOf gid) else s
        let freed := a ||| b
        s.choose gid { g with parked := g.parked &&& ~~~freed, waits := g.waits.filter fun e => !freed.getLsbD e.1 }

/-- The census (R41), computed twice: a mismatch stops the group before any part of the result is applied (R231). One with
no course before it lies outside every region (R234), and TRAPADDR is then 0. DESIGN CHOICE (assumption 112). -/
def State.census (s : State) (gid : Gid) : State :=
  let s : State := { s with cur := if s.cur == some gid then none else s.cur }
  if s.upsets.contains (.census gid) then
    let s : State := { s with upsets := s.upsets.erase (.census gid) }
    match s.group gid with
    | none => s
    | some g => s.regionEvent gid 18 (g.lastAnchor.getD (g.regionSeq + 1)) g.lastTrailer 0x100000000
  else s.censusNow gid

/-! The course boundary (R40, R212). -/

/-- The lanes that the end step advances (R40). -/
def Group.advancing (g : Group) (v : Visit) : LaneMask :=
  maskOf ((lanesOf (v.active &&& ~~~v.wanted)).filter fun t => g.wl.get t == v.start)

/-- The end step of R40: the want-target fault at the trailer, or the lanes moved to next(C) and the cursor with them. -/
def State.endStep (s : State) (gid : Gid) (g : Group) (v : Visit) : Option State :=
  let next := nextCourse v.pos.toNat
  let adv := g.advancing v
  if adv != 0 && !s.isStart g.ctx next then none
  else some (s.putGroup gid { g with wl := (lanesOf adv).foldl (fun m t => m.set t next) g.wl, cursor := next })

/-- The want-target fault of the end step (R40, R115). -/
def endStepFault (g : Group) (v : Visit) : TrapInfo :=
  { cause := 6, addr := v.pos, val := (nextCourse v.pos.toNat).setWidth 64, lanes := g.advancing v, epc := v.pos, pos := 1 }

/-- What follows the end step at position C: sleeping (R363), else the census. -/
def State.sleepOrCensus (s : State) (gid : Gid) : State :=
  match s.group gid with
  | none => s
  | some g =>
    if s.timeref < g.wake then
      let core := coreOf gid
      let s := s.spend core (pipeOf gid) [] (s.passes core (pipeOf gid))
      { (s.putGroup gid { g with status := .napping }) with cur := none }
    else s.census gid

/-- The checks of R212 after the end step: a pending matrix trap, a single step, then the census. -/
def State.afterEndStep (s : State) (gid : Gid) (v : Visit) : State :=
  match s.group gid with
  | none => s
  | some g =>
    match g.pendingTrap with
    | some (cause, addr, val, anchor) =>
      (s.putGroup gid { g with pendingTrap := none }).regionEvent gid cause anchor addr val
    | none =>
      if g.stepctl != 0 && g.shadow.isNone then
        s.takeTrap gid { cause := 16, addr := v.lastPc, val := 0, lanes := v.active, epc := v.start, pos := 2 }
      else s.sleepOrCensus gid

/-- The boundary at a trailer that has been read (R212): the signature, the trap of a `brk` or `trap` that ended the course
(R210, assumption 80), the end step and what follows it. DEDUCED. -/
def State.boundary (s : State) (gid : Gid) (g : Group) (v : Visit) (t : Trailer) : State :=
  let s := s.putLanded gid g
  let g := g.landAll
  if t.chk && g.sigacc != t.sig then
    s.regionEvent gid 18 v.region v.pos (BitVec.ofNat 64 (g.sigacc.toNat + 65536 * t.sig.toNat))
  else match v.raised with
    | some (cause, val) =>
      (s.putGroup gid { g with visit := some { v with raised := none } }).takeTrap gid
        { cause, addr := v.lastPc, val, lanes := v.active, epc := v.pos, pos := 1 }
    | none => match s.endStep gid g v with
      | none => s.takeTrap gid (endStepFault g v)
      | some s => s.afterEndStep gid v

end Sys2Proof.Machine
end

