-- ==== Sys2Proof/Machine/Issue.lean ====
section
/-!
DEFINITION. Issuing one instruction (R26, R29, R31, R101, R106 to R108): the checks in their order, the guard, the
effect, and the advance of the visit. Every native meaning goes through `issue`.
-/
namespace Sys2Proof.Machine

/-- What an effect may look at. -/
structure Env where
  gid : Gid
  g : Group              -- with the results visible at the issue slot
  team : Team
  launch : Launch
  v : Visit
  slot : Nat
  mask : LaneMask        -- active, narrowed by a vector guard (R52)
  i : Instr

def Env.here (e : Env) : W32 := e.v.pos
def Env.lanes (e : Env) : List Nat := lanesOf e.mask
def Env.next (e : Env) : W32 := e.v.pos + BitVec.ofNat 32 e.i.len

/-- What an instruction that passed its checks does. -/
inductive Eff where
  /-- It takes effect. -/
  | done (s : State)
  /-- It takes effect, and holds its pipe for more cycles after the one in which it issues (R121, R158, R178). -/
  | held (s : State) (cycles : Nat)
  /-- It raises a trap precisely, with nothing performed: cause, lanes, value. -/
  | trap (cause : Nat) (lanes : LaneMask) (val : W64)
  /-- The same, after what it waited for: older stores have left the queue (R185). -/
  | trapFrom (s : State) (cause : Nat) (lanes : LaneMask) (val : W64)
  /-- It meets a translation fault (R125): kind, lanes, address, level. -/
  | fault (kind : Nat) (lanes : LaneMask) (va : W64) (level : Nat)
  /-- It holds its pipe and has not issued. -/
  | hold (s : State)
  /-- It completes and then raises a trap (R299, R370): at its course's trailer, once that has been read and compared, when
  it ends its course (R210, R212). -/
  | raise (s : State) (cause : Nat) (val : W64)
  /-- It completes and stops its group (R25). -/
  | stop (s : State) (k : StopKind)
  /-- It leaves the course (`eret`). -/
  | leave (s : State)

/-- SIGACC after one byte (R101), on natural numbers. -/
def crcBits : Nat → Nat → Nat
  | 0, x => x
  | n + 1, x => crcBits n (if 0x8000 ≤ x then Nat.xor (2 * x) 0x1021 % 0x10000 else 2 * x)

def crcByte (acc b : Nat) : Nat := crcBits 8 (Nat.xor acc (b * 256))

/-- An internal word folded into SIGACC, least significant byte first (R101). -/
def foldWord (acc : W16) (w : IWord) : W16 :=
  BitVec.ofNat 16 ((bytesOf w.word.toNat 12).foldl (fun a b => crcByte a b.toNat) acc.toNat)

/-- An instruction folded into SIGACC (R101). -/
def foldSig (acc : W16) (i : Instr) : W16 :=
  match i.iword with
  | some w => foldWord acc w
  | none => acc

/-- The register a result's write names. -/
def RegWrite.name : RegWrite → List RegName
  | .lane false r _ _ => [.v r]
  | .lane true r _ _ => [.k r]
  | .uni r _ => [.s r]
  | .pred r _ _ => [.p r]
  | .upred r _ => [.q r]
  | _ => []

/-- The earlier writer whose result an instruction would meet before it lands (R108). DESIGN CHOICE (assumption 26). -/
def Group.meets (g : Group) (n : Names) : Option W32 :=
  let named (r : RegName) : Bool := n.reads.contains r || n.writes.contains r
  (g.pend.find? fun p => !p.csr && (p.writes.any (fun w => w.name.any named) || (vspan p.window.1 p.window.2).any named)).map
    (·.writer)

/-- The windows that an `mloop` fills (R160). -/
def mloopWindows (g : Group) : Instr → List RegName
  | .mloop o => vspan (g.mlay.getD o.a.toNat (0, 0, 0)).2.2 16 ++ vspan (g.mlay.getD o.b.toNat (0, 0, 0)).2.2 16
  | _ => []

/-- The pending register that an instruction names (R29). -/
def Group.pendingName (g : Group) (i : Instr) : Option Await :=
  let named := i.names.reads ++ i.names.writes ++ mloopWindows g i
  g.await.find? fun a => a.pending.any fun n => n.regs.any fun r => named.contains r

/-! The matrix engine's order among teams (R173). -/

/-- Steps of a team between fragment read and tile write (R173). -/
def Team.captured (t : Team) : Nat := (t.engine.filter EngineOp.captured).length

/-- The tiles of a team whose next operation is a step that the engine may take: an `mloop`'s reads its fragments then, which
at most HEAVY steps of the team hold at once (R173). -/
def Team.readyTiles (t : Team) : List Nat :=
  (List.range 8).filter fun k => match t.engine.find? fun o => o.tile == k with
    | some o => o.isStep && (o.captured || decide (t.captured < t.heavy))
    | none => false

/-- The team of a core whose step the engine takes next: round-robin, by team number from the one after the team that it
served last (R173). DESIGN CHOICE (assumption 86). -/
def State.engineTurn (s : State) (core : Nat) : Option Nat :=
  let ready := (s.teams.filter fun t => t.2.core == core && t.2.residence != .saved && !t.2.readyTiles.isEmpty).map (·.1)
  match ready.find? fun t => decide ((s.core core).engineTeam < t) with
  | some t => some t
  | none => ready.head?

/-- The engine's next step on a core, by its team's lowest tile that is ready. -/
def State.engineEvent (s : State) (core : Nat) : Option Instr :=
  (s.engineTurn core).bind fun t => (s.team t).readyTiles.head?.map fun k => .matrixStep t k

/-- The event that a pipe held for a pending register waits for. -/
def State.awaitedEvent (s : State) (gid : Gid) (g : Group) (a : Await) : Instr :=
  let arrival : Instr := .valueArrival gid (g.await.findIdx fun b => b.seq == a.seq) .deliver
  match a.req with
  | .engine => if a.val.isSome then arrival else (s.engineEvent (coreOf gid)).getD arrival
  | .windows => (s.engineEvent (coreOf gid)).getD arrival
  | _ => arrival

/-- A pipe is held (R29): time passes and the awaited event comes next. -/
def State.holdFor (s : State) (gid : Gid) (t : Turn) : State :=
  let s := s.idle gid 1
  { s with agenda := t :: s.agenda }.draw

/-- Vector registers an instruction names beyond its operands (R58, R157). -/
def windowRegs (g : Group) : Instr → List RegName
  | .mlay o => vspan o.dst.toNat 16
  | i => mloopWindows g i

/-- Every vector register named lies below NREG (R58). -/
def Group.nregOk (g : Group) (i : Instr) : Bool :=
  (i.names.reads ++ i.names.writes ++ windowRegs g i).all fun r => match r with
    | .v n => n < g.nreg
    | _ => true

/-- Whether an instruction may await a course temporary, which no trailer can name: a load, `atom` and `cas` may (R30, R289, R300, R326).
DEDUCED (assumption 87). -/
def awaitsK : Instr → Bool
  | .csrr _ => false
  | _ => true

/-- A variable-latency destination is named in its course's trailer (R29). A trailer that cannot be read is not held
against the instruction: the course stops there by itself (assumption 18). -/
def State.awaitOk (s : State) (gid : Gid) (g : Group) (v : Visit) (i : Instr) : Bool :=
  match i.awaited with
  | none => true
  | some a => if a.k then awaitsK i else match s.courseTrailer (coreOf gid) g.ctx v with
    | some t => t.awaited.any fun x => x.1 == a.uni && x.2.toNat == a.reg
    | none => true

/-- Instructions that read a register of lanes or numbers other than their own operand's: their meanings look for poison
in what they read. -/
def chosenReads : Instr → Bool
  | .rdx _ | .shfl _ | .vtos _ | .mma _ | .mwr _ => true
  | _ => false

/-- A poisoned register read as a source (R235). -/
def State.poisonedIn (s : State) (gid : Gid) (ls : List Nat) (rs : List RegName) : Bool :=
  !s.poison.isEmpty && rs.any fun r => match r with
    | .v n => ls.any fun t => s.poison.contains (.vreg gid n t)
    | .s n => s.poison.contains (.ureg gid n)
    | _ => false

def State.poisonedSource (s : State) (e : Env) : Bool :=
  if chosenReads e.i then false else s.poisonedIn e.gid e.lanes e.i.names0.reads

/-- The lane operations each cycle of an instruction starts (R240, R375): pass 0 holds threads 0 to good − 1. -/
def laneOps (good : Nat) (mask : LaneMask) : List Nat :=
  let ls := lanesOf mask
  if good = 32 then [ls.length]
  else [(ls.filter fun t => t < good).length, (ls.filter fun t => good ≤ t).length]

/-- The advance of the visit after an instruction that issued (R26, R31, R101). -/
def Group.advance (g : Group) (e : Env) (cls : IClass) : Group :=
  { g with
    sigacc := foldSig g.sigacc e.i
    suppress := none
    visit := g.visit.map fun v =>
      { v with
        pos := e.next
        count := v.count + 1
        slot := e.slot + 1 + e.i.stall
        lastVec := if cls == .vector && e.i.stall == 0 then some e.slot else none
        ended := e.i.last
        lastPc := e.here } }

/-- The time an instruction takes (R26, R240, R243). -/
def State.spendIssue (s : State) (e : Env) (cls : IClass) (paired : Bool) : State :=
  let core := coreOf e.gid
  let pipe := pipeOf e.gid
  let good := s.goodLanes core pipe
  let per := if (cls == .vector || paired) && good != 32 then 2 else 1
  let empty := if e.i.last then 0 else e.i.stall * per
  s.spend core pipe (if paired then [] else if cls == .vector then laneOps good e.mask else [0]) empty

/-- The advance of the state after an instruction that issued. -/
def State.advance (s : State) (e : Env) (cls : IClass) (paired : Bool) : State :=
  ((s.modGroup e.gid fun g => g.advance e cls).spendIssue e cls paired).draw

/-- Whether the next instruction of the course would share this vector instruction's slot (R31). -/
def pairable : Instr → Bool
  | .sadd _ | .ssub _ | .smul _ | .sand _ | .sor _ | .sxor _ | .sshl _ | .sshr _ | .scmp _ | .ssel _ | .smovi _ | .slea _
  | .saddCompact _ | .ssubCompact _ | .sandCompact _ | .sorCompact _ | .sxorCompact _ => true
  | _ => false

def State.pairFollows (s : State) (e : Env) (cls : IClass) : Bool :=
  cls == .vector && e.i.stall == 0 && !e.i.last &&
  match s.fetch (coreOf e.gid) e.g.ctx e.next.toNat with
  | .bytes bs => match decode bs with
    | .ok (j, _) => pairable j
    | .error _ => false
  | _ => false

/-- The single step of instruction mode (R223), outside a handler and not after a course's last instruction.
DEDUCED (assumption 44). -/
def State.stepTrap (s : State) (e : Env) (cls : IClass) : State :=
  match s.group e.gid with
  | some g =>
    if e.g.stepctl == 1 && e.g.shadow.isNone && !e.i.last && g.status == .running && !s.pairFollows e cls then
      s.takeTrap e.gid { cause := 16, addr := e.here, val := 0, lanes := (g.visit.map (·.active)).getD 0, epc := e.next, pos := 0 }
    else s
  | none => s

/-- A trap raised precisely at the instruction (R106, R209); causes 18 to 20 follow the region rules (R234). -/
def State.trapHere (s : State) (e : Env) (cause : Nat) (lanes : LaneMask) (val : W64) : State :=
  if cause = 20 then (s.regionEvent e.gid 20 e.g.regionSeq e.here val).draw
  else (s.takeTrap e.gid { cause, addr := e.here, val, lanes, epc := e.here, pos := 0 }).draw

/-- An arrival may release its barrier at once (R293). -/
def State.arrived (s : State) (team : Nat) : StopKind → State
  | .bar => s.barCheck team
  | .cbar => s.cbarCheck team
  | _ => s

/-- What an effect leaves. -/
def State.finish (s : State) (e : Env) (cls : IClass) (paired : Bool) : Eff → State
  | .done s => (s.advance e cls paired).stepTrap e cls
  | .held s cycles => ((s.advance e cls paired).idle e.gid cycles).stepTrap e cls
  | .trap cause lanes val => s.trapHere e cause lanes val
  | .trapFrom s cause lanes val => s.trapHere e cause lanes val
  | .fault kind lanes va level =>
    (s.parkFault e.gid { straddle := false, level, kind, ctx := e.g.ctx, gid := e.gid, iaddr := e.here, lanes, va }).draw
  | .hold s => s.draw
  | .raise s cause val =>
    let s := s.advance e cls paired
    if e.i.last then s.modGroup e.gid fun g => { g with visit := g.visit.map fun v => { v with raised := some (cause, val) } }
    else match s.group e.gid with
      | some g => s.takeTrap e.gid
          { cause, addr := e.here, val, lanes := (g.visit.map (·.active)).getD 0, epc := e.next, pos := 0 }
      | none => s
  | .stop s k =>
    let s := s.advance e cls paired
    match s.group e.gid with
    | some g =>
      if g.status == .running then
        let s := match k with
          | .waitc _ _ => s
          | _ => s.putLanded e.gid g
        let due := e.g.stepctl == 1 && e.g.shadow.isNone && !e.i.last
        ({ s.modGroup e.gid fun g => { g with status := .stopped k, stepDue := due } with cur := none } : State).arrived e.g.team k
      else { s with cur := none }
    | none => s
  | .leave s => s.draw

/-- The environment of the instruction that the group holding the issue turn is about to issue. -/
def State.env (s : State) (i : Instr) (co : Bool) : Option (Env × Bool) :=
  match s.cur with
  | none => none
  | some gid =>
    match s.group gid with
    | none => none
    | some g =>
      match g.visit with
      | none => none
      | some v =>
        if g.status == .running && !v.ended then
          let slot := match co, v.lastVec with
            | true, some p => p
            | _, _ => v.slot
          let paired := co && v.lastVec.isSome
          let g := g.land slot
          some ({ gid, g, team := s.teamOf g, launch := s.launchOfGroup g, v, slot, mask := v.active, i }, paired)
        else none

/-- The results of a group that are visible at a slot have landed. -/
def State.landed (s : State) (gid : Gid) (slot : Nat) : State :=
  match s.group gid with
  | some g => s.landAt gid g slot
  | none => s

/-- Issues an instruction: legality (R103), checking mode (R108), pending registers (R29), the guard, the effect and its
faults, in the order of R106. With no group to issue it, nothing happens. DEDUCED (assumption 31). A poisoned source is met before
the collective check (R54). DESIGN CHOICE (assumptions 69, 107). -/
def issue (i : Instr) (cls : IClass) (legal : Env → State → Bool) (eff : Env → State → Eff) (s : State) : Out :=
  match s.env i (pairable i) with
  | none => .next s
  | some (e, paired) =>
    let s := s.landed e.gid e.slot
    if !(i.wf && e.g.nregOk i && s.awaitOk e.gid e.g e.v i && legal e s) then .next (s.trapHere e 3 0 0)
    else
      match (if e.launch.check then e.g.meets i.names else none) with
      | some w => .next (s.trapHere e 8 e.v.active (w.setWidth 64))
      | none =>
        match e.g.pendingName i with
        | some a => .next (s.holdFor e.gid (.row (s.awaitedEvent e.gid e.g a)))
        | none =>
          match e.g.guardMask i.guard e.v.active with
          | none => .next ((s.advance e cls paired).stepTrap e cls)
          | some m =>
            let e := { e with mask := m }
            if s.poisonedSource e then .next (s.trapHere e 20 0 0)
            else .next (s.finish e cls paired (eff e s))

/-- No rule beyond the encoding (R103). -/
def always (_ : Env) (_ : State) : Bool := true

/-- A fixed-latency result that counts as writing a window of vector registers (R61). -/
def State.resultWindow (s : State) (e : Env) (latency : Nat) (writes : List RegWrite) (window : Nat × Nat) : State :=
  s.modGroup e.gid fun g => { g with
    pend := addPend g.pend { land := e.slot + latency, csr := false, writer := e.here, writes, ff := 0, lf := 0, window } }

/-- An effect whose fixed-latency result lands at slot + latency (R28, R107), with its flags (R65). -/
def State.result (s : State) (e : Env) (latency : Nat) (writes : List RegWrite) (fl : Fl) : State :=
  s.modGroup e.gid fun g => { g with
    pend := addPend g.pend { land := e.slot + latency, csr := false, writer := e.here, writes, ff := fl.ff, lf := fl.lf } }

/-- The collective check (R54): every lane that is not done is active. -/
def collective (eff : Env → State → Eff) (e : Env) (s : State) : Eff :=
  let bad := ~~~e.g.ended &&& ~~~e.v.active
  if bad != 0 then .trap 9 bad 0 else eff e s

/-- An instruction whose result is one list of writes for the group. -/
def groupwise (i : Instr) (cls : IClass) (latency : Nat) (f : Env → List RegWrite × Fl) (s : State) : Out :=
  issue i cls always (fun e s => let r := f e; .done (s.result e latency r.1 r.2)) s

/-- A vector instruction that computes each active lane on its own (R57): `f` gives a lane's value and flags. -/
def lanewise (i : Instr) (latency : Nat) (write : Nat → Nat → List RegWrite) (f : Env → Nat → Nat × Fl) (s : State) : Out :=
  issue i .vector always (fun e s =>
    let rs := e.lanes.map fun t => (t, f e t)
    .done (s.result e latency (rs.flatMap fun r => write r.1 r.2.1) (rs.foldl (fun a r => a.or r.2.2) {}))) s

end Sys2Proof.Machine
end

