-- ==== Sys2Proof/Machine/Memory.lean ====
section
/-!
DEFINITION. The memory instructions (R116 to R122, R124 to R130, R133 to R143, R201, R202, R224, R289 to R291, R300,
R301, R317, R325 to R330, R348, R349, R358, R364 to R366): addresses, the checks of every lane, and what each
instruction hands to the memory system of MemOps.lean.
-/
namespace Sys2Proof.Machine

/-- The address of a lane (R116), its low bits cleared to the access size. -/
def MemOp.addr (o : MemOp) (g : Group) (t : Nat) : W64 :=
  let cls : Cls := if o.ik then .k else .v
  let sum : W64 :=
    if o.af then
      (if o.b == 0 then BitVec.ofNat 64 (g.src cls o.a true t) else g.sreg o.a.toNat) + o.imm.signExtend 64
    else g.sreg o.a.toNat + (BitVec.ofNat 64 (g.src cls o.b false t) <<< o.sc.toNat) + o.imm.signExtend 64
  sum &&& ~~~(BitVec.ofNat 64 (o.bytes - 1))

/-- The value that a store takes from a lane's data registers (R118). -/
def MemOp.datum (o : MemOp) (g : Group) (t : Nat) : Nat :=
  let cls : Cls := if o.dk then .k else .v
  if o.size == .s128 then g.src cls o.dst true t + 2 ^ 64 * g.src cls (o.dst + 2) true t
  else g.src cls o.dst (o.ty == .b64) t % 2 ^ (8 * o.bytes)

/-- The space of an access (R117): for global memory, the kind of access and whether host memory takes it (R128). -/
inductive Space where
  | global (k : AccessKind) (host : Bool)
  | scratch
  | window
  | bank
deriving DecidableEq, Repr

/-- Whether an address lies in an object of the context, which kernels may only read (R114). DEDUCED (assumption 35). -/
def State.inObject (s : State) (ctx : Nat) (va : W64) : Bool :=
  s.objects.any fun o => o.ctx == ctx && !o.freed &&
    decide ((va - s.codebase ctx).toNat - o.heapoff < o.size) && decide (o.heapoff ≤ (va - s.codebase ctx).toNat)

/-- Where a lane's access goes, by the checks of R117 and R124. -/
def State.locate (s : State) (e : Env) (sp : Space) (size : Nat) (va : W64) : Trans :=
  match sp with
  | .global k host =>
    if k != .load && s.inObject e.g.ctx va then .violation
    else match s.translate (coreOf e.gid) e.g.ctx k va with
      | .ok .host a => if host then .ok .host a else .violation
      | r => r
  | .scratch => if va.toNat < e.team.scratchSize then .ok (.scratch e.g.team) va.toNat else .violation
  | .window =>
    let target := va.toNat / 2 ^ 20
    let off := va.toNat % 2 ^ 20
    match (s.clusterTeams e.team).find? fun t => t.2.teamincl == target with
    | some t => if va.toNat < 2 ^ 24 && e.team.member && t.2.member && off < t.2.scratchSize then .ok (.scratch t.1) off else .violation
    | none => .violation
  | .bank => if s.bankOk e.g.ctx va.toNat size then .ok .bank va.toNat else .violation

/-- The lanes whose result satisfies a test, with the lowest one's address. -/
def failing (rs : List (Nat × W64 × Trans)) (p : Trans → Bool) : LaneMask × W64 :=
  let bad := rs.filter fun r => p r.2.2
  (maskOf (bad.map (·.1)), (bad.head?.map fun r => r.2.1).getD 0)

def Trans.isFault : Trans → Bool
  | .fault _ => true
  | _ => false

/-- Every lane checked before any access (R117, R124, R125): a violation prevails over a fault. -/
def checkLanes (window : Bool) (kind : Nat) (rs : List (Nat × W64 × Trans)) : Option Eff :=
  let (bad, va) := failing rs (· == .violation)
  if bad != 0 then some (.trap (if window then 14 else 2) bad va)
  else
    let (miss, va) := failing rs Trans.isFault
    if miss != 0 then
      let level := (rs.findSome? fun r => match r.2.2 with
        | .fault l => some l
        | _ => none).getD 0
      some (.fault kind miss va level)
    else none

/-- The lanes' accesses, with the operands that `f` gives. -/
def accessesOf (rs : List (Nat × W64 × Trans)) (f : Nat → W64 × W64) : List Access :=
  rs.filterMap fun r => match r.2.2 with
    | .ok p a => some { lane := r.1, place := p, addr := a, va := r.2.1, operand := (f r.1).1, operand2 := (f r.1).2 }
    | _ => none

/-- Extra cycles of bank conflicts (R121): the distinct bank words of one pass, in the fullest bank of any one core. -/
def passConflicts (size : Nat) (accs : List Access) : Nat :=
  let words := (accs.flatMap fun a =>
    if size = 16 then [(a.place, a.addr / 8), (a.place, a.addr / 8 + 1)] else [(a.place, a.addr / 8)]).eraseDups
  let load (w : Place × Nat) : Nat := (words.filter fun x => x.1 == w.1 && x.2 % 64 == w.2 % 64).length
  (words.foldl (fun m w => max m (load w)) 0) - 1

def conflicts (good size : Nat) (accs : List Access) : Nat :=
  if good = 32 then passConflicts size accs
  else passConflicts size (accs.filter fun a => a.lane < good) + passConflicts size (accs.filter fun a => good ≤ a.lane)

/-- The lanes that match the watchpoint (R224); none inside a handler (R208) or where the match is suppressed (R211). -/
def watched (e : Env) (store : Bool) (size : Nat) (accs : List Access) : List Access :=
  let kind := (e.g.watchm.extractLsb' 29 2).toNat
  let mask := e.g.watchm.toNat % 2 ^ 20
  if !e.g.watchm.getLsbD 31 || e.g.shadow.isSome || e.g.suppress == some e.here then []
  else if kind != 3 && kind != (if store then 2 else 1) then []
  else accs.filter fun a => (List.range size).any fun i => Nat.land (Nat.xor (a.addr + i) (e.g.watcha.toNat % 2 ^ 20)) mask == 0

/-- Own-scratch accesses pass the watchpoint last (R106, R224). -/
def watchCheck (e : Env) (sp : Space) (store : Bool) (size : Nat) (accs : List Access) : Option Eff :=
  if sp == .scratch then
    let hit := watched e store size accs
    match hit.head? with
    | some a => some (.trap 17 (maskOf (hit.map (·.lane))) (BitVec.ofNat 64 a.addr))
    | none => none
  else none

/-- The cycles that bank conflicts of scratch accesses add to the time of the pipe (R121). -/
def State.conflictCycles (s : State) (e : Env) (sp : Space) (size : Nat) (accs : List Access) : Nat :=
  if sp == .scratch || sp == .window then conflicts (s.goodLanes (coreOf e.gid) (pipeOf e.gid)) size accs else 0

/-- Scratch accesses add their bank conflicts to CONFLICTS (R121). -/
def State.addConflicts (s : State) (e : Env) (n : Nat) : State :=
  s.modGroup e.gid fun g => { g with conflicts := g.conflicts + BitVec.ofNat 32 n }

/-- Translations used are cached (R123). -/
def State.noteLeaves (s : State) (e : Env) (sp : Space) (accs : List Access) : State :=
  match sp with
  | .global .. => accs.foldl (fun s a => s.fillTlb (coreOf e.gid) e.g.ctx a.va) s
  | _ => s

/-- An open region closes at the issue of certain instructions (R233); a `region` whose REGIONL has yet to land shows it
closed. -/
def Group.closeRegion (g : Group) : Group :=
  let shut (w : RegWrite) : RegWrite := match w with
    | .csr 0x018 v => .csr 0x018 (v &&& ~~~1#64)
    | w => w
  { g with
    regionl := g.regionl &&& ~~~1#32
    regionlSeen := g.regionlSeen &&& ~~~1#32
    pend := g.pend.map fun p => { p with writes := p.writes.map shut } }

/-- The class that accesses enter (R145): the bank class for bank memory, the remote class for SPACE 1 to 3. -/
def classOf (sp : Space) (accs : List Access) : Option OpClass :=
  if accs.isEmpty then none
  else if sp == .bank then some .bank
  else if accs.any fun a => a.place.remote then some .remote
  else none

/-- An operation that would take its counter past 63 holds its pipe (R145); otherwise it enters its class. -/
def entering (e : Env) (s : State) (c : Option OpClass) (puts : List W64) (go : State → Eff) : Eff :=
  match c with
  | none => go s
  | some c => if 63 ≤ e.g.counter c then .hold (s.holdFor e.gid .auto) else go (s.modGroup e.gid fun g => g.enter c puts)

/-- Adds a request of the group in program order (R134). -/
def State.request (s : State) (e : Env) (names : List AwName) (req : Request) : State :=
  s.modGroup e.gid fun g => { g with
    await := g.await ++ [{ seq := g.seq, iaddr := e.here, names, req, val := none, lf := 0 }]
    seq := g.seq + 1 }

/-- An instruction that reads memory into registers, where marks of poisoned data may stand in what it reads: cause 20 if it
consumes one; else its request is performed with the look (R235). DESIGN CHOICE (assumption 77). -/
def State.lookFirst (s : State) (e : Env) (req : Request) (go : State → Eff) : Eff :=
  if !s.markedAt (coreOf e.gid) req.spots then go s
  else match s.consumes e.gid { seq := e.g.seq, iaddr := e.here, names := [], req, val := none, lf := 0 } with
    | .poisoned a => .trap 20 0 (BitVec.ofNat 64 a)
    | .waits s => .hold (s.holdFor e.gid .auto)
    | .clean s => match go s with
      | .done s => .done (s.performUpTo e.gid e.g.seq)
      | .held s n => .held (s.performUpTo e.gid e.g.seq) n
      | f => f

/-- Adds a store to the group's queue (R134). -/
def State.enqueue (s : State) (e : Env) (vol : Bool) (rel : Option Scope) (bytes : List StByte) : State :=
  s.modGroup e.gid fun g => { g with
    stq := g.stq ++ [{ gid := e.gid, seq := g.seq, vol, rel, bytes }]
    seq := g.seq + 1 }

def MemOp.laneResults (o : MemOp) (e : Env) (s : State) (sp : Space) : List (Nat × W64 × Trans) :=
  e.lanes.map fun t => let va := MemOp.addr o e.g t; (t, va, s.locate e sp o.bytes va)

/-- A load (R326): every lane is checked, then the request waits for its arrival. -/
def MemOp.load (o : MemOp) (vol : Bool) (sp : Space) (e : Env) (s : State) : Eff :=
  let rs := MemOp.laneResults o e s sp
  match checkLanes (sp == .window) 0 rs with
  | some f => f
  | none =>
    let accs := accessesOf rs fun _ => (0, 0)
    match watchCheck e sp false o.bytes accs with
    | some f => f
    | none =>
      let acq := if o.ord == .acq then some o.scope else none
      let req : Request := .load vol acq o.bytes o.ty.signed accs o.dk o.dst.toNat
      let n := s.conflictCycles e sp o.bytes accs
      s.lookFirst e req fun s => .held (((s.noteLeaves e sp accs).addConflicts e n).request e (e.i.awaited.toList) req) n

/-- A store (R365): every lane is checked, then the lanes' bytes enter the queue as one entry. -/
def MemOp.store (o : MemOp) (vol : Bool) (sp : Space) (e : Env) (s : State) : Eff :=
  let rs := MemOp.laneResults o e s sp
  match checkLanes (sp == .window) 1 rs with
  | some f => f
  | none =>
    let accs := accessesOf rs fun _ => (0, 0)
    match watchCheck e sp true o.bytes accs with
    | some f => f
    | none =>
      let puts := (accs.filter fun a => match a.place with
        | .peerScratch _ => true
        | _ => false).map (·.va)
      entering e s (classOf sp accs) puts fun s =>
        let n := s.conflictCycles e sp o.bytes accs
        let s := (s.noteLeaves e sp accs).addConflicts e n
        let s := if vol then s.modGroup e.gid Group.closeRegion else s
        let rel := if o.ord == .rel then some o.scope else none
        .held (s.enqueue e vol rel
          (accs.flatMap fun a => storeBytes a.place a.addr (bytesOf (MemOp.datum o e.g a.lane) o.bytes))) n

/-- `ld` (R327). -/
def execLd (o : MemOp) (s : State) : Out := issue (.ld o) .vector always (MemOp.load o false (.global .load true)) s
/-- `ldv` (R126, R330). -/
def execLdv (o : MemOp) (s : State) : Out := issue (.ldv o) .vector always (MemOp.load o true (.global .load true)) s
/-- `lds` (R329). -/
def execLds (o : MemOp) (s : State) : Out :=
  issue (.lds o) .vector always (MemOp.load o false (if o.op == 1 then .window else .scratch)) s
/-- `ldb` (R328). -/
def execLdb (o : MemOp) (s : State) : Out := issue (.ldb o) .vector always (MemOp.load o false .bank) s
/-- `st` (R366). -/
def execSt (o : MemOp) (s : State) : Out := issue (.st o) .vector always (MemOp.store o false (.global .store true)) s
/-- `stv` (R126, R233, R366): a leaf with SPACE 3 refuses it. -/
def execStv (o : MemOp) (s : State) : Out := issue (.stv o) .vector always (MemOp.store o true (.global .atomic true)) s
/-- `sts` (R366). -/
def execSts (o : MemOp) (s : State) : Out :=
  issue (.sts o) .vector always (MemOp.store o false (if o.op == 1 then .window else .scratch)) s
/-- `stb` (R366). -/
def execStb (o : MemOp) (s : State) : Out := issue (.stb o) .vector always (MemOp.store o false .bank) s

/-! Atomics (R143, R289 to R291, R300, R301, R348, R349). -/

/-- The operand register of `atom` and `red`, and the pair of values of `cas` (R289, R300). -/
def MemOp.operand (o : MemOp) (g : Group) (t : Nat) : W64 := BitVec.ofNat 64 (g.src .v o.c (o.ty == .b64) t)
def MemOp.second (o : MemOp) (g : Group) (t : Nat) : W64 :=
  BitVec.ofNat 64 (if o.ty == .b64 then g.src .v (o.c + 2) true t else g.src .v (o.c + 1) false t)

/-- What the host takes of `atom` and `red` (R291, R349). -/
def MemOp.hostAtom (o : MemOp) (returns : Bool) : Bool :=
  [ETy.i32, .n32, .b64].contains o.ty && (o.op == 0 || (returns && o.op == 6))

def MemOp.atomSpace (o : MemOp) (host : Bool) : Space := if o.bank then .bank else .global .atomic host

/-- The checks of `atom` and `cas` (R201, R291, R301, R235), then the request. -/
def MemOp.atomic (o : MemOp) (sp : Space) (req : List Access → Request) (e : Env) (s : State) : Eff :=
  let rs := MemOp.laneResults o e s sp
  match checkLanes false 2 rs with
  | some f => f
  | none =>
    if 1 ≤ e.launch.det && !o.nd then .trap 13 e.mask 0
    else
      let accs := accessesOf rs fun t => (MemOp.operand o e.g t, MemOp.second o e.g t)
      s.lookFirst e (req accs) fun s =>
        entering e s (if sp == .bank then classOf sp accs else none) [] fun s =>
          .done (((s.noteLeaves e sp accs).modGroup e.gid Group.closeRegion).request e e.i.awaited.toList (req accs))

/-- `atom` (R289 to R291). -/
def execAtom (o : MemOp) (s : State) : Out :=
  issue (.atom o) .vector always
    (MemOp.atomic o (MemOp.atomSpace o (MemOp.hostAtom o true))
      fun accs => .atom o.op o.ty o.bytes o.scope o.ord accs o.dk o.dst.toNat) s
/-- `cas` (R300, R301). -/
def execCas (o : MemOp) (s : State) : Out :=
  issue (.cas o) .vector always
    (MemOp.atomic o (.global .atomic true) fun accs => .cas o.bytes o.scope o.ord accs o.dk o.dst.toNat) s

/-- The reduction-buffer entries of a core that have not spilled: launch, place in its list, age. -/
def State.buffered (s : State) (core : Nat) : List (Nat × Nat × Nat) :=
  s.launches.flatMap fun l => (l.2.red.zipIdx.filter fun r => r.1.core == core && !r.1.spilled).map fun r => (l.1, r.2, r.1.age)

/-- The oldest of them spills (R202). -/
def oldest : List (Nat × Nat × Nat) → Option (Nat × Nat × Nat)
  | [] => none
  | x :: r => match oldest r with
    | none => some x
    | some y => some (if x.2.2 ≤ y.2.2 then x else y)

def State.spillOne (s : State) (core : Nat) : State :=
  match oldest (s.buffered core) with
  | none => s
  | some (l, i, _) => s.modLaunch l fun x => { x with red := x.red.zipIdx.map fun r => if r.2 == i then { r.1 with spilled := true } else r.1 }

def State.spillN (s : State) (core : Nat) : Nat → State
  | 0 => s
  | n + 1 => (s.spillOne core).spillN core n

/-- Whether the spilled entries of a context on a core lie within its spill region (R202, R250). -/
def State.spillFits (s : State) (ctx core : Nat) : Bool :=
  let n := (s.launches.map fun l => if l.2.ctx == ctx then (l.2.red.filter fun r => r.core == core && r.spilled).length else 0).foldl (· + ·) 0
  n == 0 || decide (n * Config.spillEntryBytes ≤ s.hbm.readNat (s.spillTbl ctx + 16 * core + 8) 8)

/-- Whether the spilled entries of every context lie within its region on a core (R202). -/
def State.spillsFit (s : State) (core : Nat) : Bool := s.launches.all fun l => s.spillFits l.2.ctx core

/-- Entries in the core's reduction buffer (R202). -/
def State.bufferRed (s : State) (e : Env) (o : MemOp) (accs : List Access) : State :=
  let core := coreOf e.gid
  let excess := (s.buffered core).length + accs.length - 4096
  let s := s.spillN core excess
  s.modLaunch e.team.launch fun l => { l with red := l.red ++ accs.map fun a =>
    { core, spilled := false, place := a.place, addr := a.addr, size := o.bytes, ty := o.ty, op := o.op, operand := a.operand,
      vcore := e.team.vcore, teamix := e.team.teamix, groupix := e.g.groupix, lane := a.lane, seq := e.g.redSeq, age := s.freeCtr } }

/-- `red` (R348, R349). The violation of a spill that overflows has the address of the first active lane in TRAPVAL.
DESIGN CHOICE (assumption 101). -/
def execRed (o : MemOp) (s : State) : Out :=
  issue (.red o) .vector always (fun e s =>
    let sp := MemOp.atomSpace o (MemOp.hostAtom o false)
    let rs := MemOp.laneResults o e s sp
    match checkLanes false 2 rs with
    | some f => f
    | none =>
      let accs := accessesOf rs fun t => (MemOp.operand o e.g t, 0)
      let count (s : State) : State := s.modGroup e.gid fun g => { g.closeRegion with redSeq := g.redSeq + 1 }
      if e.launch.det = 0 then
        entering e s (classOf sp accs) [] fun s =>
          .done (count ((s.noteLeaves e sp accs).request e [] (.red o.op o.ty o.bytes o.scope o.ord accs)))
      else
        let s := s.noteLeaves e sp accs
        let s := if o.ord == .rel then s.fenceAt e.gid o.scope else s
        if o.ord == .rel && !s.fenced e.gid o.scope then .hold (s.holdFor e.gid .auto)
        else
          let t := s.bufferRed e o accs
          if t.spillsFit (coreOf e.gid) then .done (count t)
          else .trap 2 0 ((accs.head?.map (·.va)).getD 0)) s

/-- A fence at a scope (R138, R139, R141, R317): the pipe is held until what it orders is complete; then it acquires. -/
def State.fencing (s : State) (e : Env) (sc : Scope) (go : State → Eff) : Eff :=
  let s := s.fenceAt e.gid sc
  if s.fenced e.gid sc then go (s.acquire e.gid sc) else .hold (s.holdFor e.gid .auto)

/-- `fence` (R138, R139, R141, R317): the release, then the acquire, before the next instruction. -/
def execFence (o : MemOp) (s : State) : Out :=
  issue (.fence o) .other always (fun e s => s.fencing e o.scope .done) s

/-! The uniform accesses (R358). -/

def MemOp.uniAddr (o : MemOp) (g : Group) : W64 :=
  (g.sreg o.a.toNat + o.imm.signExtend 64) &&& ~~~(BitVec.ofNat 64 (o.bytes - 1))

/-- `sld` (R358). -/
def execSld (o : MemOp) (s : State) : Out :=
  issue (.sld o) .uniform always (fun e s =>
    let va := MemOp.uniAddr o e.g
    let sp := Space.global .load true
    match s.locate e sp o.bytes va with
    | .violation => .trap 2 0 va
    | .fault l => .fault 0 0 va l
    | .ok p a =>
      let acc : Access := { lane := 0, place := p, addr := a, va, operand := 0, operand2 := 0 }
      let req : Request := .sload o.bytes o.ty.signed acc o.dst.toNat
      s.lookFirst e req fun s => .done ((s.noteLeaves e sp [acc]).request e e.i.awaited.toList req)) s

/-- `sst` (R358). -/
def execSst (o : MemOp) (s : State) : Out :=
  issue (.sst o) .uniform always (fun e s =>
    let va := MemOp.uniAddr o e.g
    let sp := Space.global .store true
    match s.locate e sp o.bytes va with
    | .violation => .trap 2 0 va
    | .fault l => .fault 1 0 va l
    | .ok p a =>
      let acc : Access := { lane := 0, place := p, addr := a, va, operand := 0, operand2 := 0 }
      let puts := match p with
        | .peerScratch _ => [va]
        | _ => []
      entering e s (classOf sp [acc]) puts fun s =>
        .done ((s.noteLeaves e sp [acc]).enqueue e false none (storeBytes p a (bytesOf ((e.g.sreg o.dst.toNat).toNat) o.bytes)))) s

end Sys2Proof.Machine
end

