-- ==== Sys2Proof/Machine/Engine.lean ====
section
/-!
DEFINITION. The logarithmic matrix engine (R148 to R155, R161 to R174): fragments, format and layout records, the
arithmetic of one element, the checksum, and the engine's order of steps and tile accesses.
-/
namespace Sys2Proof.Machine

def field (w : W64) (lo n : Nat) : Nat := (w.extractLsb' lo n).toNat
def sfield (w : W64) (lo n : Nat) : Int := toInt true n (field w lo n)

/-! The format record (R151, R152). -/

def fmtFA (w : W64) : Nat := field w 0 3
def fmtFB (w : W64) : Nat := field w 3 3
def fmtBLK (w : W64) : Nat := field w 6 2
def fmtASB (w : W64) : Nat := field w 8 20
def fmtBSB (w : W64) : Nat := field w 28 20
def fmtACC (w : W64) : Bool := w.getLsbD 48
def fmtCHK (w : W64) : Bool := w.getLsbD 49

/-- The record that `mfmt` refuses (R152). -/
def fmtIllegal (w : W64) : Bool :=
  field w 50 14 != 0 || fmtASB w % 2 == 1 || fmtBSB w % 2 == 1 || (fmtBLK w == 0 && (fmtASB w != 0 || fmtBSB w != 0))

/-- The element type of a format code. -/
def fmtTy (w : W64) : ETy :=
  match fmtFA w with
  | 0 => .ln16x2
  | 1 => .ln8x4
  | _ => .ln4x8

/-- K of R148: elements of 32 bytes. -/
def fmtK (w : W64) : Nat := 256 / (fmtTy w).width

/-- The block length along K (R151); 0 without scales. -/
def fmtBL (w : W64) : Nat := if fmtBLK w = 0 then 0 else 16 * 2 ^ fmtBLK w

/-- The conditions of the format fault (R152). -/
def fmtFaults (w : W64) : Bool :=
  3 ≤ fmtFA w || 3 ≤ fmtFB w || fmtFA w != fmtFB w || (fmtBLK w != 0 && fmtBL w < fmtK w)

/-- The scale offsets of a step (R152): of A and of B, for row or column 0. -/
def scaleOffsets (w : W64) (step : Nat) : Nat × Nat :=
  let j := if fmtBL w = 0 then 0 else step * fmtK w / fmtBL w
  (fmtASB w + 128 * j, fmtBSB w + 128 * j)

/-! Layout records (R153 to R155). -/

/-- The words that `mlay` refuses (R153). -/
def layIllegal (w0 w1 : W64) : Bool := field w0 0 8 != 0 || 6 < field w0 8 3 || field w1 0 4 != 0

/-- The part of a row's address that depends on the row, and the part that depends on the step, in units of 8 bytes. -/
def rowPart (l : W64 × W64 × Nat) (q : Nat) : Int :=
  let e0 := 2 ^ field l.1 8 3
  ((q % e0 : Nat) : Int) * sfield l.1 28 18 + ((q / e0 : Nat) : Int) * sfield l.1 46 18
def stepPart (l : W64 × W64 × Nat) (i : Nat) : Int :=
  let e2 := field l.2.1 4 12 + 1
  let e3 := field l.2.1 16 12 + 1
  ((i % e2 : Nat) : Int) * sfield l.2.1 28 18 + ((i / e2 % e3 : Nat) : Int) * sfield l.2.1 46 18

/-- The scratch offset of row q in step i (R154). -/
def rowAddr (l : W64 × W64 × Nat) (i q : Nat) : Int := 8 * ((field l.1 11 17 : Int) + rowPart l q + stepPart l i)

def rows64 : List Nat := List.range 64

/-- The first address of an operation of `total` steps that lies outside a scratch of `size` bytes (R154), if any. -/
def layFails (l : W64 × W64 × Nat) (total size : Nat) : Option Int :=
  let bad (a : Int) : Bool := a < 0 || (size : Int) < a + 32
  let lo := rows64.foldl (fun m q => min m (rowPart l q)) (rowPart l 0)
  let hi := rows64.foldl (fun m q => max m (rowPart l q)) (rowPart l 0)
  match (List.range total).find? fun i =>
      bad (8 * ((field l.1 11 17 : Int) + lo + stepPart l i)) || bad (8 * ((field l.1 11 17 : Int) + hi + stepPart l i)) with
  | some i => ((rows64.map fun q => rowAddr l i q).find? bad)
  | none => none

/-- Extra cycles of one port (R155): four cycles of 16 rows. -/
def portConflicts (l : W64 × W64 × Nat) (i : Nat) : Nat :=
  sumList ((List.range 4).map fun c =>
    let words := ((List.range 16).flatMap fun r =>
      let a := (rowAddr l i (16 * c + r)).toNat / 8
      [a, a + 1, a + 2, a + 3]).eraseDups
    (words.foldl (fun m w => max m (words.filter fun x => x % 64 == w % 64).length) 0) - 1)

/-! Fragments (R149): 512 words, eight per row. -/

def fragRow (f : List W32) (q : Nat) : List W32 := (f.drop (8 * q)).take 8

/-- The codes of a row in ascending k. -/
def rowCodes (ty : ETy) (f : List W32) (q : Nat) : List Nat := (fragRow f q).flatMap fun w => elems ty w.toNat

def Group.window (g : Group) (r n : Nat) : List W32 :=
  (List.range n).flatMap fun i => lanes.map fun t => g.v.get ((r + i) * 32 + t)

/-- A fragment read from scratch by the address generator. -/
def State.readFragment (s : State) (team : Nat) (l : W64 × W64 × Nat) (i : Nat) : List W32 :=
  rows64.flatMap fun q =>
    (List.range 8).map fun w => BitVec.ofNat 32 (s.readAt (.scratch team) ((rowAddr l i q).toNat + 4 * w) 4)

def State.readScales (s : State) (team off : Nat) : List W16 :=
  rows64.map fun m => BitVec.ofNat 16 (s.readAt (.scratch team) (off + 2 * m) 2)

/-- The words of a step's fragments in the order in which the ports read them (R155): 16 rows in each of four cycles, in each cycle
A's before B's, which are read at once. DESIGN CHOICE (assumption 84). -/
def fragmentWords (frags : List (W64 × W64 × Nat)) (i : Nat) : List Nat :=
  (List.range 4).flatMap fun c => frags.flatMap fun l => (List.range 16).flatMap fun q =>
    (List.range 4).map fun w => (rowAddr l i (16 * c + q)).toNat + 8 * w

/-- The first poisoned word of a step's fragments, then of its scales (R235). -/
def State.stepPoison (s : State) (team : Nat) (frags : List (W64 × W64 × Nat)) (i : Nat) (scales : List Nat) : Option Nat :=
  if s.poison.isEmpty then none
  else
    let words := fragmentWords frags i ++ scales.flatMap fun o => rows64.map fun m => o + 2 * m
    (words.find? fun a => s.poisoned (.scratch team) a).map fun a => a / 8 * 8

/-! One element (R162, R163). -/

/-- An f32 result flushed (R163). -/
def flush32 (r : Nat × W32) : Nat × W32 := fmt32.flushRes true r

/-- The exponent of a scale pair in LN16 units, and its sign (R162). -/
def scaleExp (sa sb : Nat) : Int := ((sa % 32768 : Nat) : Int) - 16384 + (((sb % 32768 : Nat) : Int) - 16384)
def scaleNeg (sa sb : Nat) : Bool := (32768 ≤ sa) != (32768 ≤ sb)

/-- The element update for LN8 and LN4. DEDUCED (assumption 29). A rounding that ends at zero or at the least normal number from a
tiny inexact sum raises UF. DEDUCED (assumption 109). -/
def stepLow (ty : ETy) (acc : Nat) (ab : List (Nat × Nat)) (scale : Option (Nat × Nat)) : Nat × Fl :=
  let (n, nar) := dotUnits ty ab
  let bad := match scale with
    | some (sa, sb) => sa == 0x8000 || sb == 0x8000
    | none => false
  if nar || bad then (fmt32.nan, { lf := flINV })
  else
    let (v, e) : Int × Int := match scale with
      | none => (n, -40)
      | some (sa, sb) =>
        if sa = 0 || sb = 0 then (0, -40)
        else
          let (m, i) := logToLinear (scaleExp sa sb)
          ((if scaleNeg sa sb then -n else n) * m, i - 56)
    let r := flush32 (addExact (fmt32.decode acc) v e)
    (r.1, { ff := r.2 })

/-- One LN16 product as f32 (R163). -/
def product16 (a b : Nat) (scale : Option (Nat × Nat)) : Nat × W32 :=
  let z := match scale with
    | some (sa, sb) => sa == 0 || sb == 0
    | none => false
  if a = 0 || b = 0 || z then (0, 0)
  else
    let ty := ETy.ln16x2
    let (neg, e) : Bool × Int := match scale with
      | none => (ty.logSign a != ty.logSign b, ty.logExp a + ty.logExp b)
      | some (sa, sb) => ((ty.logSign a != ty.logSign b) != scaleNeg sa sb, ty.logExp a + ty.logExp b + scaleExp sa sb)
    let (m, i) := logToLinear e
    if 128 ≤ i then (fmt32.inf neg, flOF)
    else if i < -126 then (fmt32.zero neg, flUF)
    else fmt32.round 0 neg m (i - 16)

/-- The pairwise tree (R163): halves the list n times. -/
def pairSums : List Nat → List Nat × W32
  | x :: y :: r =>
    let (rest, f) := pairSums r
    let c := flush32 (fadd1 fmt32 0 false x y)
    (c.1 :: rest, c.2 ||| f)
  | l => (l, 0)

def tree : Nat → List Nat → List Nat × W32
  | 0, l => (l, 0)
  | n + 1, l =>
    let (l, f) := pairSums l
    let (l, h) := tree n l
    (l, f ||| h)

/-- The element update for LN16 (R163). With a NaR scale or element (R68) the products and the tree still run and raise their
flags; only the last addition falls away. The code of a NaR element, 0x8000, stands for minus zero's exponent in the
products. DEDUCED (assumption 29). -/
def stepHigh (acc : Nat) (ab : List (Nat × Nat)) (scale : Option (Nat × Nat)) : Nat × Fl :=
  let bad := match scale with
    | some (sa, sb) => sa == 0x8000 || sb == 0x8000
    | none => false
  let ps := ab.map fun p => product16 p.1 p.2 scale
  let (sum, f) := tree 4 (ps.map (·.1))
  let ff := ps.foldl (fun x p => x ||| p.2) f
  if bad || ab.any (fun p => p.1 == 0x8000 || p.2 == 0x8000) then (fmt32.nan, { ff, lf := flINV })
  else
    let r := flush32 (fadd1 fmt32 0 false acc (sum.headD 0))
    (r.1, { ff := ff ||| r.2 })

def stepElem (ty : ETy) (acc : Nat) (ab : List (Nat × Nat)) (scale : Option (Nat × Nat)) : Nat × Fl :=
  if ty == .ln16x2 then stepHigh acc ab scale else stepLow ty acc ab scale

/-- Whether the checksum compares a row (R169): the products of LN16 have I within −24 to 24, and no chunk contains NaR. A NaR
scale counts where it scales an LN16 product of two elements other than 0; in LN8 and LN4 scales are not looked at.
DESIGN CHOICE (assumption 85). -/
def rowCompared (ty : ETy) (a : List Nat) (bs : List (List Nat)) (sa : Option Nat) (sbs : List W16) : Bool :=
  (bs.zipIdx).all fun p =>
    let scale := sa.map fun x => (x, ((sbs.getD p.2 0).toNat))
    (a.zip p.1).all fun ab =>
      ab.1 != ty.nar && ab.2 != ty.nar &&
      (ty != .ln16x2 || ab.1 == 0 || ab.2 == 0 ||
        match scale with
        | none => let i := (logToLinear (ty.logExp ab.1 + ty.logExp ab.2)).2; decide (-24 ≤ i && i ≤ 24)
        | some (x, y) =>
          x != 0x8000 && y != 0x8000 &&
          (x == 0 || y == 0 ||
            let i := (logToLinear (ty.logExp ab.1 + ty.logExp ab.2 + scaleExp x y)).2
            decide (-24 ≤ i && i ≤ 24)))

/-- One step on a tile (R163): the new elements in row-major order and the flags of all of them. -/
def stepTile (w : W64) (first : Bool) (tile : List W32) (fa fb : List W32) (sa sb : List W16) : List W32 × Fl :=
  let ty := fmtTy w
  let bs := rows64.map fun n => rowCodes ty fb n
  let rs := rows64.flatMap fun m =>
    let a := rowCodes ty fa m
    bs.zipIdx.map fun p =>
      let old := if first && !fmtACC w then 0 else (tile.getD (64 * m + p.2) 0).toNat
      let scale := if fmtBLK w = 0 then none else some ((sa.getD m 0).toNat, (sb.getD p.2 0).toNat)
      stepElem ty old (a.zip p.1) scale
  (rs.map fun r => BitVec.ofNat 32 r.1, rs.foldl (fun f r => f.or r.2) {})

/-! The steps (R163 to R174). -/

/-- An event of a matrix operation waits for its group's next boundary, or kills the context of a group that has retired
(R170, R235). Of events of several operations the first stays; a later one is not reported, nor counted for cause 20.
DESIGN CHOICE (assumption 100). -/
def State.matrixTrap (s : State) (gid : Gid) (region cause : Nat) (iaddr : W32) (val : W64) : State :=
  match s.group gid with
  | none => s
  | some g =>
    if g.status == .retired then (if cause = 20 then s.count 1070 32 else s).killFor gid g cause iaddr val
    else if g.pendingTrap.isSome then s
    else s.putGroup gid { g with pendingTrap := some (cause, iaddr, val, region) }

/-- The engine's cycles (R148, R174) and its work in the estimator, which counts the multiplying ones (R240). -/
def State.spendEngine (s : State) (core mult total : Nat) : State :=
  let k := s.islandOf core
  (List.replicate (total - mult) 0 ++ List.replicate mult 256).foldl (fun s o => s.edge k o none) (s.wakeIsland core)

def Group.writeWindow (g : Group) (r : Nat) (f : List W32) : Group :=
  if g.status == .retired then g else { g with v := g.v.block (r * 32) (r * 32 + 512) f }

/-- A window that the address generator fills loses the marks of its registers, each of which it writes whole (R235). -/
def State.clearWindowMarks (s : State) (gid : Gid) (windows : List Nat) : State :=
  if s.poison.isEmpty then s
  else { s with poison := s.poison.filter fun p => match p with
    | .vreg g r _ => !(g == gid && windows.any fun w => w ≤ r && r < w + 16)
    | _ => true }

def saturate (x : W64) (n : Nat) : W64 := BitVec.ofNat 64 (min (x.toNat + n) (2 ^ 64 - 1))

/-- The checksum of a step (R168 to R170): rows compared and skipped, and the rows that an error struck. -/
def State.checkRows (s : State) (core team gid : Nat) (region : Nat) (iaddr : W32) (w : W64) (i : Nat) (fa fb : List W32)
    (sa sb : List W16) : State :=
  if !fmtCHK w then s
  else
    let ty := fmtTy w
    let bs := rows64.map fun n => rowCodes ty fb n
    let scaled := fmtBLK w != 0 && ty == .ln16x2
    let cmp := rows64.filter fun m =>
      rowCompared ty (rowCodes ty fa m) bs (if scaled then some (sa.getD m 0).toNat else none) sb
    let s := s.modCore core fun c => { c with chkcmp := saturate c.chkcmp cmp.length, chkskip := saturate c.chkskip (64 - cmp.length) }
    let struck := cmp.filter fun m => s.upsets.contains (.checksum team m)
    let s : State := { s with upsets := s.upsets.filter fun u => match u with
      | .checksum t _ => t != team
      | _ => true }
    match struck with
    | [] => s
    | m :: _ => (struck.foldl (fun s _ => s.count 1069 32) s).matrixTrap gid region 19 iaddr (BitVec.ofNat 64 (256 * i + m))

/-- The cycles in which a step multiplies (R148). -/
def multCycles (w : W64) : Nat := if fmtTy w == .ln16x2 then 8 else 4

/-- The cycles of a step (R148, R174): its multiply, and for `mloop` its fragment reads, which overlap the multiply of the
step before from HEAVY 2 on. -/
def stepCycles (w : W64) (one : Bool) (heavy next extraA extraB : Nat) : Nat :=
  let mult := multCycles w
  let read := 4 + max extraA extraB
  if one then mult else if 2 ≤ heavy && next != 0 then max mult read else mult + read

/-- One step of the operation at an index of the engine's order (R163 to R165): its flags are ORed in as it retires (R65). -/
def State.engineStep (s : State) (team idx : Nat) : State :=
  let t := s.team team
  match t.engine[idx]? with
  | some (.steps gid seq iaddr tile w la lb next total one fa fb sa sb region) =>
    let core := t.core
    let offs := scaleOffsets w next
    let scaleAt : List Nat := if fmtBLK w = 0 || one then [] else [offs.1, offs.2]
    let bad := s.stepPoison team (if one then [] else [la, lb]) next scaleAt
    let fa := if one then fa else s.readFragment team la next
    let fb := if one then fb else s.readFragment team lb next
    let sa := if scaleAt.isEmpty then sa else s.readScales team offs.1
    let sb := if scaleAt.isEmpty then sb else s.readScales team offs.2
    let (vals, fl) := stepTile w (next == 0) (t.tile tile) fa fb sa sb
    let extraA := portConflicts la next
    let extraB := portConflicts lb next
    let extra := if one then 0 else extraA + extraB
    let s := s.modTeam team fun t => t.putTile tile vals
    let s := if next == 0 && !fmtACC w then s.clearTileMarks team fun k => k / 4096 == tile else s
    let s := s.modGroup gid fun g =>
      let g := g.raiseFlags fl.ff fl.lf extra
      if one then g else (g.writeWindow la.2.2 fa).writeWindow lb.2.2 fb
    let s := if one then s else s.clearWindowMarks gid [la.2.2, lb.2.2]
    let s := match bad with
      | some a => s.matrixTrap gid region 20 iaddr (BitVec.ofNat 64 a)
      | none => s
    let s := s.checkRows core team gid region iaddr w next fa fb sa sb
    let s := s.modCore core fun c => { c with engineTeam := team }
    let s := s.spendEngine core (multCycles w) (stepCycles w one t.heavy next extraA extraB)
    let rest : EngineOp := .steps gid seq iaddr tile w la lb (next + 1) total one [] [] [] [] region
    if next + 1 < total then s.modTeam team fun t => { t with engine := t.engine.set idx rest }
    else
      (s.modTeam team fun t => { t with engine := t.engine.eraseIdx idx }).modGroup gid fun g => g.finish seq
  | _ => s

/-- The engine performs the next step of a tile, and the tile accesses that follow it (R161, R164), if the turn is the
team's and the step may go (R173). -/
def State.runTile (s : State) (team tile : Nat) : State :=
  if s.engineTurn (s.team team).core != some team || !(s.team team).readyTiles.contains tile then s
  else match (s.team team).engine.findIdx? fun o => o.tile == tile with
  | none => s
  | some i => (s.engineStep team i).settle team tile

end Sys2Proof.Machine
end

