-- ==== Sys2Proof/Machine/Matrix.lean ====
section
/-!
DEFINITION. The matrix instructions (R54, R151 to R161, R165, R171 to R173, R339), and the engine's and the firmware's
own steps, MATRIX_STEP and FORMAT_EMULATION.
-/
namespace Sys2Proof.Machine

/-- A tile number below the team's tile count (R157, R173). -/
def tileOk (tile : Nat) (e : Env) (_ : State) : Bool := tile < e.team.heavy

/-- `mfmt` (R151, R152). -/
def execMfmt (o : POp) (s : State) : Out :=
  issue (.mfmt o) .other always (collective fun e s =>
    let w := e.g.sreg o.a.toNat
    if fmtIllegal w then .trap 3 0 0 else .done (s.modGroup e.gid fun g => { g with mfmt := w })) s

/-- `mlay` (R153). -/
def execMlay (o : POp) (s : State) : Out :=
  issue (.mlay o) .other always (collective fun e s =>
    let w0 := e.g.sreg o.a.toNat
    let w1 := e.g.sreg o.b.toNat
    if layIllegal w0 w1 then .trap 3 0 0
    else .done (s.modGroup e.gid fun g => { g with mlay := g.mlay.set o.c.toNat (w0, w1, o.dst.toNat) })) s

/-- The format fault (R171): to the firmware, or to the group's handler. -/
def formatFault (e : Env) (s : State) : Eff :=
  if s.ctrl.featacc.getLsbD 9 then
    .hold { (s.modGroup e.gid fun g => { g with status := .emulating }) with cur := none }
  else .trap 12 0 e.g.mfmt

/-- The first scale offset of an operation that leaves the scratch (R152, R154, R339), looked for after the rows of A and then
of B: row 63 of the last block of A, then of B. DESIGN CHOICE (assumption 84). -/
def scaleFails (w : W64) (total size : Nat) : Option Nat :=
  if fmtBLK w = 0 || total = 0 then none
  else
    let offs := scaleOffsets w (total - 1)
    [offs.1 + 126, offs.2 + 126].find? fun a => size < a + 2

/-- Adds an operation to the engine's order, and performs what no step precedes (R161). -/
def State.engine (s : State) (e : Env) (o : EngineOp) : State :=
  ((s.modTeam e.g.team fun t => { t with engine := t.engine ++ [o] }).modGroup e.gid fun g => { g with seq := g.seq + 1 }).settle
    e.g.team o.tile

/-- Whether an `mma` may read its fragments at its issue: fewer than HEAVY steps of the team hold theirs, and one place is
left for the `mloop`s of the team (R173). It waits for the engine otherwise. DESIGN CHOICE (assumption 86). -/
def Team.mayCapture (t : Team) : Bool :=
  decide (t.captured + (if t.engine.any fun o => o.isStep && !o.captured then 1 else 0) < t.heavy)

/-- The older stores of the group have left its queue before the engine reads (R165); the pipe is held until they have.
DESIGN CHOICE (assumption 34). -/
def State.afterOwn (s : State) (e : Env) (go : State → Eff) : Eff :=
  let s := s.leaveOwn e.gid
  if s.queueEmpty e.gid then go s else .hold (s.holdFor e.gid .auto)

/-- The pipe is held for the engine's next step on its core. -/
def State.holdEngine (s : State) (e : Env) : Eff :=
  .hold (s.holdFor e.gid (((s.engineEvent (coreOf e.gid)).map Turn.row).getD .auto))

/-- `mma` (R158): both windows are read at issue, and its scales too (R165). -/
def execMma (o : POp) (s : State) : Out :=
  issue (.mma o) .other (tileOk o.dst.toNat) (collective fun e s =>
    let w := e.g.mfmt
    if s.poisonedIn e.gid lanes (vspan o.a.toNat 16 ++ vspan o.b.toNat 16) then .trap 20 0 0
    else if fmtFaults w then formatFault e s
    else match scaleFails w 1 e.team.scratchSize with
      | some a => .trap 2 0 (BitVec.ofNat 64 a)
      | none =>
        if !e.team.mayCapture then s.holdEngine e
        else (if fmtBLK w = 0 then fun go => go s else s.afterOwn e) fun s =>
        entering e s (some .matrix) [] fun s =>
          let offs := scaleOffsets w 0
          let scale (off : Nat) : List W16 := if fmtBLK w = 0 then [] else s.readScales e.g.team off
          let s := match s.stepPoison e.g.team [] 0 (if fmtBLK w = 0 then [] else [offs.1, offs.2]) with
            | some a => s.matrixTrap e.gid e.g.regionSeq 20 e.here (BitVec.ofNat 64 a)
            | none => s
          let s := s.engine e (.steps e.gid e.g.seq e.here o.dst.toNat w (0, 0, 0) (0, 0, 0) 0 1 true
            (e.g.window o.a.toNat 16) (e.g.window o.b.toNat 16) (scale offs.1) (scale offs.2) e.g.regionSeq)
          .held s (if s.passes (coreOf e.gid) (pipeOf e.gid) = 2 then 7 else 3)) s

/-- Windows that overlap (R157). -/
def overlapping (g : Group) (a b : Nat) : Bool :=
  let x := (g.mlay.getD a (0, 0, 0)).2.2
  let y := (g.mlay.getD b (0, 0, 0)).2.2
  x < y + 16 && y < x + 16

/-- `mloop` (R154, R157, R159, R160, R172). DEDUCED (assumption 33). -/
def execMloop (o : POp) (s : State) : Out :=
  issue (.mloop o) .other (fun e s => tileOk o.dst.toNat e s && !overlapping e.g o.a.toNat o.b.toNat) (collective fun e s =>
    let w := e.g.mfmt
    let total := (e.g.sreg o.c.toNat).toNat % 2 ^ 32
    let la := e.g.mlay.getD o.a.toNat (0, 0, 0)
    let lb := e.g.mlay.getD o.b.toNat (0, 0, 0)
    if 65535 < total then .trap 3 0 0
    else if fmtFaults w then formatFault e s
    else if total = 0 then .done s
    else
      let size := e.team.scratchSize
      match layFails la total size, layFails lb total size, scaleFails w total size with
      | some a, _, _ => .trap 2 0 (BitVec.ofInt 64 a)
      | none, some a, _ => .trap 2 0 (BitVec.ofInt 64 a)
      | none, none, some a => .trap 2 0 (BitVec.ofNat 64 a)
      | none, none, none =>
        s.afterOwn e fun s => entering e s (some .matrix) [] fun s =>
          let s := s.modGroup e.gid fun g => { g with
            await := g.await ++ [{ seq := g.seq, iaddr := e.here, req := .windows, val := none, lf := 0,
                                   names := [⟨false, la.2.2, 16, false⟩, ⟨false, lb.2.2, 16, false⟩] }] }
          .done (s.engine e (.steps e.gid e.g.seq e.here o.dst.toNat w la lb 0 total false [] [] [] [] e.g.regionSeq))) s

/-- `mzero` (R161). -/
def execMzero (o : POp) (s : State) : Out :=
  issue (.mzero o) .other (tileOk o.dst.toNat) (collective fun e s => .done (s.engine e (.zero o.dst.toNat))) s

/-- `mwr` (R161): the window is read at issue. -/
def execMwr (o : POp) (s : State) : Out :=
  issue (.mwr o) .other (tileOk o.dst.toNat) (collective fun e s =>
    if s.poisonedIn e.gid lanes (vspan o.b.toNat 8) then .trap 20 0 0
    else .done (s.engine e (.write o.dst.toNat o.a.toNat (e.g.window o.b.toNat 8)))) s

/-- `mrd` (R161): the band returns with variable latency. A band with a poisoned element is looked at after the steps before
it, for which the pipe is held; an element still poisoned is consumed (R235). -/
def execMrd (o : POp) (s : State) : Out :=
  issue (.mrd o) .other (tileOk o.a.toNat) (collective fun e s =>
    let tile := o.a.toNat
    let band := o.b.toNat
    let marked := !s.poison.isEmpty && ((List.range 256).any fun i => s.poison.contains (.tile e.g.team (bandKey tile band i)))
    if marked && e.team.engine.any fun x => x.tile == tile then s.holdEngine e
    else if marked then .trap 20 0 0
    else
      let s := s.modGroup e.gid fun g => { g with
        await := g.await ++ [{ seq := g.seq, iaddr := e.here, req := .engine, val := none, lf := 0, names := e.i.awaited.toList }] }
      .done (s.engine e (.read e.gid e.g.seq tile band (o.ty == .ln8x4) o.dst.toNat))) s

/-- MATRIX_STEP: the engine performs one step on a tile (R163). -/
def execMatrixStep (team tile : Nat) (s : State) : Out :=
  .next (if (s.team team).residence == .saved then s else (s.runTile team tile).draw)

/-- The tile that the firmware writes (R171): each element a free value of the record's later definition.
DESIGN CHOICE (assumption 37). -/
def emulatedTile (w : W64) (draw : Nat) : List W32 :=
  (List.range 4096).map fun i => Config.emulatedElement w (4096 * draw + i)

/-- The instruction of a group at its position. -/
def State.instrAt (s : State) (core ctx : Nat) (off : W32) : Option Instr :=
  match s.fetch core ctx off.toNat with
  | .bytes bs => match decode bs with
    | .ok (i, _) => some i
    | .error _ => none
  | _ => none

/-- The effect of a faulted operation as the firmware performs it: the tile, the flags, and the windows of an `mloop`, filled from the
scratch as it is then, and not where a row's address fails. DESIGN CHOICE (assumption 37). -/
def State.emulate (s : State) (e : Env) : State :=
  let free := Config.freeWord s.freeCtr
  let flags (s : State) : State := s.modGroup e.gid fun g =>
    g.raiseFlags (free.setWidth 32 &&& fflagsMask) ((free >>> 32).setWidth 32 &&& lflagsMask) 0
  let tile (t : Nat) (s : State) : State := flags (s.modTeam e.g.team fun x => x.putTile t (emulatedTile e.g.mfmt s.freeCtr))
  match e.i with
  | .mma o => tile o.dst.toNat s
  | .mloop o =>
    let total := (e.g.sreg o.c.toNat).toNat % 2 ^ 32
    let la := e.g.mlay.getD o.a.toNat (0, 0, 0)
    let lb := e.g.mlay.getD o.b.toNat (0, 0, 0)
    let size := e.team.scratchSize
    if total = 0 then s
    else if (layFails la total size).isSome || (layFails lb total size).isSome then tile o.dst.toNat s
    else
      let fa := s.readFragment e.g.team la (total - 1)
      let fb := s.readFragment e.g.team lb (total - 1)
      tile o.dst.toNat (s.modGroup e.gid fun g => (g.writeWindow la.2.2 fa).writeWindow lb.2.2 fb)
  | _ => s

/-- The tile of an `mma` or `mloop`. -/
def matrixTile : Instr → Nat
  | .mma o => o.dst.toNat
  | .mloop o => o.dst.toNat
  | _ => 0

/-- FORMAT_EMULATION: the firmware performs the operation, after the steps issued earlier to its tile, and the group resumes
after it (R161, R171), with no cycle counted for it; a single step of the instruction is taken then (R223).
DESIGN CHOICE (assumption 103). -/
def execFormatEmulation (g : Gid) (s : State) : Out :=
  match s.group g with
  | none => .next s
  | some x =>
    match x.status, x.visit with
    | .emulating, some v =>
      match s.instrAt (coreOf g) x.ctx v.pos with
      | none => .next s
      | some i =>
        if (s.teamOf x).engine.any fun o => o.tile == matrixTile i then .next s
        else
        let e : Env := { gid := g, g := x, team := s.teamOf x, launch := s.launchOfGroup x, v, slot := v.slot, mask := v.active, i }
        .next (((s.emulate e).modGroup g fun y => 
          { y.advance e .other with status := .ready, stepDue := x.stepctl == 1 && x.shadow.isNone && !i.last }).draw)
    | _, _ => .next s

end Sys2Proof.Machine
end

