-- ==== Sys2Proof/Machine/Hod.lean ====
section
/-!
DEFINITION. The hod engine and the bank units (R175 to R189, R218): request records and their check, the copy of a row,
barrier objects, bank operations; and the drain of reductions (R203).
-/
namespace Sys2Proof.Machine

/-! Request records (R175). -/

def recField (r : BitVec 256) (lo n : Nat) : Nat := (r.extractLsb' lo n).toNat

def recSRC (r : BitVec 256) : Nat := recField r 0 64
def recROWLEN (r : BitVec 256) : Nat := recField r 64 20
def recSKIND (r : BitVec 256) : Nat := recField r 93 1
def recDKIND (r : BitVec 256) : Nat := recField r 94 2
def recMASK (r : BitVec 256) : Nat := recField r 96 12
def recDOFF (r : BitVec 256) : Nat := recField r 108 20
def recROWSM1 (r : BitVec 256) : Nat := recField r 128 12
def recDSTR (r : BitVec 256) : Nat := recField r 140 20
def recSSTR (r : BitVec 256) : Int := toInt true 32 (recField r 160 32)
def recNOBAR (r : BitVec 256) : Bool := recField r 192 1 == 1
def recBOFF (r : BitVec 256) : Nat := recField r 216 20

/-- The first source byte of a row, and its first destination byte (R176). -/
def recSource (r : BitVec 256) (row : Nat) : Int := (recSRC r : Int) + row * recSSTR r
def recDest (r : BitVec 256) (row : Nat) : Nat := recDOFF r + row * recDSTR r

/-- The zero fields and the alignments (R177). -/
def recForm (r : BitVec 256) : Bool :=
  recField r 236 20 == 0 && recField r 193 23 == 0 && recField r 84 9 == 0 && recBOFF r % 8 == 0 && recDKIND r != 3 &&
  (!recNOBAR r || recBOFF r == 0) && (recDKIND r != 0 || recMASK r == 0) && (recDKIND r != 1 || recMASK r < 16) &&
  recSRC r % 4 == 0 && recSSTR r % 4 == 0 && recDOFF r % 4 == 0 && recDSTR r % 4 == 0 && recROWLEN r % 4 == 0 &&
  recROWLEN r != 0 && (recROWSM1 r == 0 || recROWLEN r ≤ recDSTR r)

/-- Every source byte lies in its space (R177); the rows are in arithmetic progression. -/
def State.recSourceOk (s : State) (ctx : Nat) (r : BitVec 256) : Bool :=
  [0, recROWSM1 r].all fun row =>
    let a := recSource r row
    0 ≤ a &&
    (if recSKIND r = 0 then a + recROWLEN r ≤ (2 ^ 52 : Nat) else s.bankOk ctx a.toNat (recROWLEN r))

/-- The destination teams by TEAMINCL. -/
def recTargets (own : Nat) (r : BitVec 256) : List Nat :=
  match recDKIND r with
  | 0 => [own]
  | 1 => [recMASK r]
  | _ => (List.range 12).filter fun t => (recMASK r).testBit t

/-- A record checked (R177): the destination teams, or the cause it raises. A record that fails several conditions raises what
its form and source raise, then the membership's cause, then that of the destination ranges. DEDUCED (assumption 32). -/
def State.checkRecord (s : State) (e : Env) (r : BitVec 256) : Except Nat (List Nat) :=
  if !(recForm r && s.recSourceOk e.g.ctx r) then .error 2
  else
    let mates := s.clusterTeams e.team
    let found := (recTargets e.team.teamincl r).map fun t => mates.find? fun m => m.2.teamincl == t
    if recDKIND r != 0 && !(e.team.member && found.all fun m => match m with
        | some t => t.2.member
        | none => false) then .error 14
    else
      let teams := if recDKIND r = 0 then [(e.g.team, e.team)] else found.filterMap id
      if teams.all fun t => recDest r (recROWSM1 r) + recROWLEN r ≤ t.2.scratchSize && recBOFF r + 8 ≤ t.2.scratchSize then
        .ok (teams.map (·.1))
      else .error 2

/-- The records of a list in order (R178): the requests, or the cause and index of the first that fails.
DEDUCED (assumption 32). -/
def State.readRecords (s : State) (e : Env) (off : Nat) : Nat → Nat → Except (Nat × Nat) (List HodReq)
  | _, 0 => .ok []
  | i, n + 1 =>
    if e.team.scratchSize < off + 32 * i + 32 then .error (2, i)
    else
      let r := BitVec.ofNat 256 (s.readAt (.scratch e.g.team) (off + 32 * i) 32)
      match s.checkRecord e r with
      | .error c => .error (c, i)
      | .ok dests =>
        match s.readRecords e off (i + 1) n with
        | .error x => .error x
        | .ok rest => .ok ({ record := r, rows := List.range (recROWSM1 r + 1), fault := none, dests } :: rest)

/-! Copying a row (R176, R180, R181, R184, R218). -/

inductive RowRead where
  | bytes (bs : List (Byte × Bool))          -- each with the mark of the word it came from
  | fault (level : Nat) (va : Nat)
  | violation (va : Nat)
  | wait                                     -- its port is paused (R131)
deriving DecidableEq, Repr

/-- A row of global memory, four bytes at a time, read at device scope (R147). -/
def State.readGlobalRow (s : State) (core ctx : Nat) : Nat → Nat → RowRead
  | _, 0 => .bytes []
  | va, n + 1 =>
    match s.translate core ctx .load (BitVec.ofNat 64 va) with
    | .violation => .violation va
    | .fault l => .fault l va
    | .ok p a =>
      match s.readGlobalRow core ctx (va + 4) n with
      | .bytes bs => .bytes ((s.readBytesAt p a 4).map (fun b => (b, s.poisoned p a)) ++ bs)
      | r => r

/-- The places of the bytes of a row of global memory. -/
def State.rowPlaces (s : State) (core ctx va n : Nat) : List Place :=
  (List.range n).flatMap fun i => match s.translate core ctx .load (BitVec.ofNat 64 (va + 4 * i)) with
    | .ok p _ => List.replicate 4 p
    | _ => []

def State.readRow (s : State) (core ctx : Nat) (r : BitVec 256) (row : Nat) : RowRead :=
  let a := (recSource r row).toNat
  if recSKIND r = 0 then
    match s.readGlobalRow core ctx a (recROWLEN r / 4) with
    | .bytes bs => if s.bytesOpen (s.rowPlaces core ctx a (recROWLEN r / 4)) then .bytes bs else .wait
    | x => x
  else .bytes ((List.range (recROWLEN r)).map fun i => (s.readByte .bank (a + i), s.poisoned .bank (a + i)))

/-- The translations that a row's reads used are cached (R123), and its flits go out (R131). -/
def State.noteRow (s : State) (core ctx : Nat) (r : BitVec 256) (row : Nat) : State :=
  let a := (recSource r row).toNat
  if recSKIND r = 0 then
    ((s.fillTlb core ctx (BitVec.ofNat 64 a)).fillTlb core ctx (BitVec.ofNat 64 (a + recROWLEN r - 4))).sendBytes
      (s.rowPlaces core ctx a (recROWLEN r / 4))
  else s

/-- The words that bytes written from an address on mark, with the marks of their sources (R235). -/
def marksOf (p : Place) (a : Nat) (bs : List (Byte × Bool)) : List ProtWord :=
  (bs.zipIdx.filterMap fun b => if b.1.2 then protWord p (a + b.2) else none).eraseDups

/-- Whether a load that has issued has still to read a word that bytes would mark, and waits for something else: the write
comes after it (assumption 77). -/
def State.marksWait (s : State) (p : Place) (a : Nat) (bs : List (Byte × Bool)) : Bool :=
  let marks := marksOf p a bs
  !marks.isEmpty && (s.readFirst marks).readLater marks

/-- Writes bytes with the marks of their sources (R235). -/
def State.writeMarked (s : State) (p : Place) (a : Nat) (bs : List (Byte × Bool)) : State :=
  let marks := marksOf p a bs
  let s := if marks.isEmpty then s else s.readFirst marks
  let s := (s.writeBytesAt (storeBytes p a (bs.map (·.1)))).mirror (storeBytes p a (bs.map (·.1)))
  if marks.isEmpty then s else { s with poison := s.poison ++ marks.filter fun w => !s.poison.contains w }

/-- An object counted down (R182, R184). -/
def countDown (x n : Nat) : Nat :=
  let count := x % 2 ^ 32
  if count < n then x / 2 ^ 32 % 2 ^ 31 * 2 ^ 32 + 2 ^ 63 else x - n

def State.countObject (s : State) (team off n : Nat) : State :=
  let bs := storeBytes (.scratch team) off (bytesOf (countDown (s.readAt (.scratch team) off 8) n) 8)
  (s.mergeBytesAt bs).mirror bs

/-- One row copied into every destination team, and its bytes counted there. -/
def State.copyRow (s : State) (r : BitVec 256) (row : Nat) (bs : List (Byte × Bool)) (dests : List Nat) : State :=
  dests.foldl (fun s t =>
    let s := s.writeMarked (.scratch t) (recDest r row) bs
    if recNOBAR r then s else s.countObject t (recBOFF r) (recROWLEN r)) s

def Kick.done (k : Kick) : Bool := k.reqs.all fun r => r.rows.isEmpty

/-- Kicks all of whose requests are complete retire (R178). -/
def State.retireKicks (s : State) (team : Nat) : State :=
  let gone := (s.team team).hod.filter Kick.done
  let s := s.modTeam team fun t => { t with hod := t.hod.filter fun k => !k.done }
  gone.foldl (fun s k => s.modGroup k.gid fun g => g.finish k.seq) s

def setReq (k : Kick) (i : Nat) (f : HodReq → HodReq) : Kick :=
  match k.reqs[i]? with
  | some r => { k with reqs := k.reqs.set i (f r) }
  | none => k

def State.modReq (s : State) (team kick req : Nat) (f : HodReq → HodReq) : State :=
  s.modTeam team fun t =>
    match t.hod[kick]? with
    | some k => { t with hod := t.hod.set kick (setReq k req f) }
    | none => t

/-- HOD_DESTINATION_WRITE: a row of a request, by the kick's place in its team's list (R176, R180, R181).
DESIGN CHOICE (assumption 14). -/
def State.hodRow (s : State) (g : Gid) (kick req row : Nat) : State :=
  match s.group g with
  | none => s
  | some x =>
    match ((s.team x.team).hod[kick]?).bind fun k => (k.reqs[req]?).map fun r => (k, r) with
    | none => s
    | some (k, r) =>
      if k.gid != g || r.fault.isSome || !r.rows.contains row then s
      else match s.readRow (coreOf g) x.ctx r.record row with
        | .wait => s
        | .violation va => s.killFor g x 2 k.iaddr (BitVec.ofNat 64 va)
        | .fault l va =>
          if s.ringFree then
            let f : FaultRec := { straddle := false, level := l, kind := 0, ctx := x.ctx, gid := g, iaddr := k.iaddr, lanes := 0, va := BitVec.ofNat 64 va }
            let (s, slot) := s.putFault f (.hod x.team g k.seq req)
            s.modReq x.team kick req fun r => { r with fault := some slot }
          else s
        | .bytes bs =>
          if r.dests.any fun t => s.marksWait (.scratch t) (recDest r.record row) bs then s
          else (((s.noteRow (coreOf g) x.ctx r.record row).copyRow r.record row bs r.dests).modReq x.team kick req fun r => { r with rows := r.rows.filter (· != row) }).retireKicks x.team

/-! Bank operations (R188, R189). -/

/-- One 32-bit element of a bank operation: D, S and the scalar. -/
def bankElem (op : Nat) (ty : ETy) (d x c : Nat) : Nat :=
  let h (f : Nat → Nat → Nat → Nat) : Nat :=
    pack 16 [f (elem 16 d 0) (elem 16 x 0) (elem 16 c 0), f (elem 16 d 1) (elem 16 x 1) (elem 16 c 1)]
  match op with
  | 0 => x
  | 1 => c
  | 2 => match ty with
    | .f32 => (fadd1 fmt32 0 false d x).1
    | .bf16x2 => h fun d x _ => (fadd1 fmtBf 0 false d x).1
    | _ => (d + x) % 2 ^ 32
  | 3 => match ty with
    | .f32 => (fmax1 fmt32 false d x).1
    | .bf16x2 => h fun d x _ => (fmax1 fmtBf false d x).1
    | _ => if toInt true 32 d < toInt true 32 x then x else d
  | _ => match ty with
    | .f32 => (ffma1 fmt32 0 false c x d).1
    | .bf16x2 => h fun d x c => (ffma1 fmtBf 0 false c x d).1
    | _ => (d + c * x) % 2 ^ 32

def bankReadsD (op : Nat) : Bool := 2 ≤ op
def bankReadsS (op : Nat) : Bool := op != 1

/-- The bytes that a bank operation writes from its destination on; poisoned words that it reads mark the words it writes
(R235, R297). -/
def State.bankBytes (s : State) (b : BankOp) : List (Byte × Bool) :=
  let vals := (List.range b.n).map fun i =>
    let d := b.dst + 4 * i
    let x := b.src + 4 * i
    let v := bankElem b.op b.ty (s.readAt .bank d 4) (s.readAt .bank x 4) b.scalar.toNat
    let bad := (bankReadsD b.op && s.poisoned .bank d) || (bankReadsS b.op && s.poisoned .bank x)
    (bytesOf v 4).map fun y => (y, bad)
  vals.flatten

/-- A bank operation on its n words. -/
def State.bankPerform (s : State) (b : BankOp) : State := s.writeMarked .bank b.dst (s.bankBytes b)

/-- BANK_OPERATION_PERFORM: the group's oldest bank operation is performed and retires (R145, R188). -/
def State.bankStep (s : State) (g : Gid) : State :=
  match s.group g with
  | none => s
  | some x =>
    let t := s.team x.team
    match t.bank.findIdx? fun b => b.gid == g with
    | none => s
    | some i =>
      match t.bank[i]? with
      | none => s
      | some b =>
        if s.marksWait .bank b.dst (s.bankBytes b) then s
        else ((s.modTeam x.team fun t => { t with bank := t.bank.eraseIdx i }).bankPerform b).modGroup g fun y => y.finish b.seq

/-! The drain (R203). -/

def Place.order : Place → Nat
  | .hbm => 0
  | .host => 1
  | .peer d => 2 + 2 * d
  | .peerScratch d => 3 + 2 * d
  | .scratch t => 10000 + 2 * t
  | .bank => 10001

/-- The sort key: the space and 8-byte block, then the logical identifiers. -/
def RedEntry.key (r : RedEntry) : List Nat := [r.place.order, r.addr / 8, r.vcore, r.teamix, r.groupix, r.lane, r.seq]

def keyLe : List Nat → List Nat → Bool
  | x :: xs, y :: ys => if x < y then true else if y < x then false else keyLe xs ys
  | _, _ => true

def insertRed (r : RedEntry) : List RedEntry → List RedEntry
  | [] => [r]
  | x :: xs => if keyLe x.key r.key then x :: insertRed r xs else r :: x :: xs

def sortRed (l : List RedEntry) : List RedEntry := l.foldl (fun acc r => insertRed r acc) []

/-- One entry applied at its point of coherence. -/
def State.applyRed (s : State) (r : RedEntry) : State :=
  let s := if r.place == .hbm then s.useL2 r.addr else s
  s.mergeBytesAt (storeBytes r.place r.addr
    (bytesOf (atomNew r.op.toNat r.ty (s.readAt r.place r.addr r.size) r.operand.toNat) r.size))

/-- Whether the ports of a launch's entries take them now (R131). -/
def State.drainOpen (s : State) (l : Nat) : Bool := s.portsOpen ((s.launchOf l).red.map (·.place))

/-- Every entry of a launch applied in the order of R203. -/
def State.drain (s : State) (l : Nat) : State :=
  let es := sortRed (s.launchOf l).red
  (es.foldl State.applyRed s).modLaunch l fun x => { x with red := [] }

end Sys2Proof.Machine
end

