-- ==== Sys2Proof/Machine/Async.lean ====
section
/-!
DEFINITION. The asynchronous and barrier instructions (R22, R54, R142, R145 to R147, R178 to R189, R292 to R297, R318,
R319, R321, R322, R363, R372), and the steps of the hod engine, the bank units, the remote acknowledgements, the drain
and the barriers' releases.
-/
namespace Sys2Proof.Machine

/-! `kick` (R178, R179, R322). -/

/-- The promise of a `kick` of one request or more that issues at a tick (R179): a free value, at least that tick + 64. -/
def State.promise (s : State) (now : W64) : W64 :=
  let least := now + 64
  let w := Config.freeWord s.freeCtr
  if w < least then least else w

/-- `kick` (R178): its pipe is held for the cycle of its issue, and then for one cycle for each record.
DESIGN CHOICE (assumption 103). -/
def kickEff (o : POp) (e : Env) (s : State) : Eff :=
  let off := (e.g.sreg o.a.toNat).toNat % 2 ^ 20
  let n := (e.g.sreg o.b.toNat).toNat % 2 ^ 32
  let post (s : State) (p : W64) : State := s.result e 2 [.uni o.dst.toNat p] {}
  if 256 < n then .trap 3 0 0
  else if off % 32 != 0 then .trap 2 0 0
  else if n = 0 then
    let s := s.startCycle (coreOf e.gid) (pipeOf e.gid)
    .done (post s (s.now (coreOf e.gid)))
  else
    let s' := s.leaveOwn e.gid
    if !s'.queueEmpty e.gid then .hold (s'.holdFor e.gid .auto)
    else match s'.readRecords e off 0 n with
    | .error (cause, i) => .trap cause 0 (BitVec.ofNat 64 i)
    | .ok reqs =>
      entering e s' (some .hod) [] fun s' =>
        let s' := s'.startCycle (coreOf e.gid) (pipeOf e.gid)
        let p := s'.promise (s'.now (coreOf e.gid))
        let s' := s'.modTeam e.g.team fun t => { t with hod := t.hod ++ [{ gid := e.gid, seq := e.g.seq, iaddr := e.here, reqs, promise := p }] }
        let s' := s'.modGroup e.gid fun g => { g with seq := g.seq + 1 }
        .held (post s' p) n

/-- `kick` (R178). -/
def execKick (o : POp) (s : State) : Out := issue (.kick o) .other always (kickEff o) s

/-! Barrier objects (R183, R185). -/

/-- `barinit` (R183): a 64-bit scratch store through the group's queue. -/
def execBarinit (o : POp) (s : State) : Out :=
  issue (.barinit o) .other always (fun e s =>
    let off := (e.g.sreg o.a.toNat).toNat % 2 ^ 20 / 8 * 8
    let count := (e.g.sreg o.b.toNat).toNat % 2 ^ 32
    if off < e.team.scratchSize then .done (s.enqueue e false none (storeBytes (.scratch e.g.team) off (bytesOf count 8)))
    else .trap 2 0 (BitVec.ofNat 64 off)) s

/-- The wait on an object (R185): the late-copy trap, the completion, or the pipe held. -/
def waitbEff (o : POp) (e : Env) (s : State) : Eff :=
  let off := (e.g.sreg o.a.toNat).toNat % 2 ^ 20 / 8 * 8
  if e.team.scratchSize ≤ off then .trap 2 0 (BitVec.ofNat 64 off)
  else
    let spots := (List.range 8).map fun i => (Place.scratch e.g.team, off + i)
    let s := s.leaveBytes e.gid e.g.seq spots
    let count := s.objectCount e.g.team off
    if s.queuedBytes e.gid spots then .hold (s.holdFor e.gid .auto)
    else if count = 0 then .done s
    else if o.ty == .b64 && e.g.sreg o.b.toNat < s.timeref then .trapFrom s 11 0 (BitVec.ofNat 64 count)
    else .hold (s.holdFor e.gid .auto)

/-- `waitb` (R185, R372). -/
def execWaitb (o : POp) (s : State) : Out := issue (.waitb o) .other always (waitbEff o) s

/-- LATE_COPY_TRAP: the trap of a `waitb` that holds its pipe past its promise (R185). -/
def execLateCopyTrap (g : Gid) (s : State) : Out :=
  match s.group g with
  | none => .next s
  | some x =>
    match x.status, x.visit.bind fun v => s.instrAt (coreOf g) x.ctx v.pos with
    | .running, some (.waitb o) =>
      let off := (x.sreg o.a.toNat).toNat % 2 ^ 20 / 8 * 8
      if o.ty == .b64 && x.sreg o.b.toNat < s.timeref && s.objectCount x.team off != 0 then
        issue (.waitb o) .other always (waitbEff o) { s with cur := some g }
      else .next s
    | _, _ => .next s

/-! Outstanding operations (R130, R145, R146, R372). -/

def classOfCode : Nat → OpClass
  | 0 => .matrix
  | 1 => .hod
  | 2 => .bank
  | _ => .remote

/-- `waitc` (R146, R372). An error response to a put is an access violation at a wait on the remote class (R130). -/
def execWaitc (o : POp) (s : State) : Out :=
  issue (.waitc o) .other always (fun e s =>
    let c := classOfCode o.a.toNat
    let n := o.b.toNat
    match (if c == .remote then e.g.putErr else none) with
    | some va => .trap 2 0 va
    | none => if e.g.counter c ≤ n then .done s else .stop s (.waitc c n)) s

/-- The oldest unfinished remote operation whose accesses have been performed (R145). -/
def State.acknowledgeable (s : State) (gid : Gid) (g : Group) (p : OpRec → Bool) : Option OpRec :=
  g.ops.find? fun o =>
    o.cls == .remote && !o.finished && p o && !(g.stq.any fun e => e.seq == o.seq) &&
    !((s.core (coreOf gid)).flight.any fun e => e.gid == gid && e.seq == o.seq) && !(g.await.any fun a => a.seq == o.seq)

/-- REMOTE_ACKNOWLEDGE: the target acknowledges a store, a `red` or a put (R145). -/
def execRemoteAcknowledge (g : Gid) (s : State) : Out :=
  .next (match s.group g with
    | none => s
    | some x => match s.acknowledgeable g x fun _ => true with
      | some o => s.modGroup g fun y => y.finish o.seq
      | none => s)

/-- PUT_ERROR_RESPONSE: a put of a store was discarded (R130). A group that already waits
on the remote class takes the access violation at once, and in a handler a double fault (R208). Of several discarded puts the
first response is reported. DESIGN CHOICE (assumption 83). -/
def execPutErrorResponse (p : PutRef) (s : State) : Out :=
  .next (match s.group p.g with
    | none => s
    | some x => match s.acknowledgeable p.g x fun o => decide (p.put < o.puts.length) with
      | none => s
      | some o =>
        let va := o.puts.getD p.put 0
        let here := (x.visit.map (·.lastPc)).getD 0
        match x.status with
        | .stopped (.waitc .remote _) => s.takeTrap p.g { cause := 2, addr := here, val := va, lanes := 0, epc := here, pos := 0 }
        | _ => s.modGroup p.g fun y => { y.finish o.seq with putErr := if y.putErr.isSome then y.putErr else some va })

/-! `sleep` (R363). -/

/-- The later of two times. -/
def laterOf (a b : W64) : W64 := if a < b then b else a

/-- `sleep` (R363): the wake time counts from the tick at which it issues (R244). -/
def execSleep (o : POp) (s : State) : Out :=
  issue (.sleep o) .other always (fun e s =>
    let n := (e.g.sreg o.a.toNat).toNat % 2 ^ 32
    if n = 0 then .done s
    else
      let s := s.startCycle (coreOf e.gid) (pipeOf e.gid)
      .done (s.modGroup e.gid fun g => { g with wake := laterOf g.wake (s.now (coreOf e.gid) + BitVec.ofNat 64 n) })) s

/-- SLEEP_WAKE: the wake time has come, and the group's census runs (R363). -/
def execSleepWake (g : Gid) (s : State) : Out :=
  .next (match s.group g with
    | none => s
    | some x => if x.status == .napping && decide (x.wake ≤ s.timeref) then (s.census g).draw else s)

/-! Barriers (R142, R292 to R294, R318, R319). -/

/-- `bar` (R293, R294). -/
def execBar (o : POp) (s : State) : Out :=
  issue (.bar o) .other always (collective fun e s =>
    s.fencing e .team fun s => .stop (s.modTeam e.g.team fun t => { t with barArr := t.barArr ++ [e.g.groupix] }) .bar) s

/-- `cbar` (R293, R294). -/
def execCbar (o : POp) (s : State) : Out :=
  issue (.cbar o) .other always (collective fun e s =>
    s.fencing e .clu fun s => .stop (s.modTeam e.g.team fun t => { t with cbarArr := t.cbarArr ++ [e.g.groupix] }) .cbar) s

/-- `gbar` (R318, R319): legal only in a co-operative grid. -/
def execGbar (o : POp) (s : State) : Out :=
  issue (.gbar o) .other (fun e _ => e.launch.coop) (collective fun e s =>
    s.fencing e .dev fun s =>
      .stop (s.modLaunch e.team.launch fun l => { l with gbarArr := l.gbarArr ++ [e.team.teamix * 32 + e.g.groupix] }) .gbar) s

/-- The teams of a launch that exist. -/
def State.launchTeams (s : State) (l : Nat) : List (Nat × Team) := s.teams.filter fun e => e.2.launch == l

/-- The groups of a grid that have not retired (R319); the teams not yet placed have all of theirs. -/
def State.gridGroups (s : State) (l : Nat) : Nat :=
  let x := s.launchOf l
  let teams := s.launchTeams l
  (teams.map fun t => (s.liveGroups t.2).length).foldl (· + ·) 0 + (x.grid - x.freed - teams.length) * x.groups

/-- Whether the grid barrier's arrivals are complete (R319). -/
def State.gbarComplete (s : State) (l : Nat) : Bool :=
  let x := s.launchOf l
  !x.gbarArr.isEmpty && decide (s.gridGroups l ≤ x.gbarArr.length)

def Group.atGbar (g : Group) : Bool := g.status == .stopped .gbar

/-- Groups of a launch that wait at the grid barrier. -/
def State.waiters (s : State) (l : Nat) : List (Gid × Group) :=
  s.groups.filter fun e => e.2.atGbar && (s.team e.2.team).launch == l

/-- The islands on which groups of a launch wait at the grid barrier. -/
def State.waitingIslands (s : State) (l : Nat) : List Nat := (s.waiters l).map fun e => s.islandOf (coreOf e.1)

/-- Groups of a launch that the grid barrier has released and whose island has yet to resume. -/
def State.releasedOn (s : State) (l k : Nat) : List (Gid × Group) :=
  (s.waiters l).filter fun e => s.islandOf (coreOf e.1) == k &&
    !((s.launchOf l).gbarArr.contains ((s.team e.2.team).teamix * 32 + e.2.groupix))

/-- The islands of a list in ascending order, modulo 24, from a pointer (R204). -/
def islandOrder (p : Nat) (ks : List Nat) : List Nat :=
  ((List.range 24).map fun i => (p + i) % 24).filter ks.contains

/-- GBAR_RELEASE: the drain of R203 first, at D1 and D2; then the barrier releases, its waiting islands queue for the
slew limiter, and saved groups become ready (R142, R204, R319). The islands of a later release queue behind those of an
earlier one. DESIGN CHOICE (assumption 104). -/
def State.gbarRelease (s : State) (l : Nat) : State :=
  if s.gbarComplete l && s.drainOpen l then
    let s := if 1 ≤ (s.launchOf l).det then s.drain l else s
    let ks := islandOrder s.gbarPtr (s.waitingIslands l)
    let s := s.modLaunch l fun x => { x with gbarArr := [] }
    { s with
      resumeQ := s.resumeQ ++ ks.map fun k => (l, k)
      gbarPtr := (s.gbarPtr + 1) % 24
      teams := s.teams.map fun t => if t.2.launch == l then (t.1, t.2.releaseSaved .gbar) else t }
  else s

/-- GBAR_RELEASE (R319). -/
def execGbarRelease (launch : Nat) (s : State) : Out := .next (s.gbarRelease launch)

/-- Whether the slew limiter lets another island resume (R204): no 64 consecutive ticks hold more than four. -/
def State.slewFree (s : State) : Bool := decide ((s.resumed.filter fun t => s.timeref < t + 64).length < 4)

/-- The released groups of a launch on an island become ready; the barrier's release acquires at device scope (R142). -/
def State.resumeIsland (s : State) (l k : Nat) : State :=
  (s.releasedOn l k).foldl (fun s e => (s.invalidateL1 (coreOf e.1)).modGroup e.1 fun g => { g with status := .ready }) s

/-- ISLAND_RESUME: the next waiting island resumes, if the slew limiter lets it (R204); one whose groups have been seized or
reset since is passed over and uses no place. -/
def State.nextResume (s : State) : State :=
  let q := s.resumeQ.dropWhile fun e => (s.releasedOn e.1 e.2).isEmpty
  match q with
  | [] => { s with resumeQ := [] }
  | (l, k) :: rest =>
    if s.slewFree then
      { s.resumeIsland l k with resumeQ := rest, resumed := s.timeref :: s.resumed.filter fun t => s.timeref < t + 64 }
    else s

/-- ISLAND_RESUME (R204). -/
def execIslandResume (s : State) : Out := .next s.nextResume

/-- DETERMINISTIC_DRAIN: at the final flush point of a launch whose teams have all been freed, or before a `gbar` releases
(R203). -/
def execDeterministicDrain (launch : Nat) (s : State) : Out :=
  .next (match tfind s.launches launch with
    | none => s
    | some x => if (x.grid ≤ x.freed || s.gbarComplete launch) && s.drainOpen launch then s.drain launch else s)

/-! The sharing group (R22, R321). -/

/-- `join` (R22). -/
def execJoin (o : POp) (s : State) : Out :=
  issue (.join o) .other always (collective fun e s => .done (s.modTeam e.g.team fun t => { t with member := true })) s

/-- A row still to be copied into a team's window: the kicking group, its kick, request and row. -/
def State.windowRow (s : State) (team : Nat) : Option (Gid × Nat × Nat × Nat) :=
  s.teams.findSome? fun t => t.2.hod.zipIdx.findSome? fun k => k.1.reqs.zipIdx.findSome? fun r =>
    if recDKIND r.1.record != 0 && r.1.dests.contains team && r.1.fault.isNone then
      r.1.rows.head?.map fun row => (k.1.gid, k.2, r.2, row)
    else none

/-- Whether writes checked toward a team's window are still to come (R22, R187). -/
def State.windowWrites (s : State) (team : Nat) : Bool :=
  s.teams.any fun t => t.2.hod.any fun k => k.reqs.any fun r =>
    recDKIND r.record != 0 && r.dests.contains team && !r.rows.isEmpty

/-- Accesses of other teams to a team's scratch that were translated before a revocation are performed (R22). -/
def State.windowAccesses (s : State) (team : Nat) : State :=
  let here (p : Place) : Bool := p.isScratchOf team
  let s := s.groups.foldl (fun s e =>
    if e.2.team == team then s
    else
      let loads := e.2.await.filter fun a => a.unperformed && match a.req with
        | .load _ _ _ _ accs _ _ => accs.any fun c => here c.place
        | _ => false
      let s := loads.foldl (fun s a => s.performUpTo e.1 a.seq) s
      let upTo := queuedUpTo e.2.stq e.2.seq fun x => x.bytes.any fun b => here b.place
      if upTo = 0 then s else (s.performUpTo e.1 upTo).leaveAll e.1 upTo) s
  s.cores.foldl (fun s c => s.reachWhere c.1 fun e => e.bytes.any fun b => here b.place) s

/-- Whether accesses of other teams to a team's scratch still wait: for older ones, or for a paused port. -/
def State.windowBusy (s : State) (team : Nat) : Bool :=
  let here (p : Place) : Bool := p.isScratchOf team
  (s.groups.any fun e => e.2.team != team &&
    ((e.2.await.any fun a => a.unperformed && a.req.spots.any fun x => here x.1) ||
      e.2.stq.any fun x => x.bytes.any fun b => here b.place)) ||
  s.cores.any fun c => c.2.flight.any fun e => e.bytes.any fun b => here b.place

/-- `leave` (R22, R187): it waits for the rows checked toward the team's window, and for the accesses of other teams that were
translated before; while it waits it holds its pipe, has not issued, and the team is a member still.
DESIGN CHOICE (assumption 81). -/
def execLeave (o : POp) (s : State) : Out :=
  issue (.leave o) .other always (collective fun e s =>
    if !e.team.member then .done s
    else match s.windowRow e.g.team with
      | some (g, k, r, row) => .hold (s.holdFor e.gid (.row (.hodDestinationWrite g k r row)))
      | none =>
        if s.windowWrites e.g.team then .hold (s.holdFor e.gid .auto)
        else
          let s := s.windowAccesses e.g.team
          if s.windowBusy e.g.team then .hold (s.holdFor e.gid .auto)
          else .done (s.modTeam e.g.team fun t => { t with member := false })) s

/-! `bop` (R188, R189, R297). -/

/-- The first failing range of a `bop` (R189): the destination's, then the source's, which `.fill` is checked for too; then
their overlap. DEDUCED (assumption 38). -/
def State.bopFails (s : State) (ctx d x n : Nat) : Option Nat :=
  if d % 4 != 0 || !s.bankOk ctx d (4 * n) then some d
  else if x % 4 != 0 || !s.bankOk ctx x (4 * n) then some x
  else if d != x && d < x + 4 * n && x < d + 4 * n then some d
  else none

/-- `bop` (R188, R189, R297): it closes an open region, and its older stores leave the queue. -/
def execBop (o : MemOp) (s : State) : Out :=
  issue (.bop o) .other always (fun e s =>
    let n := (e.g.sreg o.b.toNat).toNat % 2 ^ 32
    let d := (e.g.sreg o.dst.toNat).toNat % 2 ^ 28
    let x := (e.g.sreg o.a.toNat).toNat % 2 ^ 28
    let op := o.op.toNat
    if n = 0 then .done (s.modGroup e.gid Group.closeRegion)
    else match s.bopFails e.g.ctx d x n with
      | some a => .trap 2 0 (BitVec.ofNat 64 a)
      | none =>
        let s := s.leaveOwn e.gid
        if !s.queueEmpty e.gid then .hold (s.holdFor e.gid .auto)
        else entering e s (some .bank) [] fun s =>
          let s := s.modGroup e.gid fun g => { g.closeRegion with seq := g.seq + 1 }
          .done (s.modTeam e.g.team fun t => { t with bank := t.bank ++
            [{ gid := e.gid, seq := e.g.seq, op, ty := o.ty, dst := d, src := x, n, scalar := (e.g.sreg o.c.toNat).setWidth 32 }] })) s

/-- BANK_OPERATION_PERFORM (R188). -/
def execBankOperationPerform (g : Gid) (s : State) : Out := .next (s.bankStep g)

/-- HOD_DESTINATION_WRITE (R176, R180, R184). -/
def execHodDestinationWrite (g : Gid) (kick request row : Nat) (s : State) : Out := .next (s.hodRow g kick request row)

end Sys2Proof.Machine
end

