-- ==== Sys2Proof/Machine/Control.lean ====
section
/-!
DEFINITION. The want family, `region` and the Galbel markers (R44 to R50, R96, R232, R309, R344, R350, R351, R373).
-/
namespace Sys2Proof.Machine

/-- An immediate target (R45): relative to the heap base of the object that holds the issuing course. -/
def State.target (s : State) (e : Env) (imm : W32) : W32 := s.objectBase e.g.ctx e.v.start + imm

/-- The check of the lanes' targets (R45), then the change of the lanes. -/
def toTargets (e : Env) (s : State) (target : Nat → W32) (go : State → State) : Eff :=
  let bad := maskOf (e.lanes.filter fun t => !s.isStart e.g.ctx (target t))
  match lowest bad with
  | some t => .trap 6 bad ((target t).setWidth 64)
  | none => .done (go s)

/-- WL of the active lanes; they have executed a member of the family (R40, R46). -/
def Group.want (g : Group) (m : LaneMask) (target : Nat → W32) : Group :=
  { g with
    wl := (lanesOf m).foldl (fun w t => w.set t (target t)) g.wl
    visit := g.visit.map fun v => { v with wanted := v.wanted ||| m } }

/-- lk of the active lanes (R46). -/
def Group.link (g : Group) (m : LaneMask) (next : W32) : Group :=
  { g with lk := (lanesOf m).foldl (fun k t => k.set t next) g.lk }

/-- Lanes leave the active mask at once (R46). -/
def Group.leaveMask (g : Group) (m : LaneMask) : Group :=
  { g with visit := g.visit.map fun v => { v with active := v.active &&& ~~~m } }

/-- Lanes park with a wait record (R46, R47, R50). -/
def Group.park (g : Group) (m : LaneMask) (w : Nat → WaitRec) : Group :=
  ({ g with
    parked := g.parked ||| m
    waits := (lanesOf m).foldl (fun ws t => tput ws t (w t)) g.waits } : Group).leaveMask m

/-- A target held in a vector register, one for each lane. -/
def regTarget (o : POp) (e : Env) (t : Nat) : W32 := BitVec.ofNat 32 (e.g.vreg o.a.toNat t)

/-- `want` (R46, R373). -/
def execWant (o : LiOp) (s : State) : Out :=
  issue (.want o) .other always (fun e s =>
    let target := fun _ => s.target e o.imm32
    toTargets e s target fun s => s.modGroup e.gid fun g => g.want e.mask target) s

/-- `wantr` (R46, R373). -/
def execWantr (o : POp) (s : State) : Out :=
  issue (.wantr o) .other always (fun e s =>
    toTargets e s (regTarget o e) fun s => s.modGroup e.gid fun g => g.want e.mask (regTarget o e)) s

/-- `call` (R46). -/
def execCall (o : LiOp) (s : State) : Out :=
  issue (.call o) .other always (fun e s =>
    let target := fun _ => s.target e o.imm32
    let next := s.nextOf (coreOf e.gid) e.g.ctx e.v
    toTargets e s target fun s => s.modGroup e.gid fun g => (g.link e.mask next).want e.mask target) s

/-- `callr` (R46). -/
def execCallr (o : POp) (s : State) : Out :=
  issue (.callr o) .other always (fun e s =>
    let next := s.nextOf (coreOf e.gid) e.g.ctx e.v
    toTargets e s (regTarget o e) fun s => s.modGroup e.gid fun g => (g.link e.mask next).want e.mask (regTarget o e)) s

/-- `ret` (R46, R351). -/
def execRet (o : POp) (s : State) : Out :=
  issue (.ret o) .other always (fun e s =>
    let target := fun t => e.g.lk.get t
    toTargets e s target fun s => s.modGroup e.gid fun g => g.want e.mask target) s

/-- `exit` (R46, R309); illegal inside a handler (R208). -/
def execExit (o : POp) (s : State) : Out :=
  issue (.exit o) .other (fun e _ => e.g.shadow.isNone) (fun e s =>
    .done (s.modGroup e.gid fun g => ({ g with ended := g.ended ||| e.mask } : Group).leaveMask e.mask)) s

/-- The condition that a `park` records, or what its operands raise (R47, R48, R344). -/
def parkWait (o : LiOp) (e : Env) (s : State) : Except Eff WaitRec :=
  let a := e.g.sreg o.a.toNat
  match o.ext8.toNat with
  | 0 =>
    let va := a &&& ~~~3#64
    if e.mask = 0 then .ok (.ne va ((e.g.sreg o.b.toNat).setWidth 32) e.here none false none)
    else match s.translate (coreOf e.gid) e.g.ctx .load va with
      | .violation => .error (.trap 2 e.mask va)
      | .fault l => .error (.fault 0 e.mask va l)
      | .ok _ _ => .ok (.ne va ((e.g.sreg o.b.toNat).setWidth 32) e.here none false none)
  | 1 =>
    let off := a &&& ~~~7#64
    if e.mask != 0 && decide (e.team.scratchSize ≤ off.toNat) then .error (.trap 2 e.mask off) else .ok (.bar off.toNat)
  | _ => .ok (.time a)

/-- `park` (R46 to R48, R344). Where the target and the address or offset both fail, the want-target fault comes first.
DESIGN CHOICE (assumption 107). -/
def execPark (o : LiOp) (s : State) : Out :=
  issue (.park o) .other always (fun e s =>
    let target := fun _ => s.target e o.imm32
    match toTargets e s target id with
    | .done s => match parkWait o e s with
      | .error f => f
      | .ok w => .done (s.modGroup e.gid fun g => (g.want e.mask target).park e.mask fun _ => w)
    | f => f) s

/-- `rejoin` (R46, R50, R350). -/
def execRejoin (o : LiOp) (s : State) : Out :=
  issue (.rejoin o) .other always (fun e s =>
    let target := fun _ => s.target e o.imm32
    let m := (e.g.sreg o.a.toNat).setWidth 32
    toTargets e s target fun s => s.modGroup e.gid fun g =>
      (g.want e.mask target).park e.mask fun t => .rejoin e.here (m ||| (1#32 <<< t))) s

/-- `region` (R232, R233); illegal inside a handler. `csrr` sees REGIONL two slots later (R28, R107). -/
def execRegion (o : LiOp) (s : State) : Out :=
  issue (.region o) .other (fun e _ => e.g.shadow.isNone) (collective fun e s =>
    let target := s.target e o.imm32
    if !s.isStart e.g.ctx target then .trap 6 e.mask (target.setWidth 64)
    else .done (s.modGroup e.gid fun g => { g with
      regionl := (target &&& 0xFFFFFFF0) ||| 1#32
      entrylk := g.lk
      entrydone := g.ended
      rollbacks := 0
      regionSeq := g.regionSeq + 1
      pend := addPend g.pend { land := e.slot + 2, csr := true, writer := e.here, ff := 0, lf := 0,
                               writes := [.csr 0x018 (((target &&& 0xFFFFFFF0) ||| 1#32).setWidth 64)] } })) s

/-- `pfor` exists only in Galbel code: in native code it raises the illegal-instruction trap (R96, R103). -/
def execPfor (o : POp) (s : State) : Out := issue (.pfor o) .other (fun _ _ => false) (fun _ s => .done s) s

/-- `pend` exists only in Galbel code: in native code it raises the illegal-instruction trap (R96, R103). -/
def execPend (o : POp) (s : State) : Out := issue (.pend o) .other (fun _ _ => false) (fun _ s => .done s) s

end Sys2Proof.Machine
end

