-- ==== Sys2Proof/Machine/System.lean ====
section
/-!
DEFINITION. The system instructions (R62 to R65, R98, R186, R208, R211, R222 to R225, R240, R244, R299, R304 to R308, R369,
R370).
-/
namespace Sys2Proof.Machine

/-- `nop` (R98). -/
def execNop (o : SysOp) (s : State) : Out := issue (.nop o) .other always (fun _ s => .done s) s
/-- Compact `nop` (R97, R98). -/
def execNopCompact (o : CompactOp) (s : State) : Out := issue (.nopCompact o) .other always (fun _ s => .done s) s

/-! Reading special registers (R62, R63, R305). -/

/-- Whether paused links keep every row that a `kick` has still to copy (R131, R186). -/
def State.kickPaused (s : State) (core ctx : Nat) (k : Kick) : Bool :=
  k.reqs.all fun r => r.rows.all fun row => s.readRow core ctx r.record row == .wait

/-- HODEST (R186): the estimate is a free value, and so is whether a request that no paused link keeps is delayed by a full
source queue. STATE is that of the group's oldest `kick`: 3 if one of its requests waits for a replay, else 2 if one is delayed, else
1. DESIGN CHOICE (assumption 110). -/
def State.hodest (s : State) (e : Env) : W64 :=
  match (s.team e.g.team).hod.find? fun k => k.gid == e.gid with
  | none => (s.now (coreOf e.gid)).extractLsb' 0 62 |>.setWidth 64
  | some k =>
    let st : W64 :=
      if k.reqs.any fun r => r.fault.isSome then 3
      else if s.kickPaused (coreOf e.gid) e.g.ctx k || Config.freeBool s.freeCtr then 2
      else 1
    (st <<< 62) ||| ((Config.freeWord s.freeCtr).extractLsb' 0 62).setWidth 64

/-- The lane-scope registers, as the issuing code sees them (R38, R208). -/
def csrLaneValue (e : Env) (num t : Nat) : W64 :=
  match num with
  | 0x00E => ((e.g.shadow.map (·.wl)).getD e.g.wl |>.get t).setWidth 64
  | 0x01C => ((e.g.shadow.map (·.lk)).getD e.g.lk |>.get t).setWidth 64
  | _ => BitVec.ofNat 64 t

/-- The value of a special register of the group, its core, its island or the device at its issue slot (R62). -/
def csrValue (s : State) (e : Env) (num : Nat) : W64 :=
  let core := coreOf e.gid
  let pipe := pipeOf e.gid
  let isl := s.islandOf core
  let i := s.island isl
  let n (x : Nat) : W64 := BitVec.ofNat 64 x
  let w (x : W32) : W64 := x.setWidth 64
  match num with
  | 0x001 => n e.g.groupix
  | 0x002 => n e.team.teamix
  | 0x003 => n e.team.groups
  | 0x004 => n e.team.clusterix
  | 0x005 => n e.team.teamincl
  | 0x006 => n e.launch.grid
  | 0x007 => n e.team.vcore
  | 0x008 => n core
  | 0x009 => n isl
  | 0x00A => s.lanemap core
  | 0x00B => n (s.passes core pipe)
  | 0x00C => n pipe
  | 0x00D => n e.g.nreg
  | 0x00F => w ((e.g.shadow.map (·.sweeps)).getD e.g.sweeps)
  | 0x010 => w e.g.fflags
  | 0x011 => w e.g.lflags
  | 0x012 => w e.g.fmode
  | 0x013 => w e.g.conflicts
  | 0x014 => i.cycle
  | 0x015 => s.now core
  | 0x016 => n e.launch.det
  | 0x017 => n e.team.heavy
  | 0x018 => w e.g.regionlSeen
  | 0x019 => e.g.sigacc.setWidth 64
  | 0x01A => s.codebase e.g.ctx
  | 0x01B => s.hodest e
  | 0x020 => w e.g.trapcause
  | 0x021 => e.g.trapaddr
  | 0x022 => w e.g.traplanes
  | 0x023 => e.g.trapval
  | 0x024 => w e.g.epc
  | 0x025 => w e.g.stepctl
  | 0x026 => w e.g.bpaddr
  | 0x027 => w e.g.watcha
  | 0x028 => w e.g.watchm
  | 0x029 => e.g.dbgmbox
  | 0x030 => w i.droopth
  | 0x031 => w i.droopcnt
  | _ => n (65536 * i.capState + i.capLeft)

/-- What a `csrr` writes (R305). -/
def SysOp.readWrites (o : SysOp) (s : State) (e : Env) : List RegWrite :=
  let num := o.num.toNat
  let v (t : Nat) : Nat := (if csrLane num then csrLaneValue e num t else csrValue s e num).toNat
  if o.cd == .s then [.uni o.dst.toNat (if o.ty == .n32 then BitVec.ofNat 64 (v 0 % 2 ^ 32) else BitVec.ofNat 64 (v 0))]
  else e.lanes.flatMap fun t => destWrites o.cd o.dst (o.ty == .b64) t (v t)

/-- `csrr` (R304, R305): sampled at issue; a variable read arrives later (R29). -/
def execCsrr (o : SysOp) (s : State) : Out :=
  issue (.csrr o) (if o.cd == .s then .other else .vector) always (fun e s =>
    let s := s.startCycle (coreOf e.gid) (pipeOf e.gid)
    let ws := SysOp.readWrites o s e
    if csrVariable o.num.toNat then
      .done (s.modGroup e.gid fun g => { g with
        await := g.await ++ [{ seq := g.seq, iaddr := e.here, names := e.i.awaited.toList, req := .sampled, val := some ws, lf := 0 }]
        seq := g.seq + 1 })
    else .done (s.result e 2 ws {})) s

/-- Values that `csrw` refuses (R307). -/
def csrwIllegal (num : Nat) (v : W64) : Bool :=
  (num == 0x025 && v.extractLsb' 0 2 == 3) || (num == 0x028 && v.getLsbD 31 && v.extractLsb' 29 2 == 0)

/-- `csrw` (R63, R306, R307): seen two slots later. -/
def execCsrw (o : SysOp) (s : State) : Out :=
  issue (.csrw o) .other (fun e _ => csrAccess o.num.toNat != .handler || e.g.shadow.isSome) (fun e s =>
    let num := o.num.toNat
    let v := e.g.sreg o.a.toNat
    if o.ca == .s && csrwIllegal num v then .trap 3 0 0
    else
      let ws : List RegWrite :=
        if o.ca == .s then [.csr num v] else e.lanes.map fun t => .lk t (BitVec.ofNat 32 (e.g.vreg o.a.toNat t))
      .done (s.modGroup e.gid fun g => { g with
        pend := addPend g.pend { land := e.slot + 2, csr := true, writer := e.here, writes := ws, ff := 0, lf := 0 } })) s

/-- `time` (R369). -/
def execTime (o : SysOp) (s : State) : Out :=
  issue (.time o) .other always (fun e s =>
    let s := s.startCycle (coreOf e.gid) (pipeOf e.gid)
    let c := (s.island (s.islandOf (coreOf e.gid))).cycle
    .done (s.result e 2 [.uni o.dst.toNat (if o.ty == .n32 then BitVec.ofNat 64 (c.toNat % 2 ^ 32) else c)] {})) s

/-- `trap` (R370). -/
def execTrap (o : SysOp) (s : State) : Out :=
  issue (.trap o) .other always (fun _ s => .raise s 21 (o.num.setWidth 64)) s

/-- `brk` (R299); inside a handler it does nothing (R208). -/
def execBrk (o : SysOp) (s : State) : Out :=
  issue (.brk o) .other always (fun e s => if e.g.shadow.isSome then .done s else .raise s 15 1) s

/-! Return from a handler (R211). -/

/-- The return itself, from a group's shadow; none when EPC was changed to what is no course start. -/
def State.eretTo (s : State) (gid : Gid) (g : Group) (sh : Shadow) : Option State :=
  let h : Group := g.restoreShadow sh (g.epc == sh.epc && sh.pos == 0)
  let s : State := { s with cur := none }
  if g.epc = sh.epc then
    match sh.pos, sh.visit with
    | 0, _ => some (s.putGroup gid { h with suppress := if sh.cause = 17 then some sh.epc else none })
    | 1, some v =>
      match (s.putGroup gid h).endStep gid h v with
      | none => some ((s.putGroup gid h).takeTrap gid (endStepFault h v))
      | some s => some (s.sleepOrCensus gid)
    | _, _ => some ((s.putGroup gid h).sleepOrCensus gid)
  else if s.isStart g.ctx g.epc then
    let m := (sh.visit.map (·.active)).getD 0
    some ((s.putGroup gid { h with wl := (lanesOf m).foldl (fun w t => w.set t g.epc) h.wl, visit := none }).census gid)
  else none

/-- `eret` (R211, R308): results still on their way land first, so a `csrw` of LK or EPC before it counts. It leaves its
course, whose trailer is not read. DEDUCED (assumption 80). -/
def execEret (o : SysOp) (s : State) : Out :=
  issue (.eret o) .other (fun e _ => e.g.shadow.isSome && e.i.last) (fun e s =>
    let g := e.g.landAll
    match g.shadow with
    | none => .done s
    | some sh =>
      match ((s.putLanded e.gid e.g).spend (coreOf e.gid) (pipeOf e.gid) [0] 0).eretTo e.gid g sh with
      | some s => .leave s
      | none => .trap 6 e.v.active (g.epc.setWidth 64)) s

end Sys2Proof.Machine
end

