-- ==== Sys2Proof/Machine/Course.lean ====
section
/-!
DEFINITION. The steps of the groups that are not instructions: ARBITRATION_TURN, COURSE_BOUNDARY, IDEMPOTENT_ROLLBACK,
VALUE_ARRIVAL, STORE_PERFORM, the park steps and FAULT_RECORD_WRITE; and the issue of one instruction, from its fetch.
-/
namespace Sys2Proof.Machine

/-! Arbitration (R25, R29, R199). -/

/-- The windows that the layout slots may hold after an instruction of a course: an `mlay` sets its slot's (R153), and one
under a guard may leave it. -/
def layAfter (lay : List (List Nat)) : Instr → List (List Nat)
  | .mlay o => lay.set o.c.toNat (if o.h.guard != .off then o.dst.toNat :: lay.getD o.c.toNat [] else [o.dst.toNat])
  | _ => lay

/-- The windows that an `mloop` of a course names, given what the slots may hold at it (R160). -/
def layWindows (lay : List (List Nat)) : Instr → List RegName
  | .mloop o => (lay.getD o.a.toNat [] ++ lay.getD o.b.toNat []).flatMap fun r => vspan r 16
  | _ => []

/-- The registers that a course of a group names from an offset on, looking at most n instructions ahead. -/
def State.courseNames (s : State) (core : Nat) (g : Group) (lay : List (List Nat)) (off : W32) : Nat → List RegName
  | 0 => []
  | n + 1 =>
    match s.instrAt core g.ctx off with
    | none => []
    | some i =>
      let here := i.names.reads ++ i.names.writes ++ layWindows lay i
      if i.last then here else here ++ s.courseNames core g (layAfter lay i) (off + BitVec.ofNat 32 i.len) n

/-- A later course that names a pending register is not ready (R29); a visit that goes on holds its pipe instead. A group
with no course yet starts at its cursor: a kernel's entry, or a handler's (R206). -/
def State.courseReady (s : State) (gid : Gid) (g : Group) : Bool :=
  let fresh (off : W32) : Bool :=
    !((s.courseNames (coreOf gid) g (g.mlay.map fun l => [l.2.2]) off 24).any fun r =>
        g.await.any fun a => a.pending.any fun n => n.regs.contains r)
  g.await.isEmpty || match g.visit with
    | none => fresh g.cursor
    | some v => v.count != 0 || fresh v.pos

/-- Whether a group takes part in arbitration; a seize keeps the groups of its teams out (R214). -/
def State.groupReady (s : State) (gid : Gid) : Bool :=
  match s.group gid with
  | some g => g.status == .ready && (s.teamOf g).residence == .resident && s.courseReady gid g
  | none => false

/-- The slots of a pipe in round-robin order from a pointer (R199). -/
def pipeSlots (core pipe p : Nat) : List Gid := (List.range 16).map fun i => core * 32 + pipe * 16 + (p + i) % 16

def State.pipeRunning (s : State) (core pipe : Nat) : Bool :=
  s.groups.any fun e => e.2.status == .running && coreOf e.1 == core && pipeOf e.1 == pipe

def State.inHandler (s : State) (gid : Gid) : Bool := ((s.group gid).map fun g => g.shadow.isSome).getD false

/-- The ready groups of a pipe in round-robin order. -/
def State.readyGroups (s : State) (core pipe : Nat) : List Gid :=
  (pipeSlots core pipe ((s.core core).rr.getD pipe 0)).filter s.groupReady

/-- The group that wins a pipe's turn, and the round it leaves: the groups of the round, and those served in it (R25). -/
def State.winner (s : State) (core pipe : Nat) : Option (Gid × List Nat × List Nat) :=
  let ready := s.readyGroups core pipe
  let round := (s.core core).due.getD pipe []
  let served := (s.core core).served.getD pipe []
  let due := ready.filter fun g => !served.contains g && (round.contains g || s.inHandler g)
  let (cands, round, served) := if due.isEmpty then (ready, ready, []) else (due, round, served)
  match (cands.filter s.inHandler).head?, cands.head? with
  | some g, _ => some (g, round, g :: served)
  | none, some g => some (g, round, g :: served)
  | none, none => none

/-- The winner runs: its first census first, where it has no course yet; a single step that is still due; or its course. -/
def State.takeTurn (s : State) (gid : Gid) : State :=
  match s.group gid with
  | none => s
  | some g =>
    let s := if g.visit.isNone then s.census gid else s
    match s.group gid with
    | none => s
    | some g =>
      match g.visit with
      | none => s
      | some v =>
        if g.stepDue then
          (s.putGroup gid { g with stepDue := false }).takeTrap gid
            { cause := 16, addr := v.lastPc, val := 0, lanes := v.active, epc := v.pos, pos := 0 }
        else if g.status == .ready && s.courseReady gid g then
          { s.putGroup gid { g with status := .running } with cur := some gid }
        else s

/-- ARBITRATION_TURN (R25, R199). -/
def State.arbitrate (s : State) (core pipe : Nat) : State :=
  if s.pipeRunning core pipe then s
  else match s.winner core pipe with
    | none => s
    | some (g, round, served) =>
      (s.modCore core fun c => { c with
        rr := c.rr.set pipe ((g + 1) % 16)
        due := c.due.set pipe round
        served := c.served.set pipe served }).takeTurn g

/-- ARBITRATION_TURN (R25, R199). -/
def execArbitrationTurn (core pipe : Nat) (s : State) : Out := .next (s.arbitrate core pipe).draw

/-! The course boundary (R40, R99, R102, R212, R231). -/

/-- Course temporaries that a course awaits arrive before it ends (R326). -/
def Group.awaitedK (g : Group) : Option Nat := g.await.findIdx? fun a => a.pending.any fun n => n.k

/-- A fetch that fails (R104, R124, R125). DEDUCED (assumption 40). -/
def State.fetchFault (s : State) (gid : Gid) (g : Group) (off : W32) (straddle : Bool) (level : Nat) (va : W64) : State :=
  s.parkFault gid { straddle, level, kind := 3, ctx := g.ctx, gid, iaddr := off, lanes := 0, va }

/-- A trap at an instruction or a trailer that cannot issue (R102, R105, R124). -/
def State.trapAt (s : State) (gid : Gid) (cause : Nat) (off : W32) (val : W64) : State :=
  s.takeTrap gid { cause, addr := off, val, lanes := 0, epc := off, pos := 0 }

/-- The boundary of the course that a running group has ended. -/
def State.courseEnd (s : State) (gid : Gid) : State :=
  match s.group gid with
  | none => s
  | some g =>
    match g.visit with
    | none => s
    | some v =>
      if g.status != .running || !v.ended then s
      else match g.awaitedK with
        | some i => s.holdFor gid (.row (.valueArrival gid i .deliver))
        | none =>
          match s.fetch (coreOf gid) g.ctx v.pos.toNat with
          | .fault straddle level va => s.fetchFault gid g v.pos straddle level va
          | .violation va => s.trapAt gid 2 v.pos va
          | .bytes bs =>
            let s := s.noteFetch (coreOf gid) g.ctx v.pos.toNat bs.length
            match decodeTrailer bs with
            | none => s.trapAt gid 4 v.pos 0
            | some t =>
              let g := { g with lastTrailer := v.pos, lastAnchor := some v.region }
              s.boundary gid g v t

/-- COURSE_BOUNDARY (R212). -/
def execCourseBoundary (g : Gid) (s : State) : Out := .next (s.courseEnd g).draw

/-! Issue of one instruction (R102 to R106). -/

/-- What the group that holds the issue turn meets next: an instruction to execute, or the state after a failed fetch. -/
inductive Fetching where
  | run (i : Instr) (s : State)
  | stopped (s : State)
deriving DecidableEq, Repr

/-- The count of a Galbel region whose translation begins at the next instruction, where it exceeds 1,048,576 (R268). -/
def State.regionOver (s : State) (g : Group) (v : Visit) : Option W64 :=
  (s.regionCount g.ctx v.pos.toNat).bind fun r =>
    let n := ((g.land v.slot).s.get r) &&& 0xFFFFFFFF
    if 1048576 < n then some n else none

/-- The checks of R106 up to legality: the fetch, malformation, the overrun; an encoding with no instruction is illegal, and
so is a region of more than 1,048,576 logical threads at its first instruction (R268). -/
def State.fetchInstr (s : State) (gid : Gid) (g : Group) (v : Visit) : Fetching :=
  match s.fetch (coreOf gid) g.ctx v.pos.toNat with
  | .fault straddle level va => .stopped (s.fetchFault gid g v.pos straddle level va)
  | .violation va => .stopped (s.trapAt gid 2 v.pos va)
  | .bytes bs =>
    match decode bs with
    | .error (.illegal _) => .stopped (s.trapAt gid (if v.count = 24 then 5 else 3) v.pos 0)
    | .error _ => .stopped (s.trapAt gid 4 v.pos 0)
    | .ok (i, _) =>
      if v.count = 24 then .stopped (s.trapAt gid 5 v.pos 0)
      else match s.regionOver g v with
        | some n => .stopped (s.trapAt gid 3 v.pos n)
        | none => .run i (s.noteFetch (coreOf gid) g.ctx v.pos.toNat bs.length)

/-! Rollback (R234). -/

/-- A rollback completes: the group's operations have retired and its pending registers have arrived. -/
def State.rollbackDone (s : State) (gid : Gid) : State :=
  match s.group gid with
  | none => s
  | some g =>
    if g.status == .rolling && g.ops.isEmpty && g.await.isEmpty then
      let entry := g.regionl &&& 0xFFFFFFF0
      let g := { g with
        wl := lanes.foldl (fun w t => w.set t entry) []
        lk := g.entrylk
        ended := g.entrydone
        parked := 0
        waits := []
        sigacc := 0xFFFF
        rollbacks := g.rollbacks + 1
        visit := none
        status := .ready }
      (s.putGroup gid g).census gid
    else s

/-- IDEMPOTENT_ROLLBACK (R234). -/
def execIdempotentRollback (g : Gid) (s : State) : Out := .next (s.rollbackDone g).draw

/-! The memory system (R29, R134 to R137). -/

/-- VALUE_ARRIVAL (R29). DEDUCED (assumption 73). -/
def execValueArrival (g : Gid) (index : Nat) (move : ArrivalMove) (s : State) : Out := .next (s.arrive g index move).draw

/-- STORE_PERFORM (R134, R136): the oldest store of the group's queue leaves it, or one of the group's stores in flight
from its core, by its place there, reaches its home. DESIGN CHOICE (assumption 9). -/
def State.storeMove (s : State) (g : Gid) : StoreMove → State
  | .leave => s.storeLeaves g
  | .reach i =>
    match (s.core (coreOf g)).flight[i]? with
    | some e => if e.gid == g then s.reachOne (coreOf g) i else s
    | none => s

/-- STORE_PERFORM (R134, R136). -/
def execStorePerform (g : Gid) (move : StoreMove) (s : State) : Out := .next (s.storeMove g move).draw

/-! Parking (R48, R49). -/

/-- A group asleep one of whose park conditions holds runs its census (R41). -/
def State.wakeParked (s : State) (gid : Gid) : State :=
  match s.group gid with
  | none => s
  | some g => if g.status == .asleep && g.waits.any (fun e => s.condHolds g e.2) then s.census gid else s

/-- A read of a `.ne` condition that is due, 64 ticks after the one before it; a sleeping group wakes as its value arrives
(R48). The wait records of a stopped course stand in the shadow while a handler runs, and none of them is read until the `eret`.
DESIGN CHOICE (assumption 78). -/
def State.parkRead (s : State) (gid : Gid) (lane : Nat) : State :=
  match s.group gid with
  | none => s
  | some g =>
    match tfind g.waits lane with
    | some w =>
      match w with
      | .ne _ _ _ (some _) _ _ =>
        match s.readDue gid [(lane, w)] with
        | none => s.neViolation gid g
        | some s => s.wakeParked gid
      | _ => s
    | none => s

/-- PARK_NE_READ (R48). -/
def execParkNeRead (g : Gid) (lane : Nat) (s : State) : Out := .next (s.parkRead g lane).draw

/-- PARK_CONDITION_WAKE (R48). -/
def execParkConditionWake (g : Gid) (s : State) : Out := .next (s.wakeParked g).draw

/-! The fault buffer (R125). -/

/-- A record that waited for a free slot is written. -/
def State.writeWaiting (s : State) (gid : Gid) : State :=
  match s.group gid with
  | none => s
  | some g =>
    if g.status == .faulted none && s.ringFree then
      let (s, slot) := s.putFaultWord g.faultWord (.group gid)
      s.modGroup gid fun g => { g with status := .faulted (some slot) }
    else s

/-- FAULT_RECORD_WRITE (R125, R253). -/
def execFaultRecordWrite (g : Gid) (s : State) : Out := .next (s.writeWaiting g)

end Sys2Proof.Machine
end

