-- ==== Sys2Proof/Machine/Integer.lean ====
section
/-!
DEFINITION. The integer and bit instructions (R80 to R82, R286 to R288, R296, R298, R302, R303, R316, R320, R334, R336,
R338, R342, R343, R347, R359, R360, R368, R374) and their compact forms (R97).
-/
namespace Sys2Proof.Machine

/-! Element by element (R66). -/

def map1 (ty : ETy) (f : Nat → Nat) (x : Nat) : Nat := pack ty.width ((elems ty x).map f)
def map2 (ty : ETy) (f : Nat → Nat → Nat) (x y : Nat) : Nat := pack ty.width (List.zipWith f (elems ty x) (elems ty y))
def map3 (ty : ETy) (f : Nat → Nat → Nat → Nat) (x y z : Nat) : Nat :=
  pack ty.width (List.zipWith (fun p c => f p.1 p.2 c) ((elems ty x).zip (elems ty y)) (elems ty z))

/-- An element as the type's number. -/
def ETy.num (ty : ETy) (x : Nat) : Int := toInt ty.signed ty.width x

/-- Sum, difference, product and absolute value, wrapped or clamped (R82, R286, R287, R342, R368). -/
def addW (sat : Bool) (ty : ETy) : Nat → Nat → Nat :=
  map2 ty fun a b => narrow sat ty.signed ty.width (ETy.num ty a + ETy.num ty b)
def subW (sat : Bool) (ty : ETy) : Nat → Nat → Nat :=
  map2 ty fun a b => narrow sat ty.signed ty.width (ETy.num ty a - ETy.num ty b)
def mulW (sat : Bool) (ty : ETy) : Nat → Nat → Nat :=
  map2 ty fun a b => narrow sat ty.signed ty.width (ETy.num ty a * ETy.num ty b)
def mulhiW (ty : ETy) : Nat → Nat → Nat :=
  map2 ty fun a b => wrap ty.width ((ETy.num ty a * ETy.num ty b) / (2 ^ ty.width : Nat))
def madW (sat : Bool) (ty : ETy) : Nat → Nat → Nat → Nat :=
  map3 ty fun a b c => narrow sat ty.signed ty.width (ETy.num ty a * ETy.num ty b + ETy.num ty c)
def absW (sat : Bool) (ty : ETy) : Nat → Nat :=
  map1 ty fun a => narrow sat ty.signed ty.width (ETy.num ty a).natAbs
def minW (ty : ETy) : Nat → Nat → Nat := map2 ty fun a b => if ETy.num ty b < ETy.num ty a then b else a
def maxW (ty : ETy) : Nat → Nat → Nat := map2 ty fun a b => if ETy.num ty a < ETy.num ty b then b else a

/-- Bit operations over 32 or 64 bits (R288, R343, R374). -/
def notW (ty : ETy) (x : Nat) : Nat := let w := if ty == .b64 then 64 else 32; 2 ^ w - 1 - x % 2 ^ w

/-- Shift amounts (R80): the low 8 bits of an element. -/
def amount (c : Nat) : Nat := c % 256
def shlW (ty : ETy) : Nat → Nat → Nat :=
  map2 ty fun a c => if ty.width ≤ amount c then 0 else a * 2 ^ amount c % 2 ^ ty.width
def shrW (ty : ETy) : Nat → Nat → Nat := map2 ty fun a c => if ty.width ≤ amount c then 0 else a / 2 ^ amount c
def sarW (ty : ETy) : Nat → Nat → Nat :=
  map2 ty fun a c => wrap ty.width (toInt true ty.width a / (2 ^ Nat.min (amount c) ty.width : Nat))
/-- The funnel shifts (R316): a high, b low, the amount in c. -/
def fslW (ty : ETy) : Nat → Nat → Nat → Nat := map3 ty fun a b c =>
  if 2 * ty.width ≤ amount c then 0
  else (a * 2 ^ ty.width + b) * 2 ^ amount c % 2 ^ (2 * ty.width) / 2 ^ ty.width
def fsrW (ty : ETy) : Nat → Nat → Nat → Nat := map3 ty fun a b c =>
  if 2 * ty.width ≤ amount c then 0 else (a * 2 ^ ty.width + b) / 2 ^ amount c % 2 ^ ty.width

/-- The clipped width of a bit field (R81), 0 when there is no field. -/
def fieldWidth (o n : Nat) : Nat := if 32 ≤ o then 0 else Nat.min n (32 - o)
def bfxW (ty : ETy) (a b c : Nat) : Nat :=
  let n := fieldWidth (b % 256) (c % 256)
  if n = 0 then 0 else wrap 32 (toInt ty.signed n (a / 2 ^ (b % 256) % 2 ^ n))
def bfiW (d a b c : Nat) : Nat :=
  let o := b % 256
  let n := fieldWidth o (c % 256)
  if n = 0 then d else d % 2 ^ o + a % 2 ^ n * 2 ^ o + d / 2 ^ (o + n) * 2 ^ (o + n)

/-- Counts and bit reversal (R298, R347), on w bits. -/
def wordBits (ty : ETy) : Nat := if ty == .b64 then 64 else 32
def popcW (ty : ETy) (x : Nat) : Nat := ((List.range (wordBits ty)).filter fun i => x.testBit i).length
def clzW (ty : ETy) (x : Nat) : Nat := if x = 0 then wordBits ty else wordBits ty - 1 - Nat.log2 x
def brevW (ty : ETy) (x : Nat) : Nat := pack 1 (((List.range (wordBits ty)).map fun i => elem 1 x i).reverse)

/-- The conditions of `cmp` and `scmp` (R302, R354). -/
def condition (signed : Bool) (w : Nat) (cond : Nat) (x y : Nat) : Bool :=
  let a := toInt signed w x
  let b := toInt signed w y
  match cond with
  | 0 => a == b
  | 1 => a != b
  | 2 => decide (a < b)
  | 3 => decide (a ≤ b)
  | 4 => decide (b < a)
  | 5 => decide (b ≤ a)
  | _ => x &&& y != 0

/-- The dot product (R79, R320). -/
def idotW (sat : Bool) (ty : ETy) (a b c : Nat) : Nat :=
  let s := (List.zipWith (fun x y => ETy.num ty x * ETy.num ty y) (elems ty a) (elems ty b)).foldl (· + ·) (toInt ty.signed 32 c)
  narrow sat ty.signed 32 s

/-- A predicate's write in one lane. -/
def predWrite (r t x : Nat) : List RegWrite := [.pred r (1#32 <<< t) (if x = 0 then 0 else 1#32 <<< t)]

/-! Operand forms: a lane's value from one, two or three sources. -/

def VOp.lane1 (o : VOp) (f : Nat → Nat) (e : Env) (t : Nat) : Nat × Fl := (f (o.srcA e.g t), {})
def VOp.lane2 (o : VOp) (f : Nat → Nat → Nat) (e : Env) (t : Nat) : Nat × Fl := (f (o.srcA e.g t) (o.srcB e.g t), {})
def VOp.lane3 (o : VOp) (f : Nat → Nat → Nat → Nat) (e : Env) (t : Nat) : Nat × Fl :=
  (f (o.srcA e.g t) (o.srcB e.g t) (o.srcC e.g t), {})
def CompactOp.lane1 (o : CompactOp) (f : Nat → Nat) (e : Env) (t : Nat) : Nat × Fl := (f (e.g.vreg o.a.toNat t), {})
def CompactOp.lane2 (o : CompactOp) (f : Nat → Nat → Nat) (e : Env) (t : Nat) : Nat × Fl :=
  (f (e.g.vreg o.a.toNat t) (e.g.vreg o.b.toNat t), {})
def CompactOp.dest (o : CompactOp) (t x : Nat) : List RegWrite := [.lane false o.d.toNat t (BitVec.ofNat 32 x)]

/-- `abs` (R286). -/
def execAbs (o : VOp) (s : State) : Out := lanewise (.abs o) 2 o.dest (VOp.lane1 o (absW o.sat o.ty)) s
/-- `add` (R287). -/
def execAdd (o : VOp) (s : State) : Out := lanewise (.add o) 2 o.dest (VOp.lane2 o (addW o.sat o.ty)) s
/-- `sub` (R368). -/
def execSub (o : VOp) (s : State) : Out := lanewise (.sub o) 2 o.dest (VOp.lane2 o (subW o.sat o.ty)) s
/-- `mul` (R342). -/
def execMul (o : VOp) (s : State) : Out := lanewise (.mul o) 2 o.dest (VOp.lane2 o (mulW o.sat o.ty)) s
/-- `mulhi` (R342). -/
def execMulhi (o : VOp) (s : State) : Out := lanewise (.mulhi o) 2 o.dest (VOp.lane2 o (mulhiW o.ty)) s
/-- `mad` (R336). -/
def execMad (o : VOp) (s : State) : Out := lanewise (.mad o) 2 o.dest (VOp.lane3 o (madW o.sat o.ty)) s
/-- `min` (R338). -/
def execMin (o : VOp) (s : State) : Out := lanewise (.min o) 2 o.dest (VOp.lane2 o (minW o.ty)) s
/-- `max` (R338). -/
def execMax (o : VOp) (s : State) : Out := lanewise (.max o) 2 o.dest (VOp.lane2 o (maxW o.ty)) s
/-- `and` (R288). -/
def execAnd (o : VOp) (s : State) : Out := lanewise (.and o) 2 o.dest (VOp.lane2 o Nat.land) s
/-- `or` (R343). -/
def execOr (o : VOp) (s : State) : Out := lanewise (.or o) 2 o.dest (VOp.lane2 o Nat.lor) s
/-- `xor` (R374). -/
def execXor (o : VOp) (s : State) : Out := lanewise (.xor o) 2 o.dest (VOp.lane2 o Nat.xor) s
/-- `not` (R343). -/
def execNot (o : VOp) (s : State) : Out := lanewise (.not o) 2 o.dest (VOp.lane1 o (notW o.ty)) s
/-- `shl` (R359). -/
def execShl (o : VOp) (s : State) : Out := lanewise (.shl o) 2 o.dest (VOp.lane2 o (shlW o.ty)) s
/-- `shr` (R359). -/
def execShr (o : VOp) (s : State) : Out := lanewise (.shr o) 2 o.dest (VOp.lane2 o (shrW o.ty)) s
/-- `sar` (R359). -/
def execSar (o : VOp) (s : State) : Out := lanewise (.sar o) 2 o.dest (VOp.lane2 o (sarW o.ty)) s
/-- `fsl` (R316). -/
def execFsl (o : VOp) (s : State) : Out := lanewise (.fsl o) 2 o.dest (VOp.lane3 o (fslW o.ty)) s
/-- `fsr` (R316). -/
def execFsr (o : VOp) (s : State) : Out := lanewise (.fsr o) 2 o.dest (VOp.lane3 o (fsrW o.ty)) s
/-- `bfx` (R81, R296). -/
def execBfx (o : VOp) (s : State) : Out := lanewise (.bfx o) 2 o.dest (VOp.lane3 o (bfxW o.ty)) s
/-- `bfi` (R81, R296): the destination is read too. -/
def execBfi (o : VOp) (s : State) : Out :=
  lanewise (.bfi o) 2 o.dest (fun e t => VOp.lane3 o (bfiW (e.g.src o.cd o.dst false t)) e t) s
/-- `popc` (R347). -/
def execPopc (o : VOp) (s : State) : Out := lanewise (.popc o) 2 o.dest (VOp.lane1 o (popcW o.ty)) s
/-- `clz` (R298). -/
def execClz (o : VOp) (s : State) : Out := lanewise (.clz o) 2 o.dest (VOp.lane1 o (clzW o.ty)) s
/-- `brev` (R298). -/
def execBrev (o : VOp) (s : State) : Out := lanewise (.brev o) 2 o.dest (VOp.lane1 o (brevW o.ty)) s
/-- `cmp` (R302, R303). -/
def execCmp (o : VOp) (s : State) : Out :=
  lanewise (.cmp o) 2 (predWrite o.dst.toNat)
    (VOp.lane2 o fun x y => if condition o.ty.signed 32 o.cond.toNat x y then 1 else 0) s
/-- `sel` (R360). -/
def execSel (o : VOp) (s : State) : Out :=
  lanewise (.sel o) 2 o.dest (fun e t => VOp.lane2 o (fun x y => if e.g.pbit o.c.toNat t then x else y) e t) s
/-- `lea` (R334). -/
def execLea (o : VOp) (s : State) : Out :=
  lanewise (.lea o) 2 o.dest (fun e t =>
    ((o.srcA e.g t + e.g.src o.cb o.b false t * 2 ^ o.c.toNat) % 2 ^ wordBits o.ty, {})) s
/-- `idot` (R79, R320). -/
def execIdot (o : VOp) (s : State) : Out :=
  lanewise (.idot o) 5 o.dest (fun e t => (idotW o.sat o.ty (o.srcA e.g t) (o.srcB e.g t) (e.g.src o.cc o.c false t), {})) s

/-! The compact forms (R97). -/

/-- Compact `add.i32` (R97, R287). -/
def execAddI32Compact (o : CompactOp) (s : State) : Out :=
  lanewise (.addI32Compact o) 2 (CompactOp.dest o) (CompactOp.lane2 o (addW false .i32)) s
/-- Compact `sub.i32` (R97, R368). -/
def execSubI32Compact (o : CompactOp) (s : State) : Out :=
  lanewise (.subI32Compact o) 2 (CompactOp.dest o) (CompactOp.lane2 o (subW false .i32)) s
/-- Compact `mul.i32` (R97, R342). -/
def execMulI32Compact (o : CompactOp) (s : State) : Out :=
  lanewise (.mulI32Compact o) 2 (CompactOp.dest o) (CompactOp.lane2 o (mulW false .i32)) s
/-- Compact `min.i32` (R97, R338). -/
def execMinI32Compact (o : CompactOp) (s : State) : Out :=
  lanewise (.minI32Compact o) 2 (CompactOp.dest o) (CompactOp.lane2 o (minW .i32)) s
/-- Compact `max.i32` (R97, R338). -/
def execMaxI32Compact (o : CompactOp) (s : State) : Out :=
  lanewise (.maxI32Compact o) 2 (CompactOp.dest o) (CompactOp.lane2 o (maxW .i32)) s
/-- Compact `and` (R97, R288). -/
def execAndCompact (o : CompactOp) (s : State) : Out :=
  lanewise (.andCompact o) 2 (CompactOp.dest o) (CompactOp.lane2 o Nat.land) s
/-- Compact `or` (R97, R343). -/
def execOrCompact (o : CompactOp) (s : State) : Out :=
  lanewise (.orCompact o) 2 (CompactOp.dest o) (CompactOp.lane2 o Nat.lor) s
/-- Compact `xor` (R97, R374). -/
def execXorCompact (o : CompactOp) (s : State) : Out :=
  lanewise (.xorCompact o) 2 (CompactOp.dest o) (CompactOp.lane2 o Nat.xor) s
/-- Compact `shl.n32` (R97, R359). -/
def execShlN32Compact (o : CompactOp) (s : State) : Out :=
  lanewise (.shlN32Compact o) 2 (CompactOp.dest o) (CompactOp.lane2 o (shlW .n32)) s
/-- Compact `shr.n32` (R97, R359). -/
def execShrN32Compact (o : CompactOp) (s : State) : Out :=
  lanewise (.shrN32Compact o) 2 (CompactOp.dest o) (CompactOp.lane2 o (shrW .n32)) s
/-- Compact `sar.i32` (R97, R359). -/
def execSarI32Compact (o : CompactOp) (s : State) : Out :=
  lanewise (.sarI32Compact o) 2 (CompactOp.dest o) (CompactOp.lane2 o (sarW .i32)) s
/-- Compact `popc` (R97, R347). -/
def execPopcCompact (o : CompactOp) (s : State) : Out :=
  lanewise (.popcCompact o) 2 (CompactOp.dest o) (CompactOp.lane1 o (popcW .n32)) s
/-- Compact `clz` (R97, R298). -/
def execClzCompact (o : CompactOp) (s : State) : Out :=
  lanewise (.clzCompact o) 2 (CompactOp.dest o) (CompactOp.lane1 o (clzW .n32)) s
/-- Compact `brev` (R97, R298). -/
def execBrevCompact (o : CompactOp) (s : State) : Out :=
  lanewise (.brevCompact o) 2 (CompactOp.dest o) (CompactOp.lane1 o (brevW .n32)) s
/-- Compact `not` (R97, R343). -/
def execNotCompact (o : CompactOp) (s : State) : Out :=
  lanewise (.notCompact o) 2 (CompactOp.dest o) (CompactOp.lane1 o (notW .n32)) s
/-- Compact `abs.i32` (R97, R286). -/
def execAbsI32Compact (o : CompactOp) (s : State) : Out :=
  lanewise (.absI32Compact o) 2 (CompactOp.dest o) (CompactOp.lane1 o (absW false .i32)) s

end Sys2Proof.Machine
end

