-- ==== Sys2Proof/Machine/FloatOps.lean ====
section
/-!
DEFINITION. The floating instructions (R74 to R77, R310 to R315) and their compact forms (R97).
-/
namespace Sys2Proof.Machine

/-- FMODE.FTZ, which acts on f32 alone (R64, R77). -/
def Group.ftz (g : Group) (ty : ETy) : Bool := ty == .f32 && g.fmode.getLsbD 2

/-- The rounding mode: RND, or FMODE.RM when RND is 0 (R310). -/
def Group.roundMode (g : Group) (rnd : Nat) : Nat := if rnd = 0 then g.fmode.toNat % 4 else rnd

/-- Element results packed, their flags ORed (R65). -/
def packFl (w : Nat) (rs : List (Nat × W32)) : Nat × Fl :=
  (pack w (rs.map (·.1)), { ff := rs.foldl (fun f r => f ||| r.2) 0 })

def float2 (ty : ETy) (f : Nat → Nat → Nat × W32) (x y : Nat) : Nat × Fl :=
  packFl ty.width (List.zipWith f (elems ty x) (elems ty y))
def float3 (ty : ETy) (f : Nat → Nat → Nat → Nat × W32) (x y z : Nat) : Nat × Fl :=
  packFl ty.width (List.zipWith (fun p c => f p.1 p.2 c) ((elems ty x).zip (elems ty y)) (elems ty z))

/-- The arithmetic of a group's mode on values of a type (R310, R311). -/
def faddW (g : Group) (rnd : Nat) (ty : ETy) : Nat → Nat → Nat × Fl :=
  float2 ty (fadd1 ty.ffmt (g.roundMode rnd) (g.ftz ty))
def fsubW (g : Group) (rnd : Nat) (ty : ETy) : Nat → Nat → Nat × Fl :=
  float2 ty (fsub1 ty.ffmt (g.roundMode rnd) (g.ftz ty))
def fmulW (g : Group) (rnd : Nat) (ty : ETy) : Nat → Nat → Nat × Fl :=
  float2 ty (fmul1 ty.ffmt (g.roundMode rnd) (g.ftz ty))
def ffmaW (g : Group) (rnd : Nat) (ty : ETy) : Nat → Nat → Nat → Nat × Fl :=
  float3 ty (ffma1 ty.ffmt (g.roundMode rnd) (g.ftz ty))
def fminW (g : Group) (ty : ETy) : Nat → Nat → Nat × Fl := float2 ty (fmin1 ty.ffmt (g.ftz ty))
def fmaxW (g : Group) (ty : ETy) : Nat → Nat → Nat × Fl := float2 ty (fmax1 ty.ffmt (g.ftz ty))

/-- One element of `fcvt` from type s to type d (R313, R314). -/
def fcvt1 (g : Group) (mode : Nat) (s d : ETy) (x : Nat) : Nat × W32 :=
  let ftz := g.fmode.getLsbD 2
  let x := if s == .f32 then fmt32.flushSrc ftz x else x
  if d == .i32 || d == .n32 then ftoi d.signed mode x
  else if s == .i32 || s == .n32 then itof s.signed mode x
  else if d == .f32 then fmt32.flushRes ftz (fconv s.ffmt fmt32 mode x)
  else fconv s.ffmt d.ffmt mode x

/-- `fcvt` on one lane (R313): `a` after its modifier, `b` the second f32 source. -/
def fcvtW (g : Group) (mode : Nat) (s d : ETy) (a b : Nat) : Nat × Fl :=
  if s == .f32 && (d == .h16x2 || d == .bf16x2) then packFl 16 [fcvt1 g mode s d a, fcvt1 g mode s d b]
  else if d == .h16x2 || d == .bf16x2 then packFl 16 ((elems s a).map (fcvt1 g mode s d))
  else packFl 32 [fcvt1 g mode s d (elem s.width a 0)]

def VOp.float2 (o : VOp) (f : Group → Nat → Nat → Nat × Fl) (e : Env) (t : Nat) : Nat × Fl :=
  f e.g (o.srcA e.g t) (o.srcB e.g t)
def CompactOp.float2 (o : CompactOp) (f : Group → Nat → Nat → Nat × Fl) (e : Env) (t : Nat) : Nat × Fl :=
  f e.g (e.g.vreg o.a.toNat t) (e.g.vreg o.b.toNat t)

/-- `fadd` (R310). -/
def execFadd (o : VOp) (s : State) : Out :=
  lanewise (.fadd o) 4 o.dest (VOp.float2 o fun g => faddW g o.rnd.toNat o.ty) s
/-- `fsub` (R310). -/
def execFsub (o : VOp) (s : State) : Out :=
  lanewise (.fsub o) 4 o.dest (VOp.float2 o fun g => fsubW g o.rnd.toNat o.ty) s
/-- `fmul` (R310). -/
def execFmul (o : VOp) (s : State) : Out :=
  lanewise (.fmul o) 4 o.dest (VOp.float2 o fun g => fmulW g o.rnd.toNat o.ty) s
/-- `ffma` (R310). -/
def execFfma (o : VOp) (s : State) : Out :=
  lanewise (.ffma o) 4 o.dest (fun e t => ffmaW e.g o.rnd.toNat o.ty (o.srcA e.g t) (o.srcB e.g t) (o.srcC e.g t)) s
/-- `fmin` (R311). -/
def execFmin (o : VOp) (s : State) : Out := lanewise (.fmin o) 4 o.dest (VOp.float2 o fun g => fminW g o.ty) s
/-- `fmax` (R311). -/
def execFmax (o : VOp) (s : State) : Out := lanewise (.fmax o) 4 o.dest (VOp.float2 o fun g => fmaxW g o.ty) s
/-- `fcmp` (R312). -/
def execFcmp (o : VOp) (s : State) : Out :=
  lanewise (.fcmp o) 4 (predWrite o.dst.toNat) (fun e t =>
    let r := fcmp1 (e.g.ftz .f32) o.fcond.toNat (o.srcA e.g t) (o.srcB e.g t)
    (if r.1 then 1 else 0, { ff := r.2 })) s
/-- `fcvt` (R313, R314): the modifier acts on the source type. -/
def execFcvt (o : VOp) (s : State) : Out :=
  lanewise (.fcvt o) 4 o.dest (fun e t =>
    let src := ETy.ofCode o.fstype
    fcvtW e.g (e.g.roundMode o.rnd.toNat) src o.ty (o.ma.apply src (e.g.src o.ca o.a false t)) (e.g.src o.cb o.b false t)) s

/-- The special functions on one lane (R76, R315). -/
def VOp.sfu (o : VOp) (fn : Nat) (e : Env) (t : Nat) : Nat × Fl :=
  let r := sfu1 fn (e.g.ftz .f32) (o.srcA e.g t)
  (r.1, { ff := r.2 })

/-- `frcp` (R315). -/
def execFrcp (o : VOp) (s : State) : Out := lanewise (.frcp o) 12 o.dest (VOp.sfu o 0) s
/-- `frsq` (R315). -/
def execFrsq (o : VOp) (s : State) : Out := lanewise (.frsq o) 12 o.dest (VOp.sfu o 1) s
/-- `fex2` (R315). -/
def execFex2 (o : VOp) (s : State) : Out := lanewise (.fex2 o) 12 o.dest (VOp.sfu o 2) s
/-- `flg2` (R315). -/
def execFlg2 (o : VOp) (s : State) : Out := lanewise (.flg2 o) 12 o.dest (VOp.sfu o 3) s
/-- `fsin` (R315). -/
def execFsin (o : VOp) (s : State) : Out := lanewise (.fsin o) 12 o.dest (VOp.sfu o 4) s
/-- `fcos` (R315). -/
def execFcos (o : VOp) (s : State) : Out := lanewise (.fcos o) 12 o.dest (VOp.sfu o 5) s

/-- Compact `fadd.f32` (R97, R310). -/
def execFaddF32Compact (o : CompactOp) (s : State) : Out :=
  lanewise (.faddF32Compact o) 4 (CompactOp.dest o) (CompactOp.float2 o fun g => faddW g 0 .f32) s
/-- Compact `fsub.f32` (R97, R310). -/
def execFsubF32Compact (o : CompactOp) (s : State) : Out :=
  lanewise (.fsubF32Compact o) 4 (CompactOp.dest o) (CompactOp.float2 o fun g => fsubW g 0 .f32) s
/-- Compact `fmul.f32` (R97, R310). -/
def execFmulF32Compact (o : CompactOp) (s : State) : Out :=
  lanewise (.fmulF32Compact o) 4 (CompactOp.dest o) (CompactOp.float2 o fun g => fmulW g 0 .f32) s
/-- Compact `fmin.f32` (R97, R311). -/
def execFminF32Compact (o : CompactOp) (s : State) : Out :=
  lanewise (.fminF32Compact o) 4 (CompactOp.dest o) (CompactOp.float2 o fun g => fminW g .f32) s
/-- Compact `fmax.f32` (R97, R311). -/
def execFmaxF32Compact (o : CompactOp) (s : State) : Out :=
  lanewise (.fmaxF32Compact o) 4 (CompactOp.dest o) (CompactOp.float2 o fun g => fmaxW g .f32) s
/-- Compact `fadd.h16x2` (R97, R310). -/
def execFaddH16x2Compact (o : CompactOp) (s : State) : Out :=
  lanewise (.faddH16x2Compact o) 4 (CompactOp.dest o) (CompactOp.float2 o fun g => faddW g 0 .h16x2) s
/-- Compact `fmul.h16x2` (R97, R310). -/
def execFmulH16x2Compact (o : CompactOp) (s : State) : Out :=
  lanewise (.fmulH16x2Compact o) 4 (CompactOp.dest o) (CompactOp.float2 o fun g => fmulW g 0 .h16x2) s

end Sys2Proof.Machine
end

