-- ==== Sys2Proof/Machine/LogOps.lean ====
section
/-!
DEFINITION. The logarithmic instructions (R69 to R73, R78, R191, R323, R324, R331 to R333, R335) and their compact
forms (R97).
-/
namespace Sys2Proof.Machine

/-- Element results packed, their flags ORed (R65). -/
def packLog (w : Nat) (rs : List (Nat × Fl)) : Nat × Fl := (pack w (rs.map (·.1)), rs.foldl (fun f r => f.or r.2) {})

def lmulW (ty : ETy) (x y : Nat) : Nat × Fl := packLog ty.width (List.zipWith (lmul1 ty) (elems ty x) (elems ty y))
def ldivW (ty : ETy) (x y : Nat) : Nat × Fl := packLog ty.width (List.zipWith (ldiv1 ty) (elems ty x) (elems ty y))
/-- The scale is bits [15:0] of b (R332). -/
def lsclW (ty : ETy) (x c : Nat) : Nat × Fl := packLog ty.width ((elems ty x).map fun a => lscl1 ty a (c % 65536))

/-- `lcvt` from log type s to d, from element sel (R324). -/
def lcvtW (ftz : Bool) (s d : ETy) (sel x : Nat) : Nat × Fl :=
  if d == .f32 then logToF32 s ftz (elem s.width x sel)
  else packLog 16 [logToPacked s d.ffmt (elem s.width x sel), logToPacked s d.ffmt (elem s.width x (sel + 1))]

/-- `lqnt` from linear type src to log type d (R72, R191). -/
def lqntW (rz : Bool) (src d : ETy) (x : Nat) : Nat × Fl :=
  packLog d.width ((elems src x).map fun y => quantise d rz (src.ffmt.decode y))

def VOp.log2 (o : VOp) (f : Nat → Nat → Nat × Fl) (e : Env) (t : Nat) : Nat × Fl := f (o.srcA e.g t) (o.srcB e.g t)

/-- `lmul` (R73, R331). -/
def execLmul (o : VOp) (s : State) : Out := lanewise (.lmul o) 2 o.dest (VOp.log2 o (lmulW o.ty)) s
/-- `ldiv` (R73, R331). -/
def execLdiv (o : VOp) (s : State) : Out := lanewise (.ldiv o) 2 o.dest (VOp.log2 o (ldivW o.ty)) s
/-- `lscl` (R73, R332). -/
def execLscl (o : VOp) (s : State) : Out := lanewise (.lscl o) 2 o.dest (VOp.log2 o (lsclW o.ty)) s
/-- `lcvt` (R71, R323, R324). -/
def execLcvt (o : VOp) (s : State) : Out :=
  lanewise (.lcvt o) 3 o.dest (fun e t =>
    lcvtW (e.g.fmode.getLsbD 2) o.ty (ETy.ofCode o.lstype) o.b.toNat (o.srcA e.g t)) s
/-- `lqnt` (R72, R191, R335): the modifier acts on the source type. -/
def execLqnt (o : VOp) (s : State) : Out :=
  lanewise (.lqnt o) 3 o.dest (fun e t =>
    let src := ETy.ofCode o.lstype
    lqntW o.sat src o.ty (o.ma.apply src (e.g.src o.ca o.a false t))) s
/-- `ldot` (R78, R333). -/
def execLdot (o : VOp) (s : State) : Out :=
  lanewise (.ldot o) 5 o.dest (fun e t =>
    ldot1 o.ty (e.g.fmode.getLsbD 2) (o.srcA e.g t) (o.srcB e.g t) (e.g.src o.cc o.c false t)) s

def CompactOp.log2 (o : CompactOp) (f : Nat → Nat → Nat × Fl) (e : Env) (t : Nat) : Nat × Fl :=
  f (e.g.vreg o.a.toNat t) (e.g.vreg o.b.toNat t)

/-- Compact `lmul.ln8x4` (R97, R73). -/
def execLmulLn8x4Compact (o : CompactOp) (s : State) : Out :=
  lanewise (.lmulLn8x4Compact o) 2 (CompactOp.dest o) (CompactOp.log2 o (lmulW .ln8x4)) s
/-- Compact `lmul.ln4x8` (R97, R73). -/
def execLmulLn4x8Compact (o : CompactOp) (s : State) : Out :=
  lanewise (.lmulLn4x8Compact o) 2 (CompactOp.dest o) (CompactOp.log2 o (lmulW .ln4x8)) s

end Sys2Proof.Machine
end

