-- ==== Sys2Proof/Machine/Move.lean ====
section
/-!
DEFINITION. Data movement and the cross-lane instructions (R53, R60, R61, R190, R229, R230, R337, R340, R341, R345,
R346, R361, R362, R367, R371).
-/
namespace Sys2Proof.Machine

/-- `mov` (R340). -/
def execMov (o : VOp) (s : State) : Out := lanewise (.mov o) 2 o.dest (fun e t => (o.srcA e.g t, {})) s
/-- Compact `mov` (R97, R340). -/
def execMovCompact (o : CompactOp) (s : State) : Out :=
  lanewise (.movCompact o) 2 (CompactOp.dest o) (CompactOp.lane1 o fun x => x) s

/-- The value of a long immediate for a type (R341, R356): sign-extended to 64 bits. -/
def LiOp.imm (o : LiOp) : Nat := (o.imm32.signExtend 64).toNat

/-- `movi` (R341). -/
def execMovi (o : LiOp) (s : State) : Out :=
  lanewise (.movi o) 2 (destWrites .dflt o.dst (o.ty == .b64)) (fun _ _ => (LiOp.imm o, {})) s

/-- The index of `rdx` and `wrx` in a lane, read as i32. -/
def VOp.index (o : VOp) (g : Group) (t : Nat) : Int := toInt true 32 (g.src o.cb o.b false t)

/-- The lanes whose index lies outside the window (R60). -/
def VOp.badIndex (o : VOp) (e : Env) : LaneMask :=
  maskOf (e.lanes.filter fun t => VOp.index o e.g t < 0 || (o.len : Int) ≤ VOp.index o e.g t)

/-- The check of `rdx` and `wrx` (R60), before the effect. -/
def VOp.windowed (o : VOp) (e : Env) (eff : Eff) : Eff :=
  let bad := VOp.badIndex o e
  if bad != 0 then
    .trap 7 bad (BitVec.ofNat 64 (((lowest bad).map fun t => e.g.src o.cb o.b false t).getD 0))
  else eff

/-- The register that a lane's index chooses. -/
def VOp.chosen (o : VOp) (g : Group) (t : Nat) : Nat := o.a.toNat + (VOp.index o g t).toNat

/-- `rdx` (R60, R61, R230). -/
def execRdx (o : VOp) (s : State) : Out :=
  issue (.rdx o) .vector always (fun e s =>
    if s.poisonedIn e.gid e.lanes (opRegs o.cb o.b 1) then .trap 20 0 0
    else VOp.windowed o e
      (if e.lanes.any fun t => s.poison.contains (.vreg e.gid (VOp.chosen o e.g t) t) then .trap 20 0 0
       else .done (s.result e 3 (e.lanes.flatMap fun t => o.dest t (e.g.vreg (VOp.chosen o e.g t) t)) {}))) s

/-- `wrx` (R60, R61, R230): the dst field names the source. -/
def execWrx (o : VOp) (s : State) : Out :=
  issue (.wrx o) .vector always (fun e s =>
    VOp.windowed o e (.done (s.resultWindow e 3
      (e.lanes.map fun t => .lane false (VOp.chosen o e.g t) t (BitVec.ofNat 32 (e.g.src o.cd o.dst false t)))
      (o.a.toNat, o.len)))) s

/-- `vtos` (R53, R367): the lowest active thread's value, or zero. -/
def execVtos (o : VOp) (s : State) : Out :=
  issue (.vtos o) .vector always (fun e s =>
    let t? := lowest e.mask
    if s.poisonedIn e.gid t?.toList (opRegs o.ca o.a o.ty.regs) then .trap 20 0 0
    else
      let x := (t?.map fun t => e.g.src o.ca o.a o.is64 t).getD 0
      .done (s.result e 3 [.uni o.dst.toNat (extend o.ty.signed o.ty.width x)] {})) s

/-- `stov` (R53, R367). -/
def execStov (o : VOp) (s : State) : Out :=
  lanewise (.stov o) 2 o.dest (fun e _ => ((e.g.sreg o.a.toNat).toNat, {})) s

/-- The lane that `shfl` reads, and the element rotation (R362). -/
def VOp.shflLane (o : VOp) (g : Group) (t : Nat) : Nat := if o.sat then o.b.toNat else g.src o.cb o.b false t
def VOp.shflElem (o : VOp) (g : Group) (t : Nat) : Nat := if o.si then o.c.toNat else g.src o.cc o.c false t

def VOp.shflValue (o : VOp) (g : Group) (t : Nat) : Nat :=
  let s := VOp.shflLane o g t
  let j := VOp.shflElem o g t
  let n := o.ty.count
  if 32 ≤ s || n ≤ j then 0
  else
    let x := g.src o.ca o.a o.is64 s
    pack o.ty.width ((List.range n).map fun k => elem o.ty.width x ((j + k) % n))

/-- `shfl` (R361, R362). -/
def execShfl (o : VOp) (s : State) : Out :=
  issue (.shfl o) .vector always (fun e s =>
    let named := e.lanes.filter fun t => VOp.shflLane o e.g t < 32 && VOp.shflElem o e.g t < o.ty.count
    if s.poisonedIn e.gid e.lanes ((if o.sat then [] else opRegs o.cb o.b 1) ++ (if o.si then [] else opRegs o.cc o.c 1)) ||
        s.poisonedIn e.gid (named.map fun t => VOp.shflLane o e.g t) (opRegs o.ca o.a o.ty.regs) then .trap 20 0 0
    else .done (s.result e 6 (e.lanes.flatMap fun t => o.dest t (VOp.shflValue o e.g t)) {})) s

/-- The combinations of `redux` and `pfx` (R345). -/
def combine (g : Group) (op : Nat) (ty : ETy) (x y : Nat) : Nat × W32 :=
  if ty == .f32 then
    match op with
    | 0 => fadd1 fmt32 (g.roundMode 0) (g.ftz .f32) x y
    | 1 => fmin1 fmt32 (g.ftz .f32) x y
    | _ => fmax1 fmt32 (g.ftz .f32) x y
  else
    match op with
    | 0 => (wrap ty.width (ETy.num ty x + ETy.num ty y), 0)
    | 1 => (if ETy.num ty y < ETy.num ty x then y else x, 0)
    | 2 => (if ETy.num ty x < ETy.num ty y then y else x, 0)
    | 3 => (x &&& y, 0)
    | 4 => (x ||| y, 0)
    | _ => (x ^^^ y, 0)

/-- The identity of an operation (R345). -/
def identity (op : Nat) (ty : ETy) : Nat :=
  match op with
  | 1 => if ty == .f32 then fmt32.inf false else wrap ty.width (maxOf ty.signed ty.width)
  | 2 => if ty == .f32 then fmt32.inf true else wrap ty.width (minOf ty.signed ty.width)
  | 3 => 2 ^ ty.width - 1
  | _ => 0

/-- The fold of R346 over one element position: each lane's inclusive and exclusive result, and the flags. -/
def foldLanes (comb : Nat → Nat → Nat × W32) (ident : Nat) : List Nat → Option Nat → List (Nat × Nat) × W32
  | [], _ => ([], 0)
  | x :: r, acc =>
    let (v, e, f) := match acc with
      | none => (x, ident, 0)
      | some a => let c := comb a x; (c.1, a, c.2)
    let (rest, h) := foldLanes comb ident r (some v)
    ((v, e) :: rest, f ||| h)

/-- All element positions folded: for each, the results in ascending thread order. -/
def VOp.folds (o : VOp) (e : Env) : List (List (Nat × Nat) × W32) :=
  let op := o.xop.toNat
  (List.range o.ty.count).map fun k =>
    let xs := e.lanes.map fun t =>
      let x := elem o.ty.width (o.srcA e.g t) k
      if o.ty == .f32 then fmt32.flushSrc (e.g.ftz .f32) x else x
    foldLanes (combine e.g op o.ty) (identity op o.ty) xs none

def foldFlags (fs : List (List (Nat × Nat) × W32)) : Fl := { ff := fs.foldl (fun f r => f ||| r.2) 0 }

/-- `pfx` (R345, R346). -/
def execPfx (o : VOp) (s : State) : Out :=
  groupwise (.pfx o) .vector 6 (fun e =>
    let fs := VOp.folds o e
    let value (i : Nat) : Nat := pack o.ty.width (fs.map fun f =>
      let r := f.1.getD i (0, 0)
      if o.ex then r.2 else r.1)
    ((e.lanes.zipIdx.flatMap fun p => o.dest p.1 (value p.2)), foldFlags fs)) s

/-- `redux` (R345, R346): every active lane receives the last result. -/
def execRedux (o : VOp) (s : State) : Out :=
  groupwise (.redux o) .vector 6 (fun e =>
    let fs := VOp.folds o e
    let value := pack o.ty.width (fs.map fun f => (f.1.getLast?.map (·.1)).getD 0)
    (e.lanes.flatMap fun t => o.dest t value, foldFlags fs)) s

/-- The active lanes that hold a lane's key (R53, R337). -/
def VOp.sharers (o : VOp) (e : Env) (t : Nat) : LaneMask :=
  maskOf (e.lanes.filter fun u => e.g.src o.ca o.a o.is64 u == e.g.src o.ca o.a o.is64 t)

/-- `match` (R337). DESIGN CHOICE (106): the mask of `match.b64` goes to one 32-bit register too, and an odd
number is accepted for it. -/
def execMatchKeys (o : VOp) (s : State) : Out :=
  groupwise (.matchKeys o) .vector 6 (fun e =>
    (if o.sat then e.lanes.flatMap fun t => predWrite o.dst.toNat t (if VOp.sharers o e t == e.mask then 1 else 0)
     else e.lanes.flatMap fun t => destWrites o.cd o.dst false t (VOp.sharers o e t).toNat, {})) s

/-- `vote` (R53, R371). -/
def execVote (o : VOp) (s : State) : Out :=
  groupwise (.vote o) .vector 2 (fun e =>
    let ballot := e.mask &&& e.g.p.get o.a.toNat
    ([match o.mode.toNat with
      | 0 => .uni o.dst.toNat (ballot.setWidth 64)
      | 1 => .upred o.dst.toNat (ballot != 0)
      | _ => .upred o.dst.toNat (ballot == e.mask)], {})) s

/-- The non-zero elements of a value (R190). -/
def nonZero (ty : ETy) (x : Nat) : List Bool :=
  (elems ty x).map fun y => if floatTypes.contains ty then y % 2 ^ (ty.width - 1) != 0 else y != 0

def maskBits : List Bool → Nat
  | [] => 0
  | b :: r => (if b then 1 else 0) + 2 * maskBits r

/-- `nzscan` (R190): each lane's mask and the non-zero elements before it. -/
def scanLanes (f : Nat → List Bool) : List Nat → Nat → List (Nat × Nat × Nat) × Nat
  | [], cnt => ([], cnt)
  | t :: r, cnt =>
    let bs := f t
    let (rest, total) := scanLanes f r (cnt + (bs.filter fun b => b).length)
    ((t, cnt, maskBits bs) :: rest, total)

def execNzscan (o : VOp) (s : State) : Out :=
  groupwise (.nzscan o) .vector 8 (fun e =>
    let (rs, total) := scanLanes (fun t => nonZero o.ty (o.srcA e.g t)) e.lanes 0
    (rs.flatMap fun r => o.dest r.1 (total * 2 ^ 17 + r.2.1 * 2 ^ 8 + r.2.2), {})) s

end Sys2Proof.Machine
end

