-- ==== Sys2Proof/Machine/Sched.lean ====
section
/-!
DEFINITION. The scheduler (R18 to R21, R32, R34, R36, R192 to R198, R217, R225, R261, R265): packets and their checks,
the room on a core, placement, the start of a group, the freeing of a team and the completion of a launch.
-/
namespace Sys2Proof.Machine

/-! Packets (R193). -/

def pktField (p : BitVec 512) (lo n : Nat) : Nat := (p.extractLsb' lo n).toNat
def pktTYPE (p : BitVec 512) : Nat := pktField p 0 8
def pktPRIO (p : BitVec 512) : Nat := pktField p 8 2
def pktCOOP (p : BitVec 512) : Bool := p.getLsbD 10
def pktCHECK (p : BitVec 512) : Bool := p.getLsbD 11
def pktDET (p : BitVec 512) : Nat := pktField p 12 2
def pktHEAVY (p : BitVec 512) : Nat := pktField p 16 4
def pktCLH (p : BitVec 512) : Nat := pktField p 20 4
def pktCLW (p : BitVec 512) : Nat := pktField p 24 4
def pktGROUPS (p : BitVec 512) : Nat := pktField p 28 6
def pktNREG (p : BitVec 512) : Nat := pktField p 34 10
def pktSCRATCH (p : BitVec 512) : Nat := pktField p 44 9
def pktOBJ (p : BitVec 512) : Nat := pktField p 64 32
def pktENTRY (p : BitVec 512) : Nat := pktField p 96 32
def pktTX (p : BitVec 512) : Nat := pktField p 128 16
def pktTY (p : BitVec 512) : Nat := pktField p 144 16
def pktTZ (p : BitVec 512) : Nat := pktField p 160 16
def pktARGS (p : BitVec 512) : W64 := p.extractLsb' 192 64

/-- An event field: the event when V is 1. -/
def pktEvent (p : BitVec 512) (lo : Nat) : Option Nat :=
  if p.getLsbD (lo + 15) then some (pktField p lo 10) else none

def pktWaits (p : BitVec 512) : List Nat := [256, 272, 288, 304].filterMap (pktEvent p)

/-- A non-zero reserved field (R193, R196). -/
def pktReserved (p : BitVec 512) : Bool :=
  let eventBits (lo : Nat) : Bool := pktField p (lo + 10) 5 != 0
  match pktTYPE p with
  | 0 => pktField p 336 176 != 0 || pktField p 176 16 != 0 || pktField p 53 11 != 0 || pktField p 14 2 != 0 ||
      pktField p 244 12 != 0 || [256, 272, 288, 304, 320].any eventBits || pktDET p == 3
  | 1 => pktField p 320 192 != 0 || pktField p 8 248 != 0 || [256, 272, 288, 304].any eventBits
  | 2 => pktField p 336 176 != 0 || pktField p 9 311 != 0 || eventBits 320
  | 3 => pktField p 14 498 != 0 || pktField p 8 4 != 0 || pktDET p == 3
  | _ => true

/-! Kernel headers (R261). -/

def kernField (k : BitVec 256) (lo n : Nat) : Nat := (k.extractLsb' lo n).toNat
def kernENTRY (k : BitVec 256) : Nat := kernField k 32 32
def kernTEAM (k : BitVec 256) : Nat := kernField k 64 8
def kernHEAVY (k : BitVec 256) : Nat := kernField k 72 4
def kernDET (k : BitVec 256) : Nat := kernField k 76 2
def kernCHECK (k : BitVec 256) : Bool := k.getLsbD 78
def kernNREG (k : BitVec 256) : Nat := kernField k 80 10
def kernSCRATCH (k : BitVec 256) : Nat := kernField k 96 9

/-- The current translation of an object identifier in a context (R265, R266). -/
def State.current (s : State) (ctx id : Nat) : Option Translation :=
  s.objects.find? fun o => o.ctx == ctx && o.id == id && !o.superseded && !o.unloaded && !o.freed

/-- The kernel of an entry as a packet names it (R261, R270). -/
def Translation.kernel (o : Translation) (entry : Nat) : Option (BitVec 256) :=
  ((o.rawEntries.zip o.kernels).find? fun e => e.1 == entry).map (·.2)

/-- The translations reached from some through patched immediates and `.table` entries (R265). -/
def State.reached (s : State) : Nat → List Nat → List Nat
  | 0, l => l
  | n + 1, l =>
    let more := l ++ (s.objects.filter fun o => !o.freed && l.contains o.heapoff).flatMap (·.deps)
    s.reached n more.eraseDups

/-! Room (R16, R18, R19). -/

structure Room where
  regs0 : Nat
  regs1 : Nat
  slots0 : Nat
  slots1 : Nat
  scratch : Nat
  heavy : Nat
deriving DecidableEq, Repr

def Room.empty : Room := ⟨0, 0, 0, 0, 0, 0⟩

/-- What a team takes: its groups, NREG, scratch bytes and heavy allowance. -/
structure Need where
  groups : Nat
  nreg : Nat
  scratch : Nat
  heavy : Nat
deriving DecidableEq, Repr

/-- The groups of a team on the west and the east pipe of a core (R18); none on a core with no pipe. -/
def State.split (s : State) (core groups : Nat) : Option (Nat × Nat) :=
  match s.passes core 0 != 0, s.passes core 1 != 0 with
  | true, true => some ((groups + 1) / 2, groups / 2)
  | true, false => some (groups, 0)
  | false, true => some (0, groups)
  | false, false => none

/-- What the teams of a core take, but for some teams. A saved team keeps its slots and resources until its restore (R217).
DEDUCED (assumption 89). -/
def State.roomBut (s : State) (keys : List Nat) (core : Nat) : Room :=
  s.teams.foldl (fun r e =>
    let t := e.2
    if t.core != core || keys.contains e.1 then r
    else
      let slots := if t.residence == .saved then t.oldSlots else t.slots
      let n0 := (slots.filter fun x => pipeOf x.2 == 0).length
      let n1 := slots.length - n0
      { regs0 := r.regs0 + n0 * t.nreg * 128, regs1 := r.regs1 + n1 * t.nreg * 128, slots0 := r.slots0 + n0,
        slots1 := r.slots1 + n1, scratch := r.scratch + t.scratchSize, heavy := r.heavy + t.heavy }) Room.empty

def State.room (s : State) (core : Nat) : Room := s.roomBut [] core

def Room.add (r : Room) (n : Need) (n0 n1 : Nat) : Room :=
  { regs0 := r.regs0 + n0 * n.nreg * 128, regs1 := r.regs1 + n1 * n.nreg * 128, slots0 := r.slots0 + n0,
    slots1 := r.slots1 + n1, scratch := r.scratch + n.scratch, heavy := r.heavy + n.heavy }

def Room.ok (r : Room) : Bool :=
  r.regs0 ≤ 262144 && r.regs1 ≤ 262144 && r.slots0 ≤ 16 && r.slots1 ≤ 16 && r.scratch ≤ 2 ^ 20 && r.heavy ≤ 8

/-- The room of a core with a team added, where R19 allows it. -/
def State.fits (s : State) (r : Room) (n : Need) (core : Nat) : Option Room :=
  match s.split core n.groups with
  | none => none
  | some (a, b) => let r := r.add n a b; if r.ok then some r else none

/-! Placement (R3, R21, R32, R198, R247). -/

def State.partitionCores (s : State) : List Nat := s.partition.dies.flatMap fun d => (List.range 64).map fun i => 64 * d + i

/-- A die takes part in admission while its bit and its two stacks' bits are 1 (R247). DESIGN CHOICE (assumption 20). -/
def State.dieReady (s : State) (die : Nat) : Bool :=
  s.ctrl.ready.getLsbD (8 + die) && s.ctrl.ready.getLsbD (12 + 2 * die) && s.ctrl.ready.getLsbD (13 + 2 * die)

/-- Which dies and rooms a placement sees: those of the moment, or an idle partition (R36). -/
inductive View where
  | now | idle
deriving DecidableEq, Repr

def State.sees (s : State) (w : View) (die : Nat) : Bool := w == .idle || s.dieReady die
def State.startRoom (s : State) (w : View) (core : Nat) : Room := if w == .idle then Room.empty else s.room core

/-- The room of a core in a placement that has already placed some teams. -/
def State.viewRoom (s : State) (w : View) (done : List (Nat × Room)) (core : Nat) : Room :=
  match tfind done core with
  | some r => r
  | none => s.startRoom w core

/-- The cores of a cluster's rectangle, by TEAMINCL (R21). -/
def rectangle (origin w size : Nat) : List Nat := (List.range size).map fun t => origin + t / w * 8 + t % w

/-- Teams placed on given cores, one each. DEDUCED (assumption 41). -/
def State.fitAll (s : State) (w : View) (n : Need) : List Nat → List (Nat × Room) → Option (List (Nat × Room))
  | [], done => some done
  | c :: rest, done =>
    if !s.sees w (c / 64) then none
    else match s.fits (s.viewRoom w done c) n c with
      | none => none
      | some r => s.fitAll w n rest (tput done c r)

/-- The origins of a cluster shape in ascending die and then row-major logical order (R198). -/
def State.originsOf (s : State) (h w : Nat) : List Nat :=
  s.partition.dies.flatMap fun d => (List.range 64).filterMap fun i =>
    if i / 8 + h ≤ 8 && i % 8 + w ≤ 8 then some (64 * d + i) else none

/-- The cores of the next team of a launch, or of its next cluster whole: by first fit, by the first rectangle, or
canonically (R198). -/
def State.unitCores (s : State) (v : View) (x : Launch) (n : Need) (team : Nat) (done : List (Nat × Room)) : Option (List Nat) :=
  let size := x.clw * x.clh
  if 1 < size then
    ((s.originsOf x.clh x.clw).map fun o => rectangle o x.clw size).find? fun cs => (s.fitAll v n cs done).isSome
  else if x.det = 2 then
    let cores := s.partitionCores
    let c := cores.getD (team % 1024 % cores.length) 0
    if (s.fitAll v n [c] done).isSome then some [c] else none
  else (s.partitionCores.find? fun c => (s.fitAll v n [c] done).isSome).map fun c => [c]

/-- The cores of every team of a launch from one on, in units of a team or a cluster. -/
def State.allCores (s : State) (v : View) (x : Launch) (n : Need) : Nat → Nat → List (Nat × Room) → Option (List Nat)
  | 0, _, _ => some []
  | k + 1, team, done =>
    match s.unitCores v x n team done with
    | none => none
    | some cs => match s.fitAll v n cs done with
      | none => none
      | some done => (s.allCores v x n k (team + cs.length) done).map fun rest => cs ++ rest

def Launch.need (x : Launch) : Need := { groups := x.groups, nreg := x.nreg, scratch := x.scratch, heavy := x.heavy }
def Launch.unit (x : Launch) : Nat := x.clw * x.clh

/-- Whether every team of a co-operative launch fits (R36). -/
def State.coopFits (s : State) (v : View) (x : Launch) : Bool :=
  decide (x.grid ≤ 8192) && (s.allCores v x x.need (x.grid / x.unit) 0 []).isSome

/-! The start of a team (R19, R24, R32, R34, R119, R173, R225). -/

/-- The free slots of a pipe of a core. -/
def State.freeSlots (s : State) (core pipe : Nat) : List Gid :=
  (pipeSlots core pipe 0).filter fun g =>
    (s.group g).isNone && !(s.teams.any fun t => t.2.residence == .saved && t.2.oldSlots.any fun e => e.2 == g)

/-- The slots of a team's groups: odd groups east and even ones west, or all on the enabled pipe (R18). -/
def State.assign (s : State) (core groups : Nat) : List (Nat × Gid) :=
  let both := s.passes core 0 != 0 && s.passes core 1 != 0
  let pipe (g : Nat) : Nat := if both then g % 2 else if s.passes core 0 != 0 then 0 else 1
  let free (p : Nat) : List Gid := s.freeSlots core p
  (List.range groups).map fun g => (g, (free (pipe g)).getD (if both then g / 2 else g) 0)

/-- DBGMBOX of a group (R225). -/
def State.mailbox (s : State) (x : Launch) (ctx teamix groupix : Nat) : W64 :=
  if x.debug = 0 || !s.descDbg ctx then 0
  else (x.debug + BitVec.ofNat 64 (256 * (teamix * x.groups + groupix))) &&& 0x000FFFFFFFFFFF00

/-- A group at its start (R34). -/
def startGroup (x : Launch) (team teamix groupix : Nat) (dbg : W64) : Group :=
  { team, ctx := x.ctx, groupix, nreg := x.nreg,
    v := lanes.foldl (fun v t => v.set t (BitVec.ofNat 32 (groupix * 32 + t))) []
    s := ([(0, x.args), (1, BitVec.ofNat 64 teamix), (2, BitVec.ofNat 64 x.grid), (3, BitVec.ofNat 64 groupix)] : List (Nat × W64)).foldl
      (fun m e => Sparse.set m e.1 e.2) []
    wl := lanes.foldl (fun w t => w.set t x.entry) []
    cursor := x.entry
    dbgmbox := dbg }

/-- The key of a team: its launch and its linear index. -/
def teamKey (l i : Nat) : Nat := l * 2 ^ 22 + i

/-- A team starts on a core; each of its groups runs its first census (R41). -/
def State.startTeam (s : State) (l : Nat) (core : Nat) : State :=
  let x := s.launchOf l
  let i := x.nextTeam
  let key := teamKey l i
  let slots := s.assign core x.groups
  let t : Team :=
    { launch := l, ctx := x.ctx, teamix := i, core, groups := x.groups, nreg := x.nreg, scratchSize := x.scratch,
      heavy := x.heavy, vcore := i % 1024, clusterix := i / x.unit, teamincl := i % x.unit, slots }
  let s : State := { s with teams := tput s.teams key t }
  let s := slots.foldl (fun s e => s.putGroup e.2 (startGroup x key i e.1 (s.mailbox x x.ctx i e.1))) s
  let s := s.modLaunch l fun x => { x with
    nextTeam := i + 1
    origins := if i % x.unit = 0 && 1 < x.unit then x.origins ++ [(i / x.unit, core)] else x.origins }
  slots.foldl (fun s e => s.census e.2) s

def State.popHead (s : State) (q : Nat) : State := s.modQueue q fun x => { x with packets := x.packets.tail }

/-- A launch all of whose teams have started leaves the head of its queue (R196). -/
def State.startTeams (s : State) (l : Nat) (cores : List Nat) : State :=
  let s := cores.foldl (fun s c => s.startTeam l c) s
  let x := s.launchOf l
  if x.grid ≤ x.nextTeam then (s.modLaunch l fun x => { x with phase := .running }).popHead x.queue else s

/-! Admission (R194 to R196). -/

/-- A rejection is recorded, the packet's event set, and the queue goes on (R195, R196). -/
def State.reject (s : State) (q code : Nat) : State :=
  let x := s.queue q
  let s := match x.ctx, x.packets with
    | some c, p :: _ => s.setSigev c (packetSigev p)
    | _, _ => s
  (((s.modQueue q fun x => { x with reason := code, packets := x.packets.tail }).interrupt 4).msi (4 + q))

/-- The launch that a packet asks for (R194). -/
def launchFor (ctx q : Nat) (x : Queue) (p : BitVec 512) (o : Translation) (k : BitVec 256) : Launch :=
  let pick (f h : Nat) : Nat := if f = 0 then h else f
  { ctx, queue := q, obj := o.heapoff, entry := BitVec.ofNat 32 (o.heapoff + kernENTRY k), groups := kernTEAM k,
    nreg := pick (pktNREG p) (kernNREG k), scratch := 4096 * pick (pktSCRATCH p) (kernSCRATCH k),
    heavy := pick (pktHEAVY p) (kernHEAVY k), det := max (max (kernDET k) (pktDET p)) x.level,
    check := kernCHECK k || pktCHECK p, coop := pktCOOP p, prio := min (pktPRIO p) x.prio,
    grid := pktTX p * pktTY p * pktTZ p, clw := pktCLW p, clh := pktCLH p, args := pktARGS p,
    sigev := packetSigev p, debug := x.debug }

/-- Whether a field below the header's value is asked for (R194, reason 2). -/
def belowHeader (p : BitVec 512) (k : BitVec 256) : Bool :=
  (pktNREG p != 0 && pktNREG p < kernNREG k) || (pktSCRATCH p != 0 && pktSCRATCH p < kernSCRATCH k) ||
  (pktHEAVY p != 0 && pktHEAVY p < kernHEAVY k)

/-- Limits of R19 and R20 (reason 3). A header whose TEAM is 0, below the 1 group of R15, is named by no reason: such a launch
is admitted, and its teams have no groups; one whose HEAVY is 0, below the 1 tile of R261, too, and its teams have no tiles.
DESIGN CHOICE (assumption 82). -/
def State.breaksLimits (s : State) (x : Launch) : Bool :=
  x.nreg % 16 != 0 || x.nreg < 16 || 512 < x.nreg || 2 ^ 20 < x.scratch || 8 < x.heavy ||
  !(s.partitionCores.any fun c => (s.fits Room.empty x.need c).isSome)

/-- Limits of R19 and R20 that a packet's own fields break, whatever header its kernel has: a field of 0 takes the header's
value, and counts here as the least that a header may have (reason 3). -/
def State.packetBreaks (s : State) (p : BitVec 512) : Bool :=
  let pick (f least : Nat) : Nat := if f = 0 then least else f
  s.breaksLimits { groups := pick (pktGROUPS p) 1, nreg := pick (pktNREG p) 16, scratch := 4096 * pktSCRATCH p, heavy := pktHEAVY p }

/-- The cluster shape (R21, reason 4). -/
def breaksShape (x : Launch) : Bool :=
  x.clw < 1 || 8 < x.clw || x.clh < 1 || 8 < x.clh || 12 < x.unit || x.grid % x.unit != 0

/-- The lowest reason for which a LAUNCH packet is rejected (R195). -/
def State.rejection (s : State) (ctx q : Nat) (x : Queue) (p : BitVec 512) : Option Nat :=
  let acc := s.ctrl.featacc
  let obj := s.current ctx (pktOBJ p)
  let kern := obj.bind fun o => (o.kernel (pktENTRY p)).map fun k => (o, k)
  let grid := pktTX p * pktTY p * pktTZ p
  let w := kern.map fun ok => launchFor ctx q x p ok.1 ok.2
  let det := match w with
    | some l => l.det
    | none => max (pktDET p) x.level
  let check := match w with
    | some l => l.check
    | none => pktCHECK p
  let size := pktCLW p * pktCLH p
  let shape : Launch := { clw := pktCLW p, clh := pktCLH p, grid }
  let tests : List (Nat × Bool) :=
    [(1, (kern.map fun ok => pktGROUPS p != 0 && pktGROUPS p != kernTEAM ok.2).getD false),
     (2, (kern.map fun ok => belowHeader p ok.2).getD false),
     (3, (w.map s.breaksLimits).getD (s.packetBreaks p)),
     (4, breaksShape shape),
     (5, grid == 0 || 2 ^ 22 < grid),
     (6, obj.isNone),
     (7, obj.isSome && kern.isNone),
     (8, pktReserved p),
     (9, (det == 2 && !acc.getLsbD 2) || (check && !acc.getLsbD 6) ||
        (obj.map fun o => (o.requires.getLsbD 0 && !acc.getLsbD 0) || (o.requires.getLsbD 1 && !acc.getLsbD 1)).getD false),
     (10, det == 2 && 1 < size)]
  match tests.find? (·.2) with
  | some t => some t.1
  | none => match w with
    | some l => if l.coop && !s.coopFits .idle l then some 11 else none
    | none => none

/-- A launch is admitted: its translations are bound (R265), its figures fixed, and its mailboxes mapped (R225). -/
def State.admitLaunch (s : State) (x : Launch) : State :=
  let bound := s.reached s.objects.length [x.obj]
  let l := s.nextLaunch
  let more (o : Translation) : Translation := if bound.contains o.heapoff && !o.freed then { o with bound := o.bound + 1 } else o
  let s := ({ s with
    launches := tput s.launches l { x with bound }
    nextLaunch := l + 1
    objects := s.objects.map more } : State).writeHandover
  let s := if x.det = 0 then s else s.reserveSpill x.ctx
  if x.debug = 0 then s else s.mapMailbox x.ctx (BitVec.toNat x.debug) (256 * x.grid * x.groups)

def State.eventsSet (s : State) (ctx : Nat) (es : List Nat) : Bool := es.all fun e => (s.ctx ctx).events.contains e

/-- The launch of a queue's head that is placing its teams. -/
def State.placing (s : State) (q : Nat) : Option Nat :=
  (s.launches.find? fun e => e.2.queue == q && e.2.phase == .placing).map (·.1)

/-- The head packet of a bound queue, with the context. -/
def State.head (s : State) (q : Nat) : Option (Nat × BitVec 512) :=
  match (s.queue q).ctx, (s.queue q).packets with
  | some c, p :: _ => some (c, p)
  | _, _ => none

/-- The launch that a LAUNCH packet asks for, by the current translation of its object. -/
def State.asked (s : State) (ctx q : Nat) (p : BitVec 512) : Option Launch :=
  ((s.current ctx (pktOBJ p)).bind fun o => (o.kernel (pktENTRY p)).map fun k => (o, k)).map fun ok =>
    launchFor ctx q (s.queue q) p ok.1 ok.2

/-- Whether a LAUNCH packet at the head of a queue is ready to be admitted (R196, R214, R248). -/
def State.launchReady (s : State) (ctx : Nat) (p : BitVec 512) : Bool :=
  s.ctrl.featWritten && !(s.ctx ctx).preempted && s.eventsSet ctx (pktWaits p)

/-! The order of the queues' heads (R198). -/

/-- The next place of a launch that is placing: the cores of its next team or cluster. -/
def State.nextCores (s : State) (l : Nat) : Option (List Nat) :=
  let x := s.launchOf l
  if s.descValid x.ctx then s.unitCores .now x x.need x.nextTeam [] else none

/-- What the scheduler finds at a queue's head: nothing to place; a launch that can place its next team; a co-operative one
that fits, with the cores of all its teams; or one that blocks the queues of lower priority. -/
inductive HeadState where
  | idle
  | place (l : Nat) (cores : List Nat)
  | begins (x : Launch) (cores : List Nat)
  | blocks
deriving DecidableEq, Repr

def State.headState (s : State) (q : Nat) : HeadState :=
  match s.head q with
  | none => .idle
  | some (ctx, p) =>
    if pktTYPE p != 0 || (s.ctx ctx).preempted then .idle
    else match s.placing q with
      | some l => match s.nextCores l with
        | some cs => .place l cs
        | none => .blocks
      | none =>
        if !s.launchReady ctx p then .idle
        else match s.asked ctx q p with
          | some x =>
            if x.coop && (s.rejection ctx q (s.queue q) p).isNone && s.descValid ctx then
              if s.coopFits .now x then .begins x ((s.allCores .now x x.need (x.grid / x.unit) 0 []).getD []) else .blocks
            else .blocks
          | none => .blocks

/-- The priority of a queue's head (R198). -/
def State.headPrio (s : State) (q : Nat) : Nat :=
  match s.head q with
  | some (_, p) => if pktTYPE p = 0 then min (pktPRIO p) (s.queue q).prio else (s.queue q).prio
  | none => 0

/-- Whether a head of higher priority blocks a queue: nothing at its head acts meanwhile (R198). -/
def State.held (s : State) (q : Nat) : Bool :=
  (List.range 16).any fun r => decide (s.headPrio q < s.headPrio r) && s.headState r == .blocks

/-- The queues of a priority, starting after the one it served last. -/
def State.turnOrder (s : State) (prio : Nat) : List Nat :=
  let last := tget s.lastServed prio 15
  ((List.range 16).map fun i => (last + 1 + i) % 16).filter fun q => s.headPrio q == prio

/-- The queue that a scheduling opportunity serves, over the priorities from the highest down. -/
def State.chosenQueue (s : State) : List Nat → Option Nat
  | [] => none
  | prio :: lower =>
    let qs := s.turnOrder prio
    let acts (q : Nat) : Bool := match s.headState q with
      | .place _ _ => true
      | .begins _ _ => true
      | _ => false
    match qs.find? acts with
    | some q => some q
    | none => if qs.any fun q => s.headState q == .blocks then none else s.chosenQueue lower

/-- A queue is served: the next team of its launch, or every team of a co-operative one, starts (R36, R198). -/
def State.serve (s : State) (q : Nat) : State :=
  let t : State := { s with lastServed := tput s.lastServed (s.headPrio q) q }
  match s.headState q with
  | .place l cs => t.startTeams l cs
  | .begins x cs => (t.admitLaunch x).startTeams s.nextLaunch cs
  | _ => s

/-- One scheduling opportunity (R198). -/
def State.schedule (s : State) : State :=
  match s.chosenQueue [3, 2, 1, 0] with
  | some q => s.serve q
  | none => s

/-- LAUNCH at the head of a queue (R194, R196, R198). A reserved TYPE is rejected wherever it is met. A co-operative launch is
admitted as its queue's turn comes, with all its teams. -/
def State.launchHead (s : State) (q : Nat) : State :=
  match s.head q with
  | none => s
  | some (ctx, p) =>
    if s.held q then s
    else if 4 ≤ pktTYPE p then s.reject q 8
    else if pktTYPE p != 0 || (s.placing q).isSome || !s.launchReady ctx p then s
    else
      match s.rejection ctx q (s.queue q) p with
      | some code => s.reject q code
      | none =>
        match s.asked ctx q p with
        | none => s
        | some x =>
          if !x.coop then s.admitLaunch x
          else if s.chosenQueue [3, 2, 1, 0] == some q then s.serve q
          else s

/-- LAUNCH (R196). -/
def execLaunch (q : Nat) (s : State) : Out := .next (s.launchHead q)

/-- A packet of a type at the head of a queue, checked (R196), unless a head of higher priority blocks the queue (R198). -/
def State.packet (s : State) (q type : Nat) (go : Nat → BitVec 512 → State) : State :=
  match s.head q with
  | none => s
  | some (ctx, p) =>
    if s.held q || pktTYPE p != type then s else if pktReserved p then s.reject q 8 else go ctx p

/-- WAITEV (R196). -/
def execWaitev (q : Nat) (s : State) : Out :=
  .next (s.packet q 1 fun ctx p => if s.eventsSet ctx (pktWaits p) then s.popHead q else s)

/-- SIGNAL (R196): after every earlier LAUNCH of the queue has completed. -/
def execSignal (q : Nat) (s : State) : Out :=
  .next (s.packet q 2 fun ctx p =>
    if s.launches.any fun e => e.2.queue == q && e.2.ctx == ctx && (e.2.phase == .placing || e.2.phase == .running) then s
    else
      let s := match packetSigev p with
        | none => s
        | some e => if p.getLsbD 8 then s.modCtx ctx fun c => { c with events := c.events.filter (· != e) } else s.setEvent ctx e
      s.popHead q)

/-- SETDET (R196, R197). -/
def execSetdet (q : Nat) (s : State) : Out :=
  .next (s.packet q 3 fun _ p => (s.modQueue q fun x => { x with level := pktDET p }).popHead q)

/-! The end of a team and of a launch (R22, R130, R196, R217, R293). -/

/-- A pre-emption is complete once no team of its context is resident (R214, R254). -/
def State.preemptCheck (s : State) : State :=
  let c := s.ctrl
  if (c.preState == 1 || c.preState == 2) && !(s.teams.any fun e => e.2.ctx == c.preCtx && e.2.residence != .saved) then
    (s.modCtrl fun c => { c with preState := 3 }).interrupt 3
  else s

/-- A team whose groups have all retired and whose operations have all retired (R217). -/
def State.teamDone (s : State) (key : Nat) (t : Team) : Bool :=
  t.residence != .saved && t.hod.isEmpty && t.bank.isEmpty && t.engine.isEmpty && !s.windowWrites key &&
  t.slots.all fun e => match s.group e.2 with
    | some g => g.status == .retired && g.ops.isEmpty && g.stq.isEmpty && g.await.isEmpty &&
        !((s.core t.core).flight.any fun f => f.gid == e.2)
    | none => true

/-- TEAM_FREE: its slot and resources are freed; a member leaves its sharing group first, with the accesses to its window
performed; a put that met an error kills the context, and its report names the group's last instruction, or its last trailer
(R22, R130, R217). DESIGN CHOICE (assumption 83). -/
def State.freeTeam (s : State) (key : Nat) : State :=
  match tfind s.teams key with
  | none => s
  | some t =>
    if !s.teamDone key t then s
    else
      let bad := t.slots.findSome? fun e => (s.group e.2).bind fun g => g.putErr.map fun va => (e.2, g, va)
      match bad with
      | some (gid, g, va) => s.killFor gid g 2 ((g.visit.map (·.lastPc)).getD g.lastTrailer) va
      | none =>
        let s := if t.member then s.windowAccesses key else s
        if t.member && s.windowBusy key then s
        else
        let gone := t.slots.map (·.2)
        let mates := (s.clusterTeams t).filter fun e => e.1 != key
        let s : State := { s with
          groups := s.groups.filter fun e => !gone.contains e.1
          teams := tdel s.teams key
          poison := s.poison.filter fun p => match p with
            | .vreg g _ _ => !gone.contains g
            | .ureg g _ => !gone.contains g
            | .scratch u _ => u != key
            | .tile u _ => u != key
            | _ => true }
        let s := s.modLaunch t.launch fun x => { x with freed := x.freed + 1 }
        let s := match mates.head? with
          | some m => s.cbarCheck m.1
          | none => s
        s.preemptCheck

/-- TEAM_FREE (R217). -/
def execTeamFree (team : Nat) (s : State) : Out := .next (s.freeTeam team)

/-- LAUNCH_COMPLETE (R196): every team freed, and at D1 and D2 the final drain done. -/
def execLaunchComplete (launch : Nat) (s : State) : Out :=
  .next (match tfind s.launches launch with
    | none => s
    | some x =>
      if x.phase == .running && decide (x.grid ≤ x.freed) && x.red.isEmpty then s.endLaunch launch .complete else s)

end Sys2Proof.Machine
end

