-- ==== Sys2Proof/Machine/Objects.lean ====
section
/-!
DEFINITION. Objects as they stand in a section (R45, R101, R260 to R263, R267 to R270): the header and its tables, the code of a
course as placed, and the check and the parts of a Galbel object.
-/
namespace Sys2Proof.Machine

/-! The object header (R260). -/

def u16 (b : List Byte) (off : Nat) : Nat := natOfBytes ((b.drop off).take 2)
def u32 (b : List Byte) (off : Nat) : Nat := natOfBytes ((b.drop off).take 4)
def u8 (b : List Byte) (off : Nat) : Nat := (b.getD off 0).toNat

def objMAGIC (b : List Byte) : Nat := u32 b 0
def objVERSION (b : List Byte) : Nat := u16 b 4
def objKIND (b : List Byte) : Nat := u8 b 6
def objREQUIRES (b : List Byte) : BitVec 8 := b.getD 7 0
def objNAME (b : List Byte) : Nat := u32 b 8
def objCODESIZE (b : List Byte) : Nat := u32 b 12
def objDATASIZE (b : List Byte) : Nat := u32 b 16
def objMAPOFF (b : List Byte) : Nat := u32 b 20
def objMAPSIZE (b : List Byte) : Nat := u32 b 24
def objSTROFF (b : List Byte) : Nat := u32 b 28
def objSTRSIZE (b : List Byte) : Nat := u32 b 32
def objKERNOFF (b : List Byte) : Nat := u32 b 36
def objKERNCNT (b : List Byte) : Nat := u16 b 40
def objSYMOFF (b : List Byte) : Nat := u32 b 44
def objSYMCNT (b : List Byte) : Nat := u32 b 48
def objRELOFF (b : List Byte) : Nat := u32 b 52
def objRELCNT (b : List Byte) : Nat := u32 b 56
def objIMPOFF (b : List Byte) : Nat := u32 b 60
def objIMPCNT (b : List Byte) : Nat := u32 b 64

/-- The bytes that are placed: the code and the data section. -/
def objSize (b : List Byte) : Nat := objCODESIZE b + objDATASIZE b

def allZero (b : List Byte) (off n : Nat) : Bool := ((b.drop off).take n).all (· == 0)

/-- The entries of a table, each of n bytes. -/
def entries (b : List Byte) (off n cnt : Nat) : List (List Byte) := (List.range cnt).map fun i => (b.drop (off + n * i)).take n

def kernelEntries (b : List Byte) : List (List Byte) := entries b (objKERNOFF b) 32 (objKERNCNT b)
def symbolEntries (b : List Byte) : List (List Byte) := entries b (objSYMOFF b) 16 (objSYMCNT b)
def relocEntries (b : List Byte) : List (List Byte) := entries b (objRELOFF b) 8 (objRELCNT b)
def importEntries (b : List Byte) : List (List Byte) := entries b (objIMPOFF b) 16 (objIMPCNT b)

/-- A name of the string table (R262). -/
def objString (b : List Byte) (off : Nat) : List Byte :=
  (((b.drop (objSTROFF b)).take (objSTRSIZE b)).drop off).takeWhile (· != 0)

/-- The 255-bit zero fields of a kernel entry (R261). -/
def kernelZero (k : BitVec 256) : Bool := kernField k 105 151 == 0 && kernField k 90 6 == 0

def kernelOf (e : List Byte) : BitVec 256 := BitVec.ofNat 256 (natOfBytes e)

/-- The form of an object (R260): EINVAL when it fails. -/
def objectForm (b : List Byte) : Bool :=
  let n := b.length
  decide (128 ≤ n) && objMAGIC b == 0x4F424A53 && objVERSION b == 1 && (objKIND b == 2 || objKIND b == 3) &&
  allZero b 42 2 && allZero b 68 60 && (objREQUIRES b).extractLsb' 4 4 == 0 &&
  objCODESIZE b % (if objKIND b = 2 then 16 else 12) == 0 && decide (1 ≤ objKERNCNT b) &&
  decide (128 + objSize b ≤ n) && decide (objMAPOFF b + objMAPSIZE b ≤ n) && decide (objSTROFF b + objSTRSIZE b ≤ n) &&
  decide (objKERNOFF b + 32 * objKERNCNT b ≤ n) && decide (objSYMOFF b + 16 * objSYMCNT b ≤ n) &&
  decide (objRELOFF b + 8 * objRELCNT b ≤ n) && decide (objIMPOFF b + 16 * objIMPCNT b ≤ n) &&
  (kernelEntries b).all (fun e => kernelZero (kernelOf e)) && (symbolEntries b).all (fun e => allZero e 9 7) &&
  (relocEntries b).all (fun e => allZero e 5 3) && (importEntries b).all (fun e => allZero e 5 3)

/-- A feature that the object requires and FEATACC does not hold (R248, R260): ENOSYS. -/
def missingFeature (b : List Byte) (acc : W64) : Bool :=
  let r := objREQUIRES b
  (r.getLsbD 0 && !acc.getLsbD 0) || (r.getLsbD 1 && !acc.getLsbD 1) || (r.getLsbD 2 && !acc.getLsbD 2) ||
  (r.getLsbD 3 && !acc.getLsbD 6) || (objKIND b == 3 && !acc.getLsbD 5)

/-- The bytes to be placed, by object offset. -/
def objectBytes (b : List Byte) : Memory := Memory.writeBytes [] 0 ((b.drop 128).take (objSize b))

/-- The units of the target map that are marked (R262). -/
def mapBits (b : List Byte) (units : Nat) : List Nat :=
  let m := (b.drop (objMAPOFF b)).take (objMAPSIZE b)
  (List.range units).filter fun i => (m.getD (i / 8) 0).getLsbD (i % 8)

/-- The course starts of a native object (R45, R262). -/
def courseStarts (b : List Byte) : List Nat := (mapBits b (objCODESIZE b / 16)).map (16 * ·)

/-! Code as placed. -/

/-- The bytes of the instruction at an offset. -/
def placedInstr (m : Memory) (off : Nat) : List Byte := Memory.readBytes m off (lengthOf (m.get off))

/-- An instruction as placed: its internal word, and what it decodes to, if its encoding is legal (R86, R103). -/
structure Placed where
  word : IWord
  instr : Option Instr
deriving DecidableEq, Repr

/-- What stands at an offset, and its length; none for a malformed encoding (R102). -/
def placedAt (m : Memory) (off : Nat) : Option (Placed × Nat) :=
  let bs := placedInstr m off
  match decode bs with
  | .ok (i, len) => i.iword.map fun w => (⟨w, some i⟩, len)
  | .error (.illegal len) => (wordAt bs).map fun w => (⟨w, none⟩, len)
  | .error _ => none

/-- The instructions of a course from an offset on, looking at most n ahead, and the offset of its trailer. -/
def placedCourse (m : Memory) (off : Nat) : Nat → List Placed × Option Nat
  | 0 => ([], none)
  | n + 1 =>
    match placedAt m off with
    | none => ([], none)
    | some (p, len) =>
      if p.word.last then ([p], some (off + len))
      else
        let r := placedCourse m (off + len) n
        (p :: r.1, r.2)

/-- The signature of a course (R101). -/
def signature (ps : List Placed) : W16 := ps.foldl (fun acc p => foldWord acc p.word) 0xFFFF
/-- The immediate of a want-family instruction (R44, R88). -/
def wantImmediate : Instr → Option W32
  | .want o => some o.imm32
  | .call o => some o.imm32
  | .park o => some o.imm32
  | .rejoin o => some o.imm32
  | .region o => some o.imm32
  | _ => none

/-! The check of a Galbel object (R267, R269). -/

/-- Where an instruction may stand (R269). -/
inductive Standing where
  | both | outside | inside | never
deriving DecidableEq, Repr

def standing : Instr → Standing
  | .sadd _ | .ssub _ | .smul _ | .sand _ | .sor _ | .sxor _ | .sshl _ | .sshr _ | .scmp _ | .ssel _ | .smovi _ | .slea _ | .sld _ => .outside
  | .sst _ => .both
  | .abs _ | .add _ | .sub _ | .mul _ | .mulhi _ | .mad _ | .min _ | .max _ | .and _ | .or _ | .xor _ | .not _ | .shl _ | .shr _
  | .sar _ | .fsl _ | .fsr _ | .bfx _ | .bfi _ | .popc _ | .clz _ | .brev _ | .cmp _ | .sel _ | .lea _ | .idot _ => .inside
  | .fadd _ | .fsub _ | .fmul _ | .ffma _ | .fmin _ | .fmax _ | .fcmp _ | .fcvt _ | .frcp _ | .frsq _ | .fex2 _ | .flg2 _
  | .fsin _ | .fcos _ | .lmul _ | .ldiv _ | .lscl _ | .lcvt _ | .lqnt _ | .ldot _ => .inside
  | .mov _ | .movi _ | .rdx _ | .wrx _ => .inside
  | .ld _ | .ldv _ | .lds _ | .ldb _ | .st _ | .stv _ | .sts _ | .stb _ | .bop _ | .atom _ | .cas _ | .red _ => .inside
  | .want _ | .wantr _ | .call _ | .callr _ | .ret _ | .bar _ => .both
  | .exit _ | .kick _ | .barinit _ | .waitb _ | .waitc _ | .fence _ => .outside
  | .sleep _ | .time _ | .trap _ => .outside
  | _ => .never

/-- Class code 3 in an instruction (R89, R95). -/
def usesTemporaries (i : Instr) : Bool :=
  (i.names.reads ++ i.names.writes).any fun r => match r with
    | .k _ => true
    | _ => false

/-- The want family outside a region takes a uniform guard only (R269). -/
def wantFamily : Instr → Bool
  | .want _ | .wantr _ | .call _ | .callr _ | .ret _ => true
  | _ => false

def perLane : Guard → Bool
  | .on .p _ _ => true
  | _ => false

/-- The region that each 12-byte instruction lies in, by the index of its `pfor`; or the index of a `pfor` inside a region, of
a `pend` outside one, or of a `pfor` without its `pend` (R269). -/
def regionMap : List Instr → Nat → Option Nat → Except Nat (List (Option Nat))
  | [], _, some open_ => .error open_
  | [], _, none => .ok []
  | i :: rest, ix, cur =>
    match i, cur with
    | .pfor _, some _ => .error ix
    | .pfor _, none => (regionMap rest (ix + 1) (some ix)).map fun l => none :: l
    | .pend _, some _ => (regionMap rest (ix + 1) none).map fun l => none :: l
    | .pend _, none => .error ix
    | _, cur => (regionMap rest (ix + 1) cur).map fun l => cur :: l

/-- Whether an instruction at an index of a Galbel object keeps R267 and R269. -/
def galbelOk (labels : List Nat) (regions : List (Option Nat)) (ix : Nat) (i : Instr) : Bool :=
  let reg := regions.getD ix none
  let shape := (i.hdr.map fun h => h.form == .twelve && h.stall == 0 && !h.last).getD false && !usesTemporaries i
  let place := match i with
    | .pfor _ | .pend _ => true
    | _ => match standing i, reg with
      | .both, _ => true
      | .outside, none => true
      | .inside, some _ => true
      | _, _ => false
  let guard := !(wantFamily i && reg.isNone && perLane i.guard)
  let target := match wantImmediate i with
    | none => true
    | some imm => imm.toNat % 12 == 0 && labels.contains (imm.toNat / 12) && (reg.isNone || regions.getD (imm.toNat / 12) none == reg)
  shape && place && guard && target

/-- The instruction at an index of a Galbel object, if it has the twelve-byte form. -/
def galbelAt (b : List Byte) (ix : Nat) : Option Instr :=
  match decode (Memory.readBytes (objectBytes b) (12 * ix) 12) with
  | .ok (x, 12) => some x
  | _ => none

/-- The instructions of a Galbel object. -/
def galbelCode (b : List Byte) : List Instr := (List.range (objCODESIZE b / 12)).filterMap (galbelAt b)

/-- An offset that names no instruction's start. -/
def noStart (b : List Byte) (off : Nat) : Bool := off % 12 != 0 || decide (objCODESIZE b ≤ off)

/-- A label or an entry of a Galbel object that names no instruction's start; it holds no course label (R262, R267). -/
def badLabel (b : List Byte) : Option Nat :=
  match (symbolEntries b).find? fun e => u8 e 8 == 1 || (u8 e 8 == 3 && noStart b (u32 e 4)) with
  | some e => some (u32 e 4)
  | none => ((kernelEntries b).find? fun e => noStart b (kernENTRY (kernelOf e))).map fun e => kernENTRY (kernelOf e)

/-- The byte offset at which a Galbel object breaks R267 or R269: its first instruction that is none, stands out of place or is
not as they ask, or else a label. DESIGN CHOICE (assumption 17). -/
def galbelFault (b : List Byte) : Option Nat :=
  let n := objCODESIZE b / 12
  match (List.range n).find? fun i => (galbelAt b i).isNone with
  | some i => some (12 * i)
  | none =>
    match regionMap (galbelCode b) 0 none with
    | .error ix => some (12 * ix)
    | .ok regs => match (galbelCode b).zipIdx.find? fun e => !galbelOk (mapBits b n) regs e.2 e.1 with
      | some e => some (12 * e.2)
      | none => badLabel b

/-! The translation of a Galbel object (R268 to R271). -/

/-- A region's code split at its `bar` instructions (R269, R270). -/
def splitBars (code : List (Nat × Instr)) : List (List (Nat × Instr)) :=
  let r := code.foldl (fun (acc : List (List (Nat × Instr)) × List (Nat × Instr)) e => match e.2 with
    | .bar _ => (acc.1 ++ [acc.2], [])
    | _ => (acc.1, acc.2 ++ [e])) ([], [])
  r.1 ++ [r.2]

/-- What has been taken apart so far: the parts, the code since the last of them, and the `pfor` that is open. -/
structure Parting where
  parts : List GalbelPart := []
  code : List (Nat × Instr) := []
  opened : Option (Nat × POp) := none

/-- One more instruction. -/
def Parting.add (p : Parting) (e : Nat × Instr) : Parting :=
  match e.2, p.opened with
  | .pfor o, none => { parts := p.parts ++ (if p.code.isEmpty then [] else [.team p.code]), opened := some (e.1, o) }
  | .pend _, some (start, o) => { parts := p.parts ++ [.region start o.dst o.a (splitBars p.code)] }
  | _, _ => { p with code := p.code ++ [e] }

/-- The parts of a Galbel object (R269, R270). -/
def galbelParts (b : List Byte) : List GalbelPart :=
  let p := ((galbelCode b).zipIdx.map fun e => (12 * e.2, e.1)).foldl Parting.add {}
  p.parts ++ (if p.code.isEmpty then [] else [.team p.code])

/-- The mapping of a region of n logical threads on a team of G groups, for an object of NREG registers (R270). -/
def mappingOf (groups nreg n : Nat) : Mapping :=
  let each := (n + 32 * groups - 1) / (32 * groups)
  if n ≤ 32 * groups then .lanes else if each ≤ 8 && each * nreg ≤ 512 then .coarse each else .serial

end Sys2Proof.Machine
end

