-- ==== Sys2Proof/Machine/Uniform.lean ====
section
/-!
DEFINITION. The uniform instructions (R59, R352 to R357) and their compact forms (R97).
-/
namespace Sys2Proof.Machine

/-- A uniform arithmetic result of a type from exact operands (R353): 64 bits whole, or 32 bits clamped and extended. -/
def uniArith (sat : Bool) (ty : ETy) (f : Int → Int → Int) (x y : W64) : W64 :=
  if ty == .b64 then BitVec.ofInt 64 (f (x.toNat : Int) y.toNat)
  else extend ty.signed 32 (narrow sat ty.signed 32 (f (ETy.num ty (x.toNat % 2 ^ 32)) (ETy.num ty (y.toNat % 2 ^ 32))))

/-- A uniform bit result of a type (R353). -/
def uniBits (ty : ETy) (f : W64 → W64 → W64) (x y : W64) : W64 :=
  if ty == .b64 then f x y else extend ty.signed 32 (f x y).toNat

/-- The shifts (R353): the amount is y[7:0]. -/
def sshlU (ty : ETy) (x y : W64) : W64 :=
  let n := y.toNat % 256
  if ty == .b64 then (if 64 ≤ n then 0 else x <<< n)
  else extend ty.signed 32 (if 32 ≤ n then 0 else x.toNat % 2 ^ 32 * 2 ^ n % 2 ^ 32)

def sshrU (ty : ETy) (x y : W64) : W64 :=
  let n := y.toNat % 256
  match ty with
  | .b64 => if 64 ≤ n then 0 else x >>> n
  | .i32 => BitVec.ofInt 64 (toInt true 32 (x.toNat % 2 ^ 32) / (2 ^ Nat.min n 32 : Nat))
  | _ => extend false 32 (if 32 ≤ n then 0 else x.toNat % 2 ^ 32 / 2 ^ n)

/-- A uniform value moved by type (R352, R355). -/
def uniMove (ty : ETy) (x : W64) : W64 := if ty == .b64 then x else extend ty.signed 32 x.toNat

/-- A uniform instruction of two sources. -/
def VOp.uniform2 (o : VOp) (f : W64 → W64 → W64) (e : Env) : List RegWrite × Fl :=
  ([.uni o.dst.toNat (f (e.g.sreg o.a.toNat) (e.g.sreg o.b.toNat))], {})
def CompactOp.uniform2 (o : CompactOp) (f : W64 → W64 → W64) (e : Env) : List RegWrite × Fl :=
  ([.uni o.d.toNat (f (e.g.sreg o.a.toNat) (e.g.sreg o.b.toNat))], {})

/-- `sadd` (R353). -/
def execSadd (o : VOp) (s : State) : Out :=
  groupwise (.sadd o) .uniform 1 (VOp.uniform2 o (uniArith o.sat o.ty (· + ·))) s
/-- `ssub` (R353). -/
def execSsub (o : VOp) (s : State) : Out :=
  groupwise (.ssub o) .uniform 1 (VOp.uniform2 o (uniArith o.sat o.ty (· - ·))) s
/-- `smul` (R353). -/
def execSmul (o : VOp) (s : State) : Out :=
  groupwise (.smul o) .uniform 1 (VOp.uniform2 o (uniArith o.sat o.ty (· * ·))) s
/-- `sand` (R353). -/
def execSand (o : VOp) (s : State) : Out :=
  groupwise (.sand o) .uniform 1 (VOp.uniform2 o (uniBits o.ty fun x y => x &&& y)) s
/-- `sor` (R353). -/
def execSor (o : VOp) (s : State) : Out :=
  groupwise (.sor o) .uniform 1 (VOp.uniform2 o (uniBits o.ty fun x y => x ||| y)) s
/-- `sxor` (R353, R374). -/
def execSxor (o : VOp) (s : State) : Out :=
  groupwise (.sxor o) .uniform 1 (VOp.uniform2 o (uniBits o.ty fun x y => x ^^^ y)) s
/-- `sshl` (R353). -/
def execSshl (o : VOp) (s : State) : Out := groupwise (.sshl o) .uniform 1 (VOp.uniform2 o (sshlU o.ty)) s
/-- `sshr` (R353). -/
def execSshr (o : VOp) (s : State) : Out := groupwise (.sshr o) .uniform 1 (VOp.uniform2 o (sshrU o.ty)) s
/-- `scmp` (R354). -/
def execScmp (o : VOp) (s : State) : Out :=
  groupwise (.scmp o) .uniform 1 (fun e =>
    let w := o.ty.width
    ([.upred o.dst.toNat (condition (o.ty == .i32) w o.cond.toNat
      ((e.g.sreg o.a.toNat).toNat % 2 ^ w) ((e.g.sreg o.b.toNat).toNat % 2 ^ w))], {})) s
/-- `ssel` (R355). -/
def execSsel (o : VOp) (s : State) : Out :=
  groupwise (.ssel o) .uniform 1 (fun e =>
    ([.uni o.dst.toNat (uniMove o.ty (e.g.sreg (if e.g.q.getLsbD o.c.toNat then o.a else o.b).toNat))], {})) s
/-- `smovi` (R356). -/
def execSmovi (o : LiOp) (s : State) : Out :=
  groupwise (.smovi o) .uniform 1 (fun _ =>
    ([.uni o.dst.toNat (if o.ty == .n32 then o.imm32.setWidth 64 else o.imm32.signExtend 64)], {})) s
/-- `slea` (R357). -/
def execSlea (o : VOp) (s : State) : Out :=
  groupwise (.slea o) .uniform 1
    (VOp.uniform2 o fun x y => x + ((y.setWidth 32).setWidth 64 <<< o.c.toNat)) s

/-- Compact `sadd` (R97, R353). -/
def execSaddCompact (o : CompactOp) (s : State) : Out :=
  groupwise (.saddCompact o) .uniform 1 (CompactOp.uniform2 o (uniArith false .b64 (· + ·))) s
/-- Compact `ssub` (R97, R353). -/
def execSsubCompact (o : CompactOp) (s : State) : Out :=
  groupwise (.ssubCompact o) .uniform 1 (CompactOp.uniform2 o (uniArith false .b64 (· - ·))) s
/-- Compact `sand` (R97, R353). -/
def execSandCompact (o : CompactOp) (s : State) : Out :=
  groupwise (.sandCompact o) .uniform 1 (CompactOp.uniform2 o (uniBits .b64 fun x y => x &&& y)) s
/-- Compact `sor` (R97, R353). -/
def execSorCompact (o : CompactOp) (s : State) : Out :=
  groupwise (.sorCompact o) .uniform 1 (CompactOp.uniform2 o (uniBits .b64 fun x y => x ||| y)) s
/-- Compact `sxor` (R97, R353). -/
def execSxorCompact (o : CompactOp) (s : State) : Out :=
  groupwise (.sxorCompact o) .uniform 1 (CompactOp.uniform2 o (uniBits .b64 fun x y => x ^^^ y)) s

end Sys2Proof.Machine
end

