-- ==== Sys2Proof/Machine/Galbel.lean ====
section
/-!
DEFINITION. What a Galbel object does (R268 to R271): the run of its one team, instruction by instruction, and what that asks of
its translation, which is otherwise the translator's own (assumption 17).
-/
namespace Sys2Proof.Machine

/-- The meaning of an instruction of a course, or of an event of a group's own operations; any other row is no part of a
team's run. -/
def execNative (i : Instr) (s : State) : Out :=
  match i with
  | .nopCompact o => execNopCompact o s
  | .addI32Compact o => execAddI32Compact o s
  | .subI32Compact o => execSubI32Compact o s
  | .mulI32Compact o => execMulI32Compact o s
  | .minI32Compact o => execMinI32Compact o s
  | .maxI32Compact o => execMaxI32Compact o s
  | .andCompact o => execAndCompact o s
  | .orCompact o => execOrCompact o s
  | .xorCompact o => execXorCompact o s
  | .shlN32Compact o => execShlN32Compact o s
  | .shrN32Compact o => execShrN32Compact o s
  | .sarI32Compact o => execSarI32Compact o s
  | .movCompact o => execMovCompact o s
  | .faddF32Compact o => execFaddF32Compact o s
  | .fsubF32Compact o => execFsubF32Compact o s
  | .fmulF32Compact o => execFmulF32Compact o s
  | .fminF32Compact o => execFminF32Compact o s
  | .fmaxF32Compact o => execFmaxF32Compact o s
  | .faddH16x2Compact o => execFaddH16x2Compact o s
  | .fmulH16x2Compact o => execFmulH16x2Compact o s
  | .lmulLn8x4Compact o => execLmulLn8x4Compact o s
  | .lmulLn4x8Compact o => execLmulLn4x8Compact o s
  | .saddCompact o => execSaddCompact o s
  | .ssubCompact o => execSsubCompact o s
  | .sandCompact o => execSandCompact o s
  | .sorCompact o => execSorCompact o s
  | .sxorCompact o => execSxorCompact o s
  | .popcCompact o => execPopcCompact o s
  | .clzCompact o => execClzCompact o s
  | .brevCompact o => execBrevCompact o s
  | .notCompact o => execNotCompact o s
  | .absI32Compact o => execAbsI32Compact o s
  | .abs o => execAbs o s
  | .add o => execAdd o s
  | .sub o => execSub o s
  | .mul o => execMul o s
  | .mulhi o => execMulhi o s
  | .mad o => execMad o s
  | .min o => execMin o s
  | .max o => execMax o s
  | .and o => execAnd o s
  | .or o => execOr o s
  | .xor o => execXor o s
  | .not o => execNot o s
  | .shl o => execShl o s
  | .shr o => execShr o s
  | .sar o => execSar o s
  | .fsl o => execFsl o s
  | .fsr o => execFsr o s
  | .bfx o => execBfx o s
  | .bfi o => execBfi o s
  | .popc o => execPopc o s
  | .clz o => execClz o s
  | .brev o => execBrev o s
  | .cmp o => execCmp o s
  | .sel o => execSel o s
  | .lea o => execLea o s
  | .idot o => execIdot o s
  | .fadd o => execFadd o s
  | .fsub o => execFsub o s
  | .fmul o => execFmul o s
  | .ffma o => execFfma o s
  | .fmin o => execFmin o s
  | .fmax o => execFmax o s
  | .fcmp o => execFcmp o s
  | .fcvt o => execFcvt o s
  | .frcp o => execFrcp o s
  | .frsq o => execFrsq o s
  | .fex2 o => execFex2 o s
  | .flg2 o => execFlg2 o s
  | .fsin o => execFsin o s
  | .fcos o => execFcos o s
  | .lmul o => execLmul o s
  | .ldiv o => execLdiv o s
  | .lscl o => execLscl o s
  | .lcvt o => execLcvt o s
  | .lqnt o => execLqnt o s
  | .ldot o => execLdot o s
  | .mfmt o => execMfmt o s
  | .mlay o => execMlay o s
  | .mma o => execMma o s
  | .mloop o => execMloop o s
  | .mzero o => execMzero o s
  | .mrd o => execMrd o s
  | .mwr o => execMwr o s
  | .mov o => execMov o s
  | .movi o => execMovi o s
  | .rdx o => execRdx o s
  | .wrx o => execWrx o s
  | .vtos o => execVtos o s
  | .stov o => execStov o s
  | .shfl o => execShfl o s
  | .redux o => execRedux o s
  | .pfx o => execPfx o s
  | .matchKeys o => execMatchKeys o s
  | .vote o => execVote o s
  | .nzscan o => execNzscan o s
  | .sadd o => execSadd o s
  | .ssub o => execSsub o s
  | .smul o => execSmul o s
  | .sand o => execSand o s
  | .sor o => execSor o s
  | .sxor o => execSxor o s
  | .sshl o => execSshl o s
  | .sshr o => execSshr o s
  | .scmp o => execScmp o s
  | .ssel o => execSsel o s
  | .smovi o => execSmovi o s
  | .slea o => execSlea o s
  | .sld o => execSld o s
  | .sst o => execSst o s
  | .ld o => execLd o s
  | .ldv o => execLdv o s
  | .lds o => execLds o s
  | .ldb o => execLdb o s
  | .st o => execSt o s
  | .stv o => execStv o s
  | .sts o => execSts o s
  | .stb o => execStb o s
  | .bop o => execBop o s
  | .atom o => execAtom o s
  | .cas o => execCas o s
  | .red o => execRed o s
  | .fence o => execFence o s
  | .kick o => execKick o s
  | .barinit o => execBarinit o s
  | .waitb o => execWaitb o s
  | .waitc o => execWaitc o s
  | .sleep o => execSleep o s
  | .bar o => execBar o s
  | .cbar o => execCbar o s
  | .gbar o => execGbar o s
  | .join o => execJoin o s
  | .leave o => execLeave o s
  | .want o => execWant o s
  | .wantr o => execWantr o s
  | .call o => execCall o s
  | .callr o => execCallr o s
  | .ret o => execRet o s
  | .exit o => execExit o s
  | .park o => execPark o s
  | .rejoin o => execRejoin o s
  | .region o => execRegion o s
  | .pfor o => execPfor o s
  | .pend o => execPend o s
  | .nop o => execNop o s
  | .csrr o => execCsrr o s
  | .csrw o => execCsrw o s
  | .time o => execTime o s
  | .trap o => execTrap o s
  | .eret o => execEret o s
  | .brk o => execBrk o s
  | .arbitrationTurn core pipe => execArbitrationTurn core pipe s
  | .courseBoundary g => execCourseBoundary g s
  | .idempotentRollback g => execIdempotentRollback g s
  | .valueArrival g index move => execValueArrival g index move s
  | .storePerform g move => execStorePerform g move s
  | .parkNeRead g lane => execParkNeRead g lane s
  | .parkConditionWake g => execParkConditionWake g s
  | .sleepWake g => execSleepWake g s
  | .lateCopyTrap g => execLateCopyTrap g s
  | .faultRecordWrite g => execFaultRecordWrite g s
  | .matrixStep team tile => execMatrixStep team tile s
  | .formatEmulation g => execFormatEmulation g s
  | .hodDestinationWrite g kick request row => execHodDestinationWrite g kick request row s
  | .bankOperationPerform g => execBankOperationPerform g s
  | .remoteAcknowledge g => execRemoteAcknowledge g s
  | .deterministicDrain launch => execDeterministicDrain launch s
  | .gbarRelease launch => execGbarRelease launch s
  | .islandResume => execIslandResume s
  | _ => .next s

/-! One instruction of a logical thread. -/

/-- The bytes that an instruction reads, writes, and hands to reductions. -/
structure Touched where
  reads : List (Place × Nat) := []
  writes : List (Place × Nat) := []
  loose : List (Place × Nat) := []

def Touched.add (a b : Touched) : Touched := ⟨a.reads ++ b.reads, a.writes ++ b.writes, a.loose ++ b.loose⟩

/-- The bytes of a bank range. -/
def bankSpots (a n : Nat) : List (Place × Nat) := (List.range (4 * n)).map fun i => (.bank, a + i)

/-- What the requests, stores and bank operations of a group still to be performed touch. -/
def State.touches (s : State) (gid : Gid) (g : Group) : Touched :=
  let request (a : Await) : Touched := match a.req with
    | .load .. | .sload .. => { reads := a.req.spots }
    | .atom .. | .cas .. => { reads := a.req.spots, writes := a.req.spots }
    | .red .. => { loose := a.req.spots }
    | _ => {}
  let ops := (s.team g.team).bank.filter fun b => b.gid == gid
  { reads := g.await.flatMap (fun a => (request a).reads) ++ ops.flatMap fun b => bankSpots b.src b.n
    writes := g.await.flatMap (fun a => (request a).writes) ++ g.stq.flatMap StEntry.spots ++ ops.flatMap fun b => bankSpots b.dst b.n
    loose := g.await.flatMap fun a => (request a).loose }

/-- Every access and bank operation of a group is performed, and every result has landed. -/
def State.completed (s : State) (gid : Gid) (g : Group) : State :=
  let s := s.settleGroup gid
  let s := (s.team g.team).bank.foldl (fun s _ => s.bankStep gid) s
  { s.modGroup gid fun g => { g.landAll with ops := g.ops.filter fun o => o.cls == .hod } with cur := none }

/-- A group whose one active lane is thread 0 issues an instruction and completes it, with what that touched; none where the
instruction traps, meets a fault or has to wait. -/
def State.sole (s : State) (gid : Gid) (i : Instr) : Option (State × Touched) :=
  match s.group gid with
  | none => none
  | some x =>
    let x := { x with status := .running, visit := some { newVisit 0 1 0 with count := 24 } }
    match execNative i { s.putGroup gid x with cur := some gid } with
    | .next t =>
      match t.group gid with
      | none => none
      | some y =>
        if y.status == .running && y.shadow.isNone && (y.visit.map (·.count)) == some 25 then some (t.completed gid y, t.touches gid y)
        else none
    | _ => none

/-- Where the want family sends a logical thread, at once, by the index of the next instruction; Galbel code has no courses whose
end would await it (R46, R267). A link is the offset of the instruction after its call. No register holds the offset of a Galbel
instruction. DEDUCED (assumption 115). -/
def Group.jump (x : Group) (pc : Nat) : Instr → Option (Option (Nat × Group))
  | .want o => some (some (o.imm32.toNat / 12, x))
  | .call o => some (some (o.imm32.toNat / 12, { x with lk := x.lk.set 0 (BitVec.ofNat 32 (12 * (pc + 1))) }))
  | .ret _ => some (if x.lk.get 0 == 0 then none else some ((x.lk.get 0).toNat / 12, x))
  | .wantr _ | .callr _ => some none
  | _ => none

/-- Whether a guard lets an instruction act in a logical thread (R52). -/
def Group.acts (x : Group) (i : Instr) : Bool :=
  match x.guardMask i.guard 1 with
  | some m => m != 0
  | none => false

/-! A region (R268, R269). -/

/-- The logical thread of a group runs its region's code to the next `bar` or to the `pend`, by the indexes of the `pfor` and the
`pend`, in at most n instructions: where it stops, and what it touched. -/
def threadRun (code : List Instr) (lo hi : Nat) (gid : Gid) : Nat → State → Nat → Touched → Option (State × Nat × Touched)
  | 0, _, _, _ => none
  | n + 1, s, pc, w =>
    if pc = hi then some (s, hi, w)
    else if pc ≤ lo || hi < pc then none
    else match code[pc]?, s.group gid with
      | some i, some x =>
        if !x.acts i then threadRun code lo hi gid n s (pc + 1) w
        else match i, x.jump pc i with
          | .bar _, _ => some (s, pc, w)
          | _, some none => none
          | _, some (some (pc', y)) => threadRun code lo hi gid n (s.putGroup gid y) pc' w
          | _, none => match s.sole gid i with
            | none => none
            | some (t, u) => threadRun code lo hi gid n t (pc + 1) (w.add u)
      | _, _ => none

/-- A logical thread between two pieces: the index of its next instruction, and its group, whose thread 0 it is. -/
abbrev Thread := Nat × Group

/-- A logical thread at its `pfor` (R268): vi holds its index, every other vector register and predicate reads zero, and the
uniform registers are the team's. -/
def Group.logical (x : Group) (vi index : Nat) : Group :=
  { x with v := Sparse.set [] (vi * 32) (BitVec.ofNat 32 index), p := [], k := [], lk := [], ops := [] }

/-- What a piece leaves: the state, its threads, what each touched, and the last value that each wrote to a byte. -/
structure PieceRun where
  s : State
  threads : List Thread := []
  touched : List Touched := []
  log : List StByte := []

/-- The threads of a region run one piece, one after another (R270). -/
def runPiece (code : List Instr) (lo hi : Nat) (gid : Gid) (fuel : Nat) : List Thread → PieceRun → Option PieceRun
  | [], r => some r
  | (pc, x) :: rest, r =>
    match threadRun code lo hi gid fuel (r.s.putGroup gid x) pc {} with
    | none => none
    | some (t, pc', w) => match t.group gid with
      | none => none
      | some y => runPiece code lo hi gid fuel rest
          { s := t, threads := r.threads ++ [(pc', y)], touched := r.touched ++ [w]
            log := r.log ++ w.writes.map fun b => ⟨b.1, b.2, t.readByte b.1 b.2⟩ }

/-- No thread of a piece reads a byte that another writes, nor one that a reduction has in hand (R271). -/
def unraced (ws : List Touched) (loose : List (Place × Nat)) : Bool :=
  ws.zipIdx.all fun a => a.1.reads.all fun b => !loose.contains b &&
    ws.zipIdx.all fun c => !c.1.loose.contains b && (a.2 == c.2 || !c.1.writes.contains b)

/-! The team (R268, R269). -/

/-- A team's run of a Galbel object: its code outside regions runs in one group of the state, by the index of the next
instruction; inside a region, its logical threads. The values of bytes that reductions write are not followed (R200, R271). -/
structure GalbelRun where
  s : State
  pc : Nat
  threads : Option (List Thread) := none
  loose : List (Place × Nat) := []
  ended : Bool := false

/-- The index of the `pend` of the region whose `pfor` stands at an index. -/
def pendOf (code : List Instr) (lo : Nat) : Nat :=
  lo + ((code.drop lo).findIdx fun i => match i with
    | .pend _ => true
    | _ => false)

/-- The team's code takes its next instruction (R268, R269): uniform code runs once, `bar` has nothing to wait for, `exit` ends
the team, and a region of no threads is skipped whole; one begins where no copy of the team is under way. -/
def GalbelRun.next (code : List Instr) (gid : Gid) (r : GalbelRun) : Option GalbelRun :=
  match r.ended || r.threads.isSome, code[r.pc]?, r.s.group gid with
  | false, some i, some x =>
    if !x.acts i then some { r with pc := r.pc + 1 }
    else match i, x.jump r.pc i with
      | .pfor o, _ =>
        let n := (x.sreg o.a.toNat).toNat % 2 ^ 32
        if n = 0 then some { r with pc := pendOf code r.pc + 1 }
        else if 1048576 < n || !(r.s.team x.team).hod.isEmpty then none
        else some { r with threads := some ((List.range n).map fun j => (r.pc + 1, x.logical o.dst.toNat j)) }
      | .pend _, _ => none
      | .bar _, _ => some { r with pc := r.pc + 1 }
      | .exit _, _ => some { r with ended := true }
      | _, some none => none
      | _, some (some (pc', y)) => some { r with s := r.s.putGroup gid y, pc := pc' }
      | _, none => (r.s.sole gid i).bind fun t =>
          if t.2.reads.any r.loose.contains then none
          else some { r with s := t.1, pc := r.pc + 1, loose := r.loose ++ t.2.loose }
  | _, _, _ => none

/-- The open region runs its next piece, of at most `fuel` instructions for each thread (R268 to R271): every thread arrives at
the `bar`, or at the `pend`, where the vector state is dropped. A byte that several threads wrote holds one of the values
written, those of `picks`. -/
def GalbelRun.piece (code : List Instr) (gid : Gid) (fuel : Nat) (picks : List StByte) (r : GalbelRun) : Option GalbelRun :=
  match r.threads, r.s.group gid with
  | some ts, some x =>
    let hi := pendOf code r.pc
    match runPiece code r.pc hi gid fuel ts { s := r.s } with
    | none => none
    | some p =>
      let loose := r.loose ++ p.touched.flatMap (·.loose)
      let s := (p.s.writeBytesAt picks).putGroup gid x
      if !unraced p.touched r.loose || !picks.all p.log.contains then none
      else if p.threads.all fun t => t.1 == hi then some { r with s, loose, threads := none, pc := hi + 1 }
      else match p.threads with
        | [] => none
        | (at', _) :: _ =>
          if p.threads.all fun t => t.1 == at' then some { r with s, loose, threads := some (p.threads.map fun t => (t.1 + 1, t.2)) }
          else none
  | _, _ => none

/-- One move of a team's run: its own code, a piece of its open region, a row of one of its copies, or the passing of time. -/
inductive GalbelStep (code : List Instr) (gid : Gid) : GalbelRun → GalbelRun → Prop where
  | code {r r' : GalbelRun} (h : r.next code gid = some r') : GalbelStep code gid r r'
  | piece {r r' : GalbelRun} (fuel : Nat) (picks : List StByte) (h : r.piece code gid fuel picks = some r') : GalbelStep code gid r r'
  | copies {r : GalbelRun} (h : r.threads = none) (kick request row : Nat) :
      GalbelStep code gid r { r with s := r.s.hodRow gid kick request row }
  | time {r : GalbelRun} (tick : W64) (draws : Nat) (islands : List (Nat × Island)) :
      GalbelStep code gid r { r with s := { r.s with timeref := tick, freeCtr := draws, islands } }

/-- The closure of a relation. -/
inductive Reaches {α : Type} (step : α → α → Prop) : α → α → Prop where
  | refl (a : α) : Reaches step a a
  | tail {a b c : α} (h : Reaches step a b) (k : step b c) : Reaches step a c

/-- A run to which no rule gives a further move: a trap, a fault, a race between a read and a write, or a `bar` that not every
thread reaches. -/
def GalbelRun.stuck (code : List Instr) (gid : Gid) (r : GalbelRun) : Prop :=
  r.ended = false ∧ r.next code gid = none ∧ (∀ fuel picks, r.piece code gid fuel picks = none) ∧
  ∀ x, r.s.group gid = some x → (r.s.team x.team).hod = []

/-! A team alone on the device. -/

/-- The launch of a kernel of one team of a number of groups, by its header. -/
def soleLaunch (o : Translation) (k : BitVec 256) (entry groups : Nat) (args : W64) (det : Nat) : Launch :=
  { ctx := o.ctx, obj := o.heapoff, entry := BitVec.ofNat 32 (o.heapoff + entry), groups, nreg := kernNREG k
    scratch := 4096 * kernSCRATCH k, heavy := kernHEAVY k, det, check := kernCHECK k, args, phase := .running }

/-- A device that runs one team and nothing else. -/
def State.alone (s : State) (o : Translation) (x : Launch) (core : Nat) : State :=
  ({ s with
    agenda := [], cur := none, upsets := [], poison := [], l2 := [], cores := [], groups := [], teams := [], launches := [(0, x)]
    objects := [o], faults := [], tlb := [], links := [], powered := true } : State).startTeam 0 core

/-- The bytes of an object stand where its context fetches them. -/
def State.holds (s : State) (o : Translation) (m : Memory) : Prop :=
  ∀ core i, i < o.size → ∃ a, s.translate core o.ctx .fetch (s.codebase o.ctx + BitVec.ofNat 64 (o.heapoff + i)) = .ok .hbm a ∧
    s.hbm.get a = m.get i

/-- A move of the groups of a team that runs alone. -/
inductive NativeStep : State → State → Prop where
  | issue {s s' t : State} {gid : Gid} {g : Group} {v : Visit} {i : Instr} (hc : s.group gid = some g) (hv : g.visit = some v)
      (hr : g.status = .running) (he : v.ended = false) (hf : s.fetchInstr gid g v = .run i s')
      (hx : execNative i { s' with cur := some gid } = .next t) : NativeStep s t
  | stopped {s t : State} {gid : Gid} {g : Group} {v : Visit} (hc : s.group gid = some g) (hv : g.visit = some v)
      (hr : g.status = .running) (he : v.ended = false) (hf : s.fetchInstr gid g v = .stopped t) : NativeStep s t
  | event {s t : State} (i : Instr) (hn : i.native = false) (hx : execNative i s = .next t) : NativeStep s t
  | time {s : State} : NativeStep s { s with timeref := s.timeref + 1 }

/-- A team that has run to its end, every access and copy with it. -/
def State.finishedAlone (s : State) : Prop :=
  (∀ e ∈ s.groups, e.2.status = .retired ∧ e.2.stq = [] ∧ e.2.await = []) ∧ (∀ e ∈ s.cores, e.2.flight = []) ∧
  ∀ e ∈ s.teams, e.2.hod = [] ∧ e.2.bank = []

/-- The memories that outlive a team. -/
def Place.outlives : Place → Bool
  | .scratch _ | .peerScratch _ => false
  | _ => true

/-- Two states hold the same bytes of the memories that outlive a team, but for those that reductions wrote. -/
def agree (loose : List (Place × Nat)) (s t : State) : Prop :=
  ∀ p a, p.outlives = true → (p, a) ∉ loose → s.readByte p a = t.readByte p a

/-- Where a run has left the page tables and the code alone: every address goes where it went. -/
def State.keepsMap (s t : State) (o : Translation) (m : Memory) : Prop :=
  (∀ core k va, t.translate core o.ctx k va = s.translate core o.ctx k va) ∧ t.holds o m

/-- The translator's promise for the kernels of an object of no relocations and imports whose TEAM is G (R268 to R271): a team that
runs its translation alone and comes to its end leaves in memory what some run of the Galbel code leaves, whatever the mapping
is; nothing is promised where a run of that code is stuck, or writes over code or page tables. -/
def Translates (b : List Byte) (G : Nat) (t : List Byte) : Prop :=
  relocEntries b = [] → importEntries b = [] →
  ∀ (n : Nat) (eb et : List Byte), (kernelEntries b)[n]? = some eb → (kernelEntries t)[n]? = some et → kernTEAM (kernelOf eb) = G →
  ∀ (base : State) (o : Translation) (args : W64) (det core : Nat),
  let kb := kernelOf eb
  let kt := kernelOf et
  let native := base.alone o (soleLaunch o kt (kernENTRY kt) G args det) core
  let source := base.alone o (soleLaunch o kb 0 1 args det) core
  o.size = objSize t → o.codeSize = objCODESIZE t → o.starts = courseStarts t → o.freed = false →
  native.holds o (objectBytes t) →
  ∀ f, Reaches NativeStep native f → f.finishedAlone →
  ∃ (gid : Gid) (x : Group) (s3 : W64) (r : GalbelRun), source.groups = [(gid, x)] ∧
    Reaches (GalbelStep (galbelCode b) gid)
      { s := source.putGroup gid { x with v := [], s := Sparse.set x.s 3 s3 }, pc := kernENTRY kb / 12 } r ∧
    (r.stuck (galbelCode b) gid ∨ ¬ native.keepsMap r.s o (objectBytes t) ∨ (r.ended = true ∧ agree r.loose r.s f))

end Sys2Proof.Machine

namespace Sys2Proof.Config
open Sys2Proof.Machine

/-- The native object that the translator forms, courses, stall counts, trailers and signatures included, from a Galbel object's
bytes, its parts, the mapping of a region by its count, the team's groups and FEATACC, and nothing else (R270); it translates
what the object does (R268, R269, R271). None where it forms none (assumption 17). -/
opaque emitNative (b : List Byte) (parts : List GalbelPart) (mapping : Nat → Mapping) (G : Nat) (featacc : W64) :
    Option (Subtype (Translates b G))

end Sys2Proof.Config
end

