-- ==== Sys2Proof/Machine/Preempt.lean ====
section
/-!
DEFINITION. Pre-emption and restore (R167, R214 to R221, R226, R254): the drain, the seize, the saving of a team, the
deadline, the restore, and the placing of teams by the scheduler (R198).
-/
namespace Sys2Proof.Machine

def State.hasTeams (s : State) (ctx : Nat) : Bool := s.teams.any fun e => e.2.ctx == ctx && e.2.residence != .saved

/-- The seize of a context begins: its teams are to be saved (R214). -/
def State.beginSeize (s : State) (ctx : Nat) (ticks : W64) : State :=
  let mark (t : Team) : Team := if t.ctx == ctx && t.residence == .resident then { t with residence := .saving } else t
  let s : State := { s with teams := s.teams.map fun e => (e.1, mark e.2) }
  let s := s.modCtx ctx fun c => { c with preempted := true, restoring := false }
  ((s.modCtrl fun c => { c with preState := 2, preCtx := ctx, preDeadline := s.timeref + ticks }).interrupt 3).preemptCheck

/-- The drain ends with teams left: the seize, or with the feature not accepted the reset (R214, R248 SEIZE). -/
def State.afterDrain (s : State) (ctx : Nat) : State :=
  if s.ctrl.featacc.getLsbD 3 then s.beginSeize ctx s.ctrl.tseize else s.forcedReset ctx

/-- A drain or a seize is in progress (R254). -/
def State.preempting (s : State) : Bool := s.ctrl.preState == 1 || s.ctrl.preState == 2

/-- Whether a command is ignored (R254): one runs, or the sequence of R226 does, whose seizes follow one another.
DEDUCED (assumption 43). -/
def State.commandBusy (s : State) : Bool := s.preempting || s.ctrl.critRun

/-- A write of PREEMPT that starts a drain (R214, R254). -/
def State.startDrain (s : State) (v : W64) : State :=
  if s.commandBusy || !v.getLsbD 8 || v.getLsbD 9 then s
  else
    let ctx := (v.extractLsb' 0 6).toNat
    let s := s.modCtx ctx fun c => { c with preempted := true, restoring := false }
    let s := (s.modCtrl fun c => { c with
      preState := 1, preCtx := ctx, preReset := false, preDeadline := s.timeref + c.tdrain }).interrupt 3
    if !s.hasTeams ctx then s.preemptCheck
    else if s.ctrl.tdrain = 0 then s.afterDrain ctx
    else s

/-- PREEMPT_DRAIN (R214, R254). -/
def execPreemptDrain (value : W64) (s : State) : Out := .next (s.startDrain value)

/-- The next step of the sequence of R226: the next context's seize, which also ends its admission, or the end of it: once no
team is left on the dies, HBM goes into self-refresh and the compute rails are removed. DEDUCED (assumption 43). Contexts are seized
with SEIZE not accepted too; bank memory and the islands' registers keep what they hold. DESIGN CHOICE (assumption 114). -/
def State.critNext (s : State) : State :=
  match s.ctrl.critQueue with
  | ctx :: rest => (s.modCtrl fun c => { c with critQueue := rest }).beginSeize ctx 105000
  | [] =>
    let left := ((s.teams.filter fun e => e.2.residence != .saved).map fun e => e.2.ctx).eraseDups
    if !left.isEmpty then s.modCtrl fun c => { c with critQueue := left }
    else
      let s := s.flushL2.modCtrl fun c => { c with critRun := false, ready := c.ready &&& ~~~0xFFF00#64 }
      (({ s with cores := [], tlb := [], cur := none } : State).interrupt 6 |>.msi 0).refreshStatus

/-- SEIZE_BEGIN: TDRAIN has expired with teams left (R214); in a thermal emergency, the next context's turn (R226). -/
def execSeizeBegin (s : State) : Out :=
  .next (if s.ctrl.preState = 1 then
      if !s.hasTeams s.ctrl.preCtx then s.preemptCheck
      else if s.ctrl.preDeadline ≤ s.timeref then s.afterDrain s.ctrl.preCtx else s
    else if s.ctrl.critRun && !s.preempting then s.critNext
    else s)

/-! Saving (R214, R215, R218, R221). -/

/-- A running group that holds its pipe may be saved where it stands. -/
def State.holding (s : State) (gid : Gid) (g : Group) : Bool :=
  match g.visit with
  | none => true
  | some v =>
    if v.ended then g.awaitedK.isSome
    else match s.instrAt (coreOf gid) g.ctx v.pos with
      | some (.waitb _) => true
      | some i => (g.pendingName i).isSome
      | none => false

/-- Groups at a point where they can be saved (R214): one that runs its course goes on to the boundary, inside a handler too, and one
that is ready in the middle of its course is saved where it stands. DEDUCED (assumption 111). -/
def State.savable (s : State) (gid : Gid) : Bool :=
  match s.group gid with
  | some g => g.status != .running || s.holding gid g
  | none => true

/-- A group in the save image: one parked on a fault, or holding its pipe, issues again at the restore (R220); one that the grid
barrier has released goes on then (R204, R319). Conditions that wait on a replay are read again, those of a stopped course
too, whose handler runs. -/
def Group.saved (g : Group) (released : Bool) : Group :=
  let status := match g.status with
    | .running => Status.ready
    | .faulted _ => .ready
    | .emulating => .ready
    | .stopped .gbar => if released then .ready else g.status
    | x => x
  let again (w : WaitRec) : WaitRec := match w with
    | .ne va value ia due holds _ => .ne va value ia due holds none
    | w => w
  let waits (ws : List (Nat × WaitRec)) : List (Nat × WaitRec) := ws.map fun e => (e.1, again e.2)
  { g with status, waits := waits g.waits, shadow := g.shadow.map fun sh => { sh with waits := waits sh.waits } }

/-- What must end before a team's save: its own operations (R215), the `mma`s among them (R339), and with them the stores in flight
of its core to memory that the L1 holds, which its groups may have read (R137). DESIGN CHOICE (assumption 71). -/
def State.unsettled (s : State) (t : Team) : Bool :=
  !t.hod.isEmpty || !t.bank.isEmpty || t.engine.any EngineOp.captured ||
  (s.core t.core).flight.any (fun e => e.bytes.any fun b => b.place.cached) || t.slots.any fun e => match s.group e.2 with
    | some g => g.ops.any (fun o => o.cls != .matrix) || !g.stq.isEmpty || g.await.any fun a => a.req != .engine && a.req != .windows
    | none => false

/-! The save area (R221, R250). R221 outlines its blocks; their order is the table's, and the contents of the header, the group
control and the trap shadow blocks have no layout: their bytes are free. DESIGN CHOICE (assumption 15). -/

/-- The blocks of 4 KiB before the registers: the header, one per group, and one per group in a handler. -/
def controlBlocks (image : List (Nat × Group)) : Nat := 1 + image.length + (image.filter fun e => e.2.shadow.isSome).length

/-- The offsets of the registers, the scratch image and the tiles in a save area, and its size. -/
def saveLayout (t : Team) (image : List (Nat × Group)) : Nat × Nat × Nat × Nat :=
  let regs := 4096 * controlBlocks image
  let scratch := regs + image.length * (128 * t.nreg)
  let tiles := scratch + t.scratchSize
  (regs, scratch, tiles, tiles + 16384 * t.heavy)

/-- Room for a save area in the region that the descriptor of its context names, beside those of its saved teams (R250). -/
def State.areaAt (s : State) (ctx size : Nat) : Option Nat :=
  let base := s.saveBase ctx
  let used := s.teams.filterMap fun e => if e.2.ctx == ctx then e.2.area else none
  (base :: used.map fun a => a.base + a.size).find? fun b =>
    decide (b + size ≤ base + s.saveSize ctx) && used.all fun a => decide (b + size ≤ a.base) || decide (a.base + a.size ≤ b)

/-- The words of a sparse table of 32-bit words, written from an address on. -/
def putWords (m : Memory) (a : Nat) (ws : Sparse 32) : Memory := ws.foldl (fun m e => Memory.writeNat m (a + 4 * e.1) e.2.toNat 4) m

/-- The save area of a team as it stands in HBM when it is saved: registers by register and thread, the scratch image, and the
tiles by row and column. -/
def State.writeArea (s : State) (t : Team) (image : List (Nat × Group)) (base : Nat) : State :=
  let (regs, scratch, tiles, size) := saveLayout t image
  let m := Memory.writeBytes s.hbm base ((List.range regs).map (Config.savedByte s.freeCtr))
  let m := m.clear (base + regs) (base + size)
  let m := image.zipIdx.foldl (fun m e => putWords m (base + regs + e.2 * (128 * t.nreg)) e.1.2.v) m
  let m := Memory.copyBlock m (base + scratch) t.scratch 0 t.scratchSize
  ({ s with hbm := putWords m (base + tiles) t.tiles } : State).clearHbmMarks base size

/-- The groups of a team as they are saved, by GROUPIX. -/
def State.imageOf (s : State) (t : Team) : List (Nat × Group) :=
  t.slots.filterMap fun e => (s.group e.2).map fun g =>
    (e.1, g.saved !((s.launchOf t.launch).gbarArr.contains (t.teamix * 32 + e.1)))

/-- The team's record leaves its core: its save area is written, its groups go into the image, and its reduction entries spill
(R215, R221). It keeps its slots (R217). An overflow of the spill region here has no group to
raise it: a later `red` on the core does. DESIGN CHOICE (assumptions 15, 101). -/
def State.saveTeam (s : State) (key : Nat) (t : Team) (base : Nat) : State :=
  let gone := t.slots.map (·.2)
  let image := s.imageOf t
  let s := (s.writeArea t image base).draw
  let groupOf (g : Gid) : Nat := ((t.slots.find? fun e => e.2 == g).map (·.1)).getD 0
  let marks := s.poison.filterMap fun p => match p with
    | .vreg g r l => if gone.contains g then some (.vreg (groupOf g) r l) else none
    | .ureg g r => if gone.contains g then some (.ureg (groupOf g) r) else none
    | _ => none
  let s : State := { s with
    groups := s.groups.filter fun e => !gone.contains e.1
    cur := match s.cur with
      | some g => if gone.contains g then none else some g
      | none => none
    poison := s.poison.filter fun p => match p with
      | .vreg g _ _ => !gone.contains g
      | .ureg g _ => !gone.contains g
      | _ => true
    faults := s.faults.map fun f => match f.2 with
      | .group g => if gone.contains g then (f.1, .stale) else f
      | .park g _ => if gone.contains g then (f.1, .stale) else f
      | _ => f }
  let s := s.modTeam key fun t => { t with 
    residence := .saved, saved := image, oldSlots := t.slots, slots := [], savedMarks := marks,
    area := some ⟨base, (saveLayout t image).2.2.2, base + (saveLayout t image).2.1⟩ }
  let spill (r : RedEntry) : RedEntry := if r.core == t.core then { r with spilled := true } else r
  s.modLaunch t.launch fun x => { x with red := x.red.map spill }

/-- TEAM_SAVE_COMPLETE: every group stands where it can be saved, the team's operations have ended, its record fits into the
save region of its context, and is saved (R214, R215, R221). -/
def State.completeSave (s : State) (key : Nat) : State :=
  match tfind s.teams key with
  | none => s
  | some t =>
    if t.residence != .saving || !(t.slots.all fun e => s.savable e.2) then s
    else
      let s := t.slots.foldl (fun s e => s.settleGroup e.2) s
      match tfind s.teams key with
      | none => s
      | some t =>
        if s.unsettled t then s
        else match s.areaAt t.ctx (saveLayout t (s.imageOf t)).2.2.2 with
          | some base => (s.saveTeam key t base).preemptCheck
          | none => s

/-- TEAM_SAVE_COMPLETE (R215, R221). -/
def execTeamSaveComplete (team : Nat) (s : State) : Out := .next (s.completeSave team)

/-- SEIZE_DEADLINE: TSEIZE has expired with a team unsaved: the context is reset (R214, R216). -/
def execSeizeDeadline (s : State) : Out :=
  .next (if s.ctrl.preState = 2 && s.ctrl.preDeadline ≤ s.timeref then
      (if s.hasTeams s.ctrl.preCtx then s.forcedReset s.ctrl.preCtx else s.preemptCheck)
    else s)

/-! Restoring (R219, R220). -/

/-- The room that a saved team needs on the pipes to which its groups are bound. -/
def Team.pipes (t : Team) : Nat × Nat :=
  let n0 := (t.oldSlots.filter fun e => pipeOf e.2 == 0).length
  (n0, t.oldSlots.length - n0)

def Team.need (t : Team) : Need := { groups := t.groups, nreg := t.nreg, scratch := t.scratchSize, heavy := t.heavy }

/-- Whether a core can take a saved team (R18, R19, R220), beside what others than the teams that move take; a context whose
descriptor has V = 0 has no team placed (R250). -/
def State.takes (s : State) (moving : List Nat) (t : Team) (core : Nat) : Bool :=
  let (a, b) := t.pipes
  s.descValid t.ctx && s.dieReady (core / 64) && (a == 0 || s.passes core 0 != 0) && (b == 0 || s.passes core 1 != 0) &&
    ((s.roomBut moving core).add t.need a b).ok

/-- The saved teams of a team's cluster. -/
def State.savedMates (s : State) (t : Team) : List (Nat × Team) := (s.clusterTeams t).filter fun e => e.2.residence == .saved

/-- The core at a place of a cluster's rectangle. -/
def placeIn (origin w : Nat) (t : Team) : Nat := origin + t.teamincl / w * 8 + t.teamincl % w

/-- The cores for a saved team and the saved rest of its cluster (R220). -/
def State.restoreCores (s : State) (t : Team) : Option (List (Nat × Team × Nat)) :=
  let x := s.launchOf t.launch
  if 1 < x.unit then
    let ms := s.savedMates t
    ((s.originsOf x.clh x.clw).find? fun o => ms.all fun m => s.takes (ms.map (·.1)) m.2 (placeIn o x.clw m.2)).map fun o =>
      ms.map fun m => (m.1, m.2, placeIn o x.clw m.2)
  else
    let key := teamKey t.launch t.teamix
    let cores := s.partitionCores
    if x.det = 2 then
      let c := cores.getD (t.teamix % 1024 % cores.length) 0
      if s.takes [key] t c then some [(key, t, c)] else none
    else (cores.find? (s.takes [key] t)).map fun c => [(key, t, c)]

/-- The slots of a restored team's groups: each keeps its pipe (R18). -/
def State.assignBound (s : State) (core : Nat) (old : List (Nat × Gid)) : List (Nat × Gid) :=
  let free (p : Nat) : List Gid := s.freeSlots core p
  let place (p i : Nat) : Gid := (free p).getD i 0
  (old.foldl (fun (acc : List (Nat × Gid) × Nat × Nat) e =>
    if pipeOf e.2 == 0 then (acc.1 ++ [(e.1, place 0 acc.2.1)], acc.2.1 + 1, acc.2.2)
    else (acc.1 ++ [(e.1, place 1 acc.2.2)], acc.2.1, acc.2.2 + 1)) ([], 0, 0)).1

/-- An engine operation under the new slots of a restored team. -/
def EngineOp.rename (f : Gid → Gid) : EngineOp → EngineOp
  | .steps g q ia t w la lb n total one fa fb sa sb r => .steps (f g) q ia t w la lb n total one fa fb sa sb r
  | .read g q t b ln d => .read (f g) q t b ln d
  | .zero t => .zero t
  | .write t b v => .write t b v

/-- The HBM address of a byte of a put in the bounce ring of a context (R219): its flits follow one another around the ring. -/
def State.ringByte (s : State) (ctx flit i : Nat) : Nat :=
  s.bounceBase ctx + 256 * ((flit + i / 256) % (s.bounceSize ctx / 256)) + i % 256

/-- A put of the bounce ring written into the scratch of its team (R219). -/
def State.replayPut (s : State) (key ctx : Nat) (p : Put) : State :=
  s.writeBytesAt (storeBytes (.scratch key) p.offset ((List.range p.length).map fun i => s.readByte .hbm (s.ringByte ctx p.flit i)))

/-- A saved team gives up the slots that it kept (R217). -/
def State.releaseSlots (s : State) (key : Nat) : State := s.modTeam key fun t => { t with oldSlots := [], area := none }

/-- A saved team placed on a core (R219 to R221), its old slots given up. What State keeps of it is restored, and the save area is not
read back. DESIGN CHOICE (assumption 15). -/
def State.restoreTeam (s : State) (key : Nat) (t : Team) (core : Nat) : State :=
  let slots := s.assignBound core t.oldSlots
  let newOf (g : Gid) : Gid :=
    match (t.oldSlots.find? fun e => e.2 == g).bind fun e => tfind slots e.1 with
    | some n => n
    | none => g
  let slotOf (ix : Nat) : Gid := (tfind slots ix).getD 0
  let mine := (s.ctx t.ctx).bounce.filter fun p => p.team == key
  let s := mine.foldl (fun s p => s.replayPut key t.ctx p) s
  let s := s.modCtx t.ctx fun c => { c with bounce := c.bounce.filter fun p => p.team != key }
  let s := t.saved.foldl (fun s e => s.putGroup (slotOf e.1) e.2) s
  let s : State := { s with poison := s.poison ++ t.savedMarks.map fun p => match p with
    | .vreg ix r l => .vreg (slotOf ix) r l
    | .ureg ix r => .ureg (slotOf ix) r
    | p => p }
  let s := s.modTeam key fun t => { t with
    core, slots, residence := .resident, saved := [], savedMarks := [],
    engine := t.engine.map (EngineOp.rename newOf) }
  let s := s.invalidateL1 core
  s.modLaunch t.launch fun x => { x with
    origins := if t.teamincl = 0 && 1 < x.unit then (x.origins.filter fun o => o.1 != t.clusterix) ++ [(t.clusterix, core)] else x.origins }

/-- The next saved team of the contexts that are being restored, with the cores for it and its cluster. -/
def State.nextRestore (s : State) : Option (List (Nat × Team × Nat)) :=
  (s.teams.filter fun e => e.2.residence == .saved && (s.ctx e.2.ctx).restoring).findSome? fun e => s.restoreCores e.2

/-- A restore is done once every saved team has been placed (R254). -/
def State.restoreCheck (s : State) (ctx : Nat) : State :=
  if (s.ctx ctx).restoring && !(s.teams.any fun e => e.2.ctx == ctx && e.2.residence == .saved) then
    let s := s.modCtx ctx fun c => { c with restoring := false, preempted := false }
    if s.ctrl.restoreCtx == ctx then (s.modCtrl fun c => { c with preRestored := true }).interrupt 3 else s
  else s

/-- Places what can be placed of the contexts that are being restored. -/
def State.restoreStep (s : State) : State :=
  match s.nextRestore with
  | none => s
  | some ts =>
    let s := ts.foldl (fun s t => s.releaseSlots t.1) s
    let s := ts.foldl (fun s t => s.restoreTeam t.1 t.2.1 t.2.2) s
    match ts.head? with
    | some t => s.restoreCheck t.2.1.ctx
    | none => s

/-- A write of PREEMPT that starts a restore (R220, R254). DEDUCED (assumption 48). -/
def State.startRestore (s : State) (v : W64) : State :=
  if s.commandBusy || v.getLsbD 8 || !v.getLsbD 9 then s
  else
    let ctx := (v.extractLsb' 0 6).toNat
    let s := s.modCtx ctx fun c => { c with restoring := true }
    let s := (s.modCtrl fun c => { c with preState := 0, preCtx := ctx, preRestored := false, restoreCtx := ctx }).interrupt 3
    (s.restoreStep).restoreCheck ctx

/-- PREEMPT_RESTORE (R220, R254). -/
def execPreemptRestore (value : W64) (s : State) : Out := .next (s.startRestore value)

/-- TEAM_PLACE: the scheduler places the next team of a context being restored, or of a queue's head (R198, R220). -/
def State.placeNext (s : State) : State :=
  match s.nextRestore with
  | some _ => s.restoreStep
  | none => s.schedule

/-- TEAM_PLACE (R198). -/
def execTeamPlace (s : State) : Out := .next s.placeNext.draw

end Sys2Proof.Machine
end

