-- ==== Sys2Proof/Machine/Storage.lean ====
section
/-!
DEFINITION. The storage service of Vilaz (R283, R284): its controllers, and the commands that it sends them over NVMe/TCP.
-/
namespace Sys2Proof.Machine

/-- The subsystem and the namespace that an entry of the storage list names: all of it but its index and its access (R284). -/
def spaceKey (e : List Byte) : Nat := natOfBytes (e.drop 2)

/-- Bytes of in-capsule data (R283). -/
def capsule : Nat := 8192

/-- A command on a queue of a controller: 0 is the admin queue. -/
def State.nvme (s : State) (space qid : Nat) (cmd : NvmeCmd) : State := s.send (.nvme space qid cmd)

def State.conn (s : State) (space : Nat) : Option Conn := tfind s.conns space

/-- What Vilaz and a subsystem agree on: as many I/O queues and as deep as both allow, and the digests that the controller
offers (R283). PRESUMED (assumption 96). -/
def connOf (space : Nat) (e : List Byte) : Conn :=
  { nsid := natOfBytes ((e.drop 8).take 4)
    queues := min 8 (max 1 (Config.offeredQueues space))
    depth := min 128 (max 1 (Config.offeredDepth space))
    block := if Config.smallBlocks space then 512 else 4096
    headerDigest := Config.offersHeaderDigest space
    dataDigest := Config.offersDataDigest space }

/-- The commands that bring a controller up: Connect of the admin queue, the capabilities, the enable, Identify of the
controller and of the namespace, and Connect of each I/O queue. PRESUMED (assumption 96). -/
def bringUp (c : Conn) : List (Nat × NvmeCmd) :=
  [(0, .connect 0 32), (0, .propertyGet 0), (0, .propertySet 0x14 1), (0, .propertyGet 0x1C), (0, .identify 1 0),
   (0, .identify 0 c.nsid)] ++ (List.range c.queues).map fun i => (i + 1, .connect (i + 1) c.depth)

/-- A controller for an entry of the storage list: the one that is connected, or a new one, of which there are at most 4. -/
def State.connect (s : State) (e : List Byte) : Option State :=
  let space := spaceKey e
  if (s.conn space).isSome then some s
  else if 4 ≤ s.conns.length then none
  else
    let c := connOf space e
    some ((bringUp c).foldl (fun s x => s.nvme space x.1 x.2) { s with conns := s.conns ++ [(space, c)] })

/-- The admin commands that Vilaz may send beside those of a connection (R283). -/
def adminCmd : NvmeCmd → Bool
  | .propertyGet _ | .propertySet .. | .identify .. | .keepAlive | .getLogPage _ => true
  | _ => false

/-- Vilaz sends an admin command, Keep Alive among them, to a controller that it is connected to. -/
def State.admin (s : State) (space : Nat) (cmd : NvmeCmd) : State :=
  if (s.conn space).isSome && adminCmd cmd then s.nvme space 0 cmd else s

/-- The I/O queue and the block size for a namespace; which queue is free. -/
def State.ioQueue (s : State) (space : Nat) : Nat × Nat :=
  let c := (s.conn space).getD (connOf space [])
  (1 + (Config.freeWord s.freeCtr).toNat % c.queues, c.block)

/-- Read of 64 KiB of a namespace into HBM. -/
def State.readSpace (s : State) (space off p : Nat) : State :=
  let (q, block) := s.ioQueue space
  let s := s.draw.nvme space q (.read (off / block) (65536 / block))
  ({ s with hbm := Memory.copyBlock s.hbm p (tget s.spaces space []) off 65536 } : State).clearHbmMarks p 65536

/-- Writes of 64 KiB of HBM to a namespace, each with its data in its capsule. -/
def State.writeSpace (s : State) (space off p : Nat) : State :=
  let (q, block) := s.ioQueue space
  let s := (List.range (65536 / capsule)).foldl (fun s i =>
    s.nvme space q (.write ((off + capsule * i) / block) (capsule / block) (Memory.readBytes s.hbm (p + capsule * i) capsule))) s.draw
  { s with spaces := tput s.spaces space (Memory.copyBlock (tget s.spaces space []) off s.hbm p 65536) }

/-- Flush of a namespace. -/
def State.flushSpace (s : State) (space : Nat) : State := s.nvme space (s.ioQueue space).1 .flush

end Sys2Proof.Machine
end

