-- ==== Sys2Proof/Machine/Vm.lean ====
section
/-!
DEFINITION. The control of translation (R125, R181, R252, R253, R284): answers to fault records, the fault buffer's
registers, and the invalidation of the TLBs.
-/
namespace Sys2Proof.Machine

/-! Answers to fault records (R125, R181, R253). -/

/-- A first access to a page of a storage mapping: Vilaz reads it from the namespace into a page it allocates and maps it,
with W only for space 5 (R284). -/
def State.fillPage (s : State) (ctx va : Nat) : State :=
  match (s.ctx ctx).allocs.find? fun a => a.kind == 5 && a.va ≤ va && va < a.va + a.size with
  | none => s
  | some a =>
    match s.walk va 3 (s.root ctx) with
    | .fault _ =>
      match s.allocHbm 4 65536 65536 with
      | none => s
      | some (t, p) =>
        let page := va / 65536 * 65536
        ((t.readSpace a.handle (a.offset + page - a.va) p).mapPage ctx page (leafOf a.writable false 0 0 p)).getD s
    | _ => s

/-- The address of a fault record, and its fields VA and IADDR (R125). -/
def State.recordAt (s : State) (slot : Nat) : Nat := s.ctrl.fbbase.toNat + 32 * slot
def State.recordVa (s : State) (slot : Nat) : Nat := s.hbm.readNat (s.recordAt slot) 8
def State.recordIaddr (s : State) (slot : Nat) : Nat := s.hbm.readNat (s.recordAt slot + 12) 4

def State.dropOwner (s : State) (slot : Nat) : State := { s with faults := tdel s.faults slot }

/-- The owner's access is made again: a group issues its instruction in full; a request goes on; a condition is read again, at
the tick of the replay, and its reads are 64 ticks apart from there; the wait records of a group in a handler stand in its
shadow. DESIGN CHOICE (assumption 78). -/
def State.replayTo (s : State) (slot : Nat) (o : FaultOwner) : State :=
  match o with
  | .group g => s.modGroup g fun x => if x.status == .faulted (some slot) then { x with status := .ready } else x
  | .park g _ =>
    let again (e : Nat × WaitRec) : Nat × WaitRec := match e.2 with
      | .ne va v ia due holds (some k) => (e.1, if k == slot then .ne va v ia (some s.timeref) holds none else .ne va v ia due holds (some k))
      | w => (e.1, w)
    s.modGroup g fun x => { x with
      waits := x.waits.map again
      shadow := x.shadow.map fun sh => { sh with waits := sh.waits.map again } }
  | .hod t g q r =>
    match (s.team t).hod.findIdx? fun k => k.gid == g && k.seq == q with
    | some k => s.modReq t k r fun y => { y with fault := none }
    | none => s
  | .stale => s

/-- The context of an owner takes an access violation (R125, R181, R213). -/
def State.killOwner (s : State) (slot : Nat) (o : FaultOwner) : State :=
  let gid := match o with
    | .group g => some g
    | .park g _ => some g
    | .hod _ g _ _ => some g
    | .stale => none
  match gid.bind fun g => (s.group g).map fun x => (g, x) with
  | some (g, x) => s.killFor g x 2 (BitVec.ofNat 32 (s.recordIaddr slot)) (BitVec.ofNat 64 (s.recordVa slot))
  | none => s

/-- A write of FBREPLY (R253): ACT 1 replays, 2 kills; a record that is answered, stale or not in use is not reached.
DEDUCED (assumption 49). -/
def State.reply (s : State) (slot act : Nat) : State :=
  match tfind s.faults slot with
  | none => s
  | some o =>
    if act = 1 then (s.dropOwner slot).replayTo slot o
    else if act = 2 then (s.dropOwner slot).killOwner slot o
    else s

/-- Vilaz frees the slot of a record by clearing its VALID (R253). -/
def State.freeSlot (s : State) (slot : Nat) : State :=
  let a := s.recordAt slot + 31
  { s with hbm := s.hbm.set a (s.hbm.get a &&& 0x7F) }

/-- The context that faulted, for the page that a replay needs. -/
def State.ownerCtx (s : State) (o : FaultOwner) : Option Nat :=
  match o with
  | .group g => (s.group g).map (·.ctx)
  | .park g _ => (s.group g).map (·.ctx)
  | .hod t _ _ _ => (tfind s.teams t).map (·.ctx)
  | .stale => none

/-- FBREPLY_REPLAY (R125, R181, R253, R284): Vilaz fills a storage page, writes the replay and frees the slot. -/
def execFbreplyReplay (slot : Nat) (s : State) : Out :=
  .next (match tfind s.faults slot with
    | none => s
    | some o =>
      let t := match s.ownerCtx o with
        | some c => s.fillPage c (s.recordVa slot)
        | none => s
      (t.reply slot 1).freeSlot slot)

/-- FBREPLY_KILL (R125, R181, R213, R253). -/
def execFbreplyKill (slot : Nat) (s : State) : Out :=
  .next (match tfind s.faults slot with
    | none => s
    | some _ => (s.reply slot 2).freeSlot slot)

/-- A write of FBSIZE or FBBASE sets FBHEAD to 0 (R253). -/
def State.configureFaults (s : State) (size : Bool) (value : W64) : State :=
  s.modCtrl fun c =>
    if size then { c with fbsize := value &&& 0x1FFFF, fbhead := 0 }
    else { c with fbbase := value &&& 0x0000FFFFFFFFFFE0, fbhead := 0 }

/-- FAULT_BUFFER_CONFIGURE (R253). -/
def execFaultBufferConfigure (size : Bool) (value : W64) (s : State) : Out := .next (s.configureFaults size value)

/-! TLB invalidation (R252). -/

/-- A write of TLBINV: 16 requests may be pending, and one more sets OVF and is dropped. -/
def State.requestInv (s : State) (value : W64) : State :=
  if value.extractLsb' 0 2 = 0 then s
  else s.modCtrl fun c =>
    if 16 ≤ c.tlbreqs.length then { c with tlbovf := true } else { c with tlbreqs := c.tlbreqs ++ [value] }

/-- The fields of TLBINV. -/
def tlbinvWord (kind ctx vpn : Nat) : W64 := BitVec.ofNat 64 (kind + 256 * (ctx % 64) + 65536 * (vpn % 2 ^ 36))

/-- TLBINV_CONTEXT, TLBINV_PAGE and TLBINV_ALL (R252). -/
def execTlbinvContext (ctx : Nat) (s : State) : Out := .next (s.requestInv (tlbinvWord 1 ctx 0))
def execTlbinvPage (ctx vpn : Nat) (s : State) : Out := .next (s.requestInv (tlbinvWord 2 ctx vpn))
def execTlbinvAll (s : State) : Out := .next (s.requestInv (tlbinvWord 3 0 0))

/-- Whether a request names a cached translation. -/
def invMatches (w : W64) (t : TlbEntry) : Bool :=
  let ctx := (w.extractLsb' 8 6).toNat
  let vpn := (w.extractLsb' 16 36).toNat
  match (w.extractLsb' 0 2).toNat with
  | 1 => t.ctx == ctx
  | 2 => t.ctx == ctx && t.vpn ≤ vpn && vpn < t.vpn + t.pages
  | 3 => true
  | _ => false

/-- A request completes: every matching entry has been dropped; interrupt 2 as BUSY falls. DEDUCED (assumption 50). -/
def State.completeInv (s : State) : State :=
  match s.ctrl.tlbreqs with
  | [] => s
  | w :: rest =>
    let s : State := { s with tlb := s.tlb.filter fun t => !invMatches w t }
    let s := s.modCtrl fun c => { c with tlbreqs := rest }
    if rest.isEmpty then s.interrupt 2 else s

/-- TLB_INVALIDATION_COMPLETE (R252). -/
def execTlbInvalidationComplete (s : State) : Out := .next s.completeInv

end Sys2Proof.Machine
end

