-- ==== Sys2Proof/Machine/Regs.lean ====
section
/-!
DEFINITION. The registers of the control space and of BAR0 (R236, R239, R240, R248 to R254, R276), the clocks of the
islands, BAR2 and the PCIe configuration.
-/
namespace Sys2Proof.Machine

/-! Island clocks (R239, R241, R251). -/

/-- The frequency steps of a ratio (R239). -/
def stepCount : Nat → Nat
  | 0 => 4
  | _ => 3

/-- A converter runs at a ratio and a step; a change of ratio stops the clock for 2,100 ticks (R239). -/
def State.setConverter (s : State) (k ratio step : Nat) : State :=
  let s := s.syncIsland k
  let i := s.island k
  if i.ratio = ratio then s.putIsland k { i with stepIdx := step }
  else s.putIsland k { i with ratio, stepIdx := step, settling := 2100, tick := s.timeref, phase := 0 }

/-- A write of CLOCK (R251): ignored for ratio 3, for a step beyond the ratio's, and while a hot mark forces the island.
DEDUCED (assumption 51). -/
def State.setClock (s : State) (k ratio step : Nat) : State :=
  if 24 ≤ k || 3 ≤ ratio || stepCount ratio ≤ step || s.hot.contains (k / 6) then s else s.setConverter k ratio step

/-- CLOCK_STEP_CHANGE (R239). -/
def execClockStepChange (island step : Nat) (s : State) : Out := .next (s.setClock island (s.island island).ratio step)

/-- CLOCK_RATIO_CHANGE (R239). -/
def execClockRatioChange (island ratio step : Nat) (s : State) : Out := .next (s.setClock island ratio step)

/-- RATIO_SETTLE_END (R239): the clock restarts once the converter's 2,100 ticks have passed. -/
def execRatioSettleEnd (island : Nat) (s : State) : Out :=
  .next (let i := s.island island
    if i.settling = 0 || (s.timeref - i.tick).toNat < i.settling then s else s.syncIsland island)

/-! Link injectors (R236). -/

/-- Fields of INJCFG. -/
def injEN (v : W64) : Bool := v.getLsbD 63
def injMODE (v : W64) : Nat := (v.extractLsb' 61 2).toNat
def injREPEAT (v : W64) : Bool := v.getLsbD 60
def injDELAY (v : W64) : Nat := (v.extractLsb' 32 20).toNat
def injN (v : W64) : Nat := (v.extractLsb' 0 32).toNat

/-- A write of INJCFG arms or disarms the injector and restarts its count of flits; MODE 3 is not armed. -/
def State.writeInjcfg (s : State) (link : Nat) (v : W64) : State :=
  if 26 ≤ link then s
  else s.modLink link fun l => { l with
    injcfg := v &&& 0xFE3FFFFFFFFFFFFF
    armed := injEN v && injMODE v != 3
    flits := 0
    due := 0 }

/-- INJCFG_WRITE (R236). -/
def execInjcfgWrite (link : Nat) (value : W64) (s : State) : Out := .next (s.writeInjcfg link value)

/-! Features (R248). -/

/-- The first write of FEATACC stores the accepted features; later writes are ignored until the next reset. -/
def State.writeFeatacc (s : State) (v : W64) : State :=
  if s.ctrl.featWritten then s else s.modCtrl fun c => { c with featacc := v &&& c.featoff, featWritten := true }

/-- FEATACC_WRITE (R246, R248): the host's write; a device that serves only the management port takes none. -/
def execFeataccWrite (value : W64) (s : State) : Out := .next (if s.confined then s else s.writeFeatacc value)

/-! Control space and BAR0 (R249, R251, R276). -/

/-- A register of the device block (R249). -/
def State.writeDevice (s : State) (off : Nat) (v : W64) : State :=
  match off with
  | 0x000 => s.modCtrl fun c => { c with ctxtbl := v &&& 0x0000FFFFFFFFF000 }
  | 0x008 => s.configureFaults false v
  | 0x010 => s.configureFaults true v
  | 0x020 => s.reply (v.extractLsb' 0 16).toNat (v.extractLsb' 16 2).toNat
  | 0x028 => s.requestInv v
  | 0x030 => if v.getLsbD 1 then s.modCtrl fun c => { c with tlbovf := false } else s
  | 0x038 => if v.getLsbD 8 then s.startDrain v else s.startRestore v
  | 0x048 => s.modCtrl fun c => { c with tdrain := v }
  | 0x050 => s.modCtrl fun c => { c with tseize := v }
  | _ => s

/-- The link of an offset in the link block: Quoin ports 0 to 17, die-to-die links 18 to 25 (R249). -/
def linkAt (off : Nat) : Option Nat :=
  if off / 64 < 18 then some (off / 64)
  else if 0x800 ≤ off && off / 64 < 0x20 + 8 then some (18 + (off / 64 - 0x20))
  else none

def State.writeLinkBlock (s : State) (off : Nat) (v : W64) : State :=
  match linkAt off, off % 64 with
  | some l, 0 => s.writeInjcfg l v
  | some l, 8 => s.modLink l fun x => { x with injmask := v }
  | _, _ => s

/-- A write to the control space (R249): an access of another width than 64 bits or another alignment, and an offset that is
not listed, are ignored. DEDUCED (assumption 47). -/
def State.writeControl (s : State) (off bytes : Nat) (v : W64) : State :=
  if off % 8 != 0 || bytes != 8 then s
  else if off < 0x1000 then s.writeDevice off v
  else if off < 0x2000 then s.writeLinkBlock (off - 0x1000) v
  else if 0x100000 ≤ off && off < 0x200000 then
    let core := (off - 0x100000) / 0x1000
    match off % 0x1000 with
    | 0x000 => s.modCore core fun c => { c with chkcmp := v }
    | 0x008 => s.modCore core fun c => { c with chkskip := v }
    | _ => s
  else if 0x200000 ≤ off && off < 0x200C00 then
    let k := (off - 0x200000) / 0x80
    match off % 0x80 with
    | 0x00 => let s := s.syncIsland k; s.putIsland k { s.island k with droopth := (v &&& 0xFFFFF).setWidth 32 }
    | 0x18 => s.setClock k (v.extractLsb' 0 2).toNat (v.extractLsb' 2 2).toNat
    | _ => s
  else s

/-- A register of BAR0 written whole (R276). -/
def State.writeBar0Reg (s : State) (off : Nat) (v : W64) : State :=
  match off with
  | 0x18 => s.writeFeatacc v
  | 0x20 => s.modCtrl fun c => { c with bar2base := v &&& 0x0000FFFFF0000000 }
  | 0x28 => s.modCtrl fun c => { c with msistat := c.msistat &&& ~~~v }
  | _ => s

/-- The value that a register takes when one half of it is written: the other half of what it holds, and no 1 to clear by. -/
def State.bar0Rest (s : State) (off : Nat) : W64 :=
  match off with
  | 0x18 => s.ctrl.featacc
  | 0x20 => s.ctrl.bar2base
  | _ => 0

/-- A write to BAR0 (R276): an aligned request of 32 or 64 bits; one of 32 bits writes a half of a register.
DEDUCED (assumption 93). -/
def State.writeBar0 (s : State) (off bytes : Nat) (v : W64) : State :=
  if s.confined then s
  else match bytes with
  | 8 => if off % 8 == 0 then s.writeBar0Reg off v else s
  | 4 =>
    let reg := off / 8 * 8
    let x := v &&& 0xFFFFFFFF
    let rest := s.bar0Rest reg
    if off % 8 == 0 then s.writeBar0Reg reg ((rest &&& 0xFFFFFFFF00000000) ||| x)
    else if off % 8 == 4 then s.writeBar0Reg reg ((rest &&& 0xFFFFFFFF) ||| (x <<< 32))
    else s
  | _ => s

/-- REGISTER_WRITE (R249, R276). -/
def execRegisterWrite (space : RegSpace) (offset : Nat) (value : RegData) (s : State) : Out :=
  .next (match space with
    | .control => s.writeControl offset value.bytes value.value
    | .bar0 => s.writeBar0 offset value.bytes value.value)

/-- PRESTAT (R254) and TLBSTAT (R252). -/
def State.prestat (s : State) : W64 :=
  BitVec.ofNat 64 (s.ctrl.preState + (if s.ctrl.preReset then 4 else 0) + (if s.ctrl.preRestored then 8 else 0) + 16 * s.ctrl.preCtx)

def State.tlbstat (s : State) : W64 :=
  let n := s.ctrl.tlbreqs.length
  BitVec.ofNat 64 ((if n = 0 then 0 else 1) + (if s.ctrl.tlbovf then 2 else 0) + 4 * n)

/-- CSTAT of a core (R251): every logical core is enabled, on a site of its die. -/
def State.cstat (s : State) (core : Nat) : W64 :=
  if (s.sites.getD (core / 64) []).length ≤ core % 64 then 0
  else BitVec.ofNat 64 (1 + 2 * s.passes core 0 + 8 * s.passes core 1 + 32 * (s.site core % 72) + 4096 * (core / 64))

/-- ISSUECAP of an island (R240). -/
def Island.issuecap (i : Island) : W64 := BitVec.ofNat 64 (i.capLeft + 65536 * i.capState)

/-- A read of the control space (R249): write-only registers, offsets that are not listed and accesses of another width or
alignment read zero. -/
def State.readControl (s : State) (off bytes : Nat) : W64 :=
  if off % 8 != 0 || bytes != 8 then 0
  else if off < 0x1000 then
    match off with
    | 0x000 => s.ctrl.ctxtbl
    | 0x008 => s.ctrl.fbbase
    | 0x010 => s.ctrl.fbsize
    | 0x018 => s.ctrl.fbhead
    | 0x030 => s.tlbstat
    | 0x040 => s.prestat
    | 0x048 => s.ctrl.tdrain
    | 0x050 => s.ctrl.tseize
    | _ => 0
  else if off < 0x2000 then
    match linkAt (off - 0x1000), off % 64 with
    | some l, 0 => (s.link l).injcfg
    | some l, 8 => (s.link l).injmask
    | _, _ => 0
  else if 0x100000 ≤ off && off < 0x200000 then
    let core := (off - 0x100000) / 0x1000
    match off % 0x1000 with
    | 0x000 => (s.core core).chkcmp
    | 0x008 => (s.core core).chkskip
    | 0x010 => s.cstat core
    | 0x018 => s.lanemap core
    | _ => 0
  else if 0x200000 ≤ off && off < 0x200C00 then
    let k := (off - 0x200000) / 0x80
    let i := (s.syncIsland k).island k
    match off % 0x80 with
    | 0x00 => i.droopth.setWidth 64
    | 0x08 => i.droopcnt.setWidth 64
    | 0x10 => i.issuecap
    | 0x18 => BitVec.ofNat 64 (i.ratio + 4 * i.stepIdx)
    | 0x20 => i.temp.setWidth 64
    | _ => 0
  else 0

/-- A register of BAR0 read whole (R276). -/
def State.readBar0Reg (s : State) (off : Nat) : W64 :=
  match off with
  | 0x00 => s.ctrl.ready
  | 0x10 => s.ctrl.featoff
  | 0x18 => s.ctrl.featacc
  | 0x20 => s.ctrl.bar2base
  | 0x28 => s.ctrl.msistat
  | 0x30 => s.ctrl.mgmtstat
  | _ => 0

/-- A read of BAR0 (R276): an aligned request of 32 or 64 bits. A device that serves only the management port answers none
(R246), shown as 0. DEDUCED (assumption 92). -/
def State.readBar0 (s : State) (off bytes : Nat) : W64 :=
  if s.confined then 0
  else match bytes with
  | 8 => if off % 8 == 0 then s.readBar0Reg off else 0
  | 4 => if off % 4 == 0 then (s.readBar0Reg (off / 8 * 8) >>> (8 * (off % 8))) &&& 0xFFFFFFFF else 0
  | _ => 0

/-! BAR2 and the configuration space (R275 to R277). -/

/-- The physical address of an offset in BAR2: bits of the base below the window's size are ignored (R276). -/
def State.bar2Addr (s : State) (off : Nat) : Nat :=
  s.ctrl.bar2base.toNat / 2 ^ s.ctrl.bar2log2 * 2 ^ s.ctrl.bar2log2 + off

/-- A host access through BAR2 (R276): beyond 640 GiB it reads zero and writes nothing. DEDUCED (assumption 52). -/
def State.bar2 (s : State) (r : LinkReq) : State :=
  match r with
  | .read a n =>
    if 2 ^ s.ctrl.bar2log2 < a + n then s
    else
      let p := s.bar2Addr a
      s.send (.hostData ((List.range n).map fun i => if p + i < hbmSize then s.readByte .hbm (p + i) else 0))
  | .write a bs =>
    if 2 ^ s.ctrl.bar2log2 < a + bs.length then s
    else s.writeBytesAt ((storeBytes .hbm (s.bar2Addr a) bs).filter fun b => decide (b.addr < hbmSize))
  | .atom _ _ _ _ => s
  | .cas _ _ _ _ => s

/-- HOST_BAR2_ACCESS (R276). -/
def execHostBar2Access (req : LinkReq) (s : State) : Out := .next (if s.confined then s else s.bar2 req)

/-- A pending vector that is masked no more is sent (R277). PRESUMED (assumption 53). -/
def State.sendPending (s : State) (v : Nat) : State :=
  if s.ctrl.msipend.getLsbD v && s.ctrl.msixOn && !s.ctrl.masks v then
    (s.modCtrl fun c => { c with msipend := c.msipend &&& ~~~(1#64 <<< v) }).sendMsix v
  else s

/-- A write of the configuration space: the size of BAR2, 256 MiB to 1 TiB, or the MSI-X capability with its vector table; a vector
raised while it was masked is sent as its mask is cleared (R276, R277). PRESUMED (assumption 53). -/
def State.configure (s : State) (c : PcieCfg) : State :=
  match c with
  | .bar2Size n => if 28 ≤ n && n ≤ 40 then s.modCtrl fun c => { c with bar2log2 := n } else s
  | .msixMask v masked =>
    if 64 ≤ v then s
    else if masked then s.modCtrl fun c => { c with msimask := c.msimask ||| (1#64 <<< v) }
    else (s.modCtrl fun c => { c with msimask := c.msimask &&& ~~~(1#64 <<< v) }).sendPending v
  | .msixEntry v addr data =>
    if 64 ≤ v then s
    else s.modCtrl fun c => { c with msixAddr := c.msixAddr.set v (addr &&& ~~~3#64), msixData := c.msixData.set v data }
  | .msixControl enable functionMask =>
    (List.range 64).foldl State.sendPending (s.modCtrl fun c => { c with msixOn := enable, msixOff := functionMask })

/-- PCIE_CONFIGURATION_WRITE (R246, R276, R277). -/
def execPcieConfigurationWrite (c : PcieCfg) (s : State) : Out := .next (if s.confined then s else s.configure c)

end Sys2Proof.Machine
end

