-- ==== Sys2Proof/Machine/Links.lean ====
section
/-!
DEFINITION. The Quoin ports and the die-to-die links (R129 to R131, R219, R236): the receive reserve and its pauses,
requests of peers, puts, and the link injectors.
-/
namespace Sys2Proof.Machine

/-- A Quoin port is trained (R247, R248). -/
def State.portUp (s : State) (port : Nat) : Bool := decide (port < 18) && s.ctrl.ready.getLsbD (20 + port)

/-- A flit is counted by a link's injector; the Nth after arming is the one to be injected, and from it REPEAT counts again
(R236, R248 INJECT). Flits received are counted, and none that is sent. DESIGN CHOICE (assumption 116). -/
def State.countFlit (s : State) (link : Nat) : State :=
  s.modLink link fun l =>
    if s.ctrl.featacc.getLsbD 7 && l.armed && injN l.injcfg != 0 && l.flits + 1 == injN l.injcfg then
      { l with flits := 0, due := l.due + 1, armed := injREPEAT l.injcfg }
    else { l with flits := l.flits + 1 }

/-- A flit enters the reserve of 1,024; a free reserve below one quarter sends a pause flit (R131). -/
def State.enterReserve (s : State) (port : Nat) : State :=
  let l := s.link port
  if 1024 ≤ l.reserve then s
  else
    let s := (s.countFlit port).modLink port fun l => { l with reserve := l.reserve + 1 }
    if 1024 - (l.reserve + 1) < 256 && !l.pausing then
      (s.modLink port fun l => { l with pausing := true }).send (.pause port)
    else s

/-- Flits leave the reserve; a free reserve of one half sends a resume flit (R131). -/
def State.leaveReserve (s : State) (port n : Nat) : State :=
  let l := s.link port
  let s := s.modLink port fun l => { l with reserve := l.reserve - n }
  if l.pausing && 512 ≤ 1024 - (l.reserve - n) then (s.modLink port fun l => { l with pausing := false }).send (.resume port)
  else s

/-- Whether a request of n flits has come whole into a trained port's reserve, with no share late (R131, R236). -/
def State.arrivedFlits (s : State) (port n : Nat) : Bool :=
  !s.confined && s.portUp port && decide (n ≤ (s.link port).reserve) && decide ((s.link port).lateUntil ≤ s.timeref)

/-- Ticks of n flit times: a flit of 256 bytes at 224 GB/s takes 1.2 ticks (R6). DEDUCED (assumption 90). -/
def flitTicks (n : Nat) : Nat := (6 * n + 4) / 5

/-- FLIT_RECEIVE (R131, R236): a flit of a trained port, or of a die-to-die link, whose injector counts it. -/
def execFlitReceive (port : Nat) (s : State) : Out :=
  .next (if s.portUp port then s.enterReserve port
    else if 18 ≤ port && port < 26 then s.countFlit port
    else s)

/-- PAUSE_FLIT_RECEIVE (R131): the sender stops starting data flits within 64 flit times, which are 76.8 ticks. -/
def execPauseFlitReceive (port : Nat) (s : State) : Out :=
  .next (if s.portUp port then s.modLink port fun l => { l with paused := true, stopIn := 64, stopAt := s.timeref + BitVec.ofNat 64 (flitTicks 64) } else s)

/-- RESUME_FLIT_RECEIVE (R131). -/
def execResumeFlitReceive (port : Nat) (s : State) : Out :=
  .next (if s.portUp port then s.modLink port fun l => { l with paused := false, stopIn := 0, stopAt := 0 } else s)

/-- A request of a peer is carried out at the home L2 (R129). An address beyond HBM is answered with an error.
DEDUCED (assumption 54). -/
def State.servePeer (s : State) (port : Nat) (r : LinkReq) : State :=
  match r with
  | .read a n =>
    if hbmSize < a + n then s.send (.putError port) else s.send (.data port (s.readBytesAt .hbm a n))
  | .write a bs =>
    if hbmSize < a + bs.length then s.send (.putError port)
    else (s.writeBytesAt (storeBytes .hbm a bs)).send (.ack port)
  | .atom op ty a c =>
    let n := if ty == .b64 then 8 else 4
    if hbmSize < a + n then s.send (.putError port)
    else
      let x := s.readAt .hbm a n
      (s.mergeBytesAt (storeBytes .hbm a (bytesOf (atomNew op.toNat ty x c.toNat) n))).send (.data port (bytesOf x n))
  | .cas a n cmp new =>
    if hbmSize < a + n then s.send (.putError port)
    else
      let x := s.readAt .hbm a n
      let s := if x = cmp.toNat % 2 ^ (8 * n) then s.mergeBytesAt (storeBytes .hbm a (bytesOf new.toNat n)) else s
      s.send (.data port (bytesOf x n))

/-- The flits that a request takes: those of its data, of 256 bytes each, and one for a request with none (R6).
DEDUCED (assumption 54). -/
def reqFlits : LinkReq → Nat
  | .write _ bs => flitsOf bs.length
  | _ => 1

/-- The end of the range that a request reaches. -/
def reqEnd : LinkReq → Nat
  | .read a n => a + n
  | .write a bs => a + bs.length
  | .atom _ ty a _ => a + if ty == .b64 then 8 else 4
  | .cas a n _ _ => a + n

/-- The data flits of the response to a request; an acknowledgement or an error has none (R131). DEDUCED (assumption 54). -/
def responseFlits (r : LinkReq) : Nat :=
  if hbmSize < reqEnd r then 0
  else match r with
    | .read _ n => flitsOf n
    | .write _ _ => 0
    | .atom _ _ _ _ => 1
    | .cas _ _ _ _ => 1

/-- A request is carried out, and the data of its response goes out through the port; a paused one counts its last flits
(R129, R131). -/
def State.answer (s : State) (port : Nat) (r : LinkReq) : State :=
  let n := responseFlits r
  let s := if 0 < n && (s.link port).paused then s.modLink port fun l => { l with stopIn := l.stopIn - n } else s
  s.servePeer port r

/-- PEER_REQUEST (R129, R131): a request that waits in the port's reserve, and there for a paused port to start the data of its
response. -/
def execPeerRequest (port : Nat) (_dev : Nat) (req : LinkReq) (s : State) : Out :=
  .next (if s.arrivedFlits port (reqFlits req) && (responseFlits req == 0 || s.portTakes port (responseFlits req)) then
      (s.answer port req).leaveReserve port (reqFlits req)
    else s)

/-- The fields of a put's physical address (R130). -/
def putCtx (phys : BitVec 48) : Nat := (phys.extractLsb' 42 6).toNat
def putTeam (phys : BitVec 48) : Nat := (phys.extractLsb' 20 22).toNat
def putOff (phys : BitVec 48) : Nat := (phys.extractLsb' 0 20).toNat

/-- The live team that a put names. DEDUCED (assumption 55). -/
def State.putTarget (s : State) (phys : BitVec 48) : Option (Nat × Team) :=
  s.teams.find? fun e => e.2.ctx == putCtx phys && e.2.teamix == putTeam phys

/-- Flits of a context's bounce ring that hold puts (R219). -/
def State.bounceUsed (s : State) (ctx : Nat) : Nat := sumList ((s.ctx ctx).bounce.map fun p => flitsOf p.length)

/-- A put goes into the next flits of the ring, in HBM at BOUNCEBASE (R219, R250). -/
def State.bouncePut (s : State) (ctx key off : Nat) (data : List Byte) : State :=
  let flit := (s.ctx ctx).bounceNext
  let n := s.bounceSize ctx / 256
  let s := s.writeBytesAt (data.zipIdx.map fun b => ⟨.hbm, s.ringByte ctx flit b.2, b.1⟩)
  s.modCtx ctx fun c => { c with
    bounce := c.bounce ++ [⟨key, off, flit, data.length⟩], bounceNext := (flit + flitsOf data.length) % n }

/-- A put (R130, R219): written to a live team's scratch, held in the bounce ring of a saved one, or discarded with an error
response. A full ring leaves the put in the port and pauses the sender. -/
def State.receivePut (s : State) (port : Nat) (phys : BitVec 48) (data : List Byte) : State :=
  let n := flitsOf data.length
  match s.putTarget phys with
  | none => (s.send (.putError port)).leaveReserve port n
  | some (key, t) =>
    let off := putOff phys
    if t.scratchSize < off + data.length || t.scratchSize ≤ off then (s.send (.putError port)).leaveReserve port n
    else if t.residence != .saved then
      ((s.writeBytesAt (storeBytes (.scratch key) off data)).send (.ack port)).leaveReserve port n
    else if s.bounceUsed t.ctx + n ≤ s.bounceSize t.ctx / 256 then
      ((s.bouncePut t.ctx key off data).send (.ack port)).leaveReserve port n
    else if (s.link port).pausing then s
    else (s.modLink port fun l => { l with pausing := true }).send (.pause port)

/-- PUT_RECEIVE (R130, R219). -/
def execPutReceive (port : Nat) (phys : BitVec 48) (data : List Byte) (s : State) : Out :=
  .next (if s.arrivedFlits port (flitsOf data.length) then s.receivePut port phys data else s)

/-- Whether a link's injector acts now: its Nth flit has come (R236). -/
def State.injects (s : State) (link : Nat) : Bool := decide (0 < (s.link link).due)

/-- The injection: it is counted; a corrupted or dropped share is sent again, and a delayed one comes DELAY flit times late,
and with it what the port holds (R131, R236). DEDUCED (assumption 90). -/
def State.inject (s : State) (link : Nat) : State :=
  if !s.injects link then s
  else
    let late := s.timeref + BitVec.ofNat 64 (flitTicks (injDELAY (s.link link).injcfg))
    s.modLink link fun l => { l with
      due := l.due - 1
      injected := l.injected + 1
      retransmits := if injMODE l.injcfg < 2 then l.retransmits + 1 else l.retransmits
      lateUntil := if injMODE l.injcfg == 2 && l.lateUntil < late then late else l.lateUntil }

/-- LINK_INJECTION (R236). -/
def execLinkInjection (link : Nat) (s : State) : Out := .next (s.inject link)

end Sys2Proof.Machine
end

