-- ==== Sys2Proof/Machine/Power.lean ====
section
/-!
DEFINITION. Droops, thermal marks, lifetime counters, lane retirement, power and resets, bring-up and restart (R16, R226,
R234 to R241, R245 to R247, R272, R273, R275, R279).
-/
namespace Sys2Proof.Machine

/-! Droops (R240). -/

/-- Idle edges of an island until a test holds, at most n; a clock that has stopped delivers none (R239). -/
def State.edgesUntil (s : State) (k : Nat) (stop : Island → Bool) : Nat → State
  | 0 => s
  | n + 1 => if stop (s.island k) || (s.island k).settling != 0 then s else (s.edge k 0 none).edgesUntil k stop n

/-- DROOP_ALARM (R240, R242): a pending alarm fires, at most 2 cycles on. -/
def execDroopAlarm (island : Nat) (s : State) : Out :=
  .next (let n := (s.island island).droopcnt
    if (s.island island).alarms.isEmpty then s else s.edgesUntil island (fun i => i.droopcnt != n || i.alarms.isEmpty) 2)

/-- DROOP_STRETCH_END (R240): the stretched cycles that are left pass. -/
def execDroopStretchEnd (island : Nat) (s : State) : Out :=
  .next (if (s.island island).capState = 1 then s.edgesUntil island (fun i => i.capState != 1) 6 else s)

/-- DROOP_CAP_END (R240): the capped cycles that are left pass. -/
def execDroopCapEnd (island : Nat) (s : State) : Out :=
  .next (if (s.island island).capState = 2 then s.edgesUntil island (fun i => i.capState != 2) 64 else s)

/-! Sensors and thermal marks (R226, R237, R241, R281). -/

/-- The sensors of islands 0 to 23 and of the hub show new values, which come from outside (assumption 3). -/
def State.sense (s : State) (temps : List W16) : State :=
  let s := (List.range 24).foldl (fun s k => s.putIsland k { s.island k with temp := temps.getD k 0 }) s
  s.modMgmt fun m => { m with hubTemp := temps.getD 24 0 }

/-- The hotter of two signed sensor values. -/
def hotter (a b : W16) : W16 := if a.toInt < b.toInt then b else a

/-- The hottest sensor of a die. -/
def State.dieTemp (s : State) (die : Nat) : W16 :=
  (List.range 6).foldl (fun m i => hotter m (s.island (6 * die + i)).temp) (s.island (6 * die)).temp

/-- The hottest die sensor. -/
def State.deviceTemp (s : State) : W16 := [1, 2, 3].foldl (fun m d => hotter m (s.dieTemp d)) (s.dieTemp 0)

/-- A mark in units of 0.125 °C: 95, 105 and 115 °C (R9, R241). -/
def markAt : Mark → Int
  | .warn => 760
  | .hot _ => 840
  | .critical => 920

/-- The sensor that judges a mark (R9, R241). -/
def State.judged (s : State) : Mark → W16
  | .hot d => s.dieTemp d
  | _ => s.deviceTemp

/-- Whether the sensor that judges a mark has reached it, and whether it has fallen 5 °C below it (R241).
DEDUCED (assumption 42). -/
def State.reaches (s : State) (m : Mark) : Bool := decide (markAt m ≤ (s.judged m).toInt)
def State.fallen (s : State) (m : Mark) : Bool := decide ((s.judged m).toInt ≤ markAt m - 40)

/-- A thermal mark changes: Vilaz is told, and the status word formed again (R241, R249, R282). -/
def State.markChanged (s : State) : State := (s.interrupt 5).refreshStatus

/-- THERMAL_WARN (R241). -/
def execThermalWarn (s : State) : Out := .next (if s.warn || !s.reaches .warn then s else ({ s with warn := true } : State).markChanged)

/-- THERMAL_HOT (R241): every island of the die is forced to ratio 1/3 at 0.63 GHz. -/
def execThermalHot (die : Nat) (s : State) : Out :=
  .next (if 4 ≤ die || s.hot.contains die || !s.reaches (.hot die) then s
    else
      let s := (List.range 6).foldl (fun s i => s.setConverter (6 * die + i) 2 0) s
      ({ s with hot := die :: s.hot } : State).markChanged)

/-- The highest priority among a context's queues. -/
def State.topPrio (s : State) (ctx : Nat) : Nat :=
  s.queues.foldl (fun m e => if e.2.ctx == some ctx then max m e.2.prio else m) 0

/-- Whether a context is in use: Vilaz has created it, or it has teams or queues. -/
def State.ctxUsed (s : State) (c : Nat) : Bool :=
  (s.ctx c).live || s.teams.any (fun e => e.2.ctx == c) || s.queues.any (fun e => e.2.ctx == some c)

/-- Every context, by descending priority of its queues and then ascending CTXID (R226). -/
def State.seizeOrder (s : State) : List Nat :=
  let live := (List.range 64).filter s.ctxUsed
  [3, 2, 1, 0].flatMap fun p => live.filter fun c => s.topPrio c == p

/-- The sequence of R226 begins: a drain in progress gives way to it, and a seize in progress ends within its 105,000 ticks;
each context's seize follows the one before it. DEDUCED (assumption 43). -/
def State.critBegin (s : State) : State :=
  let s := s.modCtrl fun c => { c with critRun := true, critQueue := s.seizeOrder }
  if s.ctrl.preState = 2 then
    let limit := s.timeref + 105000
    s.modCtrl fun c => { c with preDeadline := if limit < c.preDeadline then limit else c.preDeadline }
  else s.critNext

/-- THERMAL_CRITICAL (R226, R241). -/
def execThermalCritical (s : State) : Out :=
  .next (if s.critical || !s.reaches .critical then s
    else (({ s with critical := true } : State).markChanged).critBegin)

/-- THERMAL_MARK_CLEAR (R241): the islands of a die whose hot mark clears stay at ratio 1/3 until CLOCK is written.
DESIGN CHOICE (assumption 105). -/
def execThermalMarkClear (mark : Mark) (s : State) : Out :=
  .next (if !s.fallen mark then s else match mark with
    | .warn => if s.warn then ({ s with warn := false } : State).markChanged else s
    | .hot d => if s.hot.contains d then ({ s with hot := s.hot.filter (· != d) } : State).markChanged else s
    | .critical => if s.critical then ({ s with critical := false } : State).markChanged else s)

/-! Alerts and lifetime counters (R237, R282). -/

/-- ALERT_REPEAT (R282): every unacknowledged alert is sent again. -/
def execAlertRepeat (s : State) : Out :=
  .next (if s.mgmt.collector.isEmpty then s
    else s.mgmt.unacked.foldl (fun t a => t.sendAlert a.1 a.2) s)

/-- The bin of a temperature in units of 0.125 °C: below 30 °C, then steps of 5 °C, up to 120 °C and above (R237). -/
def tempBin (t : W16) : Nat := if t.toInt < 240 then 0 else min 19 ((t.toInt.toNat - 240) / 40 + 1)

/-- LIFETIME_WRITEBACK (R237): an hour has passed: it counts in its temperature bin, and the counters go to flash.
DEDUCED (assumption 57). -/
def execLifetimeWriteback (s : State) : Out :=
  .next (let s := s.count (tempBin s.deviceTemp) 32
    s.modMgmt fun m => { m with flash := m.live })

/-- A lifetime counter as Vilaz reads it (R237), where the driver accepted LIFECNT (R248). DEDUCED (assumption 94). -/
def State.lifetimeCount (s : State) (index : Nat) : Option W64 :=
  if s.ctrl.featacc.getLsbD 8 && decide (index < 1073) then some (s.mgmt.live.get index) else none

/-- LANE_RETIRE (R238): the lane's bit of the retirement mask is set, and a lane newly retired is counted. -/
def execLaneRetire (die site lane : Nat) (s : State) : Out :=
  .next (if 4 ≤ die || 72 ≤ site || 64 ≤ lane then s
    else
      let key := die * 72 + site
      let mask := s.mgmt.retiredLanes.get key
      if mask.getLsbD lane then s
      else (s.modMgmt fun m => { m with retiredLanes := m.retiredLanes.set key (mask ||| (1#64 <<< lane)) }).count 1071 16)

/-! Power and resets (R2, R16, R237, R238, R246, R247). -/

/-- A list of numbers below 72 in ascending order. -/
def sortSites (l : List Nat) : List Nat := (List.range 72).filter l.contains

/-- The enabled sites of a die formed again: a site whose two pipes are disabled is replaced by a spare, which is a free
choice (R2, R238, assumption 4). -/
def State.replaceSites (s : State) (die : Nat) : List Nat → List Nat → Nat → List Nat
  | [], kept, _ => sortSites kept
  | site :: rest, kept, draw =>
    if s.siteGood (die * 72 + site) then s.replaceSites die rest kept draw
    else
      let spares := (List.range 72).filter fun i => !kept.contains i && s.siteGood (die * 72 + i)
      let kept := kept.filter (· != site)
      match spares[(Config.freeWord draw).toNat % spares.length]? with
      | some i => s.replaceSites die rest (i :: kept) (draw + 1)
      | none => s.replaceSites die rest kept (draw + 1)

/-- Pass counts, lane maps and logical numbers are fixed from the fuses and the retirement mask (R2, R16, R238).
DESIGN CHOICE (assumption 6). -/
def State.formCores (s : State) : State :=
  let bad := (List.range 288).foldl (fun m k =>
    let x := s.fusedBad.get k ||| s.mgmt.retiredLanes.get k
    if x = 0 then m else Sparse.set m k x) []
  let s : State := { s with laneBad := bad }
  let sites := (List.range 4).map fun d =>
    let l := s.sites.getD d []
    s.replaceSites d l l (s.freeCtr + 72 * d)
  { s with sites, freeCtr := s.freeCtr + 288 }

/-- What outlasts a reset: the fuses, the flash, what stands outside the device, and the model's own fields. -/
def State.rebooted (s : State) (hbm : Memory) (mgmt : Mgmt) : State :=
  ({ State.reset with
    agenda := s.agenda
    freeCtr := s.freeCtr
    partition := s.partition
    hbm
    host := s.host
    peers := s.peers
    spaces := s.spaces
    sites := s.sites
    deadSites := s.deadSites
    fusedBad := s.fusedBad
    mgmt
    outbox := s.outbox } : State).formCores

/-- The management controller after a loss of power: what the flash holds. -/
def Mgmt.reloaded (m : Mgmt) : Mgmt :=
  { ({} : Mgmt) with
    live := m.flash, flash := m.flash, bootSlot := m.bootSlot, slots := m.slots, stamps := m.stamps, trust := m.trust,
    storage := m.storage, retiredLanes := m.retiredLanes
    net := { fixed := m.net.fixed }, vilazNet := { fixed := m.vilazNet.fixed } }

/-- The bytes of a slot's image. -/
def imageBytes (size : Nat) (m : Memory) : List Byte := Memory.readBytes m 0 size

/-- The Markhor firmware reads the boot-select word and has the slot's image verified; it tries the other slot once; if both
fail the device serves only the management port (R246). DEDUCED (assumption 92). -/
def State.boot (s : State) (first : Bool) : State :=
  let image (b : Bool) : List Byte :=
    let x := s.mgmt.slots.getD b.toNat (false, 0, [])
    imageBytes x.2.1 x.2.2
  let run (b : Bool) : State := { s with vilaz := b, vilazDigest := Config.sm3 (image b), osFound := true, confined := false }
  if Config.imageVerifies (image first) then run first
  else if Config.imageVerifies (image !first) then run !first
  else { s with osFound := false, confined := true }

/-- POWER_ON (R237, R238, R246, R247): the device starts with every READY bit 0; the slot of Vilaz is found. -/
def execPowerOn (s : State) : Out :=
  .next (let t := s.rebooted resetHbm s.mgmt.reloaded
    (t.boot t.mgmt.bootSlot).count 1072 32)

/-- DEVICE_RESET (R16, R204, R238, R248). DEDUCED (assumption 56). -/
def execDeviceReset (s : State) : Out :=
  .next (let t := s.rebooted s.hbm { s.mgmt with openImage := none }
    (t.boot t.mgmt.bootSlot).refreshStatus)

/-- POWER_LOSS (R237): an orderly power-down writes the counters back; an abrupt loss keeps what the flash holds. -/
def execPowerLoss (orderly : Bool) (s : State) : Out :=
  .next (let m := if orderly then { s.mgmt with flash := s.mgmt.live } else s.mgmt
    { s.rebooted resetHbm m.reloaded with powered := false })

/-- The READY bit of a function (R247). DEDUCED (assumption 74). -/
def functionBit : Function → Nat
  | .keystone => 0
  | .hub => 1
  | .markhor => 2
  | .os => 3
  | .die d => 8 + d % 4
  | .hbm n => 12 + n % 8
  | .link i => 20 + i % 18
  | .mgmt => 38

/-- Whether a function can become usable: the keystone starts first, and a die needs 64 sites and a spare
(R2, R226, R238, R246, R248 QUOIN). -/
def State.canRise (s : State) (f : Function) : Bool :=
  let after (bit : Nat) : Bool := s.ctrl.ready.getLsbD bit
  match f with
  | .keystone => true
  | .hub => after 0 && Config.firmwareVerifies 0
  | .markhor => after 0 && after 1 && Config.firmwareVerifies 1
  | .os => after 0 && after 2 && s.osFound
  | .die d => after 0 && decide (d < 4) && !s.critical && (s.sites.getD d []).length == 64 && !s.noSpare d
  | .hbm n => after 0 && decide (n < 8) && !s.critical
  | .link i => after 0 && decide (i < 18) && s.ctrl.featacc.getLsbD 4
  | .mgmt => after 0

/-- Vilaz runs in S mode on every hart (R245). -/
def vilazHarts : List (Nat × Hart) := (List.range 8).map fun h => (h, { mode := .supervisor })

/-- FUNCTION_BRINGUP (R246, R247). -/
def execFunctionBringup (f : Function) (s : State) : Out :=
  .next (if s.canRise f then
      (if f = .os && !s.ctrl.ready.getLsbD 3 then { s with harts := vilazHarts } else s).setReady (functionBit f) true
    else s)

/-- Whether a number names a function. -/
def functionExists : Function → Bool
  | .die d => decide (d < 4)
  | .hbm n => decide (n < 8)
  | .link i => decide (i < 18)
  | _ => true

/-- FUNCTION_FAULT (R247). -/
def execFunctionFault (f : Function) (s : State) : Out := .next (if functionExists f then s.setReady (functionBit f) false else s)

/-- FUNCTION_LEVEL_RESET (R216, R246, R275): every context is reset; a device that serves only the management port takes none.
DEDUCED (assumption 58). -/
def execFunctionLevelReset (s : State) : Out :=
  .next (if s.confined then s else (List.range 64).foldl (fun s c => if s.ctxUsed c then s.forcedReset c else s) s)

/-! The restart of Vilaz (R245, R246, R272, R273). -/

/-- Whether the handover table's digest holds. -/
def State.tableOk (s : State) : Bool :=
  let n := s.hbm.readNat (handoverBase + 8) 4
  s.hbm.readNat (handoverBase + 16) 32 == (Config.sm3 (Memory.readBytes s.hbm (handoverBase + 64) (64 * n))).toNat

/-- Whether an entry of the handover table names a translation, and the bytes placed have the entry's DIGEST (R272). -/
def State.objectOk (s : State) (o : Translation) : Bool :=
  (List.range (s.hbm.readNat (handoverBase + 8) 4)).any fun i =>
    let e := handoverBase + 64 + 64 * i
    s.hbm.readNat e 4 == o.id && s.hbm.readNat (e + 4) 4 == o.ctx && s.hbm.readNat (e + 8) 4 == o.heapoff &&
    (Config.sm3 (Memory.readBytes s.hbm (heapBase + o.heapoff) (s.hbm.readNat (e + 12) 4))).toNat == s.hbm.readNat (e + 32) 32

/-- Translations from which one of some heap offsets is reached through patched fields (R265). -/
def patchedTo (os : List Translation) : Nat → List Nat → List Nat
  | 0, l => l
  | n + 1, l => patchedTo os n (l ++ (os.filter fun o => !o.freed && o.deps.any l.contains).map (·.heapoff)).eraseDups

/-- The new Vilaz adopts the heap: translations that fail, and those that would bind them, can no longer be bound, and go once
nothing binds them. DEDUCED (assumption 59). -/
def State.adopt (s : State) : State :=
  let ok := s.tableOk
  let bad := patchedTo s.objects s.objects.length
    ((s.objects.filter fun o => !o.freed && !(ok && s.objectOk o)).map (·.heapoff))
  let one (o : Translation) : Translation := if !o.freed && bad.contains o.heapoff then { o with unloaded := true } else o
  let s : State := { s with objects := s.objects.map one }
  let s := (s.freeObjects s.objects.length).writeHandover
  { s with hbm := Memory.writeNat s.hbm (handoverBase + 12) (s.hbm.readNat (handoverBase + 12) 4 + 1) 4 }

/-- VILAZ_RESTART (R273): the Markhor cores run into the other slot; control programs stop; contexts survive. -/
def execVilazRestart (s : State) : Out :=
  .next (if !s.ctrl.ready.getLsbD 2 then s
    else
      let s := s.setReady 3 false
      let stop (c : Ctx) : Ctx := { c with running := false, waiting := none }
      let s : State := { s with ctxs := s.ctxs.map fun e => (e.1, stop e.2), harts := vilazHarts }
      let s := s.boot (!s.vilaz)
      if s.osFound then (s.adopt).setReady 3 true else s.refreshStatus)

/-- ETHERNET_FRAME_RECEIVE (R279): the two fused addresses; group frames go to both owners, others are dropped. -/
def execEthernetFrameReceive (dst : BitVec 48) (group : Bool) (s : State) : Out :=
  .next (let mgmt := group || dst == Config.macBase
    let vilaz := group || dst == Config.macBase + 1
    if mgmt || vilaz then s.send (.frame vilaz mgmt) else s)

/-! Errors that SECDED meets (R235, R237). -/

/-- The pseudo-channel of an HBM address (R120). -/
def pseudoChannel (a : Nat) : Nat := a / (160 * 2 ^ 30) * 256 + a / 256 % 256

/-- The word at the point of coherence under a cached copy. -/
def underCopy : ProtWord → ProtWord
  | .l2 w => .hbm w
  | .l1 _ h => h
  | w => w

/-- The line of the cached spaces that holds a word. -/
def wordLine : ProtWord → Option (Place × Nat)
  | .hbm w => some (.hbm, lineOf (8 * w))
  | .host w => some (.host, lineOf (8 * w))
  | .peer d w => some (.peer d, lineOf (8 * w))
  | _ => none

/-- Whether a cache holds the copy that a word names; a word of a memory is there. -/
def State.holdsCopy (s : State) : ProtWord → Bool
  | .l2 w => (s.l2Line (8 * w)).isSome
  | .l1 core h => (s.core core).l1.any fun l => wordLine h == some (l.place, l.line)
  | _ => true

/-- SECDED_ERROR (R235): a corrected error is repaired and, in HBM, counted; an uncorrectable one marks the word, from which
the loads that have issued read before it; while one of them still waits for something else, the error has not struck.
DESIGN CHOICE (assumption 77). -/
def execSecdedError (w : ProtWord) (corrected : Bool) (s : State) : Out :=
  .next (if corrected then
      match w with
      | .hbm a => if 8 * a < hbmSize then s.count (44 + pseudoChannel (8 * a)) 32 else s
      | _ => s
    else if s.poison.contains w || !s.holdsCopy w then s
    else
      let s := s.readFirst [underCopy w]
      if s.readLater [underCopy w] then s else { s with poison := w :: s.poison })

end Sys2Proof.Machine
end

