-- ==== Sys2Proof/Machine/Mgmt.lean ====
section
/-!
DEFINITION. The management protocol (R237, R278, R280 to R282, R284): messages, their acceptance and the operations.
-/
namespace Sys2Proof.Machine

/-- The bytes of a request that its signature covers. -/
def signedBytes (m : MgmtMsg) : List Byte :=
  bytesOf m.magic.toNat 2 ++ [m.version, m.op] ++ bytesOf m.flags.toNat 2 ++ bytesOf m.len.toNat 2 ++ bytesOf m.seq.toNat 4 ++
  bytesOf m.keyId.toNat 4 ++ bytesOf m.stamp.toNat 8 ++ bytesOf m.zero.toNat 8 ++ m.body

/-- A response that is kept among the last 16 (R280). -/
def State.respond (s : State) (m : MgmtMsg) (err : Bool) (body : List Byte) : State :=
  (s.modMgmt fun x => { x with responses := ((m.keyId, m.seq, m.op, err, body) :: x.responses).take 16 }).sendSigned m.src m.op err false m.seq body

/-- The key of an identifier in a trust list: entries of 4 and 64 bytes (R281). -/
def trustedKey (list : List (List Byte)) (id : Nat) : Option (List Byte) :=
  (list.find? fun e => natOfBytes (e.take 4) == id).map (·.drop 4)

/-- Whether a request is signed by a key of the management trust list. -/
def State.signedOk (s : State) (m : MgmtMsg) : Bool :=
  match trustedKey (s.mgmt.trust.getD 1 []) m.keyId.toNat with
  | some key => Config.sm2Verify key (Config.sm3 (signedBytes m)) m.sig
  | none => false

def State.lastStamp (s : State) (key : Nat) : Option W64 := tfind s.mgmt.stamps key

/-- The management controller's addresses (R279). -/
def NetAddrs.has (n : NetAddrs) (a : List Byte) : Bool := n.taken.contains a || n.fixed.contains a

/-- A datagram of the protocol: one for port 4160 of an address of the management controller (R279, R280). -/
def State.delivered (s : State) (m : MgmtMsg) : Bool := s.mgmt.net.has m.dst.addr && m.dst.port == 4160

/-- What a message is, before its operation is looked at (R280). -/
inductive Intake where
  | dropped
  | repeated (op : Byte) (err : Bool) (body : List Byte)
  | refused (code : Nat)
  | accepted
deriving DecidableEq, Repr

def State.intake (s : State) (m : MgmtMsg) : Intake :=
  if !s.ctrl.ready.getLsbD 38 || !s.delivered m || m.magic != 0x4D47 || m.version != 1 || m.flags.getLsbD 0 then .dropped
  else if !s.signedOk m then .refused 2
  else match s.mgmt.responses.find? fun r => r.1 == m.keyId && r.2.1 == m.seq with
    | some r => .repeated r.2.2.1 r.2.2.2.1 r.2.2.2.2
    | none =>
      match s.lastStamp m.keyId.toNat with
      | some l => if m.stamp ≤ l then .refused 3 else .accepted
      | none => .accepted

/-- The result of an operation: an error code or a body. -/
abbrev MgmtResult := Except Nat (List Byte)

/-- A request of an operation: the intake of R280, then the operation. A malformed header or body is a bad argument.
DEDUCED (assumption 60). -/
def State.manage (s : State) (m : MgmtMsg) (f : State → State × MgmtResult) : State :=
  match s.intake m with
  | .dropped => s
  | .refused c => (s.interrupt 7).respond m true (bytesOf c 4)
  | .repeated op err body => (s.interrupt 7).sendSigned m.src op err true m.seq body
  | .accepted =>
    let s := (s.interrupt 7).modMgmt fun x => { x with stamps := tput x.stamps m.keyId.toNat m.stamp }
    if m.len.toNat != m.body.length || 1152 < m.body.length || m.flags != 0 || m.zero != 0 then s.respond m true (bytesOf 4 4)
    else match f s with
      | (s, .ok body) => s.respond m false body
      | (s, .error c) => s.respond m true (bytesOf c 4)

/-- An operation with its code (R281); a message with another code is not this step's. -/
def State.operation (s : State) (m : MgmtMsg) (op : Byte) (f : State → State × MgmtResult) : State :=
  if m.op = op then s.manage m f else s

/-- An operation that has no request body. -/
def bare (m : MgmtMsg) (f : State → State × MgmtResult) (s : State) : State × MgmtResult :=
  if m.body.isEmpty then f s else (s, .error 4)

/-- The byte, and the little-endian number, at a place of a body. -/
def msgNum (m : MgmtMsg) (off n : Nat) : Nat := natOfBytes ((m.body.drop off).take n)

/-- GETREADY (R247, R281). -/
def execGetready (m : MgmtMsg) (s : State) : Out :=
  .next (s.operation m 0x01 (bare m fun s => (s, .ok (bytesOf s.ctrl.ready.toNat 8))))

/-- GETSTATUS (R281, R282). -/
def execGetstatus (m : MgmtMsg) (s : State) : Out :=
  .next (s.operation m 0x02 (bare m fun s => (s, .ok (bytesOf s.ctrl.mgmtstat.toNat 8))))

/-- GETCOUNT (R237, R281). -/
def execGetcount (m : MgmtMsg) (s : State) : Out :=
  .next (s.operation m 0x03 fun s =>
    let first := msgNum m 0 4
    let n := msgNum m 4 4
    if m.body.length != 8 || 64 < n || 1073 < first + n then (s, .error 4)
    else (s, .ok ((List.range n).flatMap fun i => bytesOf (s.mgmt.live.get (first + i)).toNat 8)))

/-- GETTEMP (R281). -/
def execGettemp (m : MgmtMsg) (s : State) : Out :=
  .next (s.operation m 0x04 (bare m fun s =>
    (s, .ok (([0, 1, 2, 3].flatMap fun d => bytesOf (s.dieTemp d).toNat 2) ++ bytesOf s.mgmt.hubTemp.toNat 2))))

/-- FLASHOPEN (R281): the slot no longer holds a verified image. DEDUCED (assumption 61). -/
def execFlashopen (m : MgmtMsg) (s : State) : Out :=
  .next (s.operation m 0x10 fun s =>
    let slot := msgNum m 0 1
    if m.body.length != 5 || 1 < slot then (s, .error 4)
    else if s.mgmt.openImage.isSome then (s, .error 6)
    else (s.modMgmt fun x => { x with openImage := some (slot == 1, msgNum m 1 4, []), slots := x.slots.set slot (false, 0, []) }, .ok []))

/-- FLASHDATA (R281). -/
def execFlashdata (m : MgmtMsg) (s : State) : Out :=
  .next (s.operation m 0x11 fun s =>
    let off := msgNum m 0 4
    let data := m.body.drop 4
    match s.mgmt.openImage with
    | none => (s, .error 4)
    | some (slot, size, img) =>
      if m.body.length < 4 || 1024 < data.length || size < off + data.length then (s, .error 4)
      else (s.modMgmt fun x => { x with openImage := some (slot, size, Memory.writeBytes img off data) }, .ok []))

/-- FLASHCLOSE (R278, R281): the keystone verifies the image. -/
def execFlashclose (m : MgmtMsg) (s : State) : Out :=
  .next (s.operation m 0x12 (bare m fun s =>
    match s.mgmt.openImage with
    | none => (s, .error 4)
    | some (slot, size, img) =>
      let good := Config.imageVerifies (imageBytes size img)
      (s.modMgmt fun x => { x with openImage := none, slots := x.slots.set slot.toNat (good, size, img) },
        if good then .ok [] else .error 5)))

/-- SETBOOT (R278, R281). -/
def execSetboot (m : MgmtMsg) (s : State) : Out :=
  .next (s.operation m 0x13 fun s =>
    let slot := msgNum m 0 1
    if m.body.length != 1 || 1 < slot then (s, .error 4)
    else if !(s.mgmt.slots.getD slot (false, 0, [])).1 then (s, .error 5)
    else (s.modMgmt fun x => { x with bootSlot := slot == 1 }, .ok []))

/-- SETCOLL (R281). -/
def execSetcoll (m : MgmtMsg) (s : State) : Out :=
  .next (s.operation m 0x20 fun s =>
    if m.body.length != 19 || (msgNum m 0 1 != 4 && msgNum m 0 1 != 6) then (s, .error 4)
    else (s.modMgmt fun x => { x with collector := m.body }, .ok []))

/-- ALERTACK (R281, R282). -/
def execAlertack (m : MgmtMsg) (s : State) : Out :=
  .next (s.operation m 0x22 fun s =>
    let seq := BitVec.ofNat 32 (msgNum m 0 4)
    if m.body.length != 4 || !(s.mgmt.unacked.any fun a => a.1 == seq) then (s, .error 4)
    else ((s.modMgmt fun x => { x with unacked := x.unacked.filter fun a => a.1 != seq }).refreshStatus, .ok []))

/-- The entries of a body, each of n bytes. -/
def chunks (n : Nat) : Nat → List Byte → List (List Byte)
  | 0, _ => []
  | k + 1, l => if l.isEmpty then [] else l.take n :: chunks n k (l.drop n)

/-- SETTRUST (R258, R281). -/
def execSettrust (m : MgmtMsg) (s : State) : Out :=
  .next (s.operation m 0x30 fun s =>
    let list := msgNum m 0 1
    let data := m.body.drop 1
    if m.body.isEmpty || 1 < list || data.length % 68 != 0 || 16 * 68 < data.length then (s, .error 4)
    else (s.modMgmt fun x => { x with trust := x.trust.set list (chunks 68 16 data) }, .ok []))

/-- A well-formed entry of the storage list (R284). -/
def storeEntryOk (e : List Byte) : Bool :=
  let b (i : Nat) : Nat := (e.getD i 0).toNat
  b 0 < 4 && b 1 < 2 && (b 2 == 4 || b 2 == 6) && b 3 == 0 && b 6 == 0 && b 7 == 0

/-- SETSTORE (R281, R284). -/
def execSetstore (m : MgmtMsg) (s : State) : Out :=
  .next (s.operation m 0x31 fun s =>
    let es := chunks 256 4 m.body
    let ix (e : List Byte) : Nat := (e.getD 0 0).toNat
    if m.body.length % 256 != 0 || 1024 < m.body.length || !es.all storeEntryOk || (es.map ix).eraseDups.length != es.length then (s, .error 4)
    else (s.modMgmt fun x => { x with storage := es.foldl (fun t e => tput t (ix e) e) [] }, .ok []))

/-- The codes of R281 that a request may carry. -/
def mgmtOps : List Byte := [0x01, 0x02, 0x03, 0x04, 0x10, 0x11, 0x12, 0x13, 0x20, 0x22, 0x30, 0x31]

/-- UNKNOWN_OPERATION (R280). -/
def execUnknownOperation (m : MgmtMsg) (s : State) : Out :=
  .next (if mgmtOps.contains m.op then s else s.manage m fun s => (s, .error 1))

end Sys2Proof.Machine
end

