-- ==== Sys2Proof/Machine/Loader.lean ====
section
/-!
DEFINITION. The loading of objects (R45, R101, R114, R248, R259, R263 to R266, R270): placement, relocations and imports,
signatures, and the check of a Galbel object's translation.
-/
namespace Sys2Proof.Machine

/-! Error results of a system call (R255). -/

def einval : Nat := 1
def enomem : Nat := 2
def enoent : Nat := 3
def ebusy : Nat := 4
def eperm : Nat := 5
def etime : Nat := 6
def enosys : Nat := 7

/-- A negative result. -/
def negative (e : Nat) : W64 := -(BitVec.ofNat 64 e)

/-- The imm32 of a long-immediate instruction, held big-endian in its bytes 7 to 10 (R263). -/
def readImm (m : Memory) (off : Nat) : Nat := beNat (Memory.readBytes m (off + 7) 4)
def writeImm (m : Memory) (off v : Nat) : Memory := Memory.writeBytes m (off + 7) (toBe 4 (v % 2 ^ 32))

/-- A field patched: its bytes lie in the placed object, and its value may depend on what it was. -/
def patchImm (m : Memory) (size off : Nat) (f : Nat → Nat) : Option Memory :=
  if size < off + 12 then none else some (writeImm m off (f (readImm m off)))

def patchWord (m : Memory) (size off : Nat) (f : Nat → Nat) : Option Memory :=
  if size < off + 4 then none else some (Memory.writeNat m off (f (m.readNat off 4) % 2 ^ 32) 4)

/-! Relocations and imports (R114, R263, R264). -/

/-- Placed bytes so far, the offsets of changed code fields, and the translations patched to. -/
structure Patched where
  mem : Memory
  changed : List Nat
  deps : List Nat
deriving DecidableEq, Repr

/-- Step 2: relocations. -/
def relocate (b : List Byte) (heapoff : Nat) : List (List Byte) → Patched → Except Nat Patched
  | [], p => .ok p
  | e :: rest, p =>
    let off := u32 e 0
    let next (m : Option Memory) (ch : List Nat) : Except Nat Patched :=
      match m with
      | none => .error einval
      | some m => relocate b heapoff rest { p with mem := m, changed := ch }
    match u8 e 4 with
    | 1 => next (patchImm p.mem (objCODESIZE b) off fun x => x + heapoff) (off :: p.changed)
    | 2 => next (patchWord p.mem (objSize b) off fun x => x + heapoff) p.changed
    | _ => .error einval

/-- The label of an object that the context has loaded: its translation's heap offset and the label's. -/
def State.findLabel (s : State) (ctx : Nat) (obj label : List Byte) : Option (Nat × Nat) :=
  (s.objects.find? fun o => o.ctx == ctx && o.name == obj && !o.superseded && !o.unloaded && !o.freed).bind fun o =>
    (o.symbols.find? fun e => e.1 == label).map fun e => (o.heapoff, o.heapoff + e.2)

/-- Step 3: imports. -/
def State.importAll (s : State) (ctx : Nat) (b : List Byte) (heapoff : Nat) : List (List Byte) → Patched → Except Nat Patched
  | [], p => .ok p
  | e :: rest, p =>
    let off := u32 e 0
    let kind := u8 e 4
    if kind < 1 || 3 < kind then .error einval
    else
      match s.findLabel ctx (objString b (u32 e 8)) (objString b (u32 e 12)) with
      | none => .error enoent
      | some (dep, target) =>
        let m := match kind with
          | 1 => patchImm p.mem (objCODESIZE b) off fun _ => target + 2 ^ 32 - heapoff
          | 2 => patchImm p.mem (objCODESIZE b) off fun _ => target
          | _ => patchWord p.mem (objSize b) off fun _ => target
        match m with
        | none => .error einval
        | some m => s.importAll ctx b heapoff rest
            { mem := m, changed := if kind = 3 then p.changed else off :: p.changed, deps := (dep :: p.deps).eraseDups }

/-! Signatures and want-family targets (R45, R101, R264). -/

/-- Step 4: the SIG of a trailer with CHK = 1 whose course holds a changed field is computed again, over every instruction of the
course, be its encoding legal or not. -/
def resign (m : Memory) (changed : List Nat) (start : Nat) : Memory :=
  match placedCourse m start 24 with
  | (ps, some t) =>
    match decodeTrailer (placedInstr m t) with
    | some tr =>
      if tr.chk && changed.any (fun o => decide (start ≤ o) && decide (o < t)) then
        Memory.writeBytes m (t + 10) (toBe 2 (signature ps).toNat)
      else m
    | none => m
  | _ => m

/-- The loader checks the immediate targets (R45). DESIGN CHOICE (assumption 67). -/
def State.targetsOk (s : State) (ctx heapoff : Nat) (starts : List Nat) (m : Memory) : Bool :=
  starts.all fun st => (placedCourse m st 24).1.all fun p =>
    match p.instr.bind wantImmediate with
    | none => true
    | some imm =>
      let t := (heapoff + imm.toNat) % 2 ^ 32
      (decide (heapoff ≤ t) && starts.contains (t - heapoff)) || s.isStart ctx (BitVec.ofNat 32 t)

/-! Loading (R259, R264 to R266). -/

/-- The code heap in use. -/
def State.heapUsed (s : State) : List (Nat × Nat) :=
  (s.objects.filter fun o => !o.freed).map fun o => (o.heapoff, 65536 * pagesOf o.size)

/-- The groups of a team of a Galbel object, and its registers: those of its first kernel (R270). -/
def galbelTEAM (b : List Byte) : Nat := ((kernelEntries b).head?.map fun e => kernTEAM (kernelOf e)).getD 1
def galbelNREG (b : List Byte) : Nat := ((kernelEntries b).head?.map fun e => kernNREG (kernelOf e)).getD 16

/-- The vector class (R375), but for `csrr`, which no uniform instruction of a course pairs with unless it writes lanes. -/
def vectorClass (i : Instr) : Bool :=
  match i, i.iword with
  | .csrr o, _ => o.cd != .s
  | _, some w => decide (w.opcode.toNat ≤ 0x14B) || (decide (0x200 ≤ w.opcode.toNat) && decide (w.opcode.toNat ≤ 0x20B) && w.opcode.toNat != 0x208)
  | _, none => false

/-- The slots of a course's instructions, from a slot on, the vector instruction just issued free to pair (R26, R31). -/
def courseSlots : List Instr → Nat → Option Nat → List (Nat × Instr)
  | [], _, _ => []
  | i :: rest, slot, vec =>
    let here := if pairable i then vec.getD slot else slot
    (here, i) :: courseSlots rest (here + 1 + i.stall) (if vectorClass i && i.stall == 0 then some here else none)

/-- The stall counts of a course: no instruction names a register that a fixed-latency result has still to reach (R26, R28). -/
def stallsCover (is : List Instr) : Bool :=
  let l := courseSlots is 0 none
  l.zipIdx.all fun e => (l.take e.2).all fun w => w.2.awaited.isSome || decide (w.1 + w.2.latency ≤ e.1.1) ||
    !(w.2.names.writes.any fun r => e.1.2.names.reads.contains r || e.1.2.names.writes.contains r)

/-- A course that the translator forms (R26, R28, R29, R99 to R101, R270): up to 24 legal native instructions with their stall
counts, the last with the end flag, and a trailer that awaits every destination of variable latency and holds the signature. -/
def courseFormed (m : Memory) (start : Nat) : Bool :=
  match placedCourse m start 24 with
  | (ps, some t) =>
    match decodeTrailer (placedInstr m t) with
    | some tr =>
      ps.all (fun p => match p.instr with
        | none | some (.pfor _) | some (.pend _) => false
        | some i => i.native && i.wf && match i.awaited with
          | some a => a.k || tr.awaited.any fun x => x.1 == a.uni && x.2.toNat == a.reg
          | none => true) &&
      stallsCover (ps.filterMap (·.instr)) && (!tr.chk || tr.sig == signature ps)
    | none => false
  | _ => false

/-- The kernel headers of a translation (R111, R261): those of the Galbel object, but for the translated ENTRY, and for NREG and
SCRATCH, in which the mapping of its logical threads counts (R270). -/
def headersKept (b t : List Byte) : Bool :=
  let header (x e : List Byte) : List Nat × List Byte :=
    let k := kernelOf e
    ([kernTEAM k, kernHEAVY k, kernDET k, kernField k 78 2], objString x (u32 e 0))
  (kernelEntries t).map (header t) == (kernelEntries b).map (header b)

/-- The labels of a translation (R262): those of the Galbel object, an instruction's at a course start of its translated position,
a data label at its place in the data section. -/
def labelsKept (b t : List Byte) : Bool :=
  (symbolEntries t).map (fun e => objString t (u32 e 0)) == (symbolEntries b).map (fun e => objString b (u32 e 0)) &&
  ((symbolEntries b).zip (symbolEntries t)).all fun e =>
    if u8 e.1 8 = 2 then u8 e.2 8 == 2 && u32 e.2 4 + objCODESIZE b == u32 e.1 4 + objCODESIZE t
    else u8 e.2 8 == 1 && (courseStarts t).contains (u32 e.2 4)

/-- The data section of a translation (R260): that of the Galbel object, but for the words that its relocations name, which may
hold translated positions (R111, R263). -/
def dataKept (b t : List Byte) : Bool :=
  objDATASIZE t == objDATASIZE b && (List.range (objDATASIZE b)).all fun i =>
    t.getD (128 + objCODESIZE t + i) 0 == b.getD (128 + objCODESIZE b + i) 0 ||
    (relocEntries b).any fun e => decide (u32 e 0 ≤ objCODESIZE b + i) && decide (objCODESIZE b + i < u32 e 0 + 4)

/-- What the translator publishes: a native object of formed courses, in which the code of each region begins a course, with the
headers, the labels and the data of the Galbel object (R261, R262, R268, R270). -/
def emittedOk (b t : List Byte) (regions : List Nat) : Bool :=
  objectForm t && objKIND t == 2 && (courseStarts t).all (courseFormed (objectBytes t)) && regions.all (courseStarts t).contains &&
  headersKept b t && labelsKept b t && dataKept b t

/-- Where the translation of each region of a Galbel object begins, and the register of its count (R268). -/
def State.regionsOf (s : State) (b : List Byte) : List (Nat × Nat) :=
  if objKIND b = 2 then []
  else
    let counts := (galbelParts b).filterMap fun p => match p with
      | .region _ _ count _ => some count.toNat
      | .team _ => none
    counts.zipIdx.map fun e => (Config.regionStart b (galbelTEAM b) s.ctrl.featacc e.2, e.1)

/-- The object as it stands in native code: a Galbel object is translated (R270). -/
def State.nativeOf (s : State) (b : List Byte) : Except Nat (List Byte) :=
  if objKIND b = 2 then .ok b
  else
    match Config.emitNative b (galbelParts b) (mappingOf (galbelTEAM b) (galbelNREG b)) (galbelTEAM b) s.ctrl.featacc with
    | some t => if emittedOk b t.1 ((s.regionsOf b).map (·.1)) then .ok t.1 else .error einval
    | none => .error einval

/-- Steps 1 to 6 of R264 for an object of a context; `old` is the identifier that a REPLACE supersedes. -/
def State.loadObject (s : State) (ctx : Nat) (old : Option Nat) (b : List Byte) : Except Nat (State × Nat) :=
  if !objectForm b then .error einval
  else if missingFeature b s.ctrl.featacc then .error enosys
  else match s.nativeOf b with
    | .error e => .error e
    | .ok nb =>
      let size := objSize nb
      match chooseRoom s.heapUsed 0 heapSize 65536 (65536 * pagesOf size) (Config.freeWord s.freeCtr).toNat with
      | none => .error enomem
      | some heapoff =>
        if 16383 ≤ (s.objects.filter fun o => !o.freed).length then .error enomem
        else match relocate nb heapoff (relocEntries nb) { mem := objectBytes nb, changed := [], deps := [] } with
          | .error e => .error e
          | .ok p =>
            match s.importAll ctx nb heapoff (importEntries nb) p with
            | .error e => .error e
            | .ok p =>
              let starts := courseStarts nb
              if !s.targetsOk ctx heapoff starts p.mem then .error einval
              else
                let mem := starts.foldl (fun m st => resign m p.changed st) p.mem
                let ks := (kernelEntries nb).map kernelOf
                let id := old.getD s.nextObj
                let o : Translation :=
                  { id, ctx, heapoff, codeSize := objCODESIZE nb, size, starts, kernels := ks,
                    rawEntries := (kernelEntries b).map fun e => kernENTRY (kernelOf e)
                    symbols := (symbolEntries nb).map fun e => (objString nb (u32 e 0), u32 e 4)
                    name := objString b (objNAME b), deps := p.deps, digest := Config.sm3 (Memory.readBytes mem 0 size)
                    requires := objREQUIRES b, bound := 0, superseded := false, unloaded := false, freed := false
                    regions := s.regionsOf b }
                let retire (x : Translation) : Translation :=
                  if old.isSome && x.ctx == ctx && x.id == id && !x.freed then { x with superseded := true } else x
                let t : State := { s with
                  hbm := Memory.copyBlock s.hbm (heapBase + heapoff) mem 0 size
                  objects := s.objects.map retire ++ [o]
                  nextObj := if old.isSome then s.nextObj else s.nextObj + 1
                  freeCtr := s.freeCtr + 1 }
                let t := t.clearHbmMarks (heapBase + heapoff) size
                match t.mapPages ctx ((t.codebase ctx).toNat + heapoff) (fun i => leafOf false true 0 0 (heapBase + heapoff + 65536 * i))
                    (pagesOf size) with
                | none => .error enomem
                | some t => .ok ((t.freeObjects t.objects.length).writeHandover, id)

end Sys2Proof.Machine
end

