-- ==== Sys2Proof/Machine/Calls.lean ====
section
/-!
DEFINITION. The system calls of Vilaz and the start of an image (R245, R255, R256, R258, R274, R283, R284).
-/
namespace Sys2Proof.Machine

/-- A call is answered while OS is up and a hart runs the control program in user mode; a7 holds its number (R245, R255). -/
def State.calling (s : State) (ctx : Nat) : Bool :=
  let c := s.ctx ctx
  s.ctrl.ready.getLsbD 3 && c.live && c.running && c.waiting.isNone && (s.hartOf ctx).isSome

/-- A context as a call of its control program finds it, with a0 to a7. -/
def State.program (s : State) (ctx : Nat) : Ctx := { s.ctx ctx with regs := s.userRegs ctx }

def Ctx.arg (c : Ctx) (i : Nat) : W64 := c.regs.get i
def Ctx.number (c : Ctx) : Nat := (c.arg 7).toNat

/-- The result in a0. -/
def State.ret (s : State) (ctx : Nat) (v : W64) : State := s.setUser ctx 0 v

/-- A call of a number (R255): its effect, and its result in a0. -/
def State.call (s : State) (ctx num : Nat) (f : Ctx → State → State × W64) : State :=
  if s.calling ctx && (s.program ctx).number == num then
    let r := f (s.program ctx) s
    r.1.ret ctx r.2
  else s

/-- A call that fails changes nothing. -/
def fails (s : State) (e : Nat) : State × W64 := (s, negative e)

/-- Writes a field of a context's descriptor (R250). -/
def State.setDesc (s : State) (ctx off n v : Nat) : State :=
  { s with hbm := Memory.writeNat s.hbm (s.ctrl.ctxtbl.toNat + 128 * ctx + off) v n }

/-- A launch of a context is in flight (R256, call 3). -/
def State.inFlight (s : State) (ctx : Nat) : Bool :=
  s.launches.any fun e => e.2.ctx == ctx && (e.2.phase == .placing || e.2.phase == .running)

/-! 0 and 1. -/

/-- The table that a valid entry of a table names, if it is no leaf (R123). -/
def State.tableIn (s : State) (table i : Nat) : Option Nat :=
  let e := BitVec.ofNat 64 (s.hbm.readNat (table + 8 * i) 8)
  if e.getLsbD 0 && !e.getLsbD 1 then some ((e.extractLsb' 15 33).toNat * 2 ^ 15) else none

/-- The HBM regions of a context's own: its page tables and what its descriptor names. -/
def State.ownRegions (s : State) (ctx : Nat) : List Nat :=
  let below (t : Nat) : List Nat := (List.range 4096).filterMap (s.tableIn t)
  let second := below (s.root ctx)
  s.root ctx :: s.htbl ctx :: s.spillTbl ctx :: s.bounceBase ctx :: s.saveBase ctx ::
    ((List.range 256).map fun c => s.hbm.readNat (s.spillTbl ctx + 16 * c) 8) ++ second ++ second.flatMap below

/-- What a context held is released (R256, call 0): its memory, its code and its descriptor. -/
def State.releaseCtx (s : State) (ctx : Nat) : State :=
  let as_ := (s.ctx ctx).allocs
  let pages := as_.flatMap fun a => if a.kind == 0 || a.kind == 5 || a.kind == 6 then (List.range (pagesOf a.size)).map fun i => a.va + 65536 * i else []
  let s := pages.foldl (fun s va => match s.walk va 3 (s.root ctx) with
    | .leaf e _ =>
      let p := (e.extractLsb' 15 33).toNat * 2 ^ 15
      { s.unmapPage ctx va with reserved := s.reserved.filter fun r => r.1 != p }
    | _ => s) s
  let gone (o : Translation) : Translation := if o.ctx == ctx then { o with unloaded := true } else o
  let s : State := { s with objects := s.objects.map gone }
  let s := (s.freeObjects s.objects.length).writeHandover
  let own := s.ownRegions ctx
  let s := s.setDesc ctx 0 1 0
  let s := s.stopProgram ctx
  let s : State := { s with
    reserved := s.reserved.filter fun r => !own.contains r.1
    hostUsed := s.hostUsed.filter fun r => !(as_.any fun a => a.kind == 1 && a.phys == r.1)
    ctxs := tput s.ctxs ctx {} }
  { s with conns := s.conns.filter fun c => s.ctxs.any fun x => x.2.handles.any fun h => match h with
      | .storage e => spaceKey e == c.1
      | .peer _ => false }

/-- exit (call 0): the context is reset and freed; the call does not return. -/
def execExitCall (ctx : Nat) (s : State) : Out :=
  .next (if s.calling ctx && (s.program ctx).number == 0 then (s.forcedReset ctx).releaseCtx ctx else s)

/-- write (call 1): bytes for the console or the error log (R277 vector 3). -/
def execWrite (ctx : Nat) (s : State) : Out :=
  .next (s.call ctx 1 fun c s =>
    let stream := (c.arg 0).toNat
    if stream < 1 || 2 < stream then fails s einval
    else
      let bytes := Memory.readBytes c.mem (c.arg 1).toNat (c.arg 2).toNat
      ((s.send (.stream ctx stream bytes)).msi 3, c.arg 2))

/-! 2 to 4: memory. -/

/-- Pages of HBM mapped for stores, one by one, in a die's range where there is room (R120, R256).
DESIGN CHOICE (assumption 64). -/
def State.mapFresh (s : State) (ctx va die : Nat) : Nat → Option State
  | 0 => some s
  | n + 1 =>
    match s.mapFresh ctx va die n with
    | none => none
    | some s => match s.allocHbm die 65536 65536 with
      | none => none
      | some (s, p) => s.mapPage ctx (va + 65536 * n) (leafOf true false 0 0 p)

def State.record (s : State) (ctx : Nat) (a : Alloc) : State := s.modCtx ctx fun c => { c with allocs := c.allocs ++ [a] }

/-- A range of another space mapped at a free address; the page offset of its start is kept. -/
def State.mapRange (s : State) (ctx : Nat) (kind space peer phys n : Nat) (w : Bool) : Option (State × Nat) :=
  let first := phys / 65536 * 65536
  let size := phys + n - first
  match s.chooseVa ctx size with
  | none => none
  | some va =>
    match s.draw.mapPages ctx va (fun i => leafOf w false space peer (first + 65536 * i)) (pagesOf size) with
    | none => none
    | some s => some (s.record ctx { kind, va, size, phys := first, handle := peer, offset := 0, writable := w }, va + phys % 65536)

/-- Banks that a grant may start at: n free ones, on a die when there is room on it (R127, R256), and beside those that the
context holds, since its descriptor names one range (R250). DEDUCED (assumption 45). -/
def State.bankStart (s : State) (ctx die n : Nat) : Option Nat :=
  let taken (b : Nat) : Bool := (List.range 64).any fun c => s.descValid c && s.bankFirst c < b + n && b < s.bankFirst c + s.bankCount c
  let beside (b : Nat) : Bool := s.bankCount ctx == 0 || b == s.bankFirst ctx + s.bankCount ctx || b + n == s.bankFirst ctx
  let free := (List.range (4097 - n)).filter fun b => !taken b && beside b
  let near := free.filter fun b => decide (1024 * die ≤ b) && decide (b + n ≤ 1024 * die + 1024)
  let l := if near.isEmpty then free else near
  l[(Config.freeWord s.freeCtr).toNat % l.length]?

/-- The descriptor's range of banks: from the first to the last bank of the context's grants (R250). -/
def State.writeGrant (s : State) (ctx : Nat) : State :=
  let mine := (s.ctx ctx).allocs.filter fun a => a.kind == 2
  match mine with
  | [] => (s.setDesc ctx 20 2 0).setDesc ctx 22 2 0
  | a :: rest =>
    let first := rest.foldl (fun m x => min m (x.va / 65536)) (a.va / 65536)
    let last := mine.foldl (fun m x => max m (x.va / 65536 + pagesOf x.size)) 0
    (s.setDesc ctx 20 2 first).setDesc ctx 22 2 (last - first)

/-- mem_alloc (call 2). -/
def execMemAlloc (ctx : Nat) (s : State) : Out :=
  .next (s.call ctx 2 fun c s =>
    let size := (c.arg 0).toNat
    let flags := (c.arg 1).toNat
    let die := if flags / 4 % 16 = 0 then 4 else flags / 4 % 16 - 1
    if size = 0 || 64 ≤ flags || flags % 4 = 3 || (4 ≤ die && flags / 4 != 0) then fails s einval
    else match flags % 4 with
      | 0 => match s.chooseVa ctx size with
        | none => fails s enomem
        | some va => match s.draw.mapFresh ctx va die (pagesOf size) with
          | none => fails s enomem
          | some t => (t.record ctx { kind := 0, va, size, phys := 0, handle := 0, offset := 0, writable := true }, BitVec.ofNat 64 va)
      | 1 =>
        let n := 65536 * pagesOf size
        match chooseRoom s.hostUsed 0 (2 ^ 48) 65536 n (Config.freeWord s.freeCtr).toNat with
        | none => fails s enomem
        | some p => match ({ s.draw with hostUsed := (p, n) :: s.hostUsed } : State).mapRange ctx 1 1 0 p n true with
          | none => fails s enomem
          | some (t, va) => (t, BitVec.ofNat 64 va)
      | _ =>
        let n := pagesOf size
        if s.hasTeams ctx || 4096 < n then fails s enomem
        else match s.bankStart ctx die n with
          | none => fails s enomem
          | some b =>
            let t := (s.draw.record ctx
              { kind := 2, va := 65536 * b, size, phys := 0, handle := 0, offset := 0, writable := true }).writeGrant ctx
            (t, BitVec.ofNat 64 (65536 * b)))

/-- The HBM pages of an allocation are unmapped and free; filled pages of a writable storage mapping are written back first. -/
def State.freePage (s : State) (ctx : Nat) (a : Alloc) (i : Nat) : State :=
  let va := a.va + 65536 * i
  match s.walk va 3 (s.root ctx) with
  | .leaf e _ =>
    let p := (e.extractLsb' 15 33).toNat * 2 ^ 15
    let s := if a.kind == 5 && a.writable then s.writeSpace a.handle (a.offset + 65536 * i) p else s
    let s := s.unmapPage ctx va
    if a.kind == 0 || a.kind == 5 then { s with reserved := s.reserved.filter fun r => r.1 != p } else s
  | _ => s

/-- An allocation or mapping is freed (R256, R284). -/
def State.freeAlloc (s : State) (ctx : Nat) (a : Alloc) : State :=
  let s := if a.kind == 2 || a.kind == 6 then s
    else (List.range (pagesOf a.size)).foldl (fun s i => s.freePage ctx a i) s
  let s := if a.kind == 5 && a.writable then s.flushSpace a.handle else s
  let s := if a.kind == 1 then { s with hostUsed := s.hostUsed.filter fun r => r.1 != a.phys } else s
  let s := s.modCtx ctx fun c => { c with allocs := c.allocs.filter fun x => x != a }
  if a.kind == 2 then s.writeGrant ctx else s

/-- The allocation that an address names: the one whose first address it is. -/
def Ctx.allocAt (c : Ctx) (v : Nat) : Option Alloc :=
  match c.allocs.find? fun a => a.kind != 2 && a.kind != 6 && a.va + (if a.kind == 3 || a.kind == 4 then a.offset else 0) == v with
  | some a => some a
  | none => c.allocs.find? fun a => a.kind == 2 && a.va == v

/-- mem_free (call 3). DESIGN CHOICE (assumption 63). -/
def execMemFree (ctx : Nat) (s : State) : Out :=
  .next (s.call ctx 3 fun c s =>
    if s.inFlight ctx then fails s ebusy
    else match c.allocAt (c.arg 0).toNat with
      | none => fails s einval
      | some a => (s.freeAlloc ctx a, 0))

/-- A mapping made of given memory: its first address is kept as its name. -/
def State.mapNamed (s : State) (ctx : Nat) (kind space peer phys n : Nat) (w : Bool) : Option (State × Nat) :=
  (s.mapRange ctx kind space peer phys n w).map fun r =>
    let name (a : Alloc) : Alloc := if a.va == r.2 / 65536 * 65536 && a.kind == kind then { a with offset := r.2 % 65536 } else a
    (r.1.modCtx ctx fun c => { c with allocs := c.allocs.map name }, r.2)

/-- mem_map (call 4). -/
def execMemMap (ctx : Nat) (s : State) : Out :=
  .next (s.call ctx 4 fun c s =>
    let p := (c.arg 0).toNat
    let n := (c.arg 1).toNat
    if n = 0 || 2 ^ 48 < p + n || 2 ≤ (c.arg 2).toNat then fails s einval
    else match s.mapNamed ctx 3 1 0 p n ((c.arg 2).getLsbD 0) with
      | none => fails s enomem
      | some (t, va) => (t, BitVec.ofNat 64 va))

/-! 5 to 7: objects. -/

/-- The object sections of an image, in the order of its section table (R258). -/
def objectSections (image : List Byte) : List (Nat × Nat × Nat) := (Config.imageSections image).filter fun e => e.1 == 2 || e.1 == 3

/-- obj_load (call 5): from the started image only; a Galbel object that breaks its rules is reported in the error log. -/
def execObjLoad (ctx : Nat) (s : State) : Out :=
  .next (s.call ctx 5 fun c s =>
    let old := if (c.arg 2).getLsbD 0 then some (c.arg 3).toNat else none
    if 2 ≤ (c.arg 2).toNat then fails s einval
    else if Memory.readBytes c.mem (c.arg 0).toNat c.image.length != c.image then fails s eperm
    else match (objectSections c.image)[(c.arg 1).toNat]? with
      | none => fails s einval
      | some (kind, off, len) =>
        let b := (c.image.drop off).take len
        if (old.map fun id => (s.current ctx id).isNone).getD false then fails s enoent
        else if !objectForm b || objKIND b != kind then fails s einval
        else if missingFeature b s.ctrl.featacc then fails s enosys
        else match (if kind = 3 then galbelFault b else none) with
          | some at_ => ((s.send (.stream ctx 2 (bytesOf at_ 4))).msi 3, negative einval)
          | none => match s.loadObject ctx old b with
            | .error e => fails s e
            | .ok (t, id) => (t, BitVec.ofNat 64 id))

/-- obj_unload (call 6): the code is freed by R265. -/
def execObjUnload (ctx : Nat) (s : State) : Out :=
  .next (s.call ctx 6 fun c s =>
    match s.current ctx (c.arg 0).toNat with
    | none => fails s enoent
    | some o =>
      let mark (p : Translation) : Translation := if p.heapoff == o.heapoff && !p.freed then { p with unloaded := true } else p
      let t : State := { s with objects := s.objects.map mark }
      ((t.freeObjects t.objects.length).writeHandover, 0))

/-- A name in the memory of the control program, ended by a zero byte; no name is longer than the string table's 32-bit size. -/
def nameAt (m : Memory) (a : Nat) : Nat → List Byte
  | 0 => []
  | n + 1 => if m.get a = 0 then [] else m.get a :: nameAt m (a + 1) n

/-- obj_lookup (call 7): the heap offset of a label in the current translation (R262). -/
def execObjLookup (ctx : Nat) (s : State) : Out :=
  .next (s.call ctx 7 fun c s =>
    match s.current ctx (c.arg 0).toNat with
    | none => fails s enoent
    | some o =>
      let longest := (o.symbols.map fun e => e.1.length).foldl max 0
      let name := nameAt c.mem (c.arg 1).toNat (longest + 1)
      match o.symbols.find? fun e => e.1 == name with
      | none => fails s enoent
      | some e => (s, BitVec.ofNat 64 (o.heapoff + e.2)))

/-! 8 to 12: queues and events. -/

def State.owns (s : State) (ctx : Nat) (q : Nat) : Bool := decide (q < 16) && (s.queue q).ctx == some ctx

/-- launch (call 8): the packet is written to the queue. -/
def execLaunchCall (ctx : Nat) (s : State) : Out :=
  .next (s.call ctx 8 fun c s =>
    let q := (c.arg 0).toNat
    if !s.owns ctx q then fails s einval
    else
      let p := BitVec.ofNat 512 (Memory.readNat c.mem (c.arg 1).toNat 64)
      (s.modQueue q fun x => { x with packets := x.packets ++ [p] }, 0))

/-- event_wait (call 9): it returns once the event is set; until then the call is in progress, and no hart runs the program. -/
def State.eventWait (s : State) (ctx : Nat) : State :=
  let c := s.program ctx
  match c.waiting with
  | some (e, _) =>
    if s.ctrl.ready.getLsbD 3 && c.events.contains e then (s.modCtx ctx fun c => { c with waiting := none }).ret ctx 0 else s
  | none =>
    if !(s.calling ctx && c.number == 9) then s
    else
      let e := (c.arg 0).toNat
      if 1024 ≤ e then s.ret ctx (negative einval)
      else if c.events.contains e then s.ret ctx 0
      else
        let deadline := if c.arg 1 = 0 then none else some (s.timeref + c.arg 1)
        (s.modCtx ctx fun c => { c with waiting := some (e, deadline) }).stopProgram ctx

def execEventWait (ctx : Nat) (s : State) : Out := .next (s.eventWait ctx)

/-- EVENT_WAIT_TIMEOUT (R256): the deadline has passed and the event is not set. -/
def execEventWaitTimeout (ctx : Nat) (s : State) : Out :=
  .next (let c := s.ctx ctx
    match c.waiting with
    | some (e, some d) =>
      if s.ctrl.ready.getLsbD 3 && d ≤ s.timeref && !c.events.contains e then
        (s.modCtx ctx fun c => { c with waiting := none }).ret ctx (negative etime)
      else s
    | _ => s)

/-- event_query (call 10). -/
def execEventQuery (ctx : Nat) (s : State) : Out :=
  .next (s.call ctx 10 fun c s =>
    let e := (c.arg 0).toNat
    let q := (c.arg 1).toNat
    if 1024 ≤ e || !s.owns ctx q then fails s einval
    else (s, BitVec.ofNat 64 ((if c.events.contains e then 1 else 0) + 256 * (s.queue q).reason)))

/-- queue_create (call 11): the free queue of the lowest number. DESIGN CHOICE (assumption 102). -/
def execQueueCreate (ctx : Nat) (s : State) : Out :=
  .next (s.call ctx 11 fun c s =>
    let prio := (c.arg 0).toNat
    if 3 < prio then fails s einval
    else match (List.range 16).find? fun q => (s.queue q).ctx.isNone with
      | none => fails s ebusy
      | some q => (s.modQueue q fun _ => { ctx := some ctx, prio }, BitVec.ofNat 64 q))

/-- queue_destroy (call 12). -/
def execQueueDestroy (ctx : Nat) (s : State) : Out :=
  .next (s.call ctx 12 fun c s =>
    let q := (c.arg 0).toNat
    if !s.owns ctx q then fails s einval
    else if !(s.queue q).packets.isEmpty then fails s ebusy
    else (s.modQueue q fun _ => {}, 0))

/-! 13 to 19. -/

/-- feature_query (call 13). -/
def execFeatureQuery (ctx : Nat) (s : State) : Out := .next (s.call ctx 13 fun _ s => (s, s.ctrl.featacc))

/-- time_now (call 14). -/
def execTimeNow (ctx : Nat) (s : State) : Out := .next (s.call ctx 14 fun _ s => (s, s.timeref))

/-- peer_open (call 15): a peer device, through a trained port, or an entry of the storage list, to whose subsystem it connects
(R247, R284). -/
def execPeerOpen (ctx : Nat) (s : State) : Out :=
  .next (s.call ctx 15 fun c s =>
    let d := (c.arg 0).toNat
    let opened (s : State) (h : Handle) : State × W64 :=
      (s.modCtx ctx fun c => { c with handles := c.handles ++ [h] }, BitVec.ofNat 64 c.handles.length)
    if d < 256 then (if s.portUp (portTo d) && Config.peerReachable d then opened s (.peer d) else fails s enoent)
    else if 0x10000 ≤ d then
      match tfind s.mgmt.storage (d - 0x10000) with
      | none => fails s enoent
      | some e => match s.connect e with
        | none => fails s ebusy
        | some t => opened t (.storage e)
    else fails s einval)

/-- A range of a namespace mapped with no page filled (R284). -/
def State.mapStorage (s : State) (ctx : Nat) (e : List Byte) (off n : Nat) (w : Bool) : State × W64 :=
  if n = 0 || off % 65536 != 0 || n % 65536 != 0 || Config.namespaceSize (spaceKey e) < off + n then fails s einval
  else if w && (e.getD 1 0) = 0 then fails s eperm
  else match s.chooseVa ctx n with
    | none => fails s enomem
    | some va =>
      (s.draw.record ctx { kind := 5, va, size := n, phys := 0, handle := spaceKey e, offset := off, writable := w }, BitVec.ofNat 64 va)

/-- peer_map (call 16): space 2 or 3 for a peer, 4 or 5 for storage. -/
def execPeerMap (ctx : Nat) (s : State) : Out :=
  .next (s.call ctx 16 fun c s =>
    let a := (c.arg 1).toNat
    let n := (c.arg 2).toNat
    match c.handles[(c.arg 0).toNat]?, (c.arg 3).toNat with
    | some (.peer d), 2 => peer s d 2 a n
    | some (.peer d), 3 => peer s d 3 a n
    | some (.storage e), 4 => s.mapStorage ctx e a n false
    | some (.storage e), 5 => s.mapStorage ctx e a n true
    | _, _ => fails s einval)
where
  peer (s : State) (d space a n : Nat) : State × W64 :=
    if n = 0 || 2 ^ 48 < a + n then fails s einval
    else match s.mapNamed ctx 4 space d a n true with
      | none => fails s enomem
      | some (t, va) => (t, BitVec.ofNat 64 va)

/-- The attestation report without its signature (R274). DEDUCED (assumption 65). -/
def State.report (s : State) (ctx : Nat) (nonce : List Byte) : List Byte :=
  let digest (d : BitVec 256) : List Byte := bytesOf d.toNat 32
  let slot := s.vilaz.toNat
  Config.attestHeader ++ nonce ++ digest (Config.sm3 (Config.firmware 0)) ++ digest (Config.sm3 (Config.firmware 1)) ++
  digest s.vilazDigest ++ bytesOf slot 1 ++ digest (Config.sm3 (s.ctx ctx).image) ++
  ((s.objects.filter fun o => o.ctx == ctx && !o.freed).flatMap fun o => digest o.digest) ++ bytesOf s.ctrl.featacc.toNat 8

/-- attest_report (call 17). -/
def execAttestReport (ctx : Nat) (s : State) : Out :=
  .next (s.call ctx 17 fun c s =>
    let body := s.report ctx (Memory.readBytes c.mem (c.arg 0).toNat 32)
    let all := body ++ Config.sm2Sign (Config.sm3 body)
    (s.modCtx ctx fun c => { c with mem := Memory.writeBytes c.mem (c.arg 1).toNat all }, BitVec.ofNat 64 all.length))

/-- The addresses kept for the mailboxes of a queue: as many as the largest launch needs (R20, R225). -/
def mailboxSpan : Nat := 256 * 2 ^ 22 * 32

/-- debug_attach (call 18). -/
def execDebugAttach (ctx : Nat) (s : State) : Out :=
  .next (s.call ctx 18 fun c s =>
    let q := (c.arg 0).toNat
    if !s.owns ctx q || 2 ≤ (c.arg 1).toNat then fails s einval
    else if !s.descDbg ctx then fails s eperm
    else if c.arg 1 = 0 then (s.modQueue q fun x => { x with debug := 0 }, 0)
    else match s.chooseVa ctx mailboxSpan with
      | none => fails s enomem
      | some va =>
        let t := s.draw.record ctx { kind := 6, va, size := mailboxSpan, phys := 0, handle := q, offset := 0, writable := true }
        (t.modQueue q fun x => { x with debug := BitVec.ofNat 64 va }, BitVec.ofNat 64 va))

/-- yield (call 19). -/
def execYield (ctx : Nat) (s : State) : Out := .next (s.call ctx 19 fun _ s => (s, 0))

/-- UNASSIGNED_CALL_NUMBER (R255): ENOSYS. -/
def execUnassignedCallNumber (ctx : Nat) (s : State) : Out :=
  .next (if s.calling ctx && 19 < (s.program ctx).number then s.ret ctx (negative enosys) else s)

/-! The start of an image (R258). -/

/-- Whether an image may start: its magic and its one control program, and a signature by a trusted key. -/
def State.imageOk (s : State) (image : List Byte) : Bool :=
  let n := image.length - 68
  let ss := Config.imageSections image
  decide (72 ≤ image.length) && natOfBytes (image.take 4) == 0x47414C42 && (ss.filter fun e => e.1 == 1).length == 1 &&
  ss.all (fun e => decide (1 ≤ e.1) && decide (e.1 ≤ 3) && decide (e.2.1 + e.2.2 ≤ n)) &&
  match trustedKey (s.mgmt.trust.getD 0 []) (natOfBytes (image.drop (n + 64))) with
  | some key => Config.sm2Verify key (Config.sm3 (image.take n)) ((image.drop n).take 64)
  | none => false

/-- HBM for a part of a context, cleared. -/
def State.allocClear (s : State) (align n : Nat) : Option (State × Nat) :=
  (s.allocHbm 4 align n).map fun r => ({ r.1 with hbm := r.1.hbm.clear r.2 (r.2 + n) }, r.2)

/-- Vilaz creates a context: its tables, its regions and its descriptor (R245, R250). Sizes that it chooses are free. -/
def State.createCtx (s : State) (ctx : Nat) (image : List Byte) : Option State := do
  let pick (s : State) (unit : Nat) : Nat := unit * (1 + (Config.freeWord s.freeCtr).toNat % 4096)
  let (s, root) ← s.newTable
  let (s, htbl) ← s.allocClear 256 256
  let (s, spill) ← s.allocClear 4096 4096
  let bn := pick s 256
  let (s, bounce) ← s.draw.allocClear 256 bn
  let sn := pick s 4096
  let (s, save) ← s.draw.allocClear 4096 sn
  let code := (Config.freeWord s.freeCtr).toNat % ((2 ^ 52 - heapSize) / 65536 + 1) * 65536
  let s := s.draw
  let fields : List (Nat × Nat × Nat) :=
    [(8, 8, root), (32, 8, htbl), (40, 8, spill), (48, 8, bn), (56, 8, bounce), (64, 8, sn), (72, 8, save), (80, 8, code), (0, 1, 1)]
  let base := s.ctrl.ctxtbl.toNat + 128 * ctx
  let s : State := { s with hbm := s.hbm.clear base (base + 128) }
  let s := fields.foldl (fun s f => s.setDesc ctx f.1 f.2.1 f.2.2) s
  pure { s with ctxs := tput s.ctxs ctx { live := true, running := true, image } }

/-- What an earlier context of a number has left is released before Vilaz creates a new one: a killed context's memory, code
and descriptor (R213, R245). -/
def State.reclaim (s : State) (ctx : Nat) : State :=
  if s.descValid ctx || !(s.ctx ctx).allocs.isEmpty || s.objects.any (fun o => o.ctx == ctx && !o.freed) then s.releaseCtx ctx else s

/-- The context of a control program that a restart of Vilaz has stopped and that is started again (R273).
DEDUCED (assumption 59). -/
def State.survivor (s : State) (image : List Byte) : Option Nat :=
  (List.range 64).find? fun c => (s.ctx c).live && !(s.ctx c).running && (s.ctx c).image == image

/-- IMAGE_START (R258): an image that may not start is refused with EPERM. A program started again regains its context;
else the context is a free choice among those not in use (R245, R273). -/
def execImageStart (image : List Byte) (s : State) : Out :=
  .next (let free := (List.range 64).filter fun c => !s.ctxUsed c
    if !s.ctrl.ready.getLsbD 3 then s
    else if !s.imageOk image then s.send (.imageRefused (negative eperm))
    else match s.survivor image with
      | some ctx => s.modCtx ctx fun c => { c with running := true, regs := [], mem := [], handles := [] }
      | none => match free[(Config.freeWord s.freeCtr).toNat % free.length]? with
        | none => s
        | some ctx => ((s.reclaim ctx).draw.createCtx ctx image).getD s)

end Sys2Proof.Machine
end

