-- ==== Sys2Proof/Machine/Harts.lean ====
section
/-!
DEFINITION. What stands outside the rows of the opcode table: the Markhor harts and their interrupt controller (R245, R249),
the lifetime counters as Vilaz reads them (R237), the partition (R3) and the addresses of the Ethernet port (R279).
-/
namespace Sys2Proof.Machine

/-- A program leaves a hart unless it goes on there: Vilaz keeps its registers. -/
def State.unseat (s : State) (h : Nat) (goes : Option Nat) : State :=
  match (s.hart h).process with
  | some c => if goes == some c then s else s.stopProgram c
  | none => s

/-- A hart that a program comes to finds its a0 to a7 as they were kept. -/
def State.seated (s : State) (h : Nat) (x : Hart) : Hart :=
  match x.process with
  | some c => if (s.hart h).process == some c then x
    else { x with x := (List.range 8).foldl (fun m i => m.set (10 + i) ((s.ctx c).regs.get i)) x.x }
  | none => x

/-- A hart's own instructions, which the spec does not describe: what they leave in the hart. In user mode it runs one control
program, which no other hart runs and no call holds (R245). PRESUMED (assumption 98). -/
def State.runHart (s : State) (h : Nat) (x : Hart) : State :=
  let fits := match x.mode, x.process with
    | .user, some c => (s.ctx c).live && (s.ctx c).running && (s.ctx c).waiting.isNone &&
        !(s.harts.any fun e => e.1 != h && e.2.process == some c)
    | .user, none => false
    | _, p => p.isNone
  if h < 8 && s.ctrl.ready.getLsbD 2 && fits then
    let y := s.seated h x
    (s.unseat h x.process).putHart h { y with x := y.x.set 0 0 }
  else s

/-- Vilaz reads a lifetime counter into a0 (R237, R248). DEDUCED (assumption 94). -/
def State.readLifetime (s : State) (h index : Nat) : State :=
  match s.lifetimeCount index with
  | some v => if (s.hart h).mode == .supervisor then s.setX h 10 v else s
  | none => s

/-! The interrupt controller (R249). PRESUMED (assumption 91). -/

/-- The sources that a context of the controller may be told of: pending, enabled, and of a priority above 0. -/
def Ctrl.offered (c : Ctrl) (context : Nat) : List Nat :=
  [1, 2, 3, 4, 5, 6, 7].filter fun i => c.irq.getLsbD i && (c.plic.enable.get context).getLsbD i && c.plic.prio.get i != 0

/-- The source that a claim answers: of the highest priority, and of these the lowest; 0 for none. -/
def Ctrl.claimed (c : Ctrl) (context : Nat) : Nat :=
  (c.offered context).foldl (fun m i => if m = 0 || c.plic.prio.get m < c.plic.prio.get i then i else m) 0

/-- Whether a context of the controller interrupts its hart: a source offered to it exceeds its threshold. -/
def Ctrl.notifies (c : Ctrl) (context : Nat) : Bool := (c.offered context).any fun i => decide (c.plic.threshold.get context < c.plic.prio.get i)

/-- An access to the interrupt controller. -/
def State.plicAccess (s : State) (a : PlicAccess) : State :=
  let put (f : Plic → Plic) : State := s.modCtrl fun c => { c with plic := f c.plic }
  match a with
  | .priority i v => if 1 ≤ i && i ≤ 7 then put fun p => { p with prio := p.prio.set i v } else s
  | .enable c m => if c < 16 then put fun p => { p with enable := p.enable.set c (m &&& 0xFE) } else s
  | .threshold c v => if c < 16 then put fun p => { p with threshold := p.threshold.set c v } else s
  | .claim c reg =>
    let i := s.ctrl.claimed c
    let s := if i = 0 then s
      else s.modCtrl fun x => { x with irq := x.irq &&& ~~~(1#8 <<< i), plic := { x.plic with claimed := x.plic.claimed ||| (1#8 <<< i) } }
    s.setX (c / 2) reg (BitVec.ofNat 64 i)
  | .complete c i =>
    let p := s.ctrl.plic
    if (p.enable.get c).getLsbD i && p.claimed.getLsbD i then
      let s := s.modCtrl fun x => { x with plic := { x.plic with
        claimed := x.plic.claimed &&& ~~~(1#8 <<< i), held := x.plic.held &&& ~~~(1#8 <<< i) } }
      if p.held.getLsbD i then s.interrupt i else s
    else s

/-! The partition and the addresses. -/

/-- The device is partitioned while it runs nothing (R3). DESIGN CHOICE (assumption 97). -/
def State.setPartition (s : State) (p : Partition) : State :=
  if s.teams.isEmpty && s.launches.all (fun l => l.2.phase == .complete || l.2.phase == .reset) then { s with partition := p } else s

/-- An owner of the Ethernet port takes addresses, or static ones are set in flash (R279). DESIGN CHOICE (assumption 99). -/
def State.setAddrs (s : State) (vilaz fixed : Bool) (addrs : List (List Byte)) : State :=
  let l := addrs.filter fun a => a.length == 4 || a.length == 16
  let put (n : NetAddrs) : NetAddrs := if fixed then { n with fixed := l } else { n with taken := l }
  s.modMgmt fun m => if vilaz then { m with vilazNet := put m.vilazNet } else { m with net := put m.net }

end Sys2Proof.Machine
end

