-- ==== Sys2Proof/Machine/Agents.lean ====
section
/-!
DEFINITION. Which agent of the device moves next (assumption 3): the turns that the agenda names, the group that holds an
issue turn, or one of the device's own events by a free choice. The spec orders none of them beyond what the events check.
-/
namespace Sys2Proof.Machine

/-- What a step does: it executes a row of the opcode table in a state, or it is over. -/
inductive Move where
  | run (i : Instr) (s : State)
  | finished (s : State)
deriving DecidableEq, Repr

/-! The device's own events. -/

def indexes {α : Type} (l : List α) : List Nat := List.range l.length

/-- Turns of one group (R25, R29, R41, R48, R125, R130, R134, R145, R171, R188, R234, R363). -/
def groupTurns (gid : Gid) (g : Group) : List Turn :=
  (match g.status with
    | .running => [.issue gid, .row (.lateCopyTrap gid)]
    | .asleep => [.row (.parkConditionWake gid)]
    | .napping => [.row (.sleepWake gid)]
    | .faulted none => [.row (.faultRecordWrite gid)]
    | .rolling => [.row (.idempotentRollback gid)]
    | .emulating => [.row (.formatEmulation gid)]
    | _ => []) ++
  ((indexes g.await).flatMap fun i => [.row (.valueArrival gid i .perform), .row (.valueArrival gid i .deliver)]) ++
  (if g.stq.isEmpty then [] else [.row (.storePerform gid .leave)]) ++
  (g.waits.filterMap fun e => match e.2 with
    | .ne .. => some (.row (.parkNeRead gid e.1))
    | _ => none) ++
  (if g.ops.any fun o => o.cls == .bank then [.row (.bankOperationPerform gid)] else []) ++
  (if g.ops.any fun o => o.cls == .remote then .row (.remoteAcknowledge gid) ::
    (List.range (((g.ops.find? fun o => !o.puts.isEmpty).map fun o => o.puts.length).getD 0)).map fun i => .row (.putErrorResponse ⟨gid, i⟩)
    else [])

/-- Turns of one team: its engine's tiles, the rows of its copies, its save and its end. -/
def teamTurns (key : Nat) (t : Team) : List Turn :=
  (if t.engine.isEmpty then [] else (List.range 8).map fun i => .row (.matrixStep key i)) ++
  (t.hod.zipIdx.flatMap fun k => k.1.reqs.zipIdx.flatMap fun r => r.1.rows.map fun row =>
    .row (.hodDestinationWrite k.1.gid k.2 r.2 row)) ++
  (if t.residence == .saving then [.row (.teamSaveComplete key)] else []) ++ [.row (.teamFree key)]

/-- Turns of one core: its pipes, and its stores in flight. -/
def State.coreTurns (s : State) (core : Nat) : List Turn :=
  ([0, 1].filterMap fun p => if s.pipeRunning core p || (s.readyGroups core p).isEmpty then none else some (.row (.arbitrationTurn core p))) ++
  (s.core core).flight.zipIdx.map fun e => .row (.storePerform e.1.gid (.reach e.2))

/-- Turns of the queues and launches (R196, R198, R203, R204, R319). -/
def State.launchTurns (s : State) : List Turn :=
  ((List.range 16).filterMap fun q => (s.head q).map fun h => match pktTYPE h.2 with
    | 1 => .row (.waitev q)
    | 2 => .row (.signal q)
    | 3 => .row (.setdet q)
    | _ => .row (.launch q)) ++
  (s.launches.flatMap fun l => [.row (.deterministicDrain l.1), .row (.gbarRelease l.1), .row (.launchComplete l.1)]) ++
  (if s.resumeQ.isEmpty then [] else [.row .islandResume]) ++ [.row .teamPlace]

/-- Thermal marks that are to be set or cleared (R241). -/
def State.markTurns (s : State) : List Turn :=
  (if !s.warn && s.reaches .warn then [.row .thermalWarn] else []) ++
  ([0, 1, 2, 3].filterMap fun d => if !s.hot.contains d && s.reaches (.hot d) then some (.row (.thermalHot d)) else none) ++
  (if !s.critical && s.reaches .critical then [.row .thermalCritical] else []) ++
  (([Mark.warn, Mark.critical] ++ s.hot.map Mark.hot).filterMap fun m => if s.fallen m then some (.row (.thermalMarkClear m)) else none)

/-- Turns of the hub: deadlines, invalidations, converters, injectors and waiting calls. -/
def State.hubTurns (s : State) : List Turn :=
  [.row .seizeBegin, .row .seizeDeadline] ++ (if s.ctrl.tlbreqs.isEmpty then [] else [.row .tlbInvalidationComplete]) ++
  (s.islands.filterMap fun i => if i.2.settling = 0 then none else some (.row (.ratioSettleEnd i.1))) ++
  (s.links.filterMap fun l => if s.injects l.1 then some (.row (.linkInjection l.1)) else none) ++
  (s.ctxs.flatMap fun c => if c.2.waiting.isSome then [.row (.eventWait c.1), .row (.eventWaitTimeout c.1)] else [])

def State.busyCores (s : State) : List Nat :=
  ((s.groups.map fun e => coreOf e.1) ++ (s.cores.filter fun c => !c.2.flight.isEmpty).map (·.1)).eraseDups

/-- Every turn that the device may take on its own. -/
def State.turns (s : State) : List Turn :=
  (s.groups.flatMap fun e => groupTurns e.1 e.2) ++ (s.teams.flatMap fun e => teamTurns e.1 e.2) ++
  (s.busyCores.flatMap s.coreTurns) ++ s.launchTurns ++ s.hubTurns ++ s.markTurns

/-! The next move. -/

/-- The group that holds an issue turn meets its next instruction, or the end of its course. -/
def State.issueMove (s : State) (gid : Gid) : Move :=
  match s.group gid with
  | none => .finished { s with cur := none }
  | some g =>
    match g.visit with
    | none => .finished { s with cur := none }
    | some v =>
      if g.status != .running then .finished { s with cur := none }
      else if v.ended then .run (.courseBoundary gid) s
      else match s.fetchInstr gid g v with
        | .run i s => .run i s
        | .stopped t => .finished t

/-- A control program's own RISC-V instructions, which the spec does not describe (R245): what they leave in a0 to a7 and in
its memory (assumption 46). -/
def State.runProgram (s : State) (ctx : Nat) (regs : List (Nat × W64)) (bytes : List (Nat × Byte)) : State :=
  if s.calling ctx then
    ((regs.filter fun r => r.1 < 8).foldl (fun s r => s.setUser ctx r.1 r.2) s).modCtx ctx fun c =>
      { c with mem := bytes.foldl (fun m b => Sparse.set m b.1 b.2) c.mem }
  else s

/-- The memories that other processors reach (R117, R120, R127 to R129). -/
def StByte.outside (b : StByte) : Bool :=
  match b.place with
  | .hbm => decide (b.addr < hbmSize)
  | .bank => decide (b.addr < 2 ^ 28)
  | .host => true
  | .peer _ => true
  | _ => false

/-- A turn is taken. A device without power takes none but that of its power. DESIGN CHOICE (assumption 70). -/
def State.take (s : State) (t : Turn) : Move :=
  match t with
  | .row i => if s.powered || i == .powerOn then .run i s else .finished s
  | .issue g => if s.powered then ({ s with cur := some g } : State).issueMove g else .finished s
  | .upset u => .finished { s with upsets := s.upsets ++ [u] }
  | .sensors temps => .finished (s.sense temps)
  | .partition p => .finished (s.setPartition p)
  | .plic a => .finished (if s.powered then s.plicAccess a else s)
  | .hart h x => .finished (if s.powered then s.runHart h x else s)
  | .lifetime h index => .finished (if s.powered then s.readLifetime h index else s)
  | .address vilaz fixed addrs => .finished (s.setAddrs vilaz fixed addrs)
  | .nvme space cmd => .finished (if s.powered && s.ctrl.ready.getLsbD 3 then s.admin space cmd else s)
  | .program ctx regs bytes => .finished (if s.powered then s.runProgram ctx regs bytes else s)
  | .outside bytes => .finished (s.writeBytesAt (bytes.filter StByte.outside))
  | .auto => .finished s

/-- The device picks one of its turns, or a tick of TIMEREF passes. -/
def State.autoMove (s : State) : Move :=
  let l := s.turns
  match l[(Config.freeWord s.freeCtr).toNat % (l.length + 1)]? with
  | some t => s.draw.take t
  | none => .finished { s.draw with timeref := s.timeref + 1 }

/-- The agenda's head comes first, then the group that holds the issue turn, then a free choice. -/
def State.nextMove (s : State) : Move :=
  match s.agenda with
  | .auto :: rest => ({ s with agenda := rest } : State).autoMove
  | t :: rest => ({ s with agenda := rest } : State).take t
  | [] => match s.cur with
    | some g => if s.powered then s.issueMove g else .finished s
    | none => s.autoMove

/-! A program placed (assumption 5). -/

/-- The bytes that a table word stands for: the row's own, first byte lowest, and the zero bytes above them. -/
def programBytes (nbits w : Nat) : List Byte := tableBytes nbits w

/-- A context, an object and a group whose next instruction stands at code-heap offset 0x10000. -/
def State.placeProgram (s : State) (bs : List Byte) : State :=
  let desc : List (Nat × Nat) := [(0, 1), (9, 0x80)]
  let hbm := (((s.hbm.clear 0 128).clear 0x8000 0x8008).clear 0x10000 0x10020)
  let hbm := desc.foldl (fun m e => Sparse.set m e.1 (BitVec.ofNat 8 e.2)) hbm
  let hbm := Memory.writeBytes hbm 0x8000 [0x0F]
  let hbm := Memory.writeBytes hbm 0x10000 bs
  let o : Translation :=
    { id := 0, ctx := 0, heapoff := 0x10000, codeSize := 0x1000, size := 0x1000, starts := [0], kernels := [], rawEntries := [],
      symbols := [], name := [], deps := [], digest := 0, requires := 0, bound := 0, superseded := false, unloaded := false,
      freed := false }
  let g : Group :=
    { nreg := 512, status := .running, wl := lanes.map fun t => (t, 0x10000#32), cursor := 0x10000
      visit := some (newVisit 0x10000 allLanes 0) }
  { s with
    agenda := []
    cur := some 0
    hbm
    powered := true
    tlb := []
    ctrl := { s.ctrl with ctxtbl := 0 }
    objects := [o]
    groups := [(0, g)]
    teams := [(0, { nreg := 512, scratchSize := 4096, slots := [(0, 0)] })]
    launches := [(0, { phase := .running, nreg := 512, entry := 0x10000, nextTeam := 1 })] }

end Sys2Proof.Machine
end

