-- ==== Sys2Proof/Machine/Dispatch.lean ====
section
/-!
DEFINITION. The dispatch of every instruction and device step to its meaning: one arm per constructor.
-/
namespace Sys2Proof.Machine

def exec (i : Instr) (s : State) : Host.Outcome State Fault Refusal :=
  match i with
  | .nopCompact o => Sys2Proof.Machine.execNopCompact o s
  | .addI32Compact o => Sys2Proof.Machine.execAddI32Compact o s
  | .subI32Compact o => Sys2Proof.Machine.execSubI32Compact o s
  | .mulI32Compact o => Sys2Proof.Machine.execMulI32Compact o s
  | .minI32Compact o => Sys2Proof.Machine.execMinI32Compact o s
  | .maxI32Compact o => Sys2Proof.Machine.execMaxI32Compact o s
  | .andCompact o => Sys2Proof.Machine.execAndCompact o s
  | .orCompact o => Sys2Proof.Machine.execOrCompact o s
  | .xorCompact o => Sys2Proof.Machine.execXorCompact o s
  | .shlN32Compact o => Sys2Proof.Machine.execShlN32Compact o s
  | .shrN32Compact o => Sys2Proof.Machine.execShrN32Compact o s
  | .sarI32Compact o => Sys2Proof.Machine.execSarI32Compact o s
  | .movCompact o => Sys2Proof.Machine.execMovCompact o s
  | .faddF32Compact o => Sys2Proof.Machine.execFaddF32Compact o s
  | .fsubF32Compact o => Sys2Proof.Machine.execFsubF32Compact o s
  | .fmulF32Compact o => Sys2Proof.Machine.execFmulF32Compact o s
  | .fminF32Compact o => Sys2Proof.Machine.execFminF32Compact o s
  | .fmaxF32Compact o => Sys2Proof.Machine.execFmaxF32Compact o s
  | .faddH16x2Compact o => Sys2Proof.Machine.execFaddH16x2Compact o s
  | .fmulH16x2Compact o => Sys2Proof.Machine.execFmulH16x2Compact o s
  | .lmulLn8x4Compact o => Sys2Proof.Machine.execLmulLn8x4Compact o s
  | .lmulLn4x8Compact o => Sys2Proof.Machine.execLmulLn4x8Compact o s
  | .saddCompact o => Sys2Proof.Machine.execSaddCompact o s
  | .ssubCompact o => Sys2Proof.Machine.execSsubCompact o s
  | .sandCompact o => Sys2Proof.Machine.execSandCompact o s
  | .sorCompact o => Sys2Proof.Machine.execSorCompact o s
  | .sxorCompact o => Sys2Proof.Machine.execSxorCompact o s
  | .popcCompact o => Sys2Proof.Machine.execPopcCompact o s
  | .clzCompact o => Sys2Proof.Machine.execClzCompact o s
  | .brevCompact o => Sys2Proof.Machine.execBrevCompact o s
  | .notCompact o => Sys2Proof.Machine.execNotCompact o s
  | .absI32Compact o => Sys2Proof.Machine.execAbsI32Compact o s
  | .abs o => Sys2Proof.Machine.execAbs o s
  | .add o => Sys2Proof.Machine.execAdd o s
  | .sub o => Sys2Proof.Machine.execSub o s
  | .mul o => Sys2Proof.Machine.execMul o s
  | .mulhi o => Sys2Proof.Machine.execMulhi o s
  | .mad o => Sys2Proof.Machine.execMad o s
  | .min o => Sys2Proof.Machine.execMin o s
  | .max o => Sys2Proof.Machine.execMax o s
  | .and o => Sys2Proof.Machine.execAnd o s
  | .or o => Sys2Proof.Machine.execOr o s
  | .xor o => Sys2Proof.Machine.execXor o s
  | .not o => Sys2Proof.Machine.execNot o s
  | .shl o => Sys2Proof.Machine.execShl o s
  | .shr o => Sys2Proof.Machine.execShr o s
  | .sar o => Sys2Proof.Machine.execSar o s
  | .fsl o => Sys2Proof.Machine.execFsl o s
  | .fsr o => Sys2Proof.Machine.execFsr o s
  | .bfx o => Sys2Proof.Machine.execBfx o s
  | .bfi o => Sys2Proof.Machine.execBfi o s
  | .popc o => Sys2Proof.Machine.execPopc o s
  | .clz o => Sys2Proof.Machine.execClz o s
  | .brev o => Sys2Proof.Machine.execBrev o s
  | .cmp o => Sys2Proof.Machine.execCmp o s
  | .sel o => Sys2Proof.Machine.execSel o s
  | .lea o => Sys2Proof.Machine.execLea o s
  | .idot o => Sys2Proof.Machine.execIdot o s
  | .fadd o => Sys2Proof.Machine.execFadd o s
  | .fsub o => Sys2Proof.Machine.execFsub o s
  | .fmul o => Sys2Proof.Machine.execFmul o s
  | .ffma o => Sys2Proof.Machine.execFfma o s
  | .fmin o => Sys2Proof.Machine.execFmin o s
  | .fmax o => Sys2Proof.Machine.execFmax o s
  | .fcmp o => Sys2Proof.Machine.execFcmp o s
  | .fcvt o => Sys2Proof.Machine.execFcvt o s
  | .frcp o => Sys2Proof.Machine.execFrcp o s
  | .frsq o => Sys2Proof.Machine.execFrsq o s
  | .fex2 o => Sys2Proof.Machine.execFex2 o s
  | .flg2 o => Sys2Proof.Machine.execFlg2 o s
  | .fsin o => Sys2Proof.Machine.execFsin o s
  | .fcos o => Sys2Proof.Machine.execFcos o s
  | .lmul o => Sys2Proof.Machine.execLmul o s
  | .ldiv o => Sys2Proof.Machine.execLdiv o s
  | .lscl o => Sys2Proof.Machine.execLscl o s
  | .lcvt o => Sys2Proof.Machine.execLcvt o s
  | .lqnt o => Sys2Proof.Machine.execLqnt o s
  | .ldot o => Sys2Proof.Machine.execLdot o s
  | .mfmt o => Sys2Proof.Machine.execMfmt o s
  | .mlay o => Sys2Proof.Machine.execMlay o s
  | .mma o => Sys2Proof.Machine.execMma o s
  | .mloop o => Sys2Proof.Machine.execMloop o s
  | .mzero o => Sys2Proof.Machine.execMzero o s
  | .mrd o => Sys2Proof.Machine.execMrd o s
  | .mwr o => Sys2Proof.Machine.execMwr o s
  | .mov o => Sys2Proof.Machine.execMov o s
  | .movi o => Sys2Proof.Machine.execMovi o s
  | .rdx o => Sys2Proof.Machine.execRdx o s
  | .wrx o => Sys2Proof.Machine.execWrx o s
  | .vtos o => Sys2Proof.Machine.execVtos o s
  | .stov o => Sys2Proof.Machine.execStov o s
  | .shfl o => Sys2Proof.Machine.execShfl o s
  | .redux o => Sys2Proof.Machine.execRedux o s
  | .pfx o => Sys2Proof.Machine.execPfx o s
  | .matchKeys o => Sys2Proof.Machine.execMatchKeys o s
  | .vote o => Sys2Proof.Machine.execVote o s
  | .nzscan o => Sys2Proof.Machine.execNzscan o s
  | .sadd o => Sys2Proof.Machine.execSadd o s
  | .ssub o => Sys2Proof.Machine.execSsub o s
  | .smul o => Sys2Proof.Machine.execSmul o s
  | .sand o => Sys2Proof.Machine.execSand o s
  | .sor o => Sys2Proof.Machine.execSor o s
  | .sxor o => Sys2Proof.Machine.execSxor o s
  | .sshl o => Sys2Proof.Machine.execSshl o s
  | .sshr o => Sys2Proof.Machine.execSshr o s
  | .scmp o => Sys2Proof.Machine.execScmp o s
  | .ssel o => Sys2Proof.Machine.execSsel o s
  | .smovi o => Sys2Proof.Machine.execSmovi o s
  | .slea o => Sys2Proof.Machine.execSlea o s
  | .sld o => Sys2Proof.Machine.execSld o s
  | .sst o => Sys2Proof.Machine.execSst o s
  | .ld o => Sys2Proof.Machine.execLd o s
  | .ldv o => Sys2Proof.Machine.execLdv o s
  | .lds o => Sys2Proof.Machine.execLds o s
  | .ldb o => Sys2Proof.Machine.execLdb o s
  | .st o => Sys2Proof.Machine.execSt o s
  | .stv o => Sys2Proof.Machine.execStv o s
  | .sts o => Sys2Proof.Machine.execSts o s
  | .stb o => Sys2Proof.Machine.execStb o s
  | .bop o => Sys2Proof.Machine.execBop o s
  | .atom o => Sys2Proof.Machine.execAtom o s
  | .cas o => Sys2Proof.Machine.execCas o s
  | .red o => Sys2Proof.Machine.execRed o s
  | .fence o => Sys2Proof.Machine.execFence o s
  | .kick o => Sys2Proof.Machine.execKick o s
  | .barinit o => Sys2Proof.Machine.execBarinit o s
  | .waitb o => Sys2Proof.Machine.execWaitb o s
  | .waitc o => Sys2Proof.Machine.execWaitc o s
  | .sleep o => Sys2Proof.Machine.execSleep o s
  | .bar o => Sys2Proof.Machine.execBar o s
  | .cbar o => Sys2Proof.Machine.execCbar o s
  | .gbar o => Sys2Proof.Machine.execGbar o s
  | .join o => Sys2Proof.Machine.execJoin o s
  | .leave o => Sys2Proof.Machine.execLeave o s
  | .want o => Sys2Proof.Machine.execWant o s
  | .wantr o => Sys2Proof.Machine.execWantr o s
  | .call o => Sys2Proof.Machine.execCall o s
  | .callr o => Sys2Proof.Machine.execCallr o s
  | .ret o => Sys2Proof.Machine.execRet o s
  | .exit o => Sys2Proof.Machine.execExit o s
  | .park o => Sys2Proof.Machine.execPark o s
  | .rejoin o => Sys2Proof.Machine.execRejoin o s
  | .region o => Sys2Proof.Machine.execRegion o s
  | .pfor o => Sys2Proof.Machine.execPfor o s
  | .pend o => Sys2Proof.Machine.execPend o s
  | .nop o => Sys2Proof.Machine.execNop o s
  | .csrr o => Sys2Proof.Machine.execCsrr o s
  | .csrw o => Sys2Proof.Machine.execCsrw o s
  | .time o => Sys2Proof.Machine.execTime o s
  | .trap o => Sys2Proof.Machine.execTrap o s
  | .eret o => Sys2Proof.Machine.execEret o s
  | .brk o => Sys2Proof.Machine.execBrk o s
  | .arbitrationTurn core pipe => Sys2Proof.Machine.execArbitrationTurn core pipe s
  | .courseBoundary g => Sys2Proof.Machine.execCourseBoundary g s
  | .idempotentRollback g => Sys2Proof.Machine.execIdempotentRollback g s
  | .valueArrival g index move => Sys2Proof.Machine.execValueArrival g index move s
  | .storePerform g move => Sys2Proof.Machine.execStorePerform g move s
  | .parkNeRead g lane => Sys2Proof.Machine.execParkNeRead g lane s
  | .parkConditionWake g => Sys2Proof.Machine.execParkConditionWake g s
  | .sleepWake g => Sys2Proof.Machine.execSleepWake g s
  | .lateCopyTrap g => Sys2Proof.Machine.execLateCopyTrap g s
  | .faultRecordWrite g => Sys2Proof.Machine.execFaultRecordWrite g s
  | .matrixStep team tile => Sys2Proof.Machine.execMatrixStep team tile s
  | .formatEmulation g => Sys2Proof.Machine.execFormatEmulation g s
  | .hodDestinationWrite g kick request row => Sys2Proof.Machine.execHodDestinationWrite g kick request row s
  | .bankOperationPerform g => Sys2Proof.Machine.execBankOperationPerform g s
  | .remoteAcknowledge g => Sys2Proof.Machine.execRemoteAcknowledge g s
  | .peerRequest port dev req => Sys2Proof.Machine.execPeerRequest port dev req s
  | .putReceive port phys data => Sys2Proof.Machine.execPutReceive port phys data s
  | .putErrorResponse p => Sys2Proof.Machine.execPutErrorResponse p s
  | .flitReceive port => Sys2Proof.Machine.execFlitReceive port s
  | .pauseFlitReceive port => Sys2Proof.Machine.execPauseFlitReceive port s
  | .resumeFlitReceive port => Sys2Proof.Machine.execResumeFlitReceive port s
  | .linkInjection link => Sys2Proof.Machine.execLinkInjection link s
  | .deterministicDrain launch => Sys2Proof.Machine.execDeterministicDrain launch s
  | .gbarRelease launch => Sys2Proof.Machine.execGbarRelease launch s
  | .islandResume => Sys2Proof.Machine.execIslandResume s
  | .launch q => Sys2Proof.Machine.execLaunch q s
  | .waitev q => Sys2Proof.Machine.execWaitev q s
  | .signal q => Sys2Proof.Machine.execSignal q s
  | .setdet q => Sys2Proof.Machine.execSetdet q s
  | .teamPlace => Sys2Proof.Machine.execTeamPlace s
  | .teamFree team => Sys2Proof.Machine.execTeamFree team s
  | .launchComplete launch => Sys2Proof.Machine.execLaunchComplete launch s
  | .preemptDrain value => Sys2Proof.Machine.execPreemptDrain value s
  | .seizeBegin => Sys2Proof.Machine.execSeizeBegin s
  | .teamSaveComplete team => Sys2Proof.Machine.execTeamSaveComplete team s
  | .seizeDeadline => Sys2Proof.Machine.execSeizeDeadline s
  | .preemptRestore value => Sys2Proof.Machine.execPreemptRestore value s
  | .fbreplyReplay slot => Sys2Proof.Machine.execFbreplyReplay slot s
  | .fbreplyKill slot => Sys2Proof.Machine.execFbreplyKill slot s
  | .faultBufferConfigure size value => Sys2Proof.Machine.execFaultBufferConfigure size value s
  | .tlbinvContext ctx => Sys2Proof.Machine.execTlbinvContext ctx s
  | .tlbinvPage ctx vpn => Sys2Proof.Machine.execTlbinvPage ctx vpn s
  | .tlbinvAll => Sys2Proof.Machine.execTlbinvAll s
  | .tlbInvalidationComplete => Sys2Proof.Machine.execTlbInvalidationComplete s
  | .injcfgWrite link value => Sys2Proof.Machine.execInjcfgWrite link value s
  | .clockStepChange island step => Sys2Proof.Machine.execClockStepChange island step s
  | .clockRatioChange island ratio step => Sys2Proof.Machine.execClockRatioChange island ratio step s
  | .ratioSettleEnd island => Sys2Proof.Machine.execRatioSettleEnd island s
  | .registerWrite space offset value => Sys2Proof.Machine.execRegisterWrite space offset value s
  | .feataccWrite value => Sys2Proof.Machine.execFeataccWrite value s
  | .hostBar2Access req => Sys2Proof.Machine.execHostBar2Access req s
  | .droopAlarm island => Sys2Proof.Machine.execDroopAlarm island s
  | .droopStretchEnd island => Sys2Proof.Machine.execDroopStretchEnd island s
  | .droopCapEnd island => Sys2Proof.Machine.execDroopCapEnd island s
  | .thermalWarn => Sys2Proof.Machine.execThermalWarn s
  | .alertRepeat => Sys2Proof.Machine.execAlertRepeat s
  | .thermalHot die => Sys2Proof.Machine.execThermalHot die s
  | .thermalCritical => Sys2Proof.Machine.execThermalCritical s
  | .thermalMarkClear mark => Sys2Proof.Machine.execThermalMarkClear mark s
  | .lifetimeWriteback => Sys2Proof.Machine.execLifetimeWriteback s
  | .laneRetire die site lane => Sys2Proof.Machine.execLaneRetire die site lane s
  | .powerOn => Sys2Proof.Machine.execPowerOn s
  | .functionBringup f => Sys2Proof.Machine.execFunctionBringup f s
  | .functionLevelReset => Sys2Proof.Machine.execFunctionLevelReset s
  | .vilazRestart => Sys2Proof.Machine.execVilazRestart s
  | .ethernetFrameReceive dst group => Sys2Proof.Machine.execEthernetFrameReceive dst group s
  | .getready m => Sys2Proof.Machine.execGetready m s
  | .getstatus m => Sys2Proof.Machine.execGetstatus m s
  | .getcount m => Sys2Proof.Machine.execGetcount m s
  | .gettemp m => Sys2Proof.Machine.execGettemp m s
  | .flashopen m => Sys2Proof.Machine.execFlashopen m s
  | .flashdata m => Sys2Proof.Machine.execFlashdata m s
  | .flashclose m => Sys2Proof.Machine.execFlashclose m s
  | .setboot m => Sys2Proof.Machine.execSetboot m s
  | .setcoll m => Sys2Proof.Machine.execSetcoll m s
  | .alertack m => Sys2Proof.Machine.execAlertack m s
  | .settrust m => Sys2Proof.Machine.execSettrust m s
  | .setstore m => Sys2Proof.Machine.execSetstore m s
  | .exitCall ctx => Sys2Proof.Machine.execExitCall ctx s
  | .write ctx => Sys2Proof.Machine.execWrite ctx s
  | .memAlloc ctx => Sys2Proof.Machine.execMemAlloc ctx s
  | .memFree ctx => Sys2Proof.Machine.execMemFree ctx s
  | .memMap ctx => Sys2Proof.Machine.execMemMap ctx s
  | .objLoad ctx => Sys2Proof.Machine.execObjLoad ctx s
  | .objUnload ctx => Sys2Proof.Machine.execObjUnload ctx s
  | .objLookup ctx => Sys2Proof.Machine.execObjLookup ctx s
  | .launchCall ctx => Sys2Proof.Machine.execLaunchCall ctx s
  | .eventWait ctx => Sys2Proof.Machine.execEventWait ctx s
  | .eventWaitTimeout ctx => Sys2Proof.Machine.execEventWaitTimeout ctx s
  | .eventQuery ctx => Sys2Proof.Machine.execEventQuery ctx s
  | .queueCreate ctx => Sys2Proof.Machine.execQueueCreate ctx s
  | .queueDestroy ctx => Sys2Proof.Machine.execQueueDestroy ctx s
  | .featureQuery ctx => Sys2Proof.Machine.execFeatureQuery ctx s
  | .timeNow ctx => Sys2Proof.Machine.execTimeNow ctx s
  | .peerOpen ctx => Sys2Proof.Machine.execPeerOpen ctx s
  | .peerMap ctx => Sys2Proof.Machine.execPeerMap ctx s
  | .attestReport ctx => Sys2Proof.Machine.execAttestReport ctx s
  | .debugAttach ctx => Sys2Proof.Machine.execDebugAttach ctx s
  | .yield ctx => Sys2Proof.Machine.execYield ctx s
  | .powerLoss orderly => Sys2Proof.Machine.execPowerLoss orderly s
  | .deviceReset => Sys2Proof.Machine.execDeviceReset s
  | .functionFault f => Sys2Proof.Machine.execFunctionFault f s
  | .secdedError w corrected => Sys2Proof.Machine.execSecdedError w corrected s
  | .pcieConfigurationWrite c => Sys2Proof.Machine.execPcieConfigurationWrite c s
  | .imageStart image => Sys2Proof.Machine.execImageStart image s
  | .unassignedCallNumber ctx => Sys2Proof.Machine.execUnassignedCallNumber ctx s
  | .unknownOperation m => Sys2Proof.Machine.execUnknownOperation m s

end Sys2Proof.Machine
end

