-- ==== Sys2Proof/Machine/Step.lean ====
section
/-!
DEFINITION. The step of the machine: the next agent's move.
-/
namespace Sys2Proof.Machine

/-- One step: the next move executes a row of the opcode table, or is over in itself. -/
def step (s : State) : Host.Outcome State Fault Refusal :=
  match s.nextMove with
  | .run i t => exec i t
  | .finished t => .next t

/-- An instruction of the opcode table stored where the step fetches its next instruction (assumption 5); an event row's
word has no instruction that a group could fetch. -/
def State.withFetchWord (s : State) (nbits w : Nat) : State := s.placeProgram (programBytes nbits w)

end Sys2Proof.Machine
end

