-- ==== Sys2Proof/Safety.lean ====
section
/-!
DEFINITION. The terms in which claims are stated: the invariant of the memories, the passing of time, an instruction
that issues, and what it posts.
-/
namespace Sys2Proof.Safety

open Sys2Proof.Machine

/-- Every memory of the state is in its canonical form: HBM, the host's, bank memory, the peers', the storage namespaces, the
scratch and the tiles of the teams, the control programs' memories, and the images in flash (no fault can end a run, so nothing
else is asked of a step). -/
structure Memories (s : State) : Prop where
  hbm : Memory.wf s.hbm = true
  host : Memory.wf s.host = true
  bank : Memory.wf s.bank = true
  peers : ∀ e ∈ s.peers, Memory.wf e.2 = true
  spaces : ∀ e ∈ s.spaces, Memory.wf e.2 = true
  scratch : ∀ e ∈ s.teams, Memory.wf e.2.scratch = true
  tiles : ∀ e ∈ s.teams, Sparse.wf e.2.tiles = true
  programs : ∀ e ∈ s.ctxs, Memory.wf e.2.mem = true
  slots : ∀ e ∈ s.mgmt.slots, Memory.wf e.2.2 = true
  openImage : ∀ e, s.mgmt.openImage = some e → Memory.wf e.2.2 = true

/-- The state `s` with all that time changes by itself as it is in `t`: the islands and TIMEREF (R7, R239 to R243), the
lifetime counters of the droop alarms (R237), the status word and the alert they may form (R280, R282) and the free values drawn. -/
def elapse (s t : State) : State :=
  { s with
    islands := t.islands, timeref := t.timeref, freeCtr := t.freeCtr, outbox := t.outbox
    ctrl := { s.ctrl with repl := t.ctrl.repl, mgmtstat := t.ctrl.mgmtstat, msistat := t.ctrl.msistat, msipend := t.ctrl.msipend }
    mgmt := { s.mgmt with live := t.mgmt.live, alertSeq := t.mgmt.alertSeq, unacked := t.mgmt.unacked, stamp := t.mgmt.stamp } }

/-- Time has passed from `s` to `t` and nothing else has happened: all other state is as it was. -/
def Elapsed (s t : State) : Prop := t = elapse s t

/-- The state in which an issuing instruction takes effect: the results visible at its slot have landed (R107, R235). -/
def landed (s : State) (e : Env) : State := s.landed e.gid e.slot

/-- `i` issues at `s` with the environment `e`: the group of `e` holds its pipe's issue turn at this position of its
course; `e.g` is the group with the results visible at the issue slot. The encoding is legal and its registers exist
(R58, R103), a variable-latency destination is named in the trailer (R29), checking mode finds no earlier result under way
(R108), no pending register is named (R29), the guard leaves the lanes `e.mask` (R52, R91), and no source is poisoned (R235). -/
structure Admitted (i : Instr) (s : State) (e : Env) (paired : Bool) : Prop where
  turn : s.env i (pairable i) = some ({ e with mask := e.v.active }, paired)
  legal : i.wf = true
  registers : e.g.nregOk i = true
  awaited : (landed s e).awaitOk e.gid e.g e.v i = true
  checked : e.launch.check = true → e.g.meets i.names = none
  pending : e.g.pendingName i = none
  guard : e.g.guardMask i.guard e.v.active = some e.mask
  clean : (landed s e).poisonedSource e = false

/-- `i` issues, and is not single-stepped (R223). -/
structure Issues (i : Instr) (s : State) (e : Env) (paired : Bool) : Prop extends Admitted i s e paired where
  free : e.g.stepctl ≠ 1

/-- `i` completes: the next state is `u`, in which its effect has happened, with the visit advanced past the instruction
(R26, R31, R101) and time passed. -/
def Completes (i : Instr) (s : State) (e : Env) (cls : IClass) (u : State) : Prop :=
  ∃ t, exec i s = .next t ∧ Elapsed (u.modGroup e.gid fun g => g.advance e cls) t

/-- A fixed-latency result of the instruction of `e`: it lands `latency` slots after its own (R28, R107). -/
def result (e : Env) (latency : Nat) (writes : List RegWrite) (fl : Fl) : Pend :=
  { land := e.slot + latency, csr := false, writer := e.here, writes, ff := fl.ff, lf := fl.lf }

/-- The group of `e` with a result under way. -/
def posted (e : Env) (p : Pend) : Group := { e.g with pend := addPend e.g.pend p }

/-- `i` completes and posts a fixed-latency result: its register writes and its flags, which land later (R107). -/
def Posts (i : Instr) (s : State) (e : Env) (cls : IClass) (latency : Nat) (writes : List RegWrite) (fl : Fl) : Prop :=
  Completes i s e cls ((landed s e).putGroup e.gid (posted e (result e latency writes fl)))

/-- A vector instruction posts a value in each active lane: `value t` is the value that lane t's destination receives. -/
def PostsLanes (i : Instr) (s : State) (e : Env) (latency : Nat) (write : Nat → Nat → List RegWrite) (value : Nat → Nat)
    (flags : Nat → Fl) : Prop :=
  Posts i s e .vector latency (e.lanes.flatMap fun t => write t (value t)) (e.lanes.foldl (fun a t => a.or (flags t)) {})

/-- As `PostsLanes`, with no flag and the values described by a property. -/
def PostsSuch (i : Instr) (s : State) (e : Env) (latency : Nat) (write : Nat → Nat → List RegWrite)
    (holds : Nat → Nat → Prop) : Prop :=
  ∃ value : Nat → Nat, PostsLanes i s e latency write value (fun _ => {}) ∧ ∀ t, holds t (value t)

/-- In every active lane the destination receives, in element k of a value of type `ty`, the bits `f t k` (R66). -/
def PostsElements (i : Instr) (s : State) (e : Env) (latency : Nat) (ty : ETy) (write : Nat → Nat → List RegWrite)
    (f : Nat → Nat → Nat) : Prop :=
  PostsSuch i s e latency write fun t r =>
    r < 2 ^ (ty.width * ty.count) ∧ ∀ k, k < ty.count → elem ty.width r k = f t k

/-- The number that element k of a value stands for in type `ty` (R66). -/
def numAt (ty : ETy) (x k : Nat) : Int := toInt ty.signed ty.width (elem ty.width x k)

/-- As `PostsElements`, for an operation that raises flags: `f t k` gives the bits of element k in lane t and the flags it
raises; the sticky flags that land are those of every element of every active lane (R65). -/
def PostsFlagged (i : Instr) (s : State) (e : Env) (latency : Nat) (ty : ETy) (write : Nat → Nat → List RegWrite)
    (f : Nat → Nat → Nat × Fl) : Prop :=
  ∃ (value : Nat → Nat) (fl : Fl),
    Posts i s e .vector latency (e.lanes.flatMap fun t => write t (value t)) fl ∧
    (∀ t, value t < 2 ^ (ty.width * ty.count) ∧ ∀ k, k < ty.count → elem ty.width (value t) k = (f t k).1 % 2 ^ ty.width) ∧
    (∀ j, fl.ff.getLsbD j = e.lanes.any fun t => (List.range ty.count).any fun k => (f t k).2.ff.getLsbD j) ∧
    (∀ j, fl.lf.getLsbD j = e.lanes.any fun t => (List.range ty.count).any fun k => (f t k).2.lf.getLsbD j)

/-- A binary32 source under FTZ: a subnormal reads as zero of its sign (R77). -/
def ftzSource (ftz : Bool) (w : Nat) : Nat := if ftz ∧ w / 2 ^ 23 % 2 ^ 8 = 0 then w / 2 ^ 31 * 2 ^ 31 else w

/-- A binary32 result under FTZ: a subnormal is flushed after rounding to zero of its sign, with UF and NX (R77). -/
def ftzResult (ftz : Bool) (r : Nat × W32) : Nat × W32 :=
  if ftz ∧ r.1 / 2 ^ 23 % 2 ^ 8 = 0 ∧ r.1 % 2 ^ 23 ≠ 0 then (r.1 / 2 ^ 31 % 2 * 2 ^ 31, r.2 ||| flUF ||| flNX) else r

/-- `i` holds its pipe and has not issued (R29): the state is `u`, time passes, and what it waits for comes next. -/
def Holds (i : Instr) (s u : State) : Prop :=
  ∃ v, Elapsed u v ∧ exec i s = .next { v with agenda := .auto :: u.agenda }

/-- `i` completes, and the single-step trap of instruction mode follows (R223): cause 16 at the instruction, with EPC the next
one and TRAPLANES the active mask. -/
def CompletesThenSteps (i : Instr) (s : State) (e : Env) (cls : IClass) (u : State) : Prop :=
  ∃ v, Elapsed (u.modGroup e.gid fun g => g.advance e cls) v ∧
    exec i s = .next (v.takeTrap e.gid { cause := 16, addr := e.here, val := 0, lanes := e.v.active, epc := e.next, pos := 0 })

/-- `i` raises a trap precisely: nothing but the trap happens, the handler starts and the saved position is the instruction
itself (R106, R209). -/
def Traps (i : Instr) (s : State) (e : Env) (cause : Nat) (lanes : LaneMask) (val : W64) : Prop :=
  exec i s = .next ((landed s e).takeTrap e.gid { cause, addr := e.here, val, lanes, epc := e.here, pos := 0 }).draw

/-- `i` meets a translation fault, reported by the record `r` (R125): its group parks until a reply, and nothing else happens.
The record stands at FBHEAD, and FBHEAD moves to the next slot and source 1 is raised (R253); where the ring has no free slot
the group keeps the record. -/
def Parks (i : Instr) (s : State) (e : Env) (r : FaultRec) : Prop :=
  let slot := s.ctrl.fbhead.toNat
  let g (status : Status) : Group := { e.g with status := status, visit := e.g.visit.map fun v => { v with lastVec := none } }
  let s' := landed s e
  (s'.ringFree = false → exec i s = .next
    (({ s' with cur := none } : State).putGroup e.gid { g (.faulted none) with faultWord := r.word }).draw) ∧
  (s'.ringFree = true → exec i s = .next (((({ s' with
      cur := none
      hbm := s.hbm.writeNat (s.ctrl.fbbase.toNat + 32 * slot) r.word.toNat 32
      faults := tput s.faults slot (.group e.gid) } : State).modCtrl fun c =>
        { c with fbhead := BitVec.ofNat 64 ((slot + 1) % c.fbsize.toNat) }).interrupt 1).putGroup e.gid
      (g (.faulted (some slot)))).draw)

/-- The conditions of legality that depend on the state beside R29 and R58: a tile of the team (R157, R173), windows that do
not overlap (R157), a co-operative grid (R318), inside or outside a handler (R63, R208, R308), and native code (R96). -/
def ownLegal (i : Instr) (e : Env) : Prop :=
  match i with
  | .mma o => o.dst.toNat < e.team.heavy
  | .mzero o => o.dst.toNat < e.team.heavy
  | .mwr o => o.dst.toNat < e.team.heavy
  | .mrd o => o.a.toNat < e.team.heavy
  | .mloop o => o.dst.toNat < e.team.heavy ∧ overlapping e.g o.a.toNat o.b.toNat = false
  | .gbar _ => e.launch.coop = true
  | .exit _ => e.g.shadow = none
  | .region _ => e.g.shadow = none
  | .eret o => e.g.shadow.isSome = true ∧ (Instr.eret o).last = true
  | .csrw o => csrAccess o.num.toNat = .handler → e.g.shadow.isSome = true
  | .pfor _ => False
  | .pend _ => False
  | _ => True

/-- A management request that the controller takes up (R247, R279, R280): READY.MGMT is 1, the datagram is for port 4160 of an
address of the controller, the header and lengths are as R280 gives
them, a key of the management trust list signed it, it repeats none of the last 16 responses, and its STAMP exceeds the last
one accepted for its key. -/
structure TakesUp (s : State) (m : MgmtMsg) : Prop where
  ready : s.ctrl.ready.getLsbD 38 = true
  datagram : (m.dst.addr ∈ s.mgmt.net.taken ∨ m.dst.addr ∈ s.mgmt.net.fixed) ∧ m.dst.port = 4160
  header : m.magic = 0x4D47 ∧ m.version = 1 ∧ m.flags = 0 ∧ m.zero = 0
  length : m.len.toNat = m.body.length ∧ m.body.length ≤ 1152
  signed : s.signedOk m = true
  fresh : ∀ r ∈ s.mgmt.responses, ¬ (r.1 = m.keyId ∧ r.2.1 = m.seq)
  stamp : ∀ l, s.lastStamp m.keyId.toNat = some l → l < m.stamp

/-- The state in which its operation is performed: the Markhor harts are told, and its STAMP is kept. -/
def takenUp (s : State) (m : MgmtMsg) : State :=
  (s.interrupt 7).modMgmt fun x => { x with stamps := tput x.stamps m.keyId.toNat m.stamp }

/-- The control program of a context is at a system call of a number: the hart h runs it in user mode, and its a7, x17, holds
the number (R245, R255; which hart runs a program is the model's choice, assumption 98). -/
structure AtCall (s : State) (ctx h num : Nat) : Prop where
  ready : s.ctrl.ready.getLsbD 3 = true
  running : (s.ctx ctx).live = true ∧ (s.ctx ctx).running = true ∧ (s.ctx ctx).waiting = none
  hart : h < 8 ∧ s.hartOf ctx = some h
  number : ((s.hart h).x.get 17).toNat = num

/-- A 32-bit uniform result in its 64-bit register: sign-extended for i32 and zero-extended for n32 (R352). -/
def extend32 (ty : ETy) (x : W32) : W64 := if ty = .i32 then x.signExtend 64 else x.setWidth 64

/-- The accesses of the active lanes, in ascending thread order. -/
def accesses (e : Env) (place : Nat → Place) (addr : Nat → Nat) (va : Nat → W64) (operands : Nat → W64 × W64) : List Access :=
  e.lanes.map fun t =>
    { lane := t, place := place t, addr := addr t, va := va t, operand := (operands t).1, operand2 := (operands t).2 }

/-- A group with one more request of the memory system, under its next sequence number (R29, R134). -/
def requested (g : Group) (e : Env) (names : List AwName) (req : Request) : Group :=
  { g with
    await := g.await ++ [{ seq := g.seq, iaddr := e.here, names, req, val := none, lf := 0 }]
    seq := g.seq + 1 }

/-- A group with one more store in its queue, under its next sequence number (R134). -/
def stored (g : Group) (e : Env) (vol : Bool) (rel : Option Scope) (bytes : List StByte) : Group :=
  { g with
    stq := g.stq ++ [{ gid := e.gid, seq := g.seq, vol, rel, bytes }]
    seq := g.seq + 1 }

/-- A group with one more outstanding operation of a class, if there is one (R145), and the virtual addresses of its puts
(R130). -/
def entered (g : Group) (c : Option OpClass) (puts : List W64) : Group :=
  match c with
  | none => g
  | some c => { g with ops := g.ops ++ [{ cls := c, seq := g.seq, finished := false, region := g.regionSeq, puts }] }

/-- A group with bank conflicts added to CONFLICTS (R121). -/
def conflicted (g : Group) (sp : Space) (good size : Nat) (accs : List Access) : Group :=
  if sp = .scratch ∨ sp = .window then { g with conflicts := g.conflicts + BitVec.ofNat 32 (conflicts good size accs) } else g

/-- A write of REGIONL that is still to land, with the region closed (R107, R233). -/
def shut : RegWrite → RegWrite
  | .csr 0x018 v => .csr 0x018 (v &&& ~~~1#64)
  | w => w

/-- A group whose open region, if any, is closed, as `csrr` will read it too (R107, R233). -/
def regionClosed (g : Group) : Group :=
  { g with
    regionl := g.regionl &&& ~~~1#32
    regionlSeen := g.regionlSeen &&& ~~~1#32
    pend := g.pend.map fun p => { p with writes := p.writes.map shut } }

/-- An access of `size` bytes at an offset of its own scratch matches the group's watchpoint (R224): it is armed for the kind of
access, and some byte of the access agrees with OFFS in every bit of MASK. Inside a handler (R208) and at the instruction to
which a handler of cause 17 returned (R211) nothing matches. -/
def WatchHit (e : Env) (store : Bool) (size a : Nat) : Prop :=
  e.g.watchm.getLsbD 31 = true ∧ e.g.watchm.getLsbD (if store then 30 else 29) = true ∧
  e.g.shadow = none ∧ e.g.suppress ≠ some e.here ∧
  ∃ b, a ≤ b ∧ b < a + size ∧ ∀ j, j < 20 → e.g.watchm.getLsbD j = true → b.testBit j = e.g.watcha.getLsbD j

/-- The collective condition (R54): every lane that is not done is active. -/
def Collective (e : Env) : Prop := ~~~e.g.ended &&& ~~~e.v.active = 0

/-- `i` completes and then raises a trap: the saved position is the next instruction (R211, R299, R370). The trap of an
instruction that ends its course is kept until the trailer has been compared (R212). -/
def CompletesThenTraps (i : Instr) (s : State) (e : Env) (cls : IClass) (cause : Nat) (val : W64) : Prop :=
  ∃ u, Elapsed ((landed s e).modGroup e.gid fun g => g.advance e cls) u ∧
    exec i s = .next (if i.last then
        u.modGroup e.gid fun g => { g with visit := g.visit.map fun v => { v with raised := some (cause, val) } }
      else u.takeTrap e.gid { cause, addr := e.here, val, lanes := e.v.active, epc := e.next, pos := 0 })

/-- `i` completes and stops its group, which then waits; an arrival that completes its barrier releases it (R25, R146,
R293, R319). -/
def Stops (i : Instr) (s : State) (e : Env) (u : State) (k : StopKind) : Prop :=
  ∃ v g, Elapsed (u.modGroup e.gid fun g => g.advance e .other) v ∧ v.group e.gid = some g ∧
    exec i s = .next (({ (match k with
      | .waitc _ _ => v
      | _ => v.putLanded e.gid g).modGroup e.gid fun g => { g with status := .stopped k, stepDue := false } with cur := none } : State).arrived e.g.team k)

end Sys2Proof.Safety
end

