-- ==== Sys2Proof/Certificates/Slice0/Obligations.lean ====
section
/-!
DEFINITION. The statements for the provers, each from the spec's numbered rules.
-/

open Sys2Proof Sys2Proof.Machine Sys2Proof.Safety

/-! ### Integer and bit instructions -/

/-- R286, R287, R336, R338, R342, R368 with R82, and R97 for the compact forms: in every active lane each element of
`add`, `sub`, `mul`, `mulhi`, `mad`, `abs`, `min` and `max` is the exact result, clamped with `.sat` and wrapped without. -/
def Obligations.IntegerArithmetic : Prop :=
  (∀ (o : VOp) (s : State) (e : Env) (p : Bool),
    let w := o.ty.width
    let a (t k : Nat) : Int := numAt o.ty (o.srcA e.g t) k
    let b (t k : Nat) : Int := numAt o.ty (o.srcB e.g t) k
    let c (t k : Nat) : Int := numAt o.ty (o.srcC e.g t) k
    let exact (sat : Bool) (y : Int) : Nat := narrow sat o.ty.signed w y
    (Issues (.add o) s e p → PostsElements (.add o) s e 2 o.ty o.dest fun t k => exact o.sat (a t k + b t k)) ∧
    (Issues (.sub o) s e p → PostsElements (.sub o) s e 2 o.ty o.dest fun t k => exact o.sat (a t k - b t k)) ∧
    (Issues (.mul o) s e p → PostsElements (.mul o) s e 2 o.ty o.dest fun t k => exact o.sat (a t k * b t k)) ∧
    (Issues (.mulhi o) s e p → PostsElements (.mulhi o) s e 2 o.ty o.dest fun t k => exact false (a t k * b t k / 2 ^ w)) ∧
    (Issues (.mad o) s e p → PostsElements (.mad o) s e 2 o.ty o.dest fun t k => exact o.sat (a t k * b t k + c t k)) ∧
    (Issues (.abs o) s e p → PostsElements (.abs o) s e 2 o.ty o.dest fun t k => exact o.sat (a t k).natAbs) ∧
    (Issues (.min o) s e p → PostsElements (.min o) s e 2 o.ty o.dest fun t k => exact false (min (a t k) (b t k))) ∧
    (Issues (.max o) s e p → PostsElements (.max o) s e 2 o.ty o.dest fun t k => exact false (max (a t k) (b t k)))) ∧
  (∀ (o : CompactOp) (s : State) (e : Env) (p : Bool),
    let a (t : Nat) : Int := (e.g.v.get (o.a.toNat * 32 + t)).toInt
    let b (t : Nat) : Int := (e.g.v.get (o.b.toNat * 32 + t)).toInt
    let posts (i : Instr) (f : Int → Int → Int) : Prop := Posts i s e .vector 2
      (e.lanes.flatMap fun t => [.lane false o.d.toNat t (BitVec.ofInt 32 (f (a t) (b t)))]) {}
    (Issues (.addI32Compact o) s e p → posts (.addI32Compact o) fun x y => x + y) ∧
    (Issues (.subI32Compact o) s e p → posts (.subI32Compact o) fun x y => x - y) ∧
    (Issues (.mulI32Compact o) s e p → posts (.mulI32Compact o) fun x y => x * y) ∧
    (Issues (.minI32Compact o) s e p → posts (.minI32Compact o) fun x y => min x y) ∧
    (Issues (.maxI32Compact o) s e p → posts (.maxI32Compact o) fun x y => max x y) ∧
    (Issues (.absI32Compact o) s e p → posts (.absI32Compact o) fun x _ => x.natAbs))

/-- R80, R288, R316, R343, R359, R374, and R97 for the compact forms: the bit operations act on every bit of the value, and
the shifts on each element, by the low 8 bits of the amount's element. -/
def Obligations.BitwiseAndShifts : Prop :=
  (∀ (o : VOp) (s : State) (e : Env) (p : Bool),
    let w := o.ty.width
    let a (t k : Nat) : Nat := elem w (o.srcA e.g t) k
    let b (t k : Nat) : Nat := elem w (o.srcB e.g t) k
    let c (t k : Nat) : Nat := elem w (o.srcC e.g t) k
    let bits (i : Instr) (f : Bool → Bool → Bool) : Prop := PostsSuch i s e 2 o.dest fun t r =>
      ∀ j, j < (if o.ty = .b64 then 64 else 32) → r.testBit j = f ((o.srcA e.g t).testBit j) ((o.srcB e.g t).testBit j)
    (Issues (.and o) s e p → bits (.and o) and) ∧
    (Issues (.or o) s e p → bits (.or o) or) ∧
    (Issues (.xor o) s e p → bits (.xor o) xor) ∧
    (Issues (.not o) s e p → bits (.not o) fun x _ => !x) ∧
    (Issues (.shl o) s e p → PostsElements (.shl o) s e 2 o.ty o.dest fun t k => a t k * 2 ^ (b t k % 256) % 2 ^ w) ∧
    (Issues (.shr o) s e p → PostsElements (.shr o) s e 2 o.ty o.dest fun t k => a t k / 2 ^ (b t k % 256)) ∧
    (Issues (.sar o) s e p → PostsElements (.sar o) s e 2 o.ty o.dest fun t k =>
      wrap w (numAt o.ty (o.srcA e.g t) k / 2 ^ (b t k % 256))) ∧
    (Issues (.fsl o) s e p → PostsElements (.fsl o) s e 2 o.ty o.dest fun t k =>
      (a t k * 2 ^ w + b t k) * 2 ^ (c t k % 256) / 2 ^ w % 2 ^ w) ∧
    (Issues (.fsr o) s e p → PostsElements (.fsr o) s e 2 o.ty o.dest fun t k =>
      (a t k * 2 ^ w + b t k) / 2 ^ (c t k % 256) % 2 ^ w)) ∧
  (∀ (o : CompactOp) (s : State) (e : Env) (p : Bool),
    let a (t : Nat) : W32 := e.g.v.get (o.a.toNat * 32 + t)
    let b (t : Nat) : W32 := e.g.v.get (o.b.toNat * 32 + t)
    let posts (i : Instr) (f : W32 → W32 → W32) : Prop := Posts i s e .vector 2
      (e.lanes.flatMap fun t => [.lane false o.d.toNat t (f (a t) (b t))]) {}
    (Issues (.andCompact o) s e p → posts (.andCompact o) fun x y => x &&& y) ∧
    (Issues (.orCompact o) s e p → posts (.orCompact o) fun x y => x ||| y) ∧
    (Issues (.xorCompact o) s e p → posts (.xorCompact o) fun x y => x ^^^ y) ∧
    (Issues (.notCompact o) s e p → posts (.notCompact o) fun x _ => ~~~x) ∧
    (Issues (.shlN32Compact o) s e p → posts (.shlN32Compact o) fun x y => x <<< (y.toNat % 256)) ∧
    (Issues (.shrN32Compact o) s e p → posts (.shrN32Compact o) fun x y => x >>> (y.toNat % 256)) ∧
    (Issues (.sarI32Compact o) s e p → posts (.sarI32Compact o) fun x y => x.sshiftRight (y.toNat % 256)))

/-- R81, R296: a bit field of c[7:0] bits at bit b[7:0], clipped to the word: `bfx` extracts it, extended by its type, and
`bfi` puts the low bits of a there and keeps the destination's other bits. R298, R347: `popc`, `clz` and `brev`. -/
def Obligations.FieldsAndCounts : Prop :=
  (∀ (o : VOp) (s : State) (e : Env) (p : Bool),
    let w := if o.ty = .b64 then 64 else 32
    let at_ (t : Nat) : Nat := o.srcB e.g t % 256
    let n (t : Nat) : Nat := min (o.srcC e.g t % 256) (32 - at_ t)
    let x (t : Nat) : Nat := o.srcA e.g t
    (Issues (.bfx o) s e p → PostsSuch (.bfx o) s e 2 o.dest fun t r => r < 2 ^ 32 ∧ ∀ j, j < 32 → r.testBit j =
      if j < n t then (x t).testBit (at_ t + j) else o.ty.signed && decide (0 < n t) && (x t).testBit (at_ t + n t - 1)) ∧
    (Issues (.bfi o) s e p → PostsSuch (.bfi o) s e 2 o.dest fun t r => ∀ j, j < 32 → r.testBit j =
      if at_ t ≤ j ∧ j < at_ t + n t then (x t).testBit (j - at_ t) else (e.g.src o.cd o.dst false t).testBit j) ∧
    (Issues (.popc o) s e p → PostsSuch (.popc o) s e 2 o.dest fun t r =>
      r = ((List.range w).filter fun j => (x t).testBit j).length) ∧
    (Issues (.clz o) s e p → PostsSuch (.clz o) s e 2 o.dest fun t r =>
      r ≤ w ∧ (∀ j, j < r → (x t).testBit (w - 1 - j) = false) ∧ (r < w → (x t).testBit (w - 1 - r) = true)) ∧
    (Issues (.brev o) s e p → PostsSuch (.brev o) s e 2 o.dest fun t r =>
      ∀ j, j < w → r.testBit j = (x t).testBit (w - 1 - j))) ∧
  (∀ (o : CompactOp) (s : State) (e : Env) (p : Bool),
    let x (t : Nat) : W32 := e.g.v.get (o.a.toNat * 32 + t)
    let such (i : Instr) (holds : W32 → Nat → Prop) : Prop :=
      PostsSuch i s e 2 (fun t r => [.lane false o.d.toNat t (BitVec.ofNat 32 r)]) fun t r => holds (x t) r
    (Issues (.popcCompact o) s e p → such (.popcCompact o) fun y r =>
      r = ((List.range 32).filter fun j => y.getLsbD j).length) ∧
    (Issues (.clzCompact o) s e p → such (.clzCompact o) fun y r =>
      r ≤ 32 ∧ (∀ j, j < r → y.getLsbD (31 - j) = false) ∧ (r < 32 → y.getLsbD (31 - r) = true)) ∧
    (Issues (.brevCompact o) s e p → such (.brevCompact o) fun y r =>
      ∀ j, j < 32 → r.testBit j = y.getLsbD (31 - j)))

/-- R302, R320, R334, R340, R341, R360, R367, and R97 for the compact `mov`: compare, select, address, dot product and
moves in every active lane. -/
def Obligations.CompareSelectMove : Prop :=
  (∀ (o : VOp) (s : State) (e : Env) (p : Bool),
    let a (t : Nat) : Nat := o.srcA e.g t
    let b (t : Nat) : Nat := o.srcB e.g t
    let na (t : Nat) : Int := toInt o.ty.signed 32 (a t)
    let nb (t : Nat) : Int := toInt o.ty.signed 32 (b t)
    let lanes (i : Instr) (latency : Nat) (value : Nat → Nat) : Prop :=
      PostsLanes i s e latency o.dest value (fun _ => {})
    (Issues (.cmp o) s e p → Posts (.cmp o) s e .vector 2 (e.lanes.map fun t =>
      .pred o.dst.toNat (1#32 <<< t) (if (match o.cond.toNat with
        | 0 => decide (na t = nb t)
        | 1 => decide (na t ≠ nb t)
        | 2 => decide (na t < nb t)
        | 3 => decide (na t ≤ nb t)
        | 4 => decide (nb t < na t)
        | 5 => decide (nb t ≤ na t)
        | _ => decide (a t &&& b t ≠ 0)) then 1#32 <<< t else 0)) {}) ∧
    (Issues (.sel o) s e p → lanes (.sel o) 2 fun t => if (e.g.p.get o.c.toNat).getLsbD t then a t else b t) ∧
    (Issues (.lea o) s e p → lanes (.lea o) 2 fun t =>
      (a t + e.g.src o.cb o.b false t * 2 ^ o.c.toNat) % 2 ^ (if o.ty = .b64 then 64 else 32)) ∧
    (Issues (.idot o) s e p → lanes (.idot o) 5 fun t => narrow o.sat o.ty.signed 32
      (((List.range o.ty.count).map fun k => numAt o.ty (a t) k * numAt o.ty (b t) k).sum +
        toInt o.ty.signed 32 (e.g.src o.cc o.c false t))) ∧
    (Issues (.mov o) s e p → lanes (.mov o) 2 a) ∧
    (Issues (.stov o) s e p → lanes (.stov o) 2 fun _ => (e.g.s.get o.a.toNat).toNat)) ∧
  (∀ (o : LiOp) (s : State) (e : Env) (p : Bool), Issues (.movi o) s e p → Posts (.movi o) s e .vector 2
    (e.lanes.flatMap fun t => if o.ty = .b64
      then [.lane false o.dst.toNat t o.imm32, .lane false (o.dst.toNat + 1) t (if o.imm32.msb then 0xFFFFFFFF else 0)]
      else [.lane false o.dst.toNat t o.imm32]) {}) ∧
  (∀ (o : CompactOp) (s : State) (e : Env) (p : Bool), Issues (.movCompact o) s e p → Posts (.movCompact o) s e .vector 2
    (e.lanes.map fun t => .lane false o.d.toNat t (e.g.v.get (o.a.toNat * 32 + t))) {})

/-! ### Floating and logarithmic instructions -/

/-- R74 to R77, R310, R311, and R97 for the compact forms: `fadd`, `fsub`, `fmul`, `ffma`, `fmin` and `fmax` act on each
element in the rounding mode of RND or FMODE.RM and with FMODE.FTZ (f32 alone), four slots later, and raise the flags of
every element of every active lane. An element's result is the exact sum, difference, product or fused sum, rounded once
(`FFmt.round`); NaN, infinite and zero operands give what R310 decides for them, `fmin` and `fmax` give one of the two, and
FTZ reads subnormal sources as zero and flushes a subnormal result. -/
def Obligations.FloatArithmetic : Prop :=
  (∀ (o : VOp) (s : State) (e : Env) (p : Bool),
    let fmt := o.ty.ffmt
    let mode : Nat := if o.rnd = 0 then e.g.fmode.toNat % 4 else o.rnd.toNat
    let ftz : Bool := o.ty == .f32 && e.g.fmode.getLsbD 2
    let a (t k : Nat) : Nat := elem o.ty.width (o.srcA e.g t) k
    let b (t k : Nat) : Nat := elem o.ty.width (o.srcB e.g t) k
    let c (t k : Nat) : Nat := elem o.ty.width (o.srcC e.g t) k
    let posts (i : Instr) (f : Nat → Nat → Nat × W32) : Prop :=
      PostsFlagged i s e 4 o.ty o.dest fun t k => ((f t k).1, { ff := (f t k).2 })
    (Issues (.fadd o) s e p → posts (.fadd o) fun t k => fadd1 fmt mode ftz (a t k) (b t k)) ∧
    (Issues (.fsub o) s e p → posts (.fsub o) fun t k => fsub1 fmt mode ftz (a t k) (b t k)) ∧
    (Issues (.fmul o) s e p → posts (.fmul o) fun t k => fmul1 fmt mode ftz (a t k) (b t k)) ∧
    (Issues (.ffma o) s e p → posts (.ffma o) fun t k => ffma1 fmt mode ftz (a t k) (b t k) (c t k)) ∧
    (Issues (.fmin o) s e p → posts (.fmin o) fun t k => fmin1 fmt ftz (a t k) (b t k)) ∧
    (Issues (.fmax o) s e p → posts (.fmax o) fun t k => fmax1 fmt ftz (a t k) (b t k))) ∧
  (∀ (o : CompactOp) (s : State) (e : Env) (p : Bool),
    let mode : Nat := e.g.fmode.toNat % 4
    let ftz : Bool := e.g.fmode.getLsbD 2
    let a (ty : ETy) (t k : Nat) : Nat := elem ty.width (e.g.v.get (o.a.toNat * 32 + t)).toNat k
    let b (ty : ETy) (t k : Nat) : Nat := elem ty.width (e.g.v.get (o.b.toNat * 32 + t)).toNat k
    let posts (i : Instr) (ty : ETy) (f : Nat → Nat → Nat × W32) : Prop :=
      PostsFlagged i s e 4 ty (fun t x => [.lane false o.d.toNat t (BitVec.ofNat 32 x)]) fun t k =>
        ((f (a ty t k) (b ty t k)).1, { ff := (f (a ty t k) (b ty t k)).2 })
    (Issues (.faddF32Compact o) s e p → posts (.faddF32Compact o) .f32 (fadd1 fmt32 mode ftz)) ∧
    (Issues (.fsubF32Compact o) s e p → posts (.fsubF32Compact o) .f32 (fsub1 fmt32 mode ftz)) ∧
    (Issues (.fmulF32Compact o) s e p → posts (.fmulF32Compact o) .f32 (fmul1 fmt32 mode ftz)) ∧
    (Issues (.fminF32Compact o) s e p → posts (.fminF32Compact o) .f32 (fmin1 fmt32 ftz)) ∧
    (Issues (.fmaxF32Compact o) s e p → posts (.fmaxF32Compact o) .f32 (fmax1 fmt32 ftz)) ∧
    (Issues (.faddH16x2Compact o) s e p → posts (.faddH16x2Compact o) .h16x2 (fadd1 fmt16 mode false)) ∧
    (Issues (.fmulH16x2Compact o) s e p → posts (.fmulH16x2Compact o) .h16x2 (fmul1 fmt16 mode false))) ∧
  (∀ (f : FFmt) (mode x y z : Nat),
    let v := f.decode
    let nv (l : List Nat) : W32 := if l.any (fun w => v w == .nan true) then flNV else 0
    let scaled (s : Bool) (m : Nat) (e q : Int) : Int := (if s then -1 else 1) * (m * 2 ^ (e - q).toNat : Nat)
    let total (n : Int) (q : Int) (zero : Bool) : Nat × W32 := if n = 0 then (f.zero zero, 0) else f.round mode (n < 0) n.natAbs q
    ((v x).isNan ∨ (v y).isNan →
      ∀ r ∈ [fadd1 f mode false x y, fsub1 f mode false x y, fmul1 f mode false x y, fmin1 f false x y, fmax1 f false x y],
        r = (f.nan, nv [x, y])) ∧
    (∀ s t, v x = .inf s → v y = .inf t →
      fadd1 f mode false x y = (if s = t then (f.inf s, 0) else (f.nan, flNV)) ∧
      fsub1 f mode false x y = (if s = t then (f.nan, flNV) else (f.inf s, 0)) ∧
      fmul1 f mode false x y = (f.inf (xor s t), 0)) ∧
    (∀ s t n d, v x = .inf s → v y = .fin t n d →
      fadd1 f mode false x y = (f.inf s, 0) ∧ fadd1 f mode false y x = (f.inf s, 0) ∧
      fsub1 f mode false x y = (f.inf s, 0) ∧ fsub1 f mode false y x = (f.inf !s, 0) ∧
      ∀ r ∈ [fmul1 f mode false x y, fmul1 f mode false y x], r = if n = 0 then (f.nan, flNV) else (f.inf (xor s t), 0)) ∧
    (∀ s m e t n d, v x = .fin s m e → v y = .fin t n d →
      let q := min e d
      fadd1 f mode false x y = total (scaled s m e q + scaled t n d q) q (if m = 0 ∧ n = 0 ∧ s = t then s else mode = 3) ∧
      fsub1 f mode false x y = total (scaled s m e q - scaled t n d q) q (if m = 0 ∧ n = 0 ∧ s = !t then s else mode = 3) ∧
      fmul1 f mode false x y = f.round mode (xor s t) (m * n) (e + d)) ∧
    ((∃ s t d, v x = .inf s ∧ v y = .fin t 0 d ∨ v y = .inf s ∧ v x = .fin t 0 d) → ffma1 f mode false x y z = (f.nan, flNV)) ∧
    ((¬∃ s t d, v x = .inf s ∧ v y = .fin t 0 d ∨ v y = .inf s ∧ v x = .fin t 0 d) →
      ((v x).isNan ∨ (v y).isNan ∨ (v z).isNan → ffma1 f mode false x y z = (f.nan, nv [x, y, z])) ∧
      (∀ s t n d, (v x = .inf s ∧ (v y = .inf t ∨ v y = .fin t n d) ∨ v x = .fin s n d ∧ v y = .inf t) → (v z).isNan = false →
        ffma1 f mode false x y z = if v z = .inf (!xor s t) then (f.nan, flNV) else (f.inf (xor s t), 0))) ∧
    (∀ s m e t n d, v x = .fin s m e → v y = .fin t n d →
      (∀ u, v z = .inf u → ffma1 f mode false x y z = (f.inf u, 0)) ∧
      (∀ u k c, v z = .fin u k c →
        let q := min (e + d) c
        ffma1 f mode false x y z = total (scaled (xor s t) (m * n) (e + d) q + scaled u k c q) q
          (if m * n = 0 ∧ k = 0 ∧ xor s t = u then u else mode = 3)))) ∧
  (∀ (f : FFmt) (x y : Nat), (f.decode x).isNan = false → (f.decode y).isNan = false →
    let less : Bool := (f.decode x).lt (f.decode y) || (!(f.decode y).lt (f.decode x) && f.neg x && !f.neg y)
    fmin1 f false x y = (if less then x else y, 0) ∧ fmax1 f false x y = (if less then y else x, 0)) ∧
  (∀ (mode x y z : Nat), x < 2 ^ 32 → y < 2 ^ 32 → z < 2 ^ 32 →
    let src := ftzSource true
    fadd1 fmt32 mode true x y = ftzResult true (fadd1 fmt32 mode false (src x) (src y)) ∧
    fsub1 fmt32 mode true x y = ftzResult true (fsub1 fmt32 mode false (src x) (src y)) ∧
    fmul1 fmt32 mode true x y = ftzResult true (fmul1 fmt32 mode false (src x) (src y)) ∧
    ffma1 fmt32 mode true x y z = ftzResult true (ffma1 fmt32 mode false (src x) (src y) (src z)) ∧
    fmin1 fmt32 true x y = fmin1 fmt32 false (src x) (src y) ∧ fmax1 fmt32 true x y = fmax1 fmt32 false (src x) (src y))

/-- R76, R312 to R315: `fcmp`, `fcvt` and the special functions write the result of their one-element operation in every
active lane and raise its flags: `fcmp` and `fcvt` after 4 slots, the special functions after 12. `fcmp` follows its table;
`fcvt` rounds, clamps to the range of an integer and keeps NaN and infinities as R313 and R314 say; the special functions give
the results of their table, the canonical NaN, and the exact result where it is a power of two (an integer for `flg2`); `frcp` of
any positive finite number, and of its negative, and `frsq` of any positive finite number are rounded to nearest even, with NX
where they are inexact, UF where the result is subnormal too, and OF where it is too large. -/
def Obligations.FloatCompareConvertSpecial : Prop :=
  (∀ (o : VOp) (s : State) (e : Env) (p : Bool),
    let ftz : Bool := e.g.fmode.getLsbD 2
    let flags (f : Nat → W32) : Fl := e.lanes.foldl (fun a t => a.or { ff := f t }) {}
    let special (i : Instr) (fn : Nat) : Prop :=
      Posts i s e .vector 12 (e.lanes.flatMap fun t => o.dest t (sfu1 fn ftz (o.srcA e.g t)).1)
        (flags fun t => (sfu1 fn ftz (o.srcA e.g t)).2)
    (Issues (.fcmp o) s e p →
      let r (t : Nat) : Bool × W32 := fcmp1 ftz o.fcond.toNat (o.srcA e.g t) (o.srcB e.g t)
      Posts (.fcmp o) s e .vector 4
        (e.lanes.map fun t => .pred o.dst.toNat (1#32 <<< t) (if (r t).1 then 1#32 <<< t else 0)) (flags fun t => (r t).2)) ∧
    (Issues (.fcvt o) s e p →
      let src := ETy.ofCode o.fstype
      let mode : Nat := if o.rnd = 0 then e.g.fmode.toNat % 4 else o.rnd.toNat
      let x (t : Nat) : Nat := o.ma.apply src (e.g.src o.ca o.a false t)
      PostsFlagged (.fcvt o) s e 4 o.ty o.dest fun t k =>
        let y := if src = .f32 ∧ k = 1 then e.g.src o.cb o.b false t else elem src.width (x t) k
        ((fcvt1 e.g mode src o.ty y).1, { ff := (fcvt1 e.g mode src o.ty y).2 })) ∧
    (Issues (.frcp o) s e p → special (.frcp o) 0) ∧ (Issues (.frsq o) s e p → special (.frsq o) 1) ∧
    (Issues (.fex2 o) s e p → special (.fex2 o) 2) ∧ (Issues (.flg2 o) s e p → special (.flg2 o) 3) ∧
    (Issues (.fsin o) s e p → special (.fsin o) 4) ∧ (Issues (.fcos o) s e p → special (.fcos o) 5)) ∧
  (∀ (ftz : Bool) (cond x y : Nat), x < 2 ^ 32 → y < 2 ^ 32 → cond < 8 →
    let a := fmt32.decode (ftzSource ftz x)
    let b := fmt32.decode (ftzSource ftz y)
    let nan : Bool := a.isNan || b.isNan
    fcmp1 ftz cond x y = (match cond with
      | 0 => !nan && !a.lt b && !b.lt a
      | 1 => nan || a.lt b || b.lt a
      | 2 => !nan && a.lt b
      | 3 => !nan && !b.lt a
      | 4 => !nan && b.lt a
      | 5 => !nan && !a.lt b
      | 6 => nan
      | _ => !nan, if a = .nan true ∨ b = .nan true ∨ nan ∧ 2 ≤ cond ∧ cond ≤ 5 then flNV else 0)) ∧
  (∀ (g : Group) (mode x : Nat) (s d : ETy), x < 2 ^ s.width →
    let ftz : Bool := g.fmode.getLsbD 2
    (s ∈ [.i32, .n32] → d = .f32 → fcvt1 g mode s d x =
      fmt32.round mode (toInt s.signed 32 x < 0) (toInt s.signed 32 x).natAbs 0) ∧
    (s ∈ floatTypes → d ∈ floatTypes →
      let r := match s.ffmt.decode (if s = .f32 then ftzSource ftz x else x) with
        | .nan sig => (d.ffmt.nan, if sig then flNV else 0)
        | .inf sg => (d.ffmt.inf sg, 0)
        | .fin sg m e => if m = 0 then (d.ffmt.zero sg, 0) else d.ffmt.round mode sg m e
      fcvt1 g mode s d x = if d = .f32 then ftzResult ftz r else r) ∧
    (s = .f32 → d ∈ [.i32, .n32] →
      let low : Int := if d = .i32 then -2 ^ 31 else 0
      let high : Int := if d = .i32 then 2 ^ 31 - 1 else 2 ^ 32 - 1
      fcvt1 g mode s d x = match fmt32.decode (ftzSource ftz x) with
        | .nan _ => (0, flNV)
        | .inf sg => ((if sg then low % 2 ^ 32 else high).toNat, flNV)
        | .fin sg m e =>
          let (n, inexact) := roundShift mode sg m (-e)
          let y : Int := if sg then -n else n
          if y < low then ((low % 2 ^ 32).toNat, flNV) else if high < y then (high.toNat, flNV)
          else ((y % 2 ^ 32).toNat, if inexact then flNX else 0))) ∧
  (∀ (fn x : Nat) (ftz : Bool), fn < 6 → x < 2 ^ 32 →
    sfu1 fn true x = ftzResult true (sfu1 fn false (ftzSource true x)) ∧
    (∀ sig, fmt32.decode x = .nan sig → sfu1 fn ftz x = (0x7FC00000, if sig then flNV else 0)) ∧
    (2 ^ 31 < x → x < 0xFF800000 → ∀ k ∈ [1, 3], sfu1 k false x = (0x7FC00000, flNV))) ∧
  (∀ (ftz : Bool),
    (∀ c ∈ [(0, 0, 0x7F800000), (0, 0x80000000, 0xFF800000), (0, 0x7F800000, 0), (0, 0xFF800000, 0x80000000),
        (1, 0, 0x7F800000), (1, 0x80000000, 0xFF800000), (1, 0x7F800000, 0),
        (2, 0, 0x3F800000), (2, 0x80000000, 0x3F800000), (2, 0x7F800000, 0x7F800000), (2, 0xFF800000, 0),
        (3, 0, 0xFF800000), (3, 0x80000000, 0xFF800000), (3, 0x7F800000, 0x7F800000),
        (4, 0, 0), (4, 0x80000000, 0x80000000), (5, 0, 0x3F800000), (5, 0x80000000, 0x3F800000)],
      sfu1 c.1 ftz c.2.1 = (c.2.2, 0)) ∧
    (∀ c ∈ [(1, 0xFF800000), (3, 0xFF800000), (4, 0x7F800000), (4, 0xFF800000), (5, 0x7F800000), (5, 0xFF800000)],
      sfu1 c.1 ftz c.2 = (0x7FC00000, flNV)) ∧
    (∀ e, 1 ≤ e → e ≤ 253 → sfu1 0 ftz (e * 2 ^ 23) = ((254 - e) * 2 ^ 23, 0)) ∧
    (∀ k, k ≤ 126 → sfu1 1 ftz ((2 * k + 1) * 2 ^ 23) = ((190 - k) * 2 ^ 23, 0)) ∧
    (∀ n : Int, -126 ≤ n → n ≤ 127 → sfu1 2 ftz (fmt32.round 0 (n < 0) n.natAbs 0).1 = ((n + 127).toNat * 2 ^ 23, 0)) ∧
    (∀ e, 1 ≤ e → e ≤ 254 → sfu1 3 ftz (e * 2 ^ 23) = ((fmt32.round 0 (e < 127) (e - 127 : Int).natAbs 0).1, 0))) ∧
  (∀ x, 0 < x → x < 0x7F800000 →
    -- the number of 2 ^ -149 that a positive code stands for
    let n (c : Nat) : Nat := if c < 2 ^ 23 then c else (2 ^ 23 + c % 2 ^ 23) * 2 ^ (c / 2 ^ 23 - 1)
    (let (r, fl) := sfu1 0 false x
     0 < r ∧ r ≤ 0x7F800000 ∧ (n (r - 1) + n r) * n x ≤ 2 ^ 299 ∧ (r < 0x7F800000 → 2 ^ 299 ≤ (n r + n (r + 1)) * n x) ∧
       ((n (r - 1) + n r) * n x = 2 ^ 299 ∨ (n r + n (r + 1)) * n x = 2 ^ 299 → r % 2 = 0) ∧
       fl = (if r = 0x7F800000 then flOF ||| flNX else if n r * n x = 2 ^ 298 then 0 else if r < 2 ^ 23 then flNX ||| flUF else flNX) ∧
       sfu1 0 false (2 ^ 31 + x) = (2 ^ 31 + r, fl)) ∧
    (let (r, fl) := sfu1 1 false x
     0 < r ∧ r < 0x7F800000 ∧ (n (r - 1) + n r) ^ 2 * n x ≤ 2 ^ 449 ∧ 2 ^ 449 ≤ (n r + n (r + 1)) ^ 2 * n x ∧
       ((n (r - 1) + n r) ^ 2 * n x = 2 ^ 449 ∨ (n r + n (r + 1)) ^ 2 * n x = 2 ^ 449 → r % 2 = 0) ∧
       fl = if n r ^ 2 * n x = 2 ^ 447 then 0 else flNX))

/-- R66, R74, R75: rounding is exact on what a format holds. A finite value of binary32, binary16 or bfloat16 rounds to itself in
every mode and raises no flag. A code stands for its IEEE value, and the order of the values is the order of the codes. A value
is rounded to the multiple of its spacing that its mode asks for (nearest even, toward zero, up, down), with NX where it is
inexact, UF where it is inexact and tiny, and infinity or the largest finite number, OF and NX where it is too large. -/
def Obligations.RoundingKeepsRepresentable : Prop :=
  (∀ (f : FFmt), f ∈ [fmt32, fmt16, fmtBf] → ∀ (mode x : Nat), mode < 4 → x < 2 ^ f.width →
    ∀ (s : Bool) (m : Nat) (e : Int), f.decode x = .fin s m e → f.round mode s m e = (x, 0)) ∧
  (∀ (f : FFmt), f ∈ [fmt32, fmt16, fmtBf] → ∀ (s : Bool) (ex m : Nat), ex < 2 ^ f.ebits → m < 2 ^ f.mbits →
    f.decode ((if s then 2 ^ (f.ebits + f.mbits) else 0) + ex * 2 ^ f.mbits + m) =
      if ex = 2 ^ f.ebits - 1 then (if m = 0 then .inf s else .nan (m < 2 ^ (f.mbits - 1)))
      else .fin s (if ex = 0 then m else 2 ^ f.mbits + m) ((max ex 1 : Nat) - (2 ^ (f.ebits - 1) - 1) - f.mbits)) ∧
  (∀ (mode : Nat) (s : Bool) (m k : Nat), mode < 4 →
    let (n, inexact) := roundShift mode s m k
    (inexact = false ↔ n * 2 ^ k = m) ∧
    (mode = 0 → 2 * (m - n * 2 ^ k : Int).natAbs ≤ 2 ^ k ∧ (2 * (m - n * 2 ^ k : Int).natAbs = 2 ^ k → n % 2 = 0)) ∧
    (mode = 1 ∨ mode = 2 ∧ s = true ∨ mode = 3 ∧ s = false → n = m / 2 ^ k) ∧
    (mode = 2 ∧ s = false ∨ mode = 3 ∧ s = true → m ≤ n * 2 ^ k ∧ n * 2 ^ k < m + 2 ^ k)) ∧
  (∀ (f : FFmt), f ∈ [fmt32, fmt16, fmtBf] → ∀ (mode : Nat) (s : Bool) (m : Nat) (e : Int), mode < 4 → m ≠ 0 →
    let emin : Int := 2 - 2 ^ (f.ebits - 1)
    let top : Int := Nat.log2 m + e
    let q : Int := max top emin - f.mbits
    let k : Int := q - e
    let (n, inexact) := if k ≤ 0 then (m * 2 ^ (-k).toNat, false) else roundShift mode s m k
    let (r, fl) := f.round mode s m e
    if 1 - emin < q + f.mbits ∨ 1 - emin = q + f.mbits ∧ n = 2 ^ (f.mbits + 1) then
      fl = flOF ||| flNX ∧ r = (if mode = 0 ∨ mode = 2 ∧ s = false ∨ mode = 3 ∧ s = true then f.inf s else f.maxFinite s)
    else
      (∃ n' q', f.decode r = .fin s n' q' ∧ q ≤ q' ∧ n' * 2 ^ (q' - q).toNat = n) ∧ r < 2 ^ f.width ∧
      (fl &&& flNX ≠ 0 ↔ inexact = true) ∧ fl &&& flOF = 0 ∧
      (fl &&& flUF ≠ 0 → inexact = true ∧ top < emin) ∧
      (inexact = true → n < 2 ^ f.mbits → fl &&& flUF ≠ 0)) ∧
  (∀ (f : FFmt), f ∈ [fmt32, fmt16, fmtBf] → ∀ (x y : Nat), x < 2 ^ f.width → y < 2 ^ f.width →
    (f.decode x).isNan = false → (f.decode y).isNan = false →
    let key (w : Nat) : Int := if f.neg w then -(w % 2 ^ (f.ebits + f.mbits) : Nat) else w
    ((f.decode x).lt (f.decode y) = true ↔ key x < key y)) ∧
  (fmt32.nan = 0x7FC00000 ∧ fmt16.nan = 0x7E00 ∧ fmtBf.nan = 0x7FC0 ∧ fmt32.inf false = 0x7F800000 ∧ fmt32.inf true = 0xFF800000 ∧
    fmt16.inf false = 0x7C00 ∧ fmt16.inf true = 0xFC00 ∧ fmtBf.inf false = 0x7F80 ∧ fmtBf.inf true = 0xFF80 ∧
    ∀ (f : FFmt) (s : Bool), f ∈ [fmt32, fmt16, fmtBf] → f.maxFinite s = f.inf s - 1 ∧ f.zero s = if s then 2 ^ (f.width - 1) else 0)

/-- R71 to R73, R78, R191, R324, R331 to R333, R335, and R97 for the compact forms: the logarithmic instructions act on each
element and raise the flags of every element of every active lane; `lmul`, `ldiv` and `lscl` take 2 slots, `lcvt` and
`lqnt` 3, and `ldot` 5. -/
def Obligations.LogarithmicResults : Prop :=
  (∀ (o : VOp) (s : State) (e : Env) (p : Bool),
    let ftz : Bool := e.g.fmode.getLsbD 2
    let a (t k : Nat) : Nat := elem o.ty.width (o.srcA e.g t) k
    let b (t k : Nat) : Nat := elem o.ty.width (o.srcB e.g t) k
    let other := ETy.ofCode o.lstype
    (Issues (.lmul o) s e p → PostsFlagged (.lmul o) s e 2 o.ty o.dest fun t k => lmul1 o.ty (a t k) (b t k)) ∧
    (Issues (.ldiv o) s e p → PostsFlagged (.ldiv o) s e 2 o.ty o.dest fun t k => ldiv1 o.ty (a t k) (b t k)) ∧
    (Issues (.lscl o) s e p → PostsFlagged (.lscl o) s e 2 o.ty o.dest fun t k =>
      lscl1 o.ty (a t k) (o.srcB e.g t % 65536)) ∧
    (Issues (.lcvt o) s e p → PostsFlagged (.lcvt o) s e 3 other o.dest fun t k =>
      if other = .f32 then logToF32 o.ty ftz (a t (o.b.toNat)) else logToPacked o.ty other.ffmt (a t (o.b.toNat + k))) ∧
    (Issues (.lqnt o) s e p → Posts (.lqnt o) s e .vector 3
      (e.lanes.flatMap fun t => o.dest t (lqntW o.sat other o.ty (o.ma.apply other (e.g.src o.ca o.a false t))).1)
      (e.lanes.foldl (fun f t => f.or (lqntW o.sat other o.ty (o.ma.apply other (e.g.src o.ca o.a false t))).2) {})) ∧
    (Issues (.ldot o) s e p →
      let r (t : Nat) : Nat × Fl := ldot1 o.ty ftz (o.srcA e.g t) (o.srcB e.g t) (e.g.src o.cc o.c false t)
      Posts (.ldot o) s e .vector 5 (e.lanes.flatMap fun t => o.dest t (r t).1)
        (e.lanes.foldl (fun f t => f.or (r t).2) {}))) ∧
  (∀ (o : CompactOp) (s : State) (e : Env) (p : Bool),
    let posts (i : Instr) (ty : ETy) : Prop :=
      PostsFlagged i s e 2 ty (fun t x => [.lane false o.d.toNat t (BitVec.ofNat 32 x)]) fun t k =>
        lmul1 ty (elem ty.width (e.g.v.get (o.a.toNat * 32 + t)).toNat k) (elem ty.width (e.g.v.get (o.b.toNat * 32 + t)).toNat k)
    (Issues (.lmulLn8x4Compact o) s e p → posts (.lmulLn8x4Compact o) .ln8x4) ∧
    (Issues (.lmulLn4x8Compact o) s e p → posts (.lmulLn4x8Compact o) .ln4x8))

/-- R67, R68, R73: in the log domain a product adds exponents. For two codes that are neither zero nor NaR and whose sum of
exponents lies in the format's range, `lmul` gives the code of that sum with the product's sign, and no flag. R69 to R73,
R78: the values of `lcvt`, `lqnt`, `lmul`, `ldiv`, `lscl` and `ldot` on every code, with their flags (that an exact sum of zero
has no sign is log entry 88, DEDUCED). -/
def Obligations.LogProductAddsExponents : Prop :=
  (∀ (ty : ETy), ty ∈ logTypes → ∀ (a b : Nat), a < 2 ^ ty.width → b < 2 ^ ty.width →
    ty.logField a ≠ 0 → ty.logField b ≠ 0 →
    1 ≤ ty.logExp a + ty.logExp b + ty.logX → ty.logExp a + ty.logExp b + ty.logX ≤ ty.logMax →
    ∃ r, lmul1 ty a b = (r, {}) ∧ r < 2 ^ ty.width ∧ ty.logExp r = ty.logExp a + ty.logExp b ∧
      ty.logSign r = xor (ty.logSign a) (ty.logSign b)) ∧
  (∀ (x : Int), let (m, i) := logToLinear x
    let c : Nat := [0, 0x172C, 0x3070, 0x4BFE, 0x6A0A, 0x8ACE, 0xAE8A, 0xD582].getD (x % 128 / 16).toNat 0
    let d : Nat := [0, 0x0164, 0x02CA, 0x0431, 0x059B, 0x0707, 0x0874, 0x09E4, 0x0B56, 0x0CC9, 0x0E3F, 0x0FB6, 0x1130, 0x12AC, 0x142A,
      0x15AA].getD (x % 16).toNat 0
    i = x / 128 ∧ 2 * (65536 * m - (65536 + c) * (65536 + d) : Int).natAbs ≤ 65536 ∧
      (2 * (65536 * m - (65536 + c) * (65536 + d) : Int).natAbs = 65536 → m % 2 = 0)) ∧
  (∀ (ty : ETy), ty ∈ logTypes → ∀ (ftz rz : Bool) (f : FFmt) (c : Nat), c < 2 ^ ty.width →
    let nar := 2 ^ (ty.width - 1)
    let sign : Bool := nar ≤ c
    let steps : Int := if ty = .ln16x2 then 1 else if ty = .ln8x4 then 16 else 64
    let excess : Int := if ty = .ln16x2 then 16384 else if ty = .ln8x4 then 64 else 4
    let top : Int := if ty = .ln16x2 then 16383 else if ty = .ln8x4 then 63 else 3
    let bits : Nat := if ty = .ln16x2 then 256 else if ty = .ln8x4 then 16 else 4
    let (m, i) := logToLinear (((c % nar : Nat) - excess) * steps)
    let code (s : Bool) (k : Int) : Nat := (if s then nar else 0) + (k + excess).toNat
    (logToPacked ty f c = if c = nar then (f.nan, { lf := flINV }) else if c = 0 then (0, {})
      else ((f.round 0 sign m (i - 16)).1, { ff := (f.round 0 sign m (i - 16)).2 })) ∧
    (logToF32 ty false c = logToPacked ty fmt32 c) ∧
    (let r := logToPacked ty fmt32 c
     let y := ftzResult true (r.1, r.2.ff)
     logToF32 ty true c = (y.1, { r.2 with ff := y.2 })) ∧
    (∀ sig, quantise ty rz (.nan sig) = (nar, { lf := flINV })) ∧
    (∀ s, quantise ty rz (.inf s) = (code s top, { lf := flSAT })) ∧
    (∀ s e, quantise ty rz (.fin s 0 e) = (0, {})) ∧
    (∀ (s : Bool) (n : Nat) (e : Int), n ≠ 0 →
      -- the floor of 2 ^ (F + 1) · log2 of the value
      let l : Int := Nat.log2 (n ^ bits) + e * bits
      (2 * top < l → quantise ty rz (.fin s n e) = (code s top, { lf := flSAT })) ∧
      (l = 2 * top → quantise ty rz (.fin s n e) = (code s top, {})) ∧
      (∀ k : Int, 1 - excess ≤ k → k ≤ top → (rz = false ∧ 2 * k - 1 ≤ l ∧ l ≤ 2 * k ∨ rz = true ∧ 2 * k ≤ l ∧ l ≤ 2 * k + 1 ∧ k < top) →
        quantise ty rz (.fin s n e) = (code s k, {})) ∧
      (l < 2 * (1 - excess) - (if rz then 0 else 1) → quantise ty rz (.fin s n e) = (0, { lf := flUND }))) ∧
    (∀ src x, src ∈ floatTypes → ∀ k, k < ty.count → elem ty.width (lqntW rz src ty x).1 k =
      if k < src.count then (quantise ty rz (src.ffmt.decode (elem src.width x k))).1 else 0) ∧
    (∀ a b z, ty ≠ .ln16x2 → a < 2 ^ 32 → b < 2 ^ 32 → z < 2 ^ 32 →
      let x (w k : Nat) : Nat := elem ty.width w k
      let z' := ftzSource ftz z
      let total : Int := ((List.range ty.count).map fun k =>
        if x a k = 0 ∨ x b k = 0 then 0
        else
          let (m, i) := logToLinear (((x a k % nar : Nat) + (x b k % nar : Nat) - 2 * excess) * steps)
          (if decide (nar ≤ x a k) = decide (nar ≤ x b k) then 1 else -1) * m * 2 ^ (i + 24).toNat).sum
      ((∃ k, k < ty.count ∧ (x a k = nar ∨ x b k = nar)) → ldot1 ty ftz a b z = (0x7FC00000, { lf := flINV })) ∧
      ((∀ k, k < ty.count → x a k ≠ nar ∧ x b k ≠ nar) →
        (∀ sig, fmt32.decode z' = .nan sig → ldot1 ty ftz a b z = (0x7FC00000, { ff := if sig then flNV else 0 })) ∧
        (∀ s, fmt32.decode z' = .inf s → ldot1 ty ftz a b z = (fmt32.inf s, {})) ∧
        (∀ s n e, fmt32.decode z' = .fin s n e → let q := min e (-40)
          let v : Int := (if s then -1 else 1) * n * 2 ^ (e - q).toNat + total * 2 ^ (-40 - q).toNat
          let r := ftzResult ftz (if v = 0 then (0, 0) else fmt32.round 0 (v < 0) v.natAbs q)
          ldot1 ty ftz a b z = (r.1, { ff := r.2 })))) ∧
    (∀ b, b < 2 ^ ty.width →
      let apply (zero bad : Prop) [Decidable zero] [Decidable bad] (negative : Bool) (step : Int) : Nat × Fl :=
        let fld : Int := (c % nar : Nat) + step
        if c = nar ∨ bad then (nar, { lf := flINV }) else if c = 0 ∨ zero then (0, {})
        else if top + excess < fld then (code (xor sign negative) top, { lf := flSAT })
        else if fld < 1 then (0, { lf := flUND }) else (code (xor sign negative) (fld - excess), {})
      lmul1 ty c b = apply (b = 0) (b = nar) (nar ≤ b) ((b % nar : Nat) - excess) ∧
      ldiv1 ty c b = (if b = 0 ∧ c ≠ nar then (0, { lf := flINV }) else apply (b = 0) (b = nar) (nar ≤ b) (excess - (b % nar : Nat))) ∧
      ∀ z, z < 2 ^ 16 → ∃ t : Int, 2 * (steps * t - ((z % 2 ^ 15 : Nat) - 16384)).natAbs ≤ steps ∧
        (2 * (steps * t - ((z % 2 ^ 15 : Nat) - 16384)).natAbs = steps → steps = 1 ∨ t % 2 = 0) ∧
        lscl1 ty c z = apply (z = 0) (z = 2 ^ 15) (2 ^ 15 ≤ z) t))

/-! ### Cross-lane and uniform instructions -/

/-- R345, R346: `pfx` gives each active lane the fold, in ascending thread order, of the elements of the active lanes up to
itself (below itself with EX, the identity when there is none), and `redux` gives every active lane the fold of all. Only
f32 raises flags. The combination and the identity of every operation are those of R345's table. -/
def Obligations.PrefixAndReduction : Prop :=
  (∀ (o : VOp) (s : State) (e : Env) (p : Bool),
    let op := o.xop.toNat
    let x (t k : Nat) : Nat :=
      if o.ty = .f32 then fmt32.flushSrc (e.g.fmode.getLsbD 2) (elem 32 (o.srcA e.g t) k) else elem o.ty.width (o.srcA e.g t) k
    let fold (ts : List Nat) (k : Nat) : Nat := match ts with
      | [] => identity op o.ty
      | t :: r => r.foldl (fun acc u => (combine e.g op o.ty acc (x u k)).1) (x t k)
    let posts (i : Instr) (seen : Nat → List Nat) : Prop :=
      ∃ (value : Nat → Nat) (fl : Fl), Posts i s e .vector 6 (e.lanes.flatMap fun t => o.dest t (value t)) fl ∧
        (o.ty ≠ .f32 → fl = {}) ∧ fl.lf = 0 ∧
        ∀ t ∈ e.lanes, ∀ k, k < o.ty.count → elem o.ty.width (value t) k = fold (seen t) k % 2 ^ o.ty.width
    (Issues (.pfx o) s e p → posts (.pfx o) fun t => e.lanes.filter fun u => if o.ex then u < t else u ≤ t) ∧
    (Issues (.redux o) s e p → posts (.redux o) fun _ => e.lanes)) ∧
  (∀ (ty : ETy), (ty ∈ [.i32, .i16x2, .i8x4, .i4x8] →
      identity 1 ty = 2 ^ (ty.width - 1) - 1 ∧ identity 2 ty = 2 ^ (ty.width - 1)) ∧
    (ty ∈ [.n32, .n16x2, .n8x4, .n4x8] → identity 1 ty = 2 ^ ty.width - 1 ∧ identity 2 ty = 0) ∧
    identity 0 ty = 0 ∧ identity 3 ty = 2 ^ ty.width - 1 ∧ identity 4 ty = 0 ∧ identity 5 ty = 0) ∧
  identity 1 .f32 = 0x7F800000 ∧ identity 2 .f32 = 0xFF800000 ∧
  (∀ (g : Group) (ty : ETy) (x y : Nat), x < 2 ^ ty.width → y < 2 ^ ty.width →
    let ftz : Bool := g.fmode.getLsbD 2
    let a := toInt ty.signed ty.width x
    let b := toInt ty.signed ty.width y
    (ty ∈ intTypes →
      combine g 0 ty x y = ((a + b) % 2 ^ ty.width |>.toNat, 0) ∧
      combine g 1 ty x y = (if a ≤ b then x else y, 0) ∧ combine g 2 ty x y = (if b ≤ a then x else y, 0) ∧
      combine g 3 ty x y = (x &&& y, 0) ∧ combine g 4 ty x y = (x ||| y, 0) ∧ combine g 5 ty x y = (x ^^^ y, 0)) ∧
    combine g 0 .f32 x y = fadd1 fmt32 (g.fmode.toNat % 4) ftz x y ∧
    combine g 1 .f32 x y = fmin1 fmt32 ftz x y ∧ combine g 2 .f32 x y = fmax1 fmt32 ftz x y)

/-- R53, R190, R337, R371: `match` gives each active lane the active lanes that hold its key, or with ALL whether every active
lane holds it; `vote` gives the active lanes whose predicate is true, or whether any or all is; `nzscan` gives each active
lane the mask of its non-zero elements, the count of those in the lanes before it, and the count of all. That the mask of
`match.b64` takes one 32-bit register is the model's choice (log entry 106). -/
def Obligations.MatchVoteScan : Prop :=
  ∀ (o : VOp) (s : State) (e : Env) (p : Bool),
    let key (t : Nat) : Nat := e.g.src o.ca o.a (o.ty == .b64) t
    let pred : LaneMask := e.g.p.get o.a.toNat
    let marks (t : Nat) : List Nat := (List.range o.ty.count).filter fun k =>
      elem o.ty.width (o.srcA e.g t) k % 2 ^ (if o.ty ∈ floatTypes then o.ty.width - 1 else o.ty.width) ≠ 0
    (Issues (.matchKeys o) s e p → ∃ m : Nat → LaneMask,
      (∀ t u, u < 32 → ((m t).getLsbD u = true ↔ u ∈ e.lanes ∧ key u = key t)) ∧
      Posts (.matchKeys o) s e .vector 6
        (if o.sat then e.lanes.map fun t => .pred o.dst.toNat (1#32 <<< t) (if m t = e.mask then 1#32 <<< t else 0)
         else e.lanes.flatMap fun t => destWrites o.cd o.dst false t (m t).toNat) {}) ∧
    (Issues (.vote o) s e p → Posts (.vote o) s e .vector 2
      [if o.mode = 0 then .uni o.dst.toNat ((e.mask &&& pred).setWidth 64)
       else .upred o.dst.toNat (if o.mode = 1 then e.lanes.any pred.getLsbD else e.lanes.all pred.getLsbD)] {}) ∧
    (Issues (.nzscan o) s e p → ∃ value : Nat → Nat,
      Posts (.nzscan o) s e .vector 8 (e.lanes.flatMap fun t => o.dest t (value t)) {} ∧
      ∀ t ∈ e.lanes,
        (∀ k, k < 8 → ((value t).testBit k = true ↔ k ∈ marks t)) ∧
        value t / 2 ^ 8 % 2 ^ 9 = ((e.lanes.filter fun u => u < t).map fun u => (marks u).length).sum ∧
        value t / 2 ^ 17 = (e.lanes.map fun u => (marks u).length).sum)

/-- R53, R60, R61, R230, R361, R362, R367: `shfl` reads the lane and the element rotation that each active lane names, zero
outside their ranges; `vtos` gives the value of the lowest active lane, zero with none; `rdx` reads and `wrx` writes the
register of the window that each active lane's index chooses. No register holds a poison mark (R235). -/
def Obligations.LaneExchange : Prop :=
  ∀ (o : VOp) (s : State) (e : Env) (p : Bool), s.poison = [] →
    let b (t : Nat) : Nat := if o.sat then o.b.toNat else e.g.src o.cb o.b false t
    let c (t : Nat) : Nat := if o.si then o.c.toNat else e.g.src o.cc o.c false t
    let index (t : Nat) : Int := toInt true 32 (e.g.src o.cb o.b false t)
    let inside : Prop := ∀ t ∈ e.lanes, 0 ≤ index t ∧ index t < o.len
    let chosen (t : Nat) : Nat := o.a.toNat + (index t).toNat
    (Issues (.shfl o) s e p → PostsElements (.shfl o) s e 6 o.ty o.dest fun t k =>
      if b t < 32 ∧ c t < o.ty.count then elem o.ty.width (e.g.src o.ca o.a (o.ty == .b64) (b t)) ((c t + k) % o.ty.count)
      else 0) ∧
    (Issues (.vtos o) s e p → Posts (.vtos o) s e .vector 3
      [.uni o.dst.toNat (match e.lanes with
        | [] => 0
        | t :: _ => if o.ty = .b64 then BitVec.ofNat 64 (e.g.src o.ca o.a true t)
          else extend32 o.ty (BitVec.ofNat 32 (e.g.src o.ca o.a false t)))] {}) ∧
    (Issues (.rdx o) s e p → inside → Posts (.rdx o) s e .vector 3
      (e.lanes.flatMap fun t => o.dest t (e.g.v.get (chosen t * 32 + t)).toNat) {}) ∧
    (Issues (.wrx o) s e p → inside → ∃ g : Group,
      g = posted e { result e 3 (e.lanes.map fun t =>
        .lane false (chosen t) t (BitVec.ofNat 32 (e.g.src o.cd o.dst false t))) {} with window := (o.a.toNat, o.len) } ∧
      Completes (.wrx o) s e .vector ((landed s e).putGroup e.gid g))

/-- R60, R209: an index outside the window of `rdx` or `wrx` raises the window trap, cause 7, before any lane is written:
TRAPLANES names the lanes whose index is outside, and TRAPVAL holds the index of the lowest of them. -/
def Obligations.WindowTrap : Prop :=
  ∀ (o : VOp) (s : State) (e : Env) (p : Bool) (i : Instr), i = .rdx o ∨ i = .wrx o → s.poison = [] → Issues i s e p →
    ∀ (bad : LaneMask) (t : Nat), lowest bad = some t →
      (∀ u, u < 32 → (bad.getLsbD u = true ↔ u ∈ e.lanes ∧
        ¬ (0 ≤ toInt true 32 (e.g.src o.cb o.b false u) ∧ toInt true 32 (e.g.src o.cb o.b false u) < o.len))) →
      Traps i s e 7 bad (BitVec.ofNat 64 (e.g.src o.cb o.b false t))

/-- R352 to R357, and R97 for the compact forms: the uniform instructions act once for the group and write one uniform
register or uniform predicate in the next slot. -/
def Obligations.UniformResults : Prop :=
  (∀ (o : VOp) (s : State) (e : Env) (p : Bool),
    let x := e.g.s.get o.a.toNat
    let y := e.g.s.get o.b.toNat
    let n := y.toNat % 256
    let x32 : W32 := x.setWidth 32
    let y32 : W32 := y.setWidth 32
    let num (z : W32) : Int := if o.ty = .i32 then z.toInt else z.toNat
    let one (i : Instr) (v : W64) : Prop := Posts i s e .uniform 1 [.uni o.dst.toNat v] {}
    let arith (i : Instr) (f : W64 → W64 → W64) (h : Int → Int → Int) : Prop :=
      one i (if o.ty = .b64 then f x y
        else extend32 o.ty (BitVec.ofNat 32 (narrow o.sat (o.ty == .i32) 32 (h (num x32) (num y32)))))
    let bits (i : Instr) (v : W64) : Prop := one i (if o.ty = .b64 then v else extend32 o.ty (v.setWidth 32))
    (Issues (.sadd o) s e p → arith (.sadd o) (· + ·) (· + ·)) ∧
    (Issues (.ssub o) s e p → arith (.ssub o) (· - ·) (· - ·)) ∧
    (Issues (.smul o) s e p → arith (.smul o) (· * ·) (· * ·)) ∧
    (Issues (.sand o) s e p → bits (.sand o) (x &&& y)) ∧
    (Issues (.sor o) s e p → bits (.sor o) (x ||| y)) ∧
    (Issues (.sxor o) s e p → bits (.sxor o) (x ^^^ y)) ∧
    (Issues (.sshl o) s e p → one (.sshl o) (if o.ty = .b64 then x <<< n else extend32 o.ty (x32 <<< n))) ∧
    (Issues (.sshr o) s e p → one (.sshr o) (if o.ty = .b64 then x >>> n
      else if o.ty = .i32 then (x32.sshiftRight n).signExtend 64 else (x32 >>> n).setWidth 64)) ∧
    (Issues (.scmp o) s e p → Posts (.scmp o) s e .uniform 1
      [.upred o.dst.toNat (if o.ty = .b64 then condition false 64 o.cond.toNat x.toNat y.toNat
        else condition (o.ty == .i32) 32 o.cond.toNat x32.toNat y32.toNat)] {}) ∧
    (Issues (.ssel o) s e p → bits (.ssel o) (if e.g.q.getLsbD o.c.toNat then x else y)) ∧
    (Issues (.slea o) s e p → one (.slea o) (x + (y32.setWidth 64 <<< o.c.toNat)))) ∧
  (∀ (o : LiOp) (s : State) (e : Env) (p : Bool), Issues (.smovi o) s e p →
    Posts (.smovi o) s e .uniform 1
      [.uni o.dst.toNat (if o.ty = .n32 then o.imm32.setWidth 64 else o.imm32.signExtend 64)] {}) ∧
  (∀ (o : CompactOp) (s : State) (e : Env) (p : Bool),
    let x := e.g.s.get o.a.toNat
    let y := e.g.s.get o.b.toNat
    let one (i : Instr) (v : W64) : Prop := Posts i s e .uniform 1 [.uni o.d.toNat v] {}
    (Issues (.saddCompact o) s e p → one (.saddCompact o) (x + y)) ∧
    (Issues (.ssubCompact o) s e p → one (.ssubCompact o) (x - y)) ∧
    (Issues (.sandCompact o) s e p → one (.sandCompact o) (x &&& y)) ∧
    (Issues (.sorCompact o) s e p → one (.sorCompact o) (x ||| y)) ∧
    (Issues (.sxorCompact o) s e p → one (.sxorCompact o) (x ^^^ y)))

/-! ### Memory instructions -/

/-- R117, R124, R326 to R330: when every active lane's address is accepted, `ld`, `ldv`, `lds` and `ldb` issue one request
for all of them, under the group's next sequence number, and the destination waits for it. No memory changes. R106, R224: where
the group's watchpoint matches a lane of an `lds` of its own scratch, the instruction raises cause 17 instead, naming the lanes
that match, with the lowest one's offset in TRAPVAL. An `lds` of its own scratch, or an `ldb`, with nothing of its group or core
outstanding, that reads a poisoned word raises cause 20 (`regionEvent`) with that word's offset in TRAPVAL (R235; of several the
lowest lane's, assumption 77, the model's choice), and nothing else happens. -/
def Obligations.LoadsIssue : Prop :=
  (∀ (o : MemOp) (s : State) (e : Env) (p : Bool) (i : Instr) (sp : Space) (mark : Nat → ProtWord),
    (i = .lds o ∧ o.op ≠ 1 ∧ sp = .scratch ∧ mark = .scratch e.g.team) ∨ (i = .ldb o ∧ sp = .bank ∧ mark = .bank) →
    Issues i s e p → ∀ (place : Nat → Place) (addr : Nat → Nat) (t : Nat),
      (∀ u ∈ e.lanes, (landed s e).locate e sp o.bytes (MemOp.addr o e.g u) = .ok (place u) (addr u)) →
      (∀ u ∈ e.lanes, sp = .scratch → ¬ WatchHit e false o.bytes (addr u)) →
      e.g.await = [] → e.g.stq = [] → (s.core (coreOf e.gid)).flight = [] → (s.core (coreOf e.gid)).l1 = [] →
      t ∈ e.lanes → mark (addr t / 8) ∈ (landed s e).poison →
      (∀ u ∈ e.lanes, u < t → mark (addr u / 8) ∉ (landed s e).poison) →
      exec i s = .next ((landed s e).regionEvent e.gid 20 e.g.regionSeq e.here (BitVec.ofNat 64 (addr t / 8 * 8))).draw) ∧
  ∀ (o : MemOp) (s : State) (e : Env) (p : Bool) (i : Instr) (vol : Bool) (sp : Space),
    (i = .ld o ∧ vol = false ∧ sp = .global .load true) ∨ (i = .ldv o ∧ vol = true ∧ sp = .global .load true) ∨
      (i = .lds o ∧ vol = false ∧ sp = (if o.op = 1 then .window else .scratch)) ∨ (i = .ldb o ∧ vol = false ∧ sp = .bank) →
    Issues i s e p → s.poison = [] →
    ∀ (place : Nat → Place) (addr : Nat → Nat) (hit : LaneMask),
      (∀ t ∈ e.lanes, (landed s e).locate e sp o.bytes (MemOp.addr o e.g t) = .ok (place t) (addr t)) →
      (∀ t, t < 32 → (hit.getLsbD t = true ↔ t ∈ e.lanes ∧ sp = .scratch ∧ WatchHit e false o.bytes (addr t))) →
      let accs := accesses e place addr (MemOp.addr o e.g) fun _ => (0, 0)
      let good := s.goodLanes (coreOf e.gid) (pipeOf e.gid)
      (∀ t, lowest hit = some t → Traps i s e 17 hit (BitVec.ofNat 64 (addr t))) ∧
      (hit = 0 → ∃ tlb, Completes i s e .vector (({ s with tlb := tlb } : State).putGroup e.gid
        (requested (conflicted e.g sp good o.bytes accs) e i.awaited.toList
          (.load vol (if o.ord = .acq then some o.scope else none) o.bytes o.ty.signed accs o.dk o.dst.toNat))))

/-- R117, R118, R124, R134, R145, R233, R365, R366: when every active lane's address is accepted and no counter is full,
`st`, `stv`, `sts` and `stb` put the lanes' bytes, little-endian from each lane's address, into the group's store queue as
one entry. Memory itself changes when the entry leaves the queue. R106, R224: where the group's watchpoint matches a lane of an
`sts` to its own scratch, the instruction raises cause 17 instead, naming the lanes that match, with the lowest one's offset in
TRAPVAL. -/
def Obligations.StoresIssue : Prop :=
  ∀ (o : MemOp) (s : State) (e : Env) (p : Bool) (i : Instr) (vol : Bool) (sp : Space),
    (i = .st o ∧ vol = false ∧ sp = .global .store true) ∨ (i = .stv o ∧ vol = true ∧ sp = .global .atomic true) ∨
      (i = .sts o ∧ vol = false ∧ sp = (if o.op = 1 then .window else .scratch)) ∨ (i = .stb o ∧ vol = false ∧ sp = .bank) →
    Issues i s e p →
    ∀ (place : Nat → Place) (addr : Nat → Nat) (hit : LaneMask),
      (∀ t ∈ e.lanes, (landed s e).locate e sp o.bytes (MemOp.addr o e.g t) = .ok (place t) (addr t)) →
      (∀ t, t < 32 → (hit.getLsbD t = true ↔ t ∈ e.lanes ∧ sp = .scratch ∧ WatchHit e true o.bytes (addr t))) →
      let accs := accesses e place addr (MemOp.addr o e.g) fun _ => (0, 0)
      let puts := (accs.filter fun a => match a.place with
        | .peerScratch _ => true
        | _ => false).map (·.va)
      let good := s.goodLanes (coreOf e.gid) (pipeOf e.gid)
      let g := conflicted (entered e.g (classOf sp accs) puts) sp good o.bytes accs
      (∀ t, lowest hit = some t → Traps i s e 17 hit (BitVec.ofNat 64 (addr t))) ∧
      (hit = 0 → (∀ c, classOf sp accs = some c → e.g.counter c < 63) →
        ∃ tlb, Completes i s e .vector (({ landed s e with tlb := tlb } : State).putGroup e.gid
          (stored (if vol then regionClosed g else g) e vol (if o.ord = .rel then some o.scope else none)
            (e.lanes.flatMap fun t => storeBytes (place t) (addr t) (bytesOf (MemOp.datum o e.g t) o.bytes)))))

/-- R143, R201, R202, R289 to R291, R300, R301, R348, R349: when every active lane's address is accepted, `atom` and `cas` (in a
launch of level 0, or with the nd bit) and `red` (in a launch of level 0) issue one request for all lanes and close an open
region. At level 1 and above `atom` and `cas` without the nd bit raise cause 13, and `red` enters the core's reduction buffer,
one entry for each active lane, while the buffer's 4,096 places suffice (a releasing one when nothing of its group is
outstanding; the age that orders spills is the model's own, log entry 19). -/
def Obligations.AtomicsIssue : Prop :=
  ∀ (o : MemOp) (s : State) (e : Env) (p : Bool), s.poison = [] →
    ∀ (place : Nat → Place) (addr : Nat → Nat),
    let one (t : Nat) : W64 := BitVec.ofNat 64 (e.g.src .v o.c (o.ty == .b64) t)
    let two (t : Nat) : W64 := BitVec.ofNat 64 (if o.ty = .b64 then e.g.src .v (o.c + 2) true t else e.g.src .v (o.c + 1) false t)
    let accepted (sp : Space) : Prop :=
      ∀ t ∈ e.lanes, (landed s e).locate e sp o.bytes (MemOp.addr o e.g t) = .ok (place t) (addr t)
    let pair := accesses e place addr (MemOp.addr o e.g) fun t => (one t, two t)
    let single := accesses e place addr (MemOp.addr o e.g) fun t => (one t, 0)
    let room (c : Option OpClass) : Prop := ∀ k, c = some k → e.g.counter k < 63
    (Issues (.atom o) s e p → e.launch.det = 0 ∨ o.nd = true →
      let sp : Space := if o.bank then .bank else .global .atomic (MemOp.hostAtom o true)
      accepted sp → let c := if o.bank then classOf sp pair else none
      room c → ∃ tlb, Completes (.atom o) s e .vector (({ s with tlb := tlb } : State).putGroup e.gid
        (requested (regionClosed (entered e.g c [])) e (Instr.atom o).awaited.toList
          (.atom o.op o.ty o.bytes o.scope o.ord pair o.dk o.dst.toNat)))) ∧
    (Issues (.cas o) s e p → e.launch.det = 0 ∨ o.nd = true → accepted (.global .atomic true) →
      ∃ tlb, Completes (.cas o) s e .vector (({ s with tlb := tlb } : State).putGroup e.gid
        (requested (regionClosed e.g) e (Instr.cas o).awaited.toList
          (.cas o.bytes o.scope o.ord pair o.dk o.dst.toNat)))) ∧
    (Issues (.red o) s e p → e.launch.det = 0 →
      let sp : Space := if o.bank then .bank else .global .atomic (MemOp.hostAtom o false)
      accepted sp → room (classOf sp single) →
      ∃ tlb, Completes (.red o) s e .vector (({ s with tlb := tlb } : State).putGroup e.gid
        { requested (regionClosed (entered e.g (classOf sp single) [])) e []
            (.red o.op o.ty o.bytes o.scope o.ord single) with redSeq := e.g.redSeq + 1 })) ∧
    (Issues (.atom o) s e p → 1 ≤ e.launch.det → o.nd = false →
      accepted (if o.bank then .bank else .global .atomic (MemOp.hostAtom o true)) → Traps (.atom o) s e 13 e.mask 0) ∧
    (Issues (.cas o) s e p → 1 ≤ e.launch.det → o.nd = false → accepted (.global .atomic true) →
      Traps (.cas o) s e 13 e.mask 0) ∧
    (Issues (.red o) s e p → 1 ≤ e.launch.det →
      (o.ord = .rel → e.g.await = [] ∧ e.g.stq = [] ∧ e.g.ops = [] ∧ (s.core (coreOf e.gid)).flight = []) →
      accepted (if o.bank then .bank else .global .atomic (MemOp.hostAtom o false)) →
      (s.buffered (coreOf e.gid)).length + single.length ≤ 4096 → s.spillsFit (coreOf e.gid) = true →
      ∃ tlb, Completes (.red o) s e .vector ((({ s with tlb := tlb } : State).modLaunch e.team.launch fun l =>
        { l with red := l.red ++ single.map fun a =>
            { core := coreOf e.gid, spilled := false, place := a.place, addr := a.addr, size := o.bytes, ty := o.ty, op := o.op
              operand := a.operand, vcore := e.team.vcore, teamix := e.team.teamix, groupix := e.g.groupix, lane := a.lane
              seq := e.g.redSeq, age := s.freeCtr } }).putGroup e.gid { regionClosed e.g with redSeq := e.g.redSeq + 1 }))

/-- R358: `sld` and `sst` make one access for the group at the uniform address plus the immediate, aligned to the size. -/
def Obligations.UniformMemory : Prop :=
  ∀ (o : MemOp) (s : State) (e : Env) (p : Bool) (place : Place) (addr : Nat),
    let va := MemOp.uniAddr o e.g
    let acc : Access := { lane := 0, place, addr, va, operand := 0, operand2 := 0 }
    let puts : List W64 := match place with
      | .peerScratch _ => [va]
      | _ => []
    va.toNat = (e.g.s.get o.a.toNat + o.imm.signExtend 64).toNat / o.bytes * o.bytes ∧
    (Issues (.sld o) s e p → s.poison = [] → (landed s e).locate e (.global .load true) o.bytes va = .ok place addr →
      ∃ tlb, Completes (.sld o) s e .uniform (({ s with tlb := tlb } : State).putGroup e.gid
        (requested e.g e (Instr.sld o).awaited.toList (.sload o.bytes o.ty.signed acc o.dst.toNat)))) ∧
    (Issues (.sst o) s e p → (landed s e).locate e (.global .store true) o.bytes va = .ok place addr →
      let c := classOf (.global .store true) [acc]
      (∀ k, c = some k → e.g.counter k < 63) →
      ∃ tlb, Completes (.sst o) s e .uniform (({ landed s e with tlb := tlb } : State).putGroup e.gid
        (stored (entered e.g c puts) e false none
          (storeBytes place addr (bytesOf (e.g.s.get o.dst.toNat).toNat o.bytes)))))

/-- R116: the address of a lane is the base plus the scaled index plus the sign-extended immediate, its bits below the access
size cleared. R117, R124, R209: an access violation prevails. When some active lane's address is refused, the memory instructions
raise cause 2 (cause 14 for the sharing window), naming the lanes refused and the lowest one's address, with nothing
performed. R104, R125: when none is refused and some meet a translation fault, the group parks with a record of the kind of
access, those lanes, and the lowest one's address and table level, and nothing is performed; so do `sld`, `sst`, `park.ne` and
the fetch of an instruction or a trailer. R123, R124, R128 to R130: an address is translated by the three levels of its
context's tables, or by a cached leaf that covers it. R114, R117, R128, R189: where an access of each space goes, and what
refuses it. The model's choices: LANES 0 in a fetch's record (log entry 40, DEDUCED; SLOT of an east-pipe group is entry 25), a
leaf beyond HBM (entry 23), which of two translations is used (entry 13), and stores into an object (entry 35). -/
def Obligations.AddressesAndViolations : Prop :=
  (∀ (s : State) (core ctx : Nat) (k : AccessKind) (va : W64),
     let v := va.toNat
     let entry (table level : Nat) : W64 :=
       BitVec.ofNat 64 (s.hbm.readNat (table + 8 * (v / 2 ^ (16 + 12 * (3 - level)) % 4096)) 8)
     let target (x : W64) : Nat := (x.extractLsb' 15 33).toNat * 2 ^ 15
     let space (x : W64) : Nat := (x.extractLsb' 5 2).toNat
     let malformed (x : W64) (level : Nat) : Prop := x.extractLsb' 48 16 ≠ 0 ∨ x.getLsbD 4 = true ∨
       space x < 2 ∧ x.extractLsb' 7 8 ≠ 0 ∨ x.getLsbD 1 = false ∧ level = 3 ∨
       x.getLsbD 1 = true ∧ target x % 2 ^ (16 + 12 * (3 - level)) ≠ 0
     let forbids (x : W64) : Prop := k ∈ [.store, .atomic, .put] ∧ x.getLsbD 2 = false ∨ k = .fetch ∧ x.getLsbD 3 = false ∨
       space x = 3 ∧ k ∉ [.store, .put] ∨ 2 ≤ space x ∧ s.ctrl.featacc.getLsbD 4 = false
     let maps (x : W64) (bits : Nat) (r : Trans) : Prop :=
       let phys := target x + v % 2 ^ bits
       let dev := (x.extractLsb' 7 8).toNat
       (forbids x → r = .violation) ∧ (¬ forbids x →
         (space x = 0 → r = if phys < 640 * 2 ^ 30 then .ok .hbm phys else .violation) ∧ (space x = 1 → r = .ok .host phys) ∧
         (space x = 2 → r = .ok (.peer dev) phys) ∧ (space x = 3 → r = .ok (.peerScratch dev) phys))
     let ends (x : W64) (level : Nat) (r : Trans) : Prop :=
       (x.getLsbD 0 = false → r = .fault level) ∧ (x.getLsbD 0 = true → malformed x level → r = .violation) ∧
       (x.getLsbD 0 = true → ¬ malformed x level → maps x (16 + 12 * (3 - level)) r)
     let table (x : W64) (level : Nat) : Prop := x.getLsbD 0 = true ∧ ¬ malformed x level ∧ x.getLsbD 1 = false
     let e1 := entry (s.root ctx) 1
     let e2 := entry (target e1) 2
     let walked (r : Trans) : Prop := (¬ table e1 1 → ends e1 1 r) ∧ (table e1 1 → ¬ table e2 2 → ends e2 2 r) ∧
       (table e1 1 → table e2 2 → ends (entry (target e2) 3) 3 r)
     let covers (t : TlbEntry) : Prop := t ∈ s.tlb ∧ (t.place = .core core ∨ t.place = .die (core / 64)) ∧ t.ctx = ctx ∧
       t.vpn ≤ v / 65536 ∧ v / 65536 < t.vpn + t.pages
     let r := s.translate core ctx k va
     (va.extractLsb' 52 12 ≠ 0 → r = .violation) ∧
     (va.extractLsb' 52 12 = 0 → ((∀ t, ¬ covers t) → walked r) ∧ (walked r ∨ ∃ t, covers t ∧ maps t.leaf (16 + Nat.log2 t.pages) r))) ∧
  (∀ (s : State) (e : Env) (size : Nat) (va : W64),
     let a := va.toNat
     let mate (x : Nat × Team) : Prop := x ∈ s.teams ∧ x.2.launch = e.team.launch ∧ x.2.clusterix = e.team.clusterix ∧
       x.2.teamincl = a / 2 ^ 20
     s.locate e .scratch size va = (if a < e.team.scratchSize then .ok (.scratch e.g.team) a else .violation) ∧
     s.locate e .bank size va = (if a + size ≤ 2 ^ 28 ∧ s.bankFirst e.g.ctx ≤ a / 65536 ∧
       (a + size - 1) / 65536 < s.bankFirst e.g.ctx + s.bankCount e.g.ctx then .ok .bank a else .violation) ∧
     ((∀ x, ¬ mate x) → s.locate e .window size va = .violation) ∧
     (∀ x, mate x → (∀ y, mate y → y = x) → s.locate e .window size va =
       if a < 2 ^ 24 ∧ e.team.member = true ∧ x.2.member = true ∧ a % 2 ^ 20 < x.2.scratchSize then .ok (.scratch x.1) (a % 2 ^ 20)
       else .violation) ∧
     (∀ k host,
       let within (o : Translation) : Prop := o ∈ s.objects ∧ o.ctx = e.g.ctx ∧ o.freed = false ∧
         o.heapoff ≤ (va - s.codebase e.g.ctx).toNat ∧ (va - s.codebase e.g.ctx).toNat < o.heapoff + o.size
       let r := s.translate (coreOf e.gid) e.g.ctx k va
       (k ≠ .load → (∃ o, within o) → s.locate e (.global k host) size va = .violation) ∧
       (k = .load ∨ (∀ o, ¬ within o) → s.locate e (.global k host) size va =
         match r with
         | .ok .host x => if host then .ok .host x else .violation
         | _ => r))) ∧
  (∀ (o : MemOp) (g : Group) (t : Nat),
     let cls : Cls := if o.ik then .k else .v
     let base : W64 := if o.af then (if o.b = 0 then BitVec.ofNat 64 (g.src cls o.a true t) else g.s.get o.a.toNat)
       else g.s.get o.a.toNat + BitVec.ofNat 64 (g.src cls o.b false t * 2 ^ o.sc.toNat)
     (MemOp.addr o g t).toNat = (base + o.imm.signExtend 64).toNat / o.bytes * o.bytes) ∧
  (∀ (o : MemOp) (s : State) (e : Env) (p : Bool) (i : Instr) (sp : Space) (kind : Nat),
     kind = 0 ∧ ((i = .ld o ∨ i = .ldv o) ∧ sp = .global .load true ∨ i = .ldb o ∧ sp = .bank ∨
         i = .lds o ∧ sp = (if o.op = 1 then .window else .scratch)) ∨
       kind = 1 ∧ (i = .st o ∧ sp = .global .store true ∨ i = .stv o ∧ sp = .global .atomic true ∨ i = .stb o ∧ sp = .bank ∨
         i = .sts o ∧ sp = (if o.op = 1 then .window else .scratch)) ∨
       kind = 2 ∧ (i = .cas o ∧ sp = .global .atomic true ∨
         i = .atom o ∧ sp = (if o.bank then .bank else .global .atomic (MemOp.hostAtom o true)) ∨
         i = .red o ∧ sp = (if o.bank then .bank else .global .atomic (MemOp.hostAtom o false))) →
     Issues i s e p → ∀ (bad : LaneMask) (t : Nat), lowest bad = some t →
       let at_ (u : Nat) : Trans := (landed s e).locate e sp o.bytes (MemOp.addr o e.g u)
       ((∀ u, u < 32 → (bad.getLsbD u = true ↔ u ∈ e.lanes ∧ at_ u = .violation)) →
         Traps i s e (if sp = .window then 14 else 2) bad (MemOp.addr o e.g t)) ∧
       (∀ level, (∀ u ∈ e.lanes, at_ u ≠ .violation) → at_ t = .fault level →
         (∀ u, u < 32 → (bad.getLsbD u = true ↔ u ∈ e.lanes ∧ ∃ l, at_ u = .fault l)) →
         Parks i s e { straddle := false, level, kind, ctx := e.g.ctx, gid := e.gid, iaddr := e.here, lanes := bad,
                       va := MemOp.addr o e.g t })) ∧
  (∀ (o : MemOp) (s : State) (e : Env) (p : Bool) (i : Instr) (k : AccessKind) (kind : Nat),
     i = .sld o ∧ k = .load ∧ kind = 0 ∨ i = .sst o ∧ k = .store ∧ kind = 1 → Issues i s e p →
       let va := MemOp.uniAddr o e.g
       let at_ := (landed s e).locate e (.global k true) o.bytes va
       (at_ = .violation → Traps i s e 2 0 va) ∧
       (∀ level, at_ = .fault level → Parks i s e
         { straddle := false, level, kind, ctx := e.g.ctx, gid := e.gid, iaddr := e.here, lanes := 0, va })) ∧
  (∀ (q : LiOp) (s : State) (e : Env) (p : Bool), Issues (.park q) s e p → q.ext8 = 0 → e.mask ≠ 0 →
     s.isStart e.g.ctx (s.objectBase e.g.ctx e.v.start + q.imm32) = true →
       let va := e.g.s.get q.a.toNat &&& ~~~3#64
       let at_ := (landed s e).translate (coreOf e.gid) e.g.ctx .load va
       (at_ = .violation → Traps (.park q) s e 2 e.mask va) ∧
       (∀ level, at_ = .fault level → Parks (.park q) s e
         { straddle := false, level, kind := 0, ctx := e.g.ctx, gid := e.gid, iaddr := e.here, lanes := e.mask, va })) ∧
  (∀ (s : State) (gid : Gid) (g : Group) (v : Visit) (straddle : Bool) (level : Nat) (va : W64), s.agenda = [] →
     s.cur = some gid → s.powered = true → s.group gid = some g → g.status = .running → g.visit = some v →
     s.fetch (coreOf gid) g.ctx v.pos.toNat = .fault straddle level va → s.ringFree = false →
       let parked (t : State) : Prop := t = ({ s with cur := none } : State).putGroup gid { g with
         status := .faulted none
         visit := some { v with lastVec := none }
         faultWord := FaultRec.word { straddle, level, kind := 3, ctx := g.ctx, gid, iaddr := v.pos, lanes := 0, va } }
       (v.ended = false → ∃ t, step s = .next t ∧ parked t) ∧
       (v.ended = true → g.awaitedK = none → ∃ t, exec (.courseBoundary gid) s = .next t.draw ∧ parked t))

/-- R138, R139, R317: `fence` completes at its scope once what it orders is complete, and until then holds its pipe: older loads
have their values, older stores have left the queue, older atomics are performed, and no store on its way that the scope orders is
left (at system scope, none to the host or a peer is unacknowledged); the core's lines are invalidated at cluster scope and
beyond. R188, R189, R297: `bop` with a count of 0 only closes the region; with accepted ranges and room in the bank class it hands
one operation to the bank units, once the older stores of its group have left the queue (that it holds its pipe for them is the
model's choice, log entry 34: R189 orders only its reads and writes after them). Ranges that are misaligned, beyond 2^28, outside
the grant, or overlap, are an access violation (that TRAPVAL holds D, then S, then for an overlap D, is log entry 38, DEDUCED). -/
def Obligations.FenceAndBankOperation : Prop :=
  (∀ (s : State) (gid : Gid) (g : Group) (sc : Scope), s.group gid = some g →
    (s.fenced gid sc = true ↔
      (∀ a ∈ g.await, a.seq < g.seq → a.val.isSome = true ∨ a.req = .engine ∨ a.req = .windows) ∧
      (∀ f ∈ g.stq, g.seq ≤ f.seq) ∧
      (∀ f ∈ (s.core (coreOf gid)).flight, sc ∉ [.clu, .dev, .sys] ∧
        (sc = .team → f.gid = gid → ∀ b ∈ f.bytes, b.place.cached = true ∨ b.place.remote = true)) ∧
      (sc = .sys → ∀ o ∈ g.ops, o.cls = .remote → o.seq < g.seq → o.finished = true)) ∧
    (sc ∈ [.grp, .team] → s.acquire gid sc = s) ∧
    (sc ∈ [.clu, .dev, .sys] → s.acquire gid sc = s.invalidateL1 (coreOf gid) ∧
      ((s.acquire gid sc).core (coreOf gid)).l1 = [] ∧ (s.acquire gid sc).poison = s.poison ∧
      ∀ c, c ≠ coreOf gid → (s.acquire gid sc).core c = s.core c)) ∧
  ∀ (o : MemOp) (s : State) (e : Env) (p : Bool),
    let n := (e.g.s.get o.b.toNat).toNat % 2 ^ 32
    let d := (e.g.s.get o.dst.toNat).toNat % 2 ^ 28
    let x := (e.g.s.get o.a.toNat).toNat % 2 ^ 28
    (Issues (.fence o) s e p → ((landed s e).fenceAt e.gid o.scope).fenced e.gid o.scope = true →
      Completes (.fence o) s e .other (((landed s e).fenceAt e.gid o.scope).acquire e.gid o.scope)) ∧
    (Issues (.fence o) s e p → ((landed s e).fenceAt e.gid o.scope).fenced e.gid o.scope = false →
      Holds (.fence o) s ((landed s e).fenceAt e.gid o.scope)) ∧
    (Issues (.bop o) s e p → n = 0 → Completes (.bop o) s e .other ((landed s e).putGroup e.gid (regionClosed e.g))) ∧
    let inside (a : Nat) : Prop := a % 4 = 0 ∧ a + 4 * n ≤ 2 ^ 28 ∧ s.bankFirst e.g.ctx ≤ a / 65536 ∧
      (a + 4 * n - 1) / 65536 < s.bankFirst e.g.ctx + s.bankCount e.g.ctx
    let apart : Prop := d = x ∨ d + 4 * n ≤ x ∨ x + 4 * n ≤ d
    (Issues (.bop o) s e p → n ≠ 0 → ¬ inside d → Traps (.bop o) s e 2 0 (BitVec.ofNat 64 d)) ∧
    (Issues (.bop o) s e p → n ≠ 0 → inside d → ¬ inside x → Traps (.bop o) s e 2 0 (BitVec.ofNat 64 x)) ∧
    (Issues (.bop o) s e p → n ≠ 0 → inside d → inside x → ¬ apart → Traps (.bop o) s e 2 0 (BitVec.ofNat 64 d)) ∧
    (Issues (.bop o) s e p → n ≠ 0 → inside d → inside x → apart → e.g.counter .bank < 63 →
      let u := (landed s e).leaveOwn e.gid
      u.queueEmpty e.gid = true →
      Completes (.bop o) s e .other ((u.modGroup e.gid fun g => { regionClosed (entered g (some .bank) []) with
        seq := g.seq + 1 }).modTeam e.g.team fun t => { t with bank := t.bank ++
          [{ gid := e.gid, seq := e.g.seq, op := o.op.toNat, ty := o.ty, dst := d, src := x, n,
             scalar := (e.g.s.get o.c.toNat).setWidth 32 }] }))

/-! ### Asynchronous and barrier instructions -/

/-- R178, R179, R322: `kick` of a count of 0 gives TIMEREF as its promise and starts nothing; of a count up to 256 it reads
its records, enters one operation in the hod class, and gives a promise no earlier than TIMEREF plus 64. TIMEREF is that of the
cycle in which it issues (R244). It reads the records once the older stores of its group have left the queue (log entry 34), and
holds its pipe for one cycle more than there are records (log entry 103), both the model's choice. A count above 256 is illegal;
a misaligned list is an access violation with TRAPVAL 0; the first record that lies beyond the scratch or fails its check raises
cause 2, or 14 for a failed membership, with its index in TRAPVAL, and nothing is started (R175, R177, R178; that a record's form
and source are checked before its membership, and that before its destinations, is log entry 32, DEDUCED). -/
def Obligations.KickPromises : Prop :=
  (∀ (s : State) (e : Env) (r : BitVec 256),
    let f (lo n : Nat) : Nat := (r.extractLsb' lo n).toNat
    let src := f 0 64
    let rowlen := f 64 20
    let skind := f 93 1
    let dkind := f 94 2
    let mask := f 96 12
    let doff := f 108 20
    let last := f 128 12
    let dstr := f 140 20
    let sstr : Int := (r.extractLsb' 160 32).toInt
    let boff := f 216 20
    let formed : Prop := f 84 9 = 0 ∧ f 193 23 = 0 ∧ f 236 20 = 0 ∧ boff % 8 = 0 ∧ dkind ≠ 3 ∧ (f 192 1 = 1 → boff = 0) ∧
      (dkind = 0 → mask = 0) ∧ (dkind = 1 → mask < 16) ∧ src % 4 = 0 ∧ sstr % 4 = 0 ∧ doff % 4 = 0 ∧ dstr % 4 = 0 ∧
      rowlen % 4 = 0 ∧ rowlen ≠ 0 ∧ (0 < last → rowlen ≤ dstr)
    let first : Int := s.bankFirst e.g.ctx
    let source : Prop := ∀ row, row ≤ last → let a : Int := src + row * sstr
      0 ≤ a ∧ (skind = 0 → a + rowlen ≤ 2 ^ 52) ∧ (skind = 1 → a + rowlen ≤ 2 ^ 28 ∧ first ≤ a / 65536 ∧
        (a + rowlen - 1) / 65536 < first + s.bankCount e.g.ctx)
    let target (i : Nat) : Prop := dkind = 1 ∧ i = mask ∨ dkind = 2 ∧ i < 12 ∧ mask.testBit i = true
    let mate (i : Nat) : Option (Nat × Team) := (s.clusterTeams e.team).find? fun m => m.2.teamincl == i
    let members : Prop := dkind = 0 ∨ e.team.member = true ∧ ∀ i, target i → ∃ m, mate i = some m ∧ m.2.member = true
    let fits (size : Nat) : Prop := (∀ row, row ≤ last → doff + row * dstr + rowlen ≤ size) ∧ boff + 8 ≤ size
    let placed : Prop := (dkind = 0 → fits e.team.scratchSize) ∧ ∀ i m, target i → mate i = some m → fits m.2.scratchSize
    (¬ (formed ∧ source) → s.checkRecord e r = .error 2) ∧
    (formed → source → ¬ members → s.checkRecord e r = .error 14) ∧
    (formed → source → members → ¬ placed → s.checkRecord e r = .error 2) ∧
    (formed → source → members → placed → ∃ ds, s.checkRecord e r = .ok ds ∧
      ∀ k, k ∈ ds ↔ dkind = 0 ∧ k = e.g.team ∨ ∃ i m, target i ∧ mate i = some m ∧ k = m.1)) ∧
  ∀ (o : POp) (s : State) (e : Env) (p : Bool), Issues (.kick o) s e p →
    let off := (e.g.s.get o.a.toNat).toNat % 2 ^ 20
    let n := (e.g.s.get o.b.toNat).toNat % 2 ^ 32
    let issue (x : State) : W64 := (x.startCycle (coreOf e.gid) (pipeOf e.gid)).now (coreOf e.gid)
    (256 < n → Traps (.kick o) s e 3 0 0) ∧
    (n ≤ 256 → off % 32 ≠ 0 → Traps (.kick o) s e 2 0 0) ∧
    (let u := (landed s e).leaveOwn e.gid
     let reaches (i : Nat) : Prop := off + 32 * i + 32 ≤ e.team.scratchSize
     let check (i : Nat) : Except Nat (List Nat) := u.checkRecord e (BitVec.ofNat 256 (u.readAt (.scratch e.g.team) (off + 32 * i) 32))
     n ≤ 256 → off % 32 = 0 → u.queueEmpty e.gid = true → ∀ i, i < n → (∀ j, j < i → reaches j ∧ ∃ ds, check j = .ok ds) →
       (¬ reaches i → Traps (.kick o) s e 2 0 (BitVec.ofNat 64 i)) ∧
       (∀ cause, reaches i → check i = .error cause → Traps (.kick o) s e cause 0 (BitVec.ofNat 64 i))) ∧
    (off % 32 = 0 →
    (n = 0 → Posts (.kick o) s e .other 2 [.uni o.dst.toNat (issue (landed s e))] {}) ∧
    (∀ reqs, 0 < n → n ≤ 256 →
      let u := (landed s e).leaveOwn e.gid
      u.queueEmpty e.gid = true → u.readRecords e off 0 n = .ok reqs → e.g.counter .hod < 63 →
      let began := u.modGroup e.gid fun g => entered g (some .hod) []
      ∃ promise : W64, issue began + 64 ≤ promise ∧
        let v := (u.modGroup e.gid fun g => { entered g (some .hod) [] with seq := g.seq + 1 }).modTeam e.g.team fun t =>
          { t with hod := t.hod ++ [{ gid := e.gid, seq := e.g.seq, iaddr := e.here, reqs, promise }] }
        Completes (.kick o) s e .other (v.modGroup e.gid fun g =>
          { g with pend := addPend g.pend (result e 2 [.uni o.dst.toNat promise] {}) })))

/-- R183, R185, R363: `barinit` stores the 64-bit count of its object through the store queue; `waitb`, once the group's stores
to the object have left that queue, completes when the count is zero and traps, cause 11, once its promise has passed; `sleep`
sets the wake time, the later of two. An object beyond the scratch is an access violation. -/
def Obligations.BarrierObjectsAndSleep : Prop :=
  ∀ (o : POp) (s : State) (e : Env) (p : Bool),
    let off := (e.g.s.get o.a.toNat).toNat % 2 ^ 20 / 8 * 8
    let n := (e.g.s.get o.a.toNat).toNat % 2 ^ 32
    let spots : List (Place × Nat) := (List.range 8).map fun i => (.scratch e.g.team, off + i)
    let u := (landed s e).leaveBytes e.gid e.g.seq spots
    let left := u.objectCount e.g.team off
    let gone := u.queuedBytes e.gid spots = false
    (Issues (.barinit o) s e p → off < e.team.scratchSize → Completes (.barinit o) s e .other ((landed s e).putGroup e.gid
      (stored e.g e false none (storeBytes (.scratch e.g.team) off
        (bytesOf ((e.g.s.get o.b.toNat).toNat % 2 ^ 32) 8))))) ∧
    (∀ i, i = .barinit o ∨ i = .waitb o → Issues i s e p → e.team.scratchSize ≤ off → Traps i s e 2 0 (BitVec.ofNat 64 off)) ∧
    (Issues (.waitb o) s e p → off < e.team.scratchSize → gone → left = 0 → Completes (.waitb o) s e .other u) ∧
    (Issues (.waitb o) s e p → off < e.team.scratchSize → gone → left ≠ 0 → o.ty = .b64 → e.g.s.get o.b.toNat < u.timeref →
      exec (.waitb o) s = .next (u.takeTrap e.gid
        { cause := 11, addr := e.here, val := BitVec.ofNat 64 left, lanes := 0, epc := e.here, pos := 0 }).draw) ∧
    (Issues (.sleep o) s e p → n = 0 → Completes (.sleep o) s e .other (landed s e)) ∧
    (Issues (.sleep o) s e p → n ≠ 0 →
      let until_ := ((landed s e).startCycle (coreOf e.gid) (pipeOf e.gid)).now (coreOf e.gid) + BitVec.ofNat 64 n
      Completes (.sleep o) s e .other ((landed s e).putGroup e.gid
        { e.g with wake := if e.g.wake < until_ then until_ else e.g.wake }))

/-- R146, R372: `waitc` completes when the class holds no more than its bound, and otherwise stops its group; a put that was
discarded is an access violation at a wait on the remote class (R130). -/
def Obligations.WaitOnClass : Prop :=
  ∀ (o : POp) (s : State) (e : Env) (p : Bool) (c : OpClass), Issues (.waitc o) s e p →
    (o.a = 0 ∧ c = .matrix ∨ o.a = 1 ∧ c = .hod ∨ o.a = 2 ∧ c = .bank ∨ o.a = 3 ∧ c = .remote) →
    (c ≠ .remote ∨ e.g.putErr = none →
      (e.g.counter c ≤ o.b.toNat → Completes (.waitc o) s e .other (landed s e)) ∧
      (o.b.toNat < e.g.counter c → Stops (.waitc o) s e (landed s e) (.waitc c o.b.toNat))) ∧
    (∀ va, c = .remote → e.g.putErr = some va → Traps (.waitc o) s e 2 0 va)

/-- R54, R142, R293, R294, R318, R319: `bar`, `cbar` and, in a co-operative grid, `gbar` act as a fence at team, cluster and
device scope: once what they order is complete (`fenced`, as `FenceAndBankOperation` spells it) they arrive, and stop the group
until the barrier releases; until it is complete they hold their pipe. -/
def Obligations.BarriersStop : Prop :=
  ∀ (o : POp) (s : State) (e : Env) (p : Bool), Collective e →
    let u (sc : Scope) : State := (landed s e).fenceAt e.gid sc
    let complete (sc : Scope) : Prop := (u sc).fenced e.gid sc = true
    let v (sc : Scope) : State := (u sc).acquire e.gid sc
    (Issues (.bar o) s e p → complete .team → Stops (.bar o) s e ((v .team).modTeam e.g.team fun t =>
      { t with barArr := t.barArr ++ [e.g.groupix] }) .bar) ∧
    (Issues (.bar o) s e p → ¬ complete .team → Holds (.bar o) s (u .team)) ∧
    (Issues (.cbar o) s e p → ¬ complete .clu → Holds (.cbar o) s (u .clu)) ∧
    (Issues (.gbar o) s e p → e.launch.coop = true → ¬ complete .dev → Holds (.gbar o) s (u .dev)) ∧
    (Issues (.cbar o) s e p → complete .clu → Stops (.cbar o) s e ((v .clu).modTeam e.g.team fun t =>
      { t with cbarArr := t.cbarArr ++ [e.g.groupix] }) .cbar) ∧
    (Issues (.gbar o) s e p → e.launch.coop = true → complete .dev → Stops (.gbar o) s e
      ((v .dev).modLaunch e.team.launch fun l =>
        { l with gbarArr := l.gbarArr ++ [e.team.teamix * 32 + e.g.groupix] }) .gbar)

/-- R22, R54, R187, R321: `join` makes the team a member of its cluster's sharing group; `leave` of a team that is no member
changes nothing, and of a member it ends the membership once no hod row is still to be written into its window and the accesses
of other teams that were translated before have been performed. That it waits at its issue, a member still, is the model's choice
(log entry 81). -/
def Obligations.JoinAndLeave : Prop :=
  ∀ (o : POp) (s : State) (e : Env) (p : Bool), Collective e →
    (Issues (.join o) s e p → Completes (.join o) s e .other
      ((landed s e).modTeam e.g.team fun t => { t with member := true })) ∧
    (Issues (.leave o) s e p → e.team.member = false → Completes (.leave o) s e .other (landed s e)) ∧
    (Issues (.leave o) s e p → e.team.member = true → (landed s e).windowRow e.g.team = none →
      (landed s e).windowWrites e.g.team = false → ((landed s e).windowAccesses e.g.team).windowBusy e.g.team = false →
      Completes (.leave o) s e .other (((landed s e).windowAccesses e.g.team).modTeam e.g.team fun t => { t with member := false }))

/-- R54: a collective instruction that some lane which is not done has not reached raises cause 9 at once, naming those
lanes. That it does so too where the register value of `mfmt`, `mlay` or `mloop` is illegal is the model's choice (log entry 31,
DEDUCED: R103 and R106 put legality before it). -/
def Obligations.CollectiveTrap : Prop :=
  ∀ (o : POp) (q : LiOp) (s : State) (e : Env) (p : Bool) (i : Instr),
    i ∈ [.bar o, .cbar o, .join o, .leave o, .mfmt o, .mlay o] ∨ i = .gbar o ∧ e.launch.coop = true ∨
      i = .region q ∧ e.g.shadow = none ∨
      (i = .mma o ∨ i = .mzero o ∨ i = .mwr o) ∧ o.dst.toNat < e.team.heavy ∨ i = .mrd o ∧ o.a.toNat < e.team.heavy ∨
      i = .mloop o ∧ o.dst.toNat < e.team.heavy ∧ overlapping e.g o.a.toNat o.b.toNat = false →
    Issues i s e p → ¬ Collective e → Traps i s e 9 (~~~e.g.ended &&& ~~~e.v.active) 0

/-! ### Matrix instructions -/

/-- R151, R153, R157, R161, R173: `mfmt` and `mlay` capture a legal record in the group; `mzero`, `mwr` and `mrd` on a tile of
the team enter the engine's order, the value of `mwr` read at issue and the band of `mrd` awaited. R150, R161: the engine
performs, in their order, the accesses of a tile that no step precedes: `mzero` sets every element of the tile to +0, `mwr` writes
its band, a subnormal as zero of its sign and a NaN as 7FC00000, and `mrd` gives its band's elements, or their LN8 codes with
the flags of `lqnt` (`quantise`), as the value that its group awaits (the tiles in their canonical form, assumption 2). -/
def Obligations.MatrixStateAndTiles : Prop :=
  (∀ (s : State) (team tile : Nat) (t : Team), tfind s.teams team = some t → tile < 8 →
    ((∀ o, t.engine.find? (fun x => x.tile == tile) = some o → o.isStep = true) → s.settle team tile = s) ∧
    (∀ (before after : List EngineOp) (o : EngineOp), t.engine = before ++ o :: after → (∀ x ∈ before, x.tile ≠ tile) →
      o.tile = tile → o.isStep = false → s.settle team tile =
        ((s.modTeam team fun x => { x with engine := before ++ after }).tileAccess team o).settle team tile) ∧
    (s.poison = [] → Sparse.wf t.tiles = true →
      let leaves (o : EngineOp) (el : Nat → Nat → Nat → W32) : Prop := ∃ m : Sparse 32, Sparse.wf m = true ∧
        s.tileAccess team o = s.modTeam team (fun x => { x with tiles := m }) ∧
        ∀ k r c, r < 64 → c < 64 → m.get (4096 * k + 64 * r + c) = el k r c
      let old (k r c : Nat) : W32 := t.tiles.get (4096 * k + 64 * r + c)
      leaves (.zero tile) (fun k r c => if k = tile then 0 else old k r c) ∧
      (∀ band (vals : List W32), band < 16 → vals.length = 256 → leaves (.write tile band vals) fun k r c =>
        let x := vals.getD (32 * (c / 8) + 8 * (r % 4) + c % 8) 0
        if k = tile ∧ r / 4 = band then
          (if (fmt32.decode x.toNat).isNan then 0x7FC00000 else BitVec.ofNat 32 (ftzSource true x.toNat))
        else old k r c) ∧
      (∀ gid (g : Group) (a : Await) seq band ln dst, s.group gid = some g → g.await = [a] → a.seq = seq → band < 16 →
        let el (lane c : Nat) : W32 := old tile (4 * band + lane / 8) c
        let code (lane c : Nat) : Nat × Fl := quantise .ln8x4 false (fmt32.decode (el lane c).toNat)
        ∃ (value : Nat → Nat → W32) (lf : W32),
          s.tileAccess team (.read gid seq tile band ln dst) = s.putGroup gid { g with await := [{ a with
            val := some ((List.range (if ln then 2 else 8)).flatMap fun r =>
              (List.range 32).map fun lane => .lane false (dst + r) lane (value r lane))
            lf := lf, marks := [] }] } ∧
          (∀ r lane, lane < 32 → ln = false → r < 8 → value r lane = el lane (8 * r + lane % 8)) ∧
          (∀ r lane j, lane < 32 → ln = true → r < 2 → j < 4 →
            elem 8 (value r lane).toNat j = (code lane (32 * r + 4 * (lane % 8) + j)).1) ∧
          (∀ j, lf.getLsbD j = (ln && (List.range 32).any fun lane => (List.range 2).any fun r => (List.range 4).any fun k =>
            (code lane (32 * r + 4 * (lane % 8) + k)).2.lf.getLsbD j))))) ∧
  ∀ (o : POp) (s : State) (e : Env) (p : Bool), Collective e →
    let w := e.g.s.get o.a.toNat
    let w1 := e.g.s.get o.b.toNat
    (Issues (.mfmt o) s e p → fmtIllegal w = false →
      Completes (.mfmt o) s e .other ((landed s e).putGroup e.gid { e.g with mfmt := w })) ∧
    (Issues (.mlay o) s e p → layIllegal w w1 = false →
      Completes (.mlay o) s e .other ((landed s e).putGroup e.gid { e.g with mlay := e.g.mlay.set o.c.toNat (w, w1, o.dst.toNat) })) ∧
    (Issues (.mzero o) s e p → o.dst.toNat < e.team.heavy →
      Completes (.mzero o) s e .other ((landed s e).engine e (.zero o.dst.toNat))) ∧
    (Issues (.mwr o) s e p → o.dst.toNat < e.team.heavy → s.poison = [] →
      Completes (.mwr o) s e .other ((landed s e).engine e (.write o.dst.toNat o.a.toNat (e.g.window o.b.toNat 8)))) ∧
    (Issues (.mrd o) s e p → o.a.toNat < e.team.heavy → s.poison = [] →
      Completes (.mrd o) s e .other (((landed s e).putGroup e.gid { e.g with await := e.g.await ++
          [{ seq := e.g.seq, iaddr := e.here, req := .engine, val := none, lf := 0, names := (Instr.mrd o).awaited.toList }] }).engine e
        (.read e.gid e.g.seq o.a.toNat o.b.toNat (o.ty == .ln8x4) o.dst.toNat)))

/-- R152, R154, R157 to R160, R165, R171 to R173: an `mma` whose format is native, with room in the matrix class, with or
without scales, and an `mloop` of 1 to 65,535 steps whose fragments and scales lie in the scratch, enter the engine's order with
what they captured; an `mloop` of no steps does nothing, one of more than 65,535 is illegal, and one whose rows leave the scratch
is an access violation. A format that is not native raises cause 12, or with FEATACC.FMTEMU parks the group for the firmware. That
`mloop`, and `mma` with scales, hold the pipe until the older stores of the group have left the queue is the model's choice (log
entry 34: R165 orders only the engine's reads after them), and so is the place that an `mma` waits for (log entry 86). R209: an
`mma` or `mloop` whose rows or scales leave the scratch is an access violation; that TRAPVAL then holds the first failing row of A,
else of B, else the last scale of A's block, else of B's, is the model's choice (log entry 84). -/
def Obligations.MatrixSteps : Prop :=
  ∀ (o : POp) (s : State) (e : Env) (p : Bool), Collective e → o.dst.toNat < e.team.heavy → s.poison = [] →
    let w := e.g.mfmt
    let total := (e.g.s.get o.c.toNat).toNat % 2 ^ 32
    let size := e.team.scratchSize
    let la := e.g.mlay.getD o.a.toNat (0, 0, 0)
    let lb := e.g.mlay.getD o.b.toNat (0, 0, 0)
    let u := (landed s e).leaveOwn e.gid
    let scales (off : Nat) : List W16 :=
      (List.range 64).map fun m => BitVec.ofNat 16 (u.readAt (.scratch e.g.team) (off + 2 * m) 2)
    let step (sa sb : List W16) : EngineOp := .steps e.gid e.g.seq e.here o.dst.toNat w (0, 0, 0) (0, 0, 0) 0 1 true
      (e.g.window o.a.toNat 16) (e.g.window o.b.toNat 16) sa sb e.g.regionSeq
    let emulated : State := (({ landed s e with cur := none } : State).putGroup e.gid { e.g with status := .emulating }).draw
    let emulating := s.ctrl.featacc.getLsbD 9 = true
    let legal := overlapping e.g o.a.toNat o.b.toNat = false
    (Issues (.mma o) s e p → fmtFaults w = false →
      (fmtBLK w = 0 → e.team.mayCapture = true → e.g.counter .matrix < 63 → Completes (.mma o) s e .other
        (((landed s e).putGroup e.gid (entered e.g (some .matrix) [])).engine e (step [] []))) ∧
      (fmtBLK w ≠ 0 → fmtASB w + 128 ≤ size → fmtBSB w + 128 ≤ size → e.team.mayCapture = true → e.g.counter .matrix < 63 →
        u.queueEmpty e.gid = true → Completes (.mma o) s e .other ((u.modGroup e.gid fun g => entered g (some .matrix) []).engine e
          (step (scales (fmtASB w)) (scales (fmtBSB w))))) ∧
      (fmtBLK w ≠ 0 → size < fmtASB w + 128 → Traps (.mma o) s e 2 0 (BitVec.ofNat 64 (fmtASB w + 126))) ∧
      (fmtBLK w ≠ 0 → fmtASB w + 128 ≤ size → size < fmtBSB w + 128 →
        Traps (.mma o) s e 2 0 (BitVec.ofNat 64 (fmtBSB w + 126)))) ∧
    (Issues (.mma o) s e p → fmtFaults w = true →
      (¬ emulating → Traps (.mma o) s e 12 0 w) ∧ (emulating → exec (.mma o) s = .next emulated)) ∧
    (Issues (.mloop o) s e p → legal → 65535 < total → Traps (.mloop o) s e 3 0 0) ∧
    (Issues (.mloop o) s e p → legal → total ≤ 65535 → fmtFaults w = true →
      (¬ emulating → Traps (.mloop o) s e 12 0 w) ∧ (emulating → exec (.mloop o) s = .next emulated)) ∧
    (Issues (.mloop o) s e p → legal → fmtFaults w = false → total = 0 → Completes (.mloop o) s e .other (landed s e)) ∧
    (Issues (.mloop o) s e p → legal → fmtFaults w = false → 0 < total → total ≤ 65535 →
      let block := (total - 1) * (if fmtFA w = 0 then 16 else if fmtFA w = 1 then 32 else 64) / (16 * 2 ^ fmtBLK w)
      let endA := fmtASB w + 128 * block + 128
      let endB := fmtBSB w + 128 * block + 128
      let fits (l : W64 × W64 × Nat) : Prop := layFails l total size = none
      (∀ a, layFails la total size = some a → Traps (.mloop o) s e 2 0 (BitVec.ofInt 64 a)) ∧
      (∀ a, fits la → layFails lb total size = some a → Traps (.mloop o) s e 2 0 (BitVec.ofInt 64 a)) ∧
      (fits la → fits lb → fmtBLK w ≠ 0 → size < endA → Traps (.mloop o) s e 2 0 (BitVec.ofNat 64 (endA - 2))) ∧
      (fits la → fits lb → fmtBLK w ≠ 0 → endA ≤ size → size < endB →
        Traps (.mloop o) s e 2 0 (BitVec.ofNat 64 (endB - 2))) ∧
      (∀ l, (layFails l total size = none ↔ ∀ i q, i < total → q < 64 → 0 ≤ rowAddr l i q ∧ rowAddr l i q + 32 ≤ size) ∧
        ∀ a, layFails l total size = some a → ∃ i q, i < total ∧ q < 64 ∧ a = rowAddr l i q ∧ (a < 0 ∨ size < a + 32) ∧
          (∀ j r, j < i → r < 64 → 0 ≤ rowAddr l j r ∧ rowAddr l j r + 32 ≤ size) ∧
          ∀ r, r < q → 0 ≤ rowAddr l i r ∧ rowAddr l i r + 32 ≤ size)) ∧
    (Issues (.mloop o) s e p → legal → fmtFaults w = false → 0 < total → total ≤ 65535 →
      layFails la total size = none → layFails lb total size = none →
      scaleFails w total size = none → e.g.counter .matrix < 63 → u.queueEmpty e.gid = true →
      Completes (.mloop o) s e .other ((u.modGroup e.gid fun g => { entered g (some .matrix) [] with await := g.await ++
          [{ seq := g.seq, iaddr := e.here, req := .windows, val := none, lf := 0,
             names := [⟨false, la.2.2, 16, false⟩, ⟨false, lb.2.2, 16, false⟩] }] }).engine e
        (.steps e.gid e.g.seq e.here o.dst.toNat w la lb 0 total false [] [] [] [] e.g.regionSeq)))

/-! ### Control and system instructions -/

/-- R40, R44 to R48, R50, R309, R344, R350, R351, R373: the want family. With every active lane's target a course start,
`want`, `wantr`, `call`, `callr` and `ret` set the wanted course of the active lanes, `call` and `callr` their link to the
next course, and `park` and `rejoin` park them on their condition; `exit` ends the active lanes. -/
def Obligations.WantFamily : Prop :=
  ∀ (q : LiOp) (o : POp) (s : State) (e : Env) (p : Bool),
    let imm : W32 := s.objectBase e.g.ctx e.v.start + q.imm32
    let reg (t : Nat) : W32 := e.g.v.get (o.a.toNat * 32 + t)
    let lk (t : Nat) : W32 := e.g.lk.get t
    let ok (target : Nat → W32) : Prop := ∀ t ∈ e.lanes, s.isStart e.g.ctx (target t) = true
    let put (g : Group) : State := (landed s e).putGroup e.gid g
    let next := (landed s e).nextOf (coreOf e.gid) e.g.ctx e.v
    let a := e.g.s.get q.a.toNat
    (Issues (.want q) s e p → ok (fun _ => imm) → Completes (.want q) s e .other (put (e.g.want e.mask fun _ => imm))) ∧
    (Issues (.wantr o) s e p → ok reg → Completes (.wantr o) s e .other (put (e.g.want e.mask reg))) ∧
    (Issues (.call q) s e p → ok (fun _ => imm) →
      Completes (.call q) s e .other (put ((e.g.link e.mask next).want e.mask fun _ => imm))) ∧
    (Issues (.callr o) s e p → ok reg →
      Completes (.callr o) s e .other (put ((e.g.link e.mask next).want e.mask reg))) ∧
    (Issues (.ret o) s e p → ok lk → Completes (.ret o) s e .other (put (e.g.want e.mask lk))) ∧
    (Issues (.exit o) s e p → e.g.shadow = none → Completes (.exit o) s e .other (put { e.g with
      ended := e.g.ended ||| e.mask
      visit := e.g.visit.map fun v => { v with active := v.active &&& ~~~e.mask } })) ∧
    (Issues (.park q) s e p → ok (fun _ => imm) → q.ext8 = 2 → Completes (.park q) s e .other
      (put ((e.g.want e.mask fun _ => imm).park e.mask fun _ => .time a))) ∧
    (Issues (.park q) s e p → ok (fun _ => imm) → q.ext8 = 1 → (a.toNat / 8 * 8 < e.team.scratchSize) →
      Completes (.park q) s e .other
        (put ((e.g.want e.mask fun _ => imm).park e.mask fun _ => .bar (a.toNat / 8 * 8)))) ∧
    (∀ place addr, Issues (.park q) s e p → ok (fun _ => imm) → q.ext8 = 0 →
      (landed s e).translate (coreOf e.gid) e.g.ctx .load (a &&& ~~~3#64) = .ok place addr → Completes (.park q) s e .other
        (put ((e.g.want e.mask fun _ => imm).park e.mask fun _ =>
          .ne (a &&& ~~~3#64) ((e.g.s.get q.b.toNat).setWidth 32) e.here none false none))) ∧
    (Issues (.rejoin q) s e p → ok (fun _ => imm) → Completes (.rejoin q) s e .other
      (put ((e.g.want e.mask fun _ => imm).park e.mask fun t => .rejoin e.here (a.setWidth 32 ||| (1#32 <<< t)))))

/-- R45, R209: a target that is no course start of the context raises cause 6 at the instruction: it names the lanes whose
target is refused and holds the lowest one's target. -/
def Obligations.TargetTrap : Prop :=
  ∀ (q : LiOp) (o : POp) (s : State) (e : Env) (p : Bool) (i : Instr) (target : Nat → W32),
    i ∈ [.want q, .call q, .park q, .rejoin q] ∧ (∀ t, target t = s.objectBase e.g.ctx e.v.start + q.imm32) ∨
      (i = .wantr o ∨ i = .callr o) ∧ (∀ t, target t = e.g.v.get (o.a.toNat * 32 + t)) ∨
      i = .ret o ∧ (∀ t, target t = e.g.lk.get t) →
    Issues i s e p → ∀ (bad : LaneMask) (t : Nat), lowest bad = some t →
      (∀ u, u < 32 → (bad.getLsbD u = true ↔ u ∈ e.lanes ∧ s.isStart e.g.ctx (target u) = false)) →
      Traps i s e 6 bad ((target t).setWidth 64)

/-- R28, R107, R232, R233: `region` opens an idempotent region at its target and saves the entry state that a rollback restores;
`csrr` sees REGIONL two slots later. A target that is no course start is cause 6. -/
def Obligations.RegionOpens : Prop :=
  ∀ (q : LiOp) (s : State) (e : Env) (p : Bool), Issues (.region q) s e p → Collective e → e.g.shadow = none →
    let target : W32 := s.objectBase e.g.ctx e.v.start + q.imm32
    (s.isStart e.g.ctx target = true → Completes (.region q) s e .other ((landed s e).putGroup e.gid
      { posted e { result e 2 [.csr 0x018 (((target &&& 0xFFFFFFF0) ||| 1).setWidth 64)] {} with csr := true } with
        regionl := (target &&& 0xFFFFFFF0) ||| 1, entrylk := e.g.lk, entrydone := e.g.ended, rollbacks := 0
        regionSeq := e.g.regionSeq + 1 })) ∧
    (s.isStart e.g.ctx target = false → Traps (.region q) s e 6 e.mask (target.setWidth 64))

/-- R98: `nop` issues, occupies its slot and honours its stall count; it changes no other state. The compact form too
(R97). R223: in mode 1 of STEPCTL, outside a handler, it is followed by the single-step trap, cause 16 at position I with EPC the
next instruction and TRAPLANES the active mask, unless it ends its course. -/
def Obligations.NopChangesNothing : Prop :=
  ∀ (o : SysOp) (c : CompactOp) (s : State) (e : Env) (p : Bool),
    (Issues (.nop o) s e p → Completes (.nop o) s e .other (landed s e)) ∧
    (Issues (.nopCompact c) s e p → Completes (.nopCompact c) s e .other (landed s e)) ∧
    (∀ i, i = .nop o ∨ i = .nopCompact c → e.g.stepctl = 1 → e.g.shadow = none → i.last = false →
      Admitted i s e p → CompletesThenSteps i s e .other (landed s e))

/-- R62, R63, R304 to R307, R369: `csrr` samples the special register at issue, in every active lane or for the group, and a
variable register arrives later; `csrw` writes the uniform register's value to the special register two slots later, and
each active lane's value to its `lk`; `time` reads CYCLE. What each register holds (R14, R16, R38, R62, R64, R186, R208, R210,
R222 to R225, R240, R244): those of the group, its team, launch, core and island, WANT, LK and SWEEPS of the stopped course
inside a handler; HODEST gives TIMEREF with nothing to copy, and else the state of the oldest `kick`, its estimate a free value
(assumption 4). -/
def Obligations.SpecialRegisters : Prop :=
  (∀ (s : State) (e : Env),
    let core := coreOf e.gid
    let i := s.island (s.islandOf core)
    let n (x : Nat) : W64 := BitVec.ofNat 64 x
    let w (x : W32) : W64 := x.setWidth 64
    let good := ((List.range 32).filter fun k => !(s.laneBad.get (s.site core)).getLsbD (32 * pipeOf e.gid + k)).length
    (∀ c ∈ [(0x001, n e.g.groupix), (0x002, n e.team.teamix), (0x003, n e.team.groups), (0x004, n e.team.clusterix),
        (0x005, n e.team.teamincl), (0x006, n e.launch.grid), (0x007, n e.team.vcore), (0x008, n core), (0x009, n (s.islandOf core)),
        (0x00A, ~~~ s.laneBad.get (s.site core)), (0x00B, if good = 32 then 1 else if 16 ≤ good then 2 else 0),
        (0x00C, n (pipeOf e.gid)), (0x00D, n e.g.nreg), (0x010, w e.g.fflags), (0x011, w e.g.lflags), (0x012, w e.g.fmode),
        (0x013, w e.g.conflicts), (0x014, i.cycle), (0x015, i.tick), (0x016, n e.launch.det), (0x017, n e.team.heavy),
        (0x018, w e.g.regionlSeen), (0x019, e.g.sigacc.setWidth 64), (0x01A, n (s.hbm.readNat (s.ctrl.ctxtbl.toNat + 128 * e.g.ctx + 80) 8)),
        (0x020, w e.g.trapcause), (0x021, e.g.trapaddr), (0x022, w e.g.traplanes), (0x023, e.g.trapval), (0x024, w e.g.epc),
        (0x025, w e.g.stepctl), (0x026, w e.g.bpaddr), (0x027, w e.g.watcha), (0x028, w e.g.watchm), (0x029, e.g.dbgmbox),
        (0x030, w i.droopth), (0x031, w i.droopcnt), (0x032, n (65536 * i.capState + i.capLeft))], csrValue s e c.1 = c.2) ∧
    (e.g.shadow = none → csrValue s e 0x00F = w e.g.sweeps) ∧
    (∀ sh, e.g.shadow = some sh → csrValue s e 0x00F = w sh.sweeps) ∧
    (∀ t, csrLaneValue e 0x000 t = n t ∧
      (e.g.shadow = none → csrLaneValue e 0x00E t = w (e.g.wl.get t) ∧ csrLaneValue e 0x01C t = w (e.g.lk.get t)) ∧
      (∀ sh, e.g.shadow = some sh → csrLaneValue e 0x00E t = w (sh.wl.get t) ∧ csrLaneValue e 0x01C t = w (sh.lk.get t))) ∧
    (let v := csrValue s e 0x01B
     let mine (k : Kick) : Prop := k.gid = e.gid
     ((∀ k ∈ (s.team e.g.team).hod, ¬ mine k) → v = i.tick &&& 0x3FFFFFFFFFFFFFFF) ∧
     (∀ (before after : List Kick) (k : Kick), (s.team e.g.team).hod = before ++ k :: after → (∀ x ∈ before, ¬ mine x) → mine k →
       ((∃ r ∈ k.reqs, r.fault.isSome = true) → v >>> 62 = 3) ∧
       ((∀ r ∈ k.reqs, r.fault = none) →
         (v >>> 62 = 1 ∨ v >>> 62 = 2) ∧
         ((∀ r ∈ k.reqs, ∀ row ∈ r.rows, s.readRow core e.g.ctx r.record row = .wait) → v >>> 62 = 2))))) ∧
  ∀ (o : SysOp) (s : State) (e : Env) (p : Bool),
    let num := o.num.toNat
    let v := e.g.s.get o.a.toNat
    let posts (i : Instr) (writes : List RegWrite) : Prop := Completes i s e .other
      ((landed s e).putGroup e.gid (posted e { result e 2 writes {} with csr := true }))
    (Issues (.csrr o) s e p → ∃ u, Elapsed (landed s e) u ∧
      let value (t : Nat) : W64 := if csrLane num then csrLaneValue e num t else csrValue u e num
      let writes := if o.cd = .s
        then [.uni o.dst.toNat (if o.ty = .n32 then (value 0).setWidth 32 |>.setWidth 64 else value 0)]
        else e.lanes.flatMap fun t => destWrites o.cd o.dst (o.ty == .b64) t (value t).toNat
      (csrVariable num = false → Posts (.csrr o) s e (if o.cd = .s then .other else .vector) 2 writes {}) ∧
      (csrVariable num = true → Completes (.csrr o) s e (if o.cd = .s then .other else .vector) ((landed s e).putGroup e.gid { e.g with
        await := e.g.await ++ [{ seq := e.g.seq, iaddr := e.here, names := (Instr.csrr o).awaited.toList, req := .sampled,
                                 val := some writes, lf := 0 }]
        seq := e.g.seq + 1 }))) ∧
    (Issues (.csrw o) s e p → o.ca = .s → csrAccess num = .rw ∨ e.g.shadow.isSome = true → csrwIllegal num v = false →
      posts (.csrw o) [.csr num v]) ∧
    (Issues (.csrw o) s e p → num = 0x01C →
      posts (.csrw o) (e.lanes.map fun t => .lk t (e.g.v.get (o.a.toNat * 32 + t)))) ∧
    (Issues (.time o) s e p → ∃ u, Elapsed (landed s e) u ∧
      let c := (u.island (s.islandOf (coreOf e.gid))).cycle
      Posts (.time o) s e .other 2 [.uni o.dst.toNat (if o.ty = .n32 then c.setWidth 32 |>.setWidth 64 else c)] {})

/-- R208, R299, R370: `trap` completes and raises cause 21 with its number; `brk` completes and raises cause 15 with TRAPVAL 1,
and inside a handler it does nothing. The trap of one that ends its course is taken once the trailer has been compared (R212;
log entry 80, DEDUCED). -/
def Obligations.TrapAndBreak : Prop :=
  ∀ (o : SysOp) (s : State) (e : Env) (p : Bool),
    (Issues (.trap o) s e p → CompletesThenTraps (.trap o) s e .other 21 (o.num.setWidth 64)) ∧
    (Issues (.brk o) s e p → e.g.shadow = none → CompletesThenTraps (.brk o) s e .other 15 1) ∧
    (Issues (.brk o) s e p → e.g.shadow.isSome = true → Completes (.brk o) s e .other (landed s e))

/-! ### Traps, handlers and the issue of instructions -/

/-- R206 to R210, R213: taking a trap. Outside a handler, with a handler entry for the cause, every fixed-latency result
lands, over the marks of its registers (R235), the sweep state goes into the shadow, the trap registers say what happened, and every lane wants the handler's course. A
load that is to arrive in a course temporary keeps its value for the return (log entry 68, DEDUCED: R206 stops only the course).
Cause 2, a cause without an entry, and any cause inside a handler (then cause 22) kill the context. Causes 1 and 18 to 20 never
start the handler and are not taken so (R209): a translation fault parks its group, and the others are `regionEvent`'s. -/
def Obligations.TakingATrap : Prop :=
  ∀ (s : State) (gid : Gid) (g : Group) (t : TrapInfo), s.group gid = some g → t.cause ∉ [1, 18, 19, 20] →
    let u : State := { s with cur := none }
    let h := g.landAll
    let e := s.hbm.readNat (s.htbl g.ctx + 8 * t.cause) 8
    let entry : W32 := BitVec.ofNat 32 (e % 2 ^ 32 / 16 * 16)
    let epc : W32 := t.epc &&& 0xFFFFFFFE
    (g.shadow = none → t.cause ≠ 2 → e.testBit 32 = true → s.takeTrap gid t = (u.clearMarks gid (g.pend.flatMap (·.writes))).putGroup gid { h with
      shadow := some
        { wl := h.wl, lk := h.lk, parked := h.parked, ended := h.ended, waits := h.waits, cursor := h.cursor,
          sweeps := h.sweeps, sigacc := h.sigacc, k := h.k, visit := h.visit.map fun v => { v with lastVec := none },
          epc, pos := t.pos, cause := t.cause, lastTrailer := h.lastTrailer, lastAnchor := h.lastAnchor }
      trapcause := BitVec.ofNat 32 (t.cause + 256 * t.pos), trapaddr := t.addr.setWidth 64, traplanes := t.lanes
      trapval := t.val, epc, wl := lanes.foldl (fun m l => m.set l entry) [], lk := [], parked := 0, ended := 0, waits := []
      k := [], cursor := entry, sweeps := 0, sigacc := 0, visit := none, status := .ready
      await := h.await.map fun a => { a with home := if a.home = .here then .stopped else a.home } }) ∧
    (g.shadow = none → t.cause = 2 ∨ e.testBit 32 = false → s.takeTrap gid t = u.killFor gid g t.cause t.addr t.val) ∧
    (∀ sh, g.shadow = some sh →
      s.takeTrap gid t = u.killFor gid g 22 t.addr (BitVec.ofNat 64 (sh.cause + 65536 * t.cause)))

/-- R213, R216: a killed context loses its teams, groups and queues, every launch of it that had not completed ends as reset with
its SIGEV set, and it keeps the error report; the groups of every other context are as they were. That its queues go with the
packets that had not been admitted is the model's choice (log entry 72). -/
def Obligations.ContextKilled : Prop :=
  ∀ (s : State) (c : Nat) (r : ErrorReport),
    let t := s.killCtx c r
    (∀ e ∈ t.groups, e.2.ctx ≠ c) ∧ (∀ e ∈ t.teams, e.2.ctx ≠ c) ∧ (∀ e ∈ t.queues, e.2.ctx ≠ some c) ∧
    (∀ e ∈ s.groups, e.2.ctx ≠ c → e ∈ t.groups) ∧
    (∀ l x, tfind s.launches l = some x → ∃ y, tfind t.launches l = some y ∧ (x.ctx ≠ c → y = x) ∧
      (x.ctx = c → x.phase ≠ .complete → x.phase ≠ .reset →
        y.phase = .reset ∧ ∀ ev, x.sigev = some ev → ev ∈ (t.ctx c).events)) ∧
    (t.ctx c).live = false ∧ (t.ctx c).running = false ∧ (t.ctx c).error = some r

/-- R208, R211, R308: `eret` restores the shadow, with a `csrw` of LK that was still to land in it. With EPC as it was the group
goes on where it stopped: inside its course, at the end step, or at its census; with EPC changed to a course start the lanes that
were active want that course; a change to anything else is cause 6. Its own cycle has passed before. Where the stopped course does
not go on, a value that was to arrive in its temporaries is lost (log entry 68, DEDUCED). -/
def Obligations.EretReturns : Prop :=
  ∀ (o : SysOp) (s : State) (e : Env) (p : Bool) (sh : Shadow), Issues (.eret o) s e p → e.g.shadow.isSome = true →
    e.g.landAll.shadow = some sh → (Instr.eret o).last = true →
    let g := e.g.landAll
    let back (home : KHome) : Group := { g with
      wl := sh.wl, lk := sh.lk, parked := sh.parked, ended := sh.ended, waits := sh.waits, cursor := sh.cursor
      sweeps := sh.sweeps, sigacc := sh.sigacc, k := sh.k, visit := sh.visit, lastTrailer := sh.lastTrailer
      lastAnchor := sh.lastAnchor, shadow := none, status := .ready
      await := g.await.map fun a => { a with home := if a.home = .stopped then home else a.home } }
    ∃ u, Elapsed ((landed s e).clearMarks e.gid (e.g.pend.flatMap (·.writes))) u ∧
      let put (x : Group) : State := ({ u with cur := none } : State).putGroup e.gid x
      let leaves (t : State) : Prop := exec (.eret o) s = .next t.draw
      (g.epc = sh.epc → sh.pos = 0 →
        leaves (put { back .here with suppress := if sh.cause = 17 then some sh.epc else none })) ∧
      (g.epc = sh.epc → sh.pos = 1 → ∀ v, sh.visit = some v →
        (∀ t, (put (back .lost)).endStep e.gid (back .lost) v = some t → leaves (t.sleepOrCensus e.gid)) ∧
        ((put (back .lost)).endStep e.gid (back .lost) v = none →
          leaves ((put (back .lost)).takeTrap e.gid (endStepFault (back .lost) v)))) ∧
      (g.epc = sh.epc → 2 ≤ sh.pos → leaves ((put (back .lost)).sleepOrCensus e.gid)) ∧
      (g.epc ≠ sh.epc → s.isStart g.ctx g.epc = true → leaves ((put { back .lost with
        wl := (lanesOf ((sh.visit.map (·.active)).getD 0)).foldl (fun w t => w.set t g.epc) sh.wl, visit := none }).census e.gid)) ∧
      (g.epc ≠ sh.epc → s.isStart g.ctx g.epc = false → Traps (.eret o) s e 6 e.v.active (g.epc.setWidth 64))

/-- R28, R65, R107: a fixed-latency result is not visible before its slot and is visible from that slot on, with its flags;
of two results for one register that land in the same slot, the later-issued one stays. Whatever is under way, the results whose
slot has come land in their order, a `csrw` before results of its slot, and change the vector registers, course temporaries,
uniform registers and predicates that they name and no others, the other results staying under way. -/
def Obligations.ResultsLand : Prop :=
  (∀ (l : List Pend) (q : Pend),
    addPend l q = l.takeWhile (fun x => decide (x.key ≤ q.key)) ++ q :: l.dropWhile (fun x => decide (x.key ≤ q.key)) ∧
    q.key = 2 * q.land + if q.csr then 0 else 1) ∧
  (∀ (g : Group) (slot : Nat),
    let here := g.pend.filter fun q => decide (q.land ≤ slot)
    let writes := here.flatMap (·.writes)
    let t := g.land slot
    t.pend = g.pend.filter (fun q => decide (slot < q.land)) ∧
    t.v = writes.foldl (fun m x => match x with
      | .lane false r l y => m.set (r * 32 + l) y
      | _ => m) g.v ∧
    t.k = writes.foldl (fun m x => match x with
      | .lane true r l y => m.set (r * 32 + l) y
      | _ => m) g.k ∧
    t.s = writes.foldl (fun m x => match x with
      | .uni r y => m.set r y
      | _ => m) g.s ∧
    t.p = writes.foldl (fun m x => match x with
      | .pred r mask y => m.set r (m.get r &&& ~~~mask ||| y &&& mask)
      | _ => m) g.p ∧
    (∀ r, r < 8 → t.q.getLsbD r = writes.foldl (fun y x => match x with
      | .upred q z => if q = r then z else y
      | _ => y) (g.q.getLsbD r)) ∧
    ((∀ x ∈ writes, ∀ n y, x ≠ .csr n y) →
      (∀ j, t.fflags.getLsbD j = (g.fflags.getLsbD j || here.any fun q => q.ff.getLsbD j)) ∧
      (∀ j, t.lflags.getLsbD j = (g.lflags.getLsbD j || here.any fun q => q.lf.getLsbD j))) ∧
    t.wl = g.wl ∧ t.parked = g.parked ∧ t.ended = g.ended ∧ t.waits = g.waits ∧ t.visit = g.visit ∧ t.status = g.status ∧
    t.await = g.await ∧ t.stq = g.stq ∧ t.ops = g.ops ∧ t.mfmt = g.mfmt ∧ t.mlay = g.mlay) ∧
  ∀ (e : Env) (latency slot r : Nat) (v : W64) (fl : Fl),
    let g := posted e (result e latency [.uni r v] fl)
    (e.g.pend = [] → slot < e.slot + latency → g.land slot = g) ∧
    (e.g.pend = [] → e.slot + latency ≤ slot → g.land slot =
      { e.g with s := e.g.s.set r v, fflags := e.g.fflags ||| fl.ff, lflags := e.g.lflags ||| fl.lf }) ∧
    (∀ p w, e.g.pend = [p] → p.writes = [.uni r w] → p.land = e.slot + latency → e.slot + latency ≤ slot →
      Sparse.wf e.g.s = true → (g.land slot).s.get r = v)

/-- R29, R52, R58, R103, R106, R108: what an instruction meets before its effect, in this order. An illegal encoding, a
register at or above NREG, a variable-latency destination that the trailer does not name (one that cannot be read names all,
log entry 18, DEDUCED), or a condition of the instruction's own raises the illegal-instruction trap, cause 3, and so do `pfor` and `pend`, which exist only in Galbel code (R96), and a `csrw`
to a trap register outside a handler (R63); in checking mode an earlier result under way raises cause 8, with the writer whose result lands first
in TRAPVAL (log entry 26, the model's choice); with a false uniform
guard the instruction issues and does nothing, also where a register's value (the count of `kick`, the value of `csrw`, the record
of `mfmt`) would be illegal: the model's choice (log entry 31, DEDUCED: R103 and R106 put legality before the guard), as is which
instructions may await a course temporary (log entry 87, DEDUCED). An instruction whose guard holds in some lane and that reads a
poisoned register as a source (an active lane's, or a uniform register) raises cause 20 with TRAPVAL 0 (R235): `rdx`, `shfl`,
`vtos`, `mma` and `mwr`, which choose what they read, look for themselves. In mode 1 of STEPCTL, outside a handler, one whose guard
does not hold, which neither ends its course nor shares its slot with the next, is followed by the single-step trap at position I
(R223), as `nop` is (`NopChangesNothing`). -/
def Obligations.LegalityAndGuards : Prop :=
  ∀ (i : Instr) (s : State) (e : Env) (p : Bool), i.native = true → s.env i (pairable i) = some (e, p) →
    let legal : Prop := i.wf = true ∧ e.g.nregOk i = true ∧ (landed s e).awaitOk e.gid e.g e.v i = true ∧ ownLegal i e
    (¬ legal → Traps i s e 3 0 0) ∧
    (legal → e.launch.check = true → ∀ w, e.g.meets i.names = some w → Traps i s e 8 e.v.active (w.setWidth 64)) ∧
    (legal → (e.launch.check = true → e.g.meets i.names = none) → e.g.pendingName i = none →
      (e.g.guardMask i.guard e.v.active = none →
        (e.g.stepctl ≠ 1 → ∃ cls, Completes i s e cls (landed s e)) ∧
        (e.g.stepctl = 1 → e.g.shadow = none → i.last = false → 0 < i.stall → ∃ cls, CompletesThenSteps i s e cls (landed s e))) ∧
      (∀ m, e.g.guardMask i.guard e.v.active = some m → chosenReads i = false →
        (∃ x ∈ i.names0.reads, (∃ r t, x = .v r ∧ t < 32 ∧ m.getLsbD t = true ∧ .vreg e.gid r t ∈ (landed s e).poison) ∨
          (∃ r, x = .s r ∧ .ureg e.gid r ∈ (landed s e).poison)) →
        exec i s = .next ((landed s e).regionEvent e.gid 20 e.g.regionSeq e.here 0).draw))

/-- R25, R105, R106: a step of a group that holds its pipe's issue turn executes the instruction whose bytes stand at its
position, with the translations that the fetch used cached (R123); the end of its course executes COURSE_BOUNDARY; a word that is
no instruction raises cause 3 or 4, and so does a 25th instruction (cause 5). R268: an instruction at which the translation of a
parallel-for region of more than 1,048,576 logical threads begins raises cause 3 with the count. -/
def Obligations.StepRunsTheDecodedInstruction : Prop :=
  ∀ (s : State) (gid : Gid) (g : Group) (v : Visit), s.agenda = [] → s.cur = some gid → s.powered = true →
    s.group gid = some g → g.status = .running → g.visit = some v →
    (v.ended = true → step s = exec (.courseBoundary gid) s) ∧
    (∀ bs, v.ended = false → s.fetch (coreOf gid) g.ctx v.pos.toNat = .bytes bs →
      (∀ i n, decode bs = .ok (i, n) → v.count ≠ 24 →
        (s.regionOver g v = none → step s = exec i (s.noteFetch (coreOf gid) g.ctx v.pos.toNat bs.length)) ∧
        (∀ x, s.regionOver g v = some x → step s = .next (s.trapAt gid 3 v.pos x))) ∧
      (∀ i n, decode bs = .ok (i, n) → v.count = 24 → step s = .next (s.trapAt gid 5 v.pos 0)) ∧
      (∀ n, decode bs = .error (.illegal n) → step s = .next (s.trapAt gid (if v.count = 24 then 5 else 3) v.pos 0)) ∧
      (decode bs = .error .prefixReserved ∨ decode bs = .error .trailerOpcode → step s = .next (s.trapAt gid 4 v.pos 0)))

/-! ### Encoding -/

/-- R84, R97, R100: every well-formed instruction has an encoding, and decoding it, whatever bytes follow, gives back the
instruction and its length. -/
def Obligations.DecodeInvertsEncode : Prop :=
  ∀ i : Instr, i.native = true → i.wf = true →
    ∃ bs, encode i = some bs ∧ bs.length ∈ [4, 6, 8, 12] ∧ ∀ rest, decode (bs ++ rest) = .ok (i, bs.length)

/-! ### The machine as a whole -/

/-- R11, R117: every step keeps every memory of the state in its canonical form (HBM, the host's, bank memory, the peers', the
namespaces, the teams' scratch, the control programs' and the flash images): addresses rising and no byte listed that reads as
an unlisted one does (the model's own form of a memory; assumption 2). -/
def Obligations.StepKeepsMemories : Prop :=
  ∀ s t : State, Memories s → step s = .next t → Memories t

/-! ### The device's own steps: groups -/

/-- R25, R40, R101, R199, R212, R231, R234: ARBITRATION_TURN gives the pipe to the winner of its turn, which is a ready group
of that pipe; COURSE_BOUNDARY of a course whose trailer is well formed lands every result, checks the signature, takes the trap
of a `brk` or `trap` that ended the course (log entry 80, DEDUCED), and else moves the lanes that want nothing else to the next
course and runs the census; before the census it takes the event of a matrix operation that waits, and then the single-step
trap, cause 16 at position C, where STEPCTL asks for it (R223). An event of causes 18 to 20 counts once in its lifetime counter
(a checksum fault was counted before), and rolls its group back inside the open region while it has rolled back less than three
times: the steps of its `mloop`s and its hod requests are cancelled; elsewhere it kills the context, inside a handler as a double
fault. IDEMPOTENT_ROLLBACK, once the group's operations have retired, restores the region's entry state. R41 to R43, R47, R49, R222, R309: the census of a group none of whose `.ne` reads is
due, and in which no error strikes (R231), releases the lanes whose condition holds and those of every complete rejoin; it then
runs the course of the lowest wanted label at or above the cursor, or wraps to the lowest and counts a sweep, for exactly the
lanes that want it; or the group retires, takes the rejoin deadlock (cause 10), or sleeps. It takes 1 cycle or 2, and 2 more for a
skip or 6 for a wrap. -/
def Obligations.CourseTurns : Prop :=
  (∀ (s : State) (gid : Gid) (x : Group) (freed : LaneMask) (u : State), s.group gid = some x → Upset.census gid ∉ s.upsets →
    (∀ l va value ia due holds faulted, (l, WaitRec.ne va value ia due holds faulted) ∈ x.waits →
      faulted.isSome = true ∨ ∃ d, due = some d ∧ s.timeref < d) →
    let holds (w : WaitRec) : Prop := match w with
      | .time d => d ≤ s.timeref
      | .bar off => x.objectQueued off = false ∧ s.objectCount x.team off = 0
      | .ne _ _ _ _ h _ => h = true
      | .rejoin _ _ => False
    let released (l : Nat) : Prop := l < 32 ∧ ∃ w, (l, w) ∈ x.waits ∧ holds w
    let waits (a : W32) (l : Nat) : Prop := ¬ released l ∧ ∃ k, (l, WaitRec.rejoin a k) ∈ x.waits
    let needs (a : W32) (u : Nat) : Prop :=
      x.ended.getLsbD u = false ∧ ∃ l k, (l, WaitRec.rejoin a k) ∈ x.waits ∧ ¬ released l ∧ (u = l ∨ k.getLsbD u = true)
    (∀ l, l < 32 → (freed.getLsbD l = true ↔ released l ∨ ∃ a, waits a l ∧ ∀ u, u < 32 → needs a u → waits a u)) →
    let sees : Prop := ∃ l va value ia due h faulted, released l ∧ (l, WaitRec.ne va value ia due h faulted) ∈ x.waits
    let here : State := { s with cur := if s.cur = some gid then none else s.cur }
    (sees → u = here.invalidateL1 (coreOf gid)) → (¬ sees → u = here) →
    let y : Group := { x with parked := x.parked &&& ~~~freed, waits := x.waits.filter fun e => !freed.getLsbD e.1 }
    let may (l : Nat) : Prop := l < 32 ∧ y.parked.getLsbD l = false ∧ x.ended.getLsbD l = false
    let core := coreOf gid
    let pipe := pipeOf gid
    let census : State := u.spend core pipe [] (s.passes core pipe)
    Elapsed u census ∧
    (∀ (c : W32) (wraps : Bool) (mask : LaneMask),
      (∃ l, may l ∧ x.wl.get l = c) →
      (wraps = false → x.cursor ≤ c ∧ ∀ l, may l → x.cursor ≤ x.wl.get l → c ≤ x.wl.get l) →
      (wraps = true → ∀ l, may l → x.wl.get l < x.cursor ∧ c ≤ x.wl.get l) →
      (∀ l, l < 32 → (mask.getLsbD l = true ↔ may l ∧ x.wl.get l = c)) →
      let t := census.spend core pipe [] (if wraps then 6 else if c = x.cursor then 0 else 2)
      let z : State := t.putGroup gid { y with
        sweeps := if wraps then x.sweeps + 1 else x.sweeps
        cursor := c, k := [], sigacc := 0xFFFF, visit := some (newVisit c mask x.regionSeq), status := .ready }
      mask ≠ 0 ∧ Elapsed census t ∧ s.census gid =
        if x.bpaddr.getLsbD 0 = true ∧ x.bpaddr &&& 0xFFFFFFF0 = c ∧ x.shadow = none
        then z.takeTrap gid { cause := 15, addr := c, val := 0, lanes := mask, epc := c, pos := 0 } else z) ∧
    ((∀ l, ¬ may l) →
      (x.ended = 0xFFFFFFFF → x.pendingTrap = none → s.census gid = (((census.putGroup gid { y with
        status := .retired, visit := none, regionl := x.regionl &&& 0xFFFFFFF0 }).barCheck x.team).cbarCheck x.team)) ∧
      (∀ cause addr val r, x.ended = 0xFFFFFFFF → x.pendingTrap = some (cause, addr, val, r) →
        s.census gid = (if cause = 20 then census.count 1070 32 else census).killFor gid y cause addr val) ∧
      (x.ended ≠ 0xFFFFFFFF →
        let all : Prop := ∀ l, l < 32 → x.ended.getLsbD l = false → ∃ a k, tfind y.waits l = some (.rejoin a k)
        (¬ all → s.census gid = census.putGroup gid { y with status := .asleep, visit := none }) ∧
        (∀ l a k, lowest (~~~x.ended) = some l → all → tfind y.waits l = some (.rejoin a k) → s.census gid =
          (census.putGroup gid y).takeTrap gid { cause := 10, addr := a, val := 0, lanes := ~~~x.ended
                                                 epc := (x.visit.map (·.start)).getD x.cursor, pos := 2 })))) ∧
  (∀ (core pipe : Nat) (s : State) (gid : Gid) (round served : List Nat), pipe < 2 → s.pipeRunning core pipe = false →
    s.winner core pipe = some (gid, round, served) →
    coreOf gid = core ∧ pipeOf gid = pipe ∧ s.groupReady gid = true ∧ gid ∈ served ∧
    ∀ g v, s.group gid = some g → g.visit = some v → g.stepDue = false →
      exec (.arbitrationTurn core pipe) s = .next { (s.modCore core fun c => { c with
          rr := c.rr.set pipe ((gid + 1) % 16), due := c.due.set pipe round, served := c.served.set pipe served
        }).putGroup gid { g with status := .running } with cur := some gid, freeCtr := s.freeCtr + 1 }) ∧
  (∀ (s : State) (gid : Gid) (x : Group) (v : Visit) (bs : List Byte) (t : Trailer),
    s.group gid = some x → x.status = .running → x.visit = some v → v.ended = true → x.awaitedK = none →
    s.fetch (coreOf gid) x.ctx v.pos.toNat = .bytes bs → decodeTrailer bs = some t →
    let y := ({ x with lastTrailer := v.pos, lastAnchor := some v.region } : Group).landAll
    let put (z : Group) : State :=
      ((s.noteFetch (coreOf gid) x.ctx v.pos.toNat bs.length).clearMarks gid (x.pend.flatMap (·.writes))).putGroup gid z
    let next := nextCourse v.pos.toNat
    let moved := (lanesOf (v.active &&& ~~~v.wanted)).filter fun l => y.wl.get l == v.start
    (t.chk = true → y.sigacc ≠ t.sig → exec (.courseBoundary gid) s =
      .next ((put y).regionEvent gid 18 v.region v.pos (BitVec.ofNat 64 (y.sigacc.toNat + 65536 * t.sig.toNat))).draw) ∧
    (∀ cause val, (t.chk = true → y.sigacc = t.sig) → v.raised = some (cause, val) → exec (.courseBoundary gid) s =
      .next ((put { y with visit := some { v with raised := none } }).takeTrap gid
        { cause, addr := v.lastPc, val, lanes := v.active, epc := v.pos, pos := 1 }).draw) ∧
    ((t.chk = true → y.sigacc = t.sig) → v.raised = none → moved ≠ [] → (put y).isStart y.ctx next = false →
      exec (.courseBoundary gid) s = .next ((put y).takeTrap gid
        { cause := 6, addr := v.pos, val := next.setWidth 64, lanes := maskOf moved, epc := v.pos, pos := 1 }).draw) ∧
    ((t.chk = true → y.sigacc = t.sig) → v.raised = none → (moved = [] ∨ (put y).isStart y.ctx next = true) →
      let after : Group := { y with wl := moved.foldl (fun m l => m.set l next) y.wl, cursor := next }
      (∀ cause addr val anchor, y.pendingTrap = some (cause, addr, val, anchor) → exec (.courseBoundary gid) s =
        .next ((put { after with pendingTrap := none }).regionEvent gid cause anchor addr val).draw) ∧
      (y.pendingTrap = none → y.stepctl ≠ 0 → y.shadow = none → exec (.courseBoundary gid) s = .next ((put after).takeTrap gid
        { cause := 16, addr := v.lastPc, val := 0, lanes := v.active, epc := v.start, pos := 2 }).draw)) ∧
    ((t.chk = true → y.sigacc = t.sig) → v.raised = none → (moved = [] ∨ (put y).isStart y.ctx next = true) → y.pendingTrap = none →
      (y.stepctl = 0 ∨ y.shadow.isSome = true) → y.wake ≤ s.timeref →
      exec (.courseBoundary gid) s =
        .next ((put { y with wl := moved.foldl (fun m l => m.set l next) y.wl, cursor := next }).census gid).draw)) ∧
  (∀ (s : State) (gid : Gid) (x : Group) (cause anchor : Nat) (addr : W32) (val : W64), s.group gid = some x →
    18 ≤ cause → cause ≤ 20 →
    let t := s.regionEvent gid cause anchor addr val
    let inside : Prop := x.regionl.getLsbD 0 = true ∧ anchor = x.regionSeq
    ∃ u, Elapsed ({ s with cur := none } : State) u ∧ u.timeref = s.timeref ∧ u.islands = s.islands ∧
      (∀ k, (u.mgmt.live.get k).toNat = (s.mgmt.live.get k).toNat +
        if (cause = 18 ∧ k = 1068 ∨ cause = 20 ∧ k = 1070) ∧ (s.mgmt.live.get k).toNat + 1 < 2 ^ 32 then 1 else 0) ∧
      (∀ sh, x.shadow = some sh → t = u.killFor gid x 22 addr (BitVec.ofNat 64 (sh.cause + 65536 * cause))) ∧
      (x.shadow = none → ¬ inside ∨ 3 ≤ x.rollbacks → t = u.killFor gid x cause addr val) ∧
      (x.shadow = none → inside → x.rollbacks < 3 → ∃ y, t.group gid = some y ∧ t.cur = none ∧ t.hbm = s.hbm ∧ t.bank = s.bank ∧
        t.mgmt.live = u.mgmt.live ∧ y.status = .rolling ∧ y.visit = none ∧ y.rollbacks = x.rollbacks ∧ y.regionl = x.regionl ∧
        y.ops = x.ops.filter (fun o => o.cls != .matrix && o.cls != .hod) ∧ y.pendingTrap = x.pendingTrap ∧
        y.v = x.landAll.v ∧ y.s = x.landAll.s ∧ y.p = x.landAll.p ∧ y.q = x.landAll.q ∧
        (t.team x.team).hod = (s.team x.team).hod.filter (fun k => k.gid != gid) ∧
        ∀ o ∈ (t.team x.team).engine, o ∈ (s.team x.team).engine ∧
          ∀ seq ia tile w la lb next total fa fb sa sb region,
            o ≠ .steps gid seq ia tile w la lb next total false fa fb sa sb region)) ∧
  (∀ (s : State) (gid : Gid) (x : Group), s.group gid = some x → x.status = .rolling → x.ops = [] → x.await = [] →
    let entry : W32 := x.regionl &&& 0xFFFFFFF0
    exec (.idempotentRollback gid) s = .next ((s.putGroup gid { x with
      wl := lanes.foldl (fun w t => w.set t entry) [], lk := x.entrylk, ended := x.entrydone, parked := 0, waits := []
      sigacc := 0xFFFF, rollbacks := x.rollbacks + 1, visit := none, status := .ready }).census gid).draw)

/-- R29, R126, R134 to R137, R143, R290, R349: VALUE_ARRIVAL of a load of bank memory or scratch, or of a volatile load, with no
older store of the core in its way, writes each lane the little-endian bytes at its address; of a plain `ld` or `sld` each byte is
the youngest older one in the group's queue, and else the one that the core's line or, with no line, the core's stores on their
way or the home hold (a held line that differs from them may have been dropped, log entry 12); `atom` and `cas` act on their lanes
in ascending order, each on what the lower lanes left, and give each lane the value before its own, and `red` acts so with no
result. What `add`, `min`, `max`, `and`, `or`, `xor` and `swap` leave is spelled (R290), which is also the value of `atom`, `red` and
a peer's atomic elsewhere. An acquiring load reads at home and leaves the core's L1 empty at cluster scope and wider, and at group and team scope
reads the core's line or else the home. A releasing store leaves its queue once the stores that its scope orders have been
performed (R138). STORE_PERFORM takes the oldest store out of its queue, into the team's own scratch or on its way, and a store on its way
to HBM or bank memory that no earlier one has to precede is performed there. That a store moves in these two steps, and that a
load or atomic is performed and arrives whole in one, is the model's choice (log entries 9 and 10). -/
def Obligations.ArrivalsAndStores : Prop :=
  (∀ (ty : ETy) (x c : Nat), ty ∈ [.i32, .n32, .b64] → let w := if ty = .b64 then 64 else 32
    x < 2 ^ w → c < 2 ^ w →
    let num (y : Nat) : Int := if ty = .n32 then y else (BitVec.ofNat w y).toInt
    let new (op : Nat) : Nat := atomNew op ty x c
    new 0 = (x + c) % 2 ^ w ∧ new 1 ∈ [x, c] ∧ num (new 1) = min (num x) (num c) ∧ new 2 ∈ [x, c] ∧ num (new 2) = max (num x) (num c) ∧
    ∀ j, (new 3).testBit j = (x.testBit j && c.testBit j) ∧ (new 4).testBit j = (x.testBit j || c.testBit j) ∧
      (new 5).testBit j = xor (x.testBit j) (c.testBit j)) ∧
  (∀ (x c : Nat),
    (∀ ty, ty ∈ [.i32, .n32, .f32, .b64] → atomNew 6 ty x c = c) ∧
    atomNew 0 .f32 x c = (fadd1 fmt32 0 false x c).1 ∧ atomNew 1 .f32 x c = (fmin1 fmt32 false x c).1 ∧
    atomNew 2 .f32 x c = (fmax1 fmt32 false x c).1 ∧
    ((fmt32.decode x).isNan = true ∨ (fmt32.decode c).isNan = true → ∀ op, op < 3 → atomNew op .f32 x c = 0x7FC00000) ∧
    ∀ k, k < 2 → elem 16 (atomNew 0 .bf16x2 x c) k = (fadd1 fmtBf 0 false (elem 16 x k) (elem 16 c k)).1) ∧
  (atomNew 1 .f32 0 0x80000000 = 0x80000000 ∧ atomNew 1 .f32 0x80000000 0 = 0x80000000 ∧
    atomNew 2 .f32 0 0x80000000 = 0 ∧ atomNew 2 .f32 0x80000000 0 = 0) ∧
  (∀ (s : State) (gid : Gid) (x : Group) (a : Await), s.group gid = some x → x.await = [a] → a.val = none → a.home = .here →
    x.status ≠ .retired → s.poison = [] →
    let core := s.core (coreOf gid)
    let alike (t : State) : Prop := t.hbm = s.hbm ∧ t.host = s.host ∧ t.bank = s.bank ∧ t.peers = s.peers
    let gets (t : State) (g : Group) (ws : List RegWrite) : Prop :=
      t.group gid = some (({ ws.foldl Group.write g with await := [] } : Group).raiseFlags 0 a.lf 0)
    (∀ vol size sext accs k dst, a.req = .load vol none size sext accs k dst → x.stq = [] → core.flight = [] →
      s.portsOpen (accs.map (·.place)) = true → vol = true ∨ (∀ c ∈ accs, c.place.cached = false) →
      ∃ t, exec (.valueArrival gid 0 .deliver) s = .next t ∧ alike t ∧
        gets t x (accs.flatMap fun c => laneWrites k dst c.lane size sext (s.readAt c.place c.addr size))) ∧
    (∀ sc size sext accs k dst, a.req = .load false (some sc) size sext accs k dst → x.stq = [] → core.flight = [] →
      s.portsOpen (accs.map (·.place)) = true → ∃ t, exec (.valueArrival gid 0 .deliver) s = .next t ∧ alike t ∧
        (sc ∈ [.clu, .dev, .sys] → (t.core (coreOf gid)).l1 = [] ∧
          gets t x (accs.flatMap fun c => laneWrites k dst c.lane size sext (s.readAt c.place c.addr size))) ∧
        (sc ∈ [.grp, .team] → gets t x (accs.flatMap fun c => laneWrites k dst c.lane size sext
          (natOfBytes ((List.range size).map fun i => match core.line c.place (c.addr + i) with
            | some l => l.bytes.getD ((c.addr + i) % 128) 0
            | none => s.readByte c.place (c.addr + i)))))) ∧
    (∀ size sext accs (writes : (Access → Nat) → List RegWrite),
      (∃ k dst, a.req = .load false none size sext accs k dst ∧
          writes = fun value => accs.flatMap fun c => laneWrites k dst c.lane size sext (value c)) ∨
        (∃ acc dst, accs = [acc] ∧ a.req = .sload size sext acc dst ∧
          writes = fun value => [.uni dst (extend sext (8 * size) (value acc))]) →
      (∀ c ∈ accs, c.place.cached = true) → s.portsOpen (accs.map (·.place)) = true →
      let value (below : Place → Nat → Byte) (c : Access) : Nat := natOfBytes ((List.range size).map fun i =>
        (queued x.stq a.seq c.place (c.addr + i)).getD (below c.place (c.addr + i)))
      (core.l1 = [] → ∃ t, exec (.valueArrival gid 0 .deliver) s = .next t ∧ alike t ∧
        gets t x (writes (value (s.coreByte gid)))) ∧
      (∀ c l, accs = [c] → c.addr % 128 + size ≤ 128 → core.line c.place c.addr = some l →
        ∃ t, exec (.valueArrival gid 0 .deliver) s = .next t ∧ alike t ∧
          (gets t x (writes (value fun _ b => l.bytes.getD (b % 128) 0)) ∨ gets t x (writes (value (s.coreByte gid)))))) ∧
    (∀ size accs (act : Access → Nat → Option Nat) (result : Option (Bool × Nat)),
      (∃ op ty sc ord k dst, a.req = .atom op ty size sc ord accs k dst ∧ result = some (k, dst) ∧
          act = fun c y => some (atomNew op.toNat ty y c.operand.toNat)) ∨
        (∃ sc ord k dst, a.req = .cas size sc ord accs k dst ∧ result = some (k, dst) ∧
          act = fun c y => if y = c.operand.toNat then some c.operand2.toNat else none) ∨
        (∃ op ty sc ord, a.req = .red op ty size sc ord accs ∧ result = none ∧
          act = fun c y => some (atomNew op.toNat ty y c.operand.toNat)) →
      x.stq = [] → core.flight = [] → (∀ o ∈ x.ops, a.seq ≤ o.seq) → s.portsOpen (accs.map (·.place)) = true →
      let run : State × List (Nat × Nat) := accs.foldl (fun r c =>
        let y := r.1.readAt c.place c.addr size
        ((match act c y with
          | some z => r.1.mergeBytesAt (storeBytes c.place c.addr (bytesOf z size))
          | none => r.1), r.2 ++ [(c.lane, y)])) (s, [])
      ∃ t, exec (.valueArrival gid 0 .deliver) s = .next t ∧
        t.hbm = run.1.hbm ∧ t.host = run.1.host ∧ t.bank = run.1.bank ∧ t.peers = run.1.peers ∧
        match result with
        | some (k, dst) => gets t (x.finish a.seq) (run.2.flatMap fun y => laneWrites k dst y.1 size false y.2)
        | none => t.group gid = some { (if accs.any fun c => c.place.remote then x else x.finish a.seq) with await := [] })) ∧
  (∀ (s : State) (gid : Gid) (x : Group) (e : StEntry) (rest : List StEntry), s.group gid = some x → x.await = [] →
    x.stq = e :: rest → e.rel = none →
    let u := s.putGroup gid { x with stq := rest }
    ((∀ b ∈ e.bytes, b.place = .scratch x.team) →
      exec (.storePerform gid .leave) s = .next (u.writeBytesAt e.bytes).draw) ∧
    (e.bytes ≠ [] → (∀ b ∈ e.bytes, b.place.isScratchOf x.team = false) → (s.core (coreOf gid)).l1 = [] → s.poison = [] →
      exec (.storePerform gid .leave) s =
        .next (u.modCore (coreOf gid) fun c => { c with flight := c.flight ++ [e] }).draw)) ∧
  (∀ (s : State) (gid : Gid) (x y : Group) (e : StEntry) (rest : List StEntry) (sc : Scope), s.group gid = some x → x.await = [] →
    x.stq = e :: rest → e.rel = some sc → (∀ f ∈ rest, e.seq ≤ f.seq) →
    let r := s.reachWhere (coreOf gid) (releases gid sc)
    r.group gid = some y →
    let complete : Prop := (∀ f ∈ (r.core (coreOf gid)).flight, releases gid sc f = false) ∧
      (sc = .sys → ∀ o ∈ y.ops, o.cls = .remote → o.seq < e.seq → o.finished = true)
    let u := r.putGroup gid { y with stq := rest }
    (¬ complete → exec (.storePerform gid .leave) s = .next r.draw) ∧
    (complete → (∀ b ∈ e.bytes, b.place = .scratch x.team) →
      exec (.storePerform gid .leave) s = .next (u.writeBytesAt e.bytes).draw) ∧
    (complete → e.bytes ≠ [] → (∀ b ∈ e.bytes, b.place.isScratchOf x.team = false) → (s.core (coreOf gid)).l1 = [] → s.poison = [] →
      exec (.storePerform gid .leave) s =
        .next (u.modCore (coreOf gid) fun c => { c with flight := c.flight ++ [e] }).draw) ∧
    (∀ f, releases gid sc f = true ↔ sc ∈ [.clu, .dev, .sys] ∨
      sc = .team ∧ f.gid = gid ∧ ∃ b ∈ f.bytes, b.place.cached = false ∧ b.place.remote = false)) ∧
  (∀ (s : State) (gid : Gid) (i : Nat) (e : StEntry), (s.core (coreOf gid)).flight[i]? = some e → e.gid = gid → s.poison = [] →
    (∀ f ∈ (s.core (coreOf gid)).flight.take i, f.meets e.spots = false ∧ (f.vol = false ∨ e.vol = false ∨ f.gid ≠ gid)) →
    (∀ b ∈ e.bytes, b.place = .hbm ∨ b.place = .bank) →
    ∃ l2, exec (.storePerform gid (.reach i)) s = .next ({ (((s.modCore (coreOf gid) fun c =>
      { c with flight := c.flight.eraseIdx i }).writeBytesAt e.bytes).modGroup gid fun g => g.finish e.seq) with
        l2 := l2 } : State).draw)

/-- R48, R49, R185, R363: PARK_CONDITION_WAKE of a sleeping group one of whose conditions holds runs its census; SLEEP_WAKE
does so once the wake time has come; PARK_NE_READ makes a read that is due, 64 ticks before the next, where no older access of
its group is outstanding; LATE_COPY_TRAP of a `waitb` past its promise is the wait's own trap: cause 11, with the count. That one
read serves every lane with an equal record is log entry 78, and that the census of a waking group costs its cycles again entry
79 (both the model's choice). -/
def Obligations.SleepersWake : Prop :=
  (∀ (s : State) (gid : Gid) (x : Group) (lane : Nat) (w : WaitRec), s.group gid = some x → x.status = .asleep →
    (lane, w) ∈ x.waits →
    (match w with
      | .time t => t ≤ s.timeref
      | .bar off => x.objectQueued off = false ∧ s.objectCount x.team off = 0
      | .ne _ _ _ _ holds _ => holds = true
      | .rejoin _ _ => False) →
    exec (.parkConditionWake gid) s = .next (s.census gid).draw) ∧
  (∀ (s : State) (gid : Gid) (x : Group), s.group gid = some x → x.status = .napping → x.wake ≤ s.timeref →
    exec (.sleepWake gid) s = .next (s.census gid).draw) ∧
  (∀ (s : State) (gid : Gid) (x : Group) (lane : Nat) (va : W64) (value ia : W32) (due : W64) (holds : Bool) (p : Place) (a : Nat),
    s.group gid = some x → tfind x.waits lane = some (.ne va value ia (some due) holds none) → due ≤ s.timeref →
    x.await = [] → x.stq = [] → (s.core (coreOf gid)).flight = [] →
    s.translate (coreOf gid) x.ctx .load (va &&& ~~~3#64) = .ok p a → s.portsOpen [p] = true →
    let same := lanesOf (maskOf ((x.waits.filter fun e => e.2 == .ne va value ia (some due) holds none).map (·.1)))
    let now : WaitRec := .ne va value ia (some (s.timeref + 64)) (s.readAt p a 4 != value.toNat) none
    ∃ tlb cores links, exec (.parkNeRead gid lane) s =
      .next (((({ s with tlb := tlb, cores := cores, links := links } : State).modGroup gid fun y =>
        { y with waits := same.foldl (fun ws l => tput ws l now) y.waits }).wakeParked gid).draw)) ∧
  (∀ (s : State) (x : Group) (v : Visit) (o : POp) (e : Env) (p : Bool),
    let held : State := { s with cur := some e.gid }
    Issues (.waitb o) held e p → s.group e.gid = some x → x.status = .running → x.visit = some v →
    s.instrAt (coreOf e.gid) x.ctx v.pos = some (.waitb o) → o.ty = .b64 →
    e.g.s.get o.a.toNat = x.s.get o.a.toNat → e.g.s.get o.b.toNat = x.s.get o.b.toNat →
    let off := (x.s.get o.a.toNat).toNat % 2 ^ 20 / 8 * 8
    let spots : List (Place × Nat) := (List.range 8).map fun i => (.scratch e.g.team, off + i)
    let u := (landed held e).leaveBytes e.gid e.g.seq spots
    x.s.get o.b.toNat < s.timeref → x.s.get o.b.toNat < u.timeref → off < e.team.scratchSize → s.objectCount x.team off ≠ 0 →
    u.queuedBytes e.gid spots = false → u.objectCount e.g.team off ≠ 0 →
    exec (.lateCopyTrap e.gid) s = .next (u.takeTrap e.gid
      { cause := 11, addr := e.here, val := BitVec.ofNat 64 (u.objectCount e.g.team off), lanes := 0, epc := e.here, pos := 0 }).draw)

/-! ### The device's own steps: faults and translation -/

/-- R125, R213, R252, R253: FAULT_RECORD_WRITE puts a waiting record into the free slot at FBHEAD; FBREPLY answers it, the
group issuing again after a replay and its context killed after a kill; a write of FBBASE or FBSIZE sets FBHEAD to 0. The
TLBINV commands queue a request while fewer than 16 are pending, and otherwise set OVF and are dropped; a request that
completes leaves no cached translation that it names, and the last one raises the interrupt. That a reply itself clears VALID is
log entry 49 (R253 leaves it to Vilaz), and that the oldest request completes first is entry 50 (both DEDUCED). -/
def Obligations.FaultsAndInvalidations : Prop :=
  (∀ (s : State) (gid : Gid) (x : Group), s.group gid = some x → x.status = .faulted none → s.ctrl.fbsize ≠ 0 →
    (s.hbm.get (s.ctrl.fbbase.toNat + 32 * s.ctrl.fbhead.toNat + 31)).getLsbD 7 = false →
    exec (.faultRecordWrite gid) s = .next (((({ s with
      hbm := s.hbm.writeNat (s.ctrl.fbbase.toNat + 32 * s.ctrl.fbhead.toNat) x.faultWord.toNat 32
      faults := tput s.faults s.ctrl.fbhead.toNat (.group gid) } : State).modCtrl fun c =>
        { c with fbhead := BitVec.ofNat 64 ((c.fbhead.toNat + 1) % c.fbsize.toNat) }).interrupt 1).putGroup gid { x with status := .faulted (some s.ctrl.fbhead.toNat) })) ∧
  (∀ (s : State) (slot : Nat) (gid : Gid) (x : Group), tfind s.faults slot = some (.group gid) → s.group gid = some x →
    let byte := s.ctrl.fbbase.toNat + 32 * slot + 31
    let answered : State := { s with faults := s.faults.filter fun e => e.1 != slot }
    (x.status = .faulted (some slot) → (s.ctx x.ctx).allocs = [] → exec (.fbreplyReplay slot) s = .next
      { answered.putGroup gid { x with status := .ready } with hbm := s.hbm.set byte (s.hbm.get byte &&& 0x7F) }) ∧
    exec (.fbreplyKill slot) s = .next ((answered.killFor gid x 2
      (BitVec.ofNat 32 (s.hbm.readNat (s.ctrl.fbbase.toNat + 32 * slot + 12) 4))
      (BitVec.ofNat 64 (s.hbm.readNat (s.ctrl.fbbase.toNat + 32 * slot) 8))).freeSlot slot)) ∧
  (∀ (s : State) (v : W64),
    exec (.faultBufferConfigure true v) s = .next { s with ctrl := { s.ctrl with fbsize := v &&& 0x1FFFF, fbhead := 0 } } ∧
    exec (.faultBufferConfigure false v) s =
      .next { s with ctrl := { s.ctrl with fbbase := v &&& 0x0000FFFFFFFFFFE0, fbhead := 0 } }) ∧
  (∀ (s : State) (ctx vpn : Nat), ctx < 64 → vpn < 2 ^ 36 →
     let queued (w : Nat) : Host.Outcome State Fault Refusal :=
       if s.ctrl.tlbreqs.length < 16
       then .next { s with ctrl := { s.ctrl with tlbreqs := s.ctrl.tlbreqs ++ [BitVec.ofNat 64 w] } }
       else .next { s with ctrl := { s.ctrl with tlbovf := true } }
     exec (.tlbinvContext ctx) s = queued (1 + 256 * ctx) ∧
     exec (.tlbinvPage ctx vpn) s = queued (2 + 256 * ctx + 65536 * vpn) ∧
     exec .tlbinvAll s = queued 3 ∧
     ∀ w rest, s.ctrl.tlbreqs = w :: rest →
       let done (keep : TlbEntry → Bool) : Host.Outcome State Fault Refusal :=
         let t := ({ s with tlb := s.tlb.filter keep } : State).modCtrl fun c => { c with tlbreqs := rest }
         .next (if rest = [] then t.interrupt 2 else t)
       (w = BitVec.ofNat 64 (1 + 256 * ctx) → exec .tlbInvalidationComplete s = done fun e => e.ctx != ctx) ∧
       (w = BitVec.ofNat 64 (2 + 256 * ctx + 65536 * vpn) → exec .tlbInvalidationComplete s =
         done fun e => !(e.ctx == ctx && decide (e.vpn ≤ vpn) && decide (vpn < e.vpn + e.pages))) ∧
       (w = 3#64 → exec .tlbInvalidationComplete s = done fun _ => false))

/-! ### The device's own steps: engines and links -/

/-- R159, R160, R163 to R165, R168 to R171, R173: MATRIX_STEP on the team whose turn it is gives every element of the tile the sum
of its step's update, from an `mma`'s captured fragments or from those that an `mloop`'s address generator reads and leaves in its
windows; its flags and bank conflicts are added as it retires, the checksum counts its rows compared and skipped (no error has
struck), and the last step retires the operation; then the tile accesses behind it are performed. The values: an element of LN8 or
LN4 adds the exact sum of its products, scaled, in one rounding, and one of LN16 the pairwise tree of its sixteen; the address of a
row, the offsets of the scales, the rows compared, and the bank conflicts of a port (R152, R154, R155, R162). That a NaR code
counts as minus zero in LN16 products is log entry 29 (DEDUCED), and that the checksum looks at the scales of LN16 alone entry 85
(DESIGN CHOICE). FORMAT_EMULATION of a faulted `mma` or `mloop`, once no step of its tile is
left, lets the group resume behind it. -/
def Obligations.MatrixStepAndEmulation : Prop :=
  (∀ (ty : ETy), ty ∈ logTypes → ∀ (acc : Nat) (ab : List (Nat × Nat)) (scale : Option (Nat × Nat)), acc < 2 ^ 32 →
    (∀ x ∈ ab, x.1 < 2 ^ ty.width ∧ x.2 < 2 ^ ty.width) → (∀ x, scale = some x → x.1 < 2 ^ 16 ∧ x.2 < 2 ^ 16) →
    let nar := 2 ^ (ty.width - 1)
    let steps : Int := if ty = .ln16x2 then 1 else if ty = .ln8x4 then 16 else 64
    let excess : Int := if ty = .ln16x2 then 16384 else if ty = .ln8x4 then 64 else 4
    let negative (half a b : Nat) : Bool := xor (decide (half ≤ a)) (decide (half ≤ b))
    let exponent (a b : Nat) : Int := ((a % nar : Nat) + (b % nar : Nat) - 2 * excess) * steps
    let scaleExponent : Int := match scale with
      | none => 0
      | some x => (x.1 % 2 ^ 15 : Nat) + (x.2 % 2 ^ 15 : Nat) - 32768
    let scaleNegative : Bool := match scale with
      | none => false
      | some x => negative (2 ^ 15) x.1 x.2
    let scaleZero : Prop := ∃ x, scale = some x ∧ (x.1 = 0 ∨ x.2 = 0)
    let bad : Prop := (∃ x ∈ ab, x.1 = nar ∨ x.2 = nar) ∨ ∃ x, scale = some x ∧ (x.1 = 2 ^ 15 ∨ x.2 = 2 ^ 15)
    let r := stepElem ty acc ab scale
    (ty ≠ .ln16x2 →
      let units : Int := (ab.map fun x => if x.1 = 0 ∨ x.2 = 0 then 0 else
        let (m, i) := logToLinear (exponent x.1 x.2)
        (if negative nar x.1 x.2 then -1 else 1) * m * 2 ^ (i + 24).toNat).sum
      (bad → r = (0x7FC00000, { lf := flINV })) ∧
      (¬ bad → ∀ (v e : Int),
        (scale = none → v = units ∧ e = -40) → (scaleZero → v = 0 ∧ e = -40) →
        (scale ≠ none → ¬ scaleZero → let (m, i) := logToLinear scaleExponent
          v = (if scaleNegative then -units else units) * m ∧ e = i - 56) →
        (∀ sig, fmt32.decode acc = .nan sig → r = (0x7FC00000, { ff := if sig then flNV else 0 })) ∧
        (∀ neg, fmt32.decode acc = .inf neg → r = (fmt32.inf neg, {})) ∧
        (∀ neg n q, fmt32.decode acc = .fin neg n q →
          let low := min q e
          let total : Int := (if neg then -1 else 1) * n * 2 ^ (q - low).toNat + v * 2 ^ (e - low).toNat
          let y := ftzResult true (if total = 0 then (0, 0) else fmt32.round 0 (total < 0) total.natAbs low)
          r = (y.1, { ff := y.2 })))) ∧
    (ty = .ln16x2 → ab.length = 16 →
      let add (x y : Nat) : Nat × W32 := ftzResult true (fadd1 fmt32 0 false x y)
      ∀ (p0 p1 p2 p3 p4 : Nat → Nat × W32),
        (∀ k, k < 16 → ∀ a b, ab[k]? = some (a, b) →
          let neg := xor (negative nar a b) scaleNegative
          let (m, i) := logToLinear (exponent a b + scaleExponent)
          (a = 0 ∨ b = 0 ∨ scaleZero → p0 k = (0, 0)) ∧
          (¬ (a = 0 ∨ b = 0 ∨ scaleZero) →
            p0 k = if 128 ≤ i then (fmt32.inf neg, flOF) else if i < -126 then (fmt32.zero neg, flUF) else fmt32.round 0 neg m (i - 16))) →
        (∀ k, p1 k = add (p0 (2 * k)).1 (p0 (2 * k + 1)).1) → (∀ k, p2 k = add (p1 (2 * k)).1 (p1 (2 * k + 1)).1) →
        (∀ k, p3 k = add (p2 (2 * k)).1 (p2 (2 * k + 1)).1) → (∀ k, p4 k = add (p3 (2 * k)).1 (p3 (2 * k + 1)).1) →
        let raised (j : Nat) : Bool := ((List.range 16).any fun k => (p0 k).2.getLsbD j) || ((List.range 8).any fun k => (p1 k).2.getLsbD j) ||
          ((List.range 4).any fun k => (p2 k).2.getLsbD j) || ((List.range 2).any fun k => (p3 k).2.getLsbD j) || (p4 0).2.getLsbD j
        (bad → r.1 = 0x7FC00000 ∧ r.2.lf = flINV ∧ ∀ j, r.2.ff.getLsbD j = raised j) ∧
        (¬ bad → r.1 = (add acc (p4 0).1).1 ∧ r.2.lf = 0 ∧ ∀ j, r.2.ff.getLsbD j = (raised j || (add acc (p4 0).1).2.getLsbD j)))) ∧
  (∀ (w0 w1 w : W64) (vd i q : Nat),
    let n (x : W64) (lo len : Nat) : Nat := (x.extractLsb' lo len).toNat
    let z (x : W64) (lo : Nat) : Int := (x.extractLsb' lo 18).toInt
    let e0 := 2 ^ n w0 8 3
    let e2 := n w1 4 12 + 1
    let e3 := n w1 16 12 + 1
    rowAddr (w0, w1, vd) i q = 8 * ((n w0 11 17 : Nat) + (q % e0 : Nat) * z w0 28 + (q / e0 : Nat) * z w0 46 +
      (i % e2 : Nat) * z w1 28 + (i / e2 % e3 : Nat) * z w1 46) ∧
    let block := i * (if fmtFA w = 0 then 16 else if fmtFA w = 1 then 32 else 64) / (16 * 2 ^ fmtBLK w)
    (fmtBLK w ≠ 0 → scaleOffsets w i = (fmtASB w + 128 * block, fmtBSB w + 128 * block))) ∧
  (∀ (l : W64 × W64 × Nat) (i : Nat) (most : Nat → Nat),
    let words (c : Nat) : List Nat :=
      ((List.range 16).flatMap fun r => (List.range 4).map fun j => (rowAddr l i (16 * c + r)).toNat / 8 + j).eraseDups
    let load (c b : Nat) : Nat := ((words c).filter fun x => x % 64 == b).length
    (∀ c, c < 4 → (∃ b, b < 64 ∧ load c b = most c) ∧ ∀ b, b < 64 → load c b ≤ most c) →
    portConflicts l i = (most 0 - 1) + (most 1 - 1) + (most 2 - 1) + (most 3 - 1)) ∧
  (∀ (ty : ETy), ty ∈ logTypes → ∀ (a : List Nat) (bs : List (List Nat)) (sa : Option Nat) (sbs : List W16),
    let nar := 2 ^ (ty.width - 1)
    let exponent (x : Nat) : Int := (x % nar : Nat) - 16384
    rowCompared ty a bs sa sbs = true ↔ ∀ (n : Nat) (b : List Nat), bs[n]? = some b → ∀ (k x y : Nat), a[k]? = some x → b[k]? = some y →
      x ≠ nar ∧ y ≠ nar ∧ (ty = .ln16x2 → x ≠ 0 → y ≠ 0 →
        (sa = none → -24 ≤ (logToLinear (exponent x + exponent y)).2 ∧ (logToLinear (exponent x + exponent y)).2 ≤ 24) ∧
        ∀ p, sa = some p → let q := (sbs.getD n 0).toNat
          p ≠ 2 ^ 15 ∧ q ≠ 2 ^ 15 ∧ (p = 0 ∨ q = 0 ∨
            let e := (logToLinear (exponent x + exponent y + ((p % 2 ^ 15 : Nat) + (q % 2 ^ 15 : Nat) - 32768))).2
            e ≤ 24 ∧ -24 ≤ e))) ∧
  (∀ (s : State) (team : Nat) (t : Team) (gid : Gid) (seq : Nat) (ia : W32) (tile : Nat) (w : W64) (la lb : W64 × W64 × Nat)
      (next total : Nat) (one : Bool) (fa fb : List W32) (sa sb : List W16) (region : Nat) (before after : List EngineOp),
    tfind s.teams team = some t → t.residence ≠ .saved → s.poison = [] → (∀ r, Upset.checksum team r ∉ s.upsets) → tile < 8 →
    t.engine = before ++ .steps gid seq ia tile w la lb next total one fa fb sa sb region :: after → (∀ o ∈ before, o.tile ≠ tile) →
    s.engineTurn t.core = some team → tile ∈ t.readyTiles →
    let word (a : Nat) : W32 := BitVec.ofNat 32 (s.readAt (.scratch team) a 4)
    let frag (l : W64 × W64 × Nat) : List W32 := (List.range 64).flatMap fun q =>
      (List.range 8).map fun x => word ((rowAddr l next q).toNat + 4 * x)
    let scales (off : Nat) : List W16 := (List.range 64).map fun m => BitVec.ofNat 16 (s.readAt (.scratch team) (off + 2 * m) 2)
    let xa := if one then fa else frag la
    let xb := if one then fb else frag lb
    let ya := if fmtBLK w = 0 ∨ one = true then sa else scales (scaleOffsets w next).1
    let yb := if fmtBLK w = 0 ∨ one = true then sb else scales (scaleOffsets w next).2
    let row (f : List W32) (m : Nat) : List Nat := rowCodes (fmtTy w) f m
    let element (m n : Nat) : Nat × Fl := stepElem (fmtTy w)
      (if next = 0 ∧ fmtACC w = false then 0 else (t.tiles.get (tile * 4096 + 64 * m + n)).toNat) ((row xa m).zip (row xb n))
      (if fmtBLK w = 0 then none else some ((ya.getD m 0).toNat, (yb.getD n 0).toNat))
    let cmp := ((List.range 64).filter fun m => rowCompared (fmtTy w) (row xa m) ((List.range 64).map (row xb))
      (if fmtBLK w ≠ 0 ∧ fmtTy w = .ln16x2 then some (ya.getD m 0).toNat else none) yb).length
    let done := total ≤ next + 1
    ∃ (vals : List W32) (fl : Fl) (u : State), vals.length = 4096 ∧
      (∀ m n, m < 64 → n < 64 → vals[64 * m + n]? = some (BitVec.ofNat 32 (element m n).1)) ∧
      (∀ j, fl.ff.getLsbD j = (List.range 64).any fun m => (List.range 64).any fun n => (element m n).2.ff.getLsbD j) ∧
      (∀ j, fl.lf.getLsbD j = (List.range 64).any fun m => (List.range 64).any fun n => (element m n).2.lf.getLsbD j) ∧
      exec (.matrixStep team tile) s = .next (u.settle team tile).draw ∧
      Elapsed (((s.modTeam team fun t => { t.putTile tile vals with
          engine := before ++ (if done then after else
            .steps gid seq ia tile w la lb (next + 1) total one [] [] [] [] region :: after) }).modGroup gid fun g =>
        let h := g.raiseFlags fl.ff fl.lf (if one then 0 else portConflicts la next + portConflicts lb next)
        let h := if one then h else (h.writeWindow la.2.2 xa).writeWindow lb.2.2 xb
        if done then h.finish seq else h).modCore t.core fun c => { c with
          engineTeam := team
          chkcmp := if fmtCHK w then saturate c.chkcmp cmp else c.chkcmp
          chkskip := if fmtCHK w then saturate c.chkskip (64 - cmp) else c.chkskip }) u) ∧
  (∀ (s : State) (gid : Gid) (x : Group) (v : Visit) (o : POp) (i : Instr), s.group gid = some x → x.status = .emulating →
    x.visit = some v → i = .mma o ∨ i = .mloop o → s.instrAt (coreOf gid) x.ctx v.pos = some i →
    (∀ op ∈ (s.team x.team).engine, op.tile ≠ o.dst.toNat) →
    ∃ t y, exec (.formatEmulation gid) s = .next t ∧ t.group gid = some y ∧ y.status = .ready ∧
      y.visit.map (·.pos) = some (v.pos + BitVec.ofNat 32 i.len) ∧ (i = .mma o → y.v = x.v) ∧ y.k = x.k ∧ y.p = x.p ∧
      y.s = x.s ∧ y.q = x.q ∧ y.stepDue = (decide (x.stepctl = 1) && x.shadow.isNone && !i.last) ∧
      t.hbm = s.hbm ∧ t.host = s.host ∧ t.bank = s.bank)

/-- R130, R145, R176, R180, R184, R187, R188, R208: HOD_DESTINATION_WRITE copies one row of a request to its destinations and
counts its bytes down in each; BANK_OPERATION_PERFORM computes its words, by the table of operations and types, and retires; REMOTE_ACKNOWLEDGE and PUT_ERROR_RESPONSE
end the oldest remote operation, the second keeping the address of the put that was discarded, or raising the access violation
where the group waits on the remote class. One row, and one whole bank operation, in a step is the model's choice (log entry
14), and so is which put a second error names (log entry 83). -/
def Obligations.OperationsComplete : Prop :=
  (∀ (d x c : Nat), d < 2 ^ 32 → x < 2 ^ 32 → c < 2 ^ 32 →
    let num (y : Nat) : Int := (BitVec.ofNat 32 y).toInt
    let halves (op : Nat) (f : Nat → Nat → Nat → Nat) : Prop := ∀ k, k < 2 →
      elem 16 (bankElem op .bf16x2 d x c) k = f (elem 16 d k) (elem 16 x k) (elem 16 c k)
    (∀ ty, ty ∈ [.i32, .f32, .bf16x2] → bankElem 0 ty d x c = x ∧ bankElem 1 ty d x c = c) ∧
    (bankElem 2 .i32 d x c = (d + x) % 2 ^ 32 ∧ bankElem 3 .i32 d x c ∈ [d, x] ∧
      num (bankElem 3 .i32 d x c) = max (num d) (num x) ∧ bankElem 4 .i32 d x c = (d + c * x) % 2 ^ 32) ∧
    (bankElem 2 .f32 d x c = (fadd1 fmt32 0 false d x).1 ∧ bankElem 3 .f32 d x c = (fmax1 fmt32 false d x).1 ∧
      bankElem 4 .f32 d x c = (ffma1 fmt32 0 false c x d).1) ∧
    (halves 2 (fun d x _ => (fadd1 fmtBf 0 false d x).1) ∧ halves 3 (fun d x _ => (fmax1 fmtBf false d x).1) ∧
      halves 4 fun d x c => (ffma1 fmtBf 0 false c x d).1) ∧
    ((fmt32.decode d).isNan = true ∨ (fmt32.decode x).isNan = true →
      bankElem 2 .f32 d x c = 0x7FC00000 ∧ bankElem 3 .f32 d x c = 0x7FC00000 ∧ bankElem 4 .f32 d x c = 0x7FC00000)) ∧
  (bankElem 3 .f32 0 0x80000000 0 = 0 ∧ bankElem 3 .f32 0x80000000 0 0 = 0) ∧
  (∀ (s : State) (gid : Gid) (x : Group) (kick req row : Nat) (k : Kick) (r : HodReq) (bs : List Byte),
    s.group gid = some x → (s.team x.team).hod[kick]? = some k → k.gid = gid → k.reqs[req]? = some r → r.fault = none →
    row ∈ r.rows → s.poison = [] → (∀ d ∈ r.dests, (s.team d).area = none) →
    s.readRow (coreOf gid) x.ctx r.record row = .bytes (bs.map fun b => (b, false)) →
    let u := r.dests.foldl (fun u d =>
      let u := u.writeBytesAt (storeBytes (.scratch d) (recDest r.record row) bs)
      if recNOBAR r.record then u else u.countObject d (recBOFF r.record) (recROWLEN r.record))
      (s.noteRow (coreOf gid) x.ctx r.record row)
    exec (.hodDestinationWrite gid kick req row) s = .next ((u.modReq x.team kick req fun y =>
      { y with rows := y.rows.filter (· != row) }).retireKicks x.team)) ∧
  (∀ (s : State) (gid : Gid) (x : Group) (b : BankOp) (rest : List BankOp), s.group gid = some x →
    (s.team x.team).bank = b :: rest → b.gid = gid → s.poison = [] →
    exec (.bankOperationPerform gid) s = .next (({ s.modTeam x.team fun t => { t with bank := rest } with
      bank := Memory.writeBytes s.bank b.dst ((List.range b.n).flatMap fun i => bytesOf (bankElem b.op b.ty
        (natOfBytes (Memory.readBytes s.bank (b.dst + 4 * i) 4)) (natOfBytes (Memory.readBytes s.bank (b.src + 4 * i) 4))
        b.scalar.toNat) 4) } : State).modGroup gid fun g => g.finish b.seq)) ∧
  (∀ (s : State) (gid : Gid) (x : Group) (o : OpRec), s.group gid = some x → x.ops = [o] → o.cls = .remote →
    o.finished = false → x.stq = [] → (s.core (coreOf gid)).flight = [] → x.await = [] →
    exec (.remoteAcknowledge gid) s = .next (s.putGroup gid ({ x with ops := [] } : Group).wakeWaitc) ∧
    ∀ i va, o.puts[i]? = some va →
      ((∀ n, x.status ≠ .stopped (.waitc .remote n)) → x.putErr = none → exec (.putErrorResponse ⟨gid, i⟩) s =
        .next (s.putGroup gid { ({ x with ops := [] } : Group).wakeWaitc with putErr := some va })) ∧
      (∀ n, x.status = .stopped (.waitc .remote n) →
        let here := (x.visit.map (·.lastPc)).getD 0
        exec (.putErrorResponse ⟨gid, i⟩) s =
          .next (s.takeTrap gid { cause := 2, addr := here, val := va, lanes := 0, epc := here, pos := 0 })))

/-- R6, R129 to R131, R219, R236: flits fill the receive reserve of 1,024, which pauses the sender below one quarter free, and
the injector of the link counts them; pause and resume flits stop and start the sender; a peer's request is carried out at its
home, and a put in the scratch of a live team, or in the bounce ring of a saved one; INJCFG arms an injector, which acts for its
Nth flit. A request waits for a paused port to start the data of its response. A paused port starts at most 64 more flits, and none after the 76.8 ticks of 64 flit times. That a request waits for the flits of
its data, 256 bytes each, and goes whole, is log entry 54, the team that a put names entry 55, an atomic that leaves a poison mark
entry 36 (all DEDUCED), the ring's order of bytes entry 39, and that received flits alone are counted entry 90. -/
def Obligations.LinkTraffic : Prop :=
  (∀ (s : State) (port : Nat), s.portUp port = true →
    let l := s.link port
    let n := l.injcfg.toNat % 2 ^ 32
    let nth : Prop := s.ctrl.featacc.getLsbD 7 = true ∧ l.armed = true ∧ n ≠ 0 ∧ l.flits + 1 = n
    let counted : Link := { l with
      reserve := l.reserve + 1
      flits := if nth then 0 else l.flits + 1
      due := if nth then l.due + 1 else l.due
      armed := if nth then l.injcfg.getLsbD 60 else l.armed }
    (l.reserve < 1024 → exec (.flitReceive port) s = .next
      (if 768 < l.reserve + 1 ∧ l.pausing = false
       then (s.modLink port fun _ => { counted with pausing := true }).send (.pause port)
       else s.modLink port fun _ => counted)) ∧
    exec (.pauseFlitReceive port) s = .next (s.modLink port fun x => { x with
      paused := true, stopIn := 64, stopAt := s.timeref + 77 }) ∧
    exec (.resumeFlitReceive port) s = .next (s.modLink port fun x => { x with paused := false, stopIn := 0, stopAt := 0 }) ∧
    (∀ n, s.portTakes port n = true ↔ l.paused = false ∨ n ≤ l.stopIn ∧ s.timeref < l.stopAt) ∧
    (s.confined = false → l.lateUntil ≤ s.timeref →
      let flits (bs : List Byte) : Nat := max 1 ((bs.length + 255) / 256)
      let done (i : Instr) (k : Nat) (t : State) : Prop := k ≤ l.reserve → exec i s = .next (t.leaveReserve port k)
      -- what answers with r flits of data: at once, as one of the last flits of a paused port, or not yet
      let answers (i : Instr) (r : Nat) (t : State → State) : Prop := 1 ≤ l.reserve →
        (l.paused = false → exec i s = .next ((t s).leaveReserve port 1)) ∧
        (l.paused = true → r ≤ l.stopIn ∧ s.timeref < l.stopAt →
          exec i s = .next ((t (s.modLink port fun x => { x with stopIn := l.stopIn - r })).leaveReserve port 1)) ∧
        (l.paused = true → ¬ (r ≤ l.stopIn ∧ s.timeref < l.stopAt) → exec i s = .next s)
      (∀ dev a n, a + n ≤ 640 * 2 ^ 30 → answers (.peerRequest port dev (.read a n)) (max 1 ((n + 255) / 256)) fun u =>
        u.send (.data port (s.readBytesAt .hbm a n))) ∧
      (∀ dev a bs, a + bs.length ≤ 640 * 2 ^ 30 →
        done (.peerRequest port dev (.write a bs)) (flits bs) ((s.writeBytesAt (storeBytes .hbm a bs)).send (.ack port))) ∧
      (∀ dev op ty a c, let n := if ty = .b64 then 8 else 4
        a + n ≤ 640 * 2 ^ 30 → answers (.peerRequest port dev (.atom op ty a c)) 1 fun u =>
          (u.mergeBytesAt (storeBytes .hbm a (bytesOf (atomNew op.toNat ty (s.readAt .hbm a n) c.toNat) n))).send
            (.data port (bytesOf (s.readAt .hbm a n) n))) ∧
      (∀ dev a n cmp new, a + n ≤ 640 * 2 ^ 30 → answers (.peerRequest port dev (.cas a n cmp new)) 1 fun u =>
        (if s.readAt .hbm a n = cmp.toNat % 2 ^ (8 * n)
          then u.mergeBytesAt (storeBytes .hbm a (bytesOf new.toNat n)) else u).send
            (.data port (bytesOf (s.readAt .hbm a n) n))) ∧
      (∀ phys bs key t, s.putTarget phys = some (key, t) → putOff phys < t.scratchSize →
        putOff phys + bs.length ≤ t.scratchSize →
        (t.residence ≠ .saved → done (.putReceive port phys bs) (flits bs)
          ((s.writeBytesAt (storeBytes (.scratch key) (putOff phys) bs)).send (.ack port))) ∧
        (let flit := (s.ctx t.ctx).bounceNext
         let size := s.bounceSize t.ctx / 256
         t.residence = .saved → s.bounceUsed t.ctx + flits bs ≤ size → done (.putReceive port phys bs) (flits bs)
          (((s.writeBytesAt (bs.zipIdx.map fun b => ⟨.hbm, s.ringByte t.ctx flit b.2, b.1⟩)).modCtx t.ctx fun c => { c with
            bounce := c.bounce ++ [⟨key, putOff phys, flit, bs.length⟩]
            bounceNext := (flit + flits bs) % size }).send (.ack port)))) ∧
      (∀ phys bs, s.putTarget phys = none → done (.putReceive port phys bs) (flits bs) (s.send (.putError port))))) ∧
  (∀ (s : State) (link : Nat) (v : W64), link < 26 →
    exec (.injcfgWrite link v) s = .next (s.modLink link fun l => { l with
      injcfg := v &&& 0xFE3FFFFFFFFFFFFF
      armed := v.getLsbD 63 && (v.extractLsb' 61 2).toNat != 3
      flits := 0
      due := 0 }) ∧
    let l := s.link link
    let mode := (l.injcfg.extractLsb' 61 2).toNat
    (l.due = 0 → exec (.linkInjection link) s = .next s) ∧
    (0 < l.due → mode < 2 → exec (.linkInjection link) s = .next (s.modLink link fun x => { x with
      due := l.due - 1, injected := l.injected + 1, retransmits := l.retransmits + 1 })) ∧
    (0 < l.due → 2 < mode → exec (.linkInjection link) s = .next (s.modLink link fun x => { x with
      due := l.due - 1, injected := l.injected + 1 })) ∧
    (0 < l.due → mode = 2 → ∃ late, exec (.linkInjection link) s = .next (s.modLink link fun x => { x with
      due := l.due - 1, injected := l.injected + 1, lateUntil := late })))

/-! ### The device's own steps: barriers, queues and teams -/

/-- R203, R204, R319: GBAR_RELEASE, once every group has arrived, drains a deterministic launch, queues its islands and moves
the pointer; ISLAND_RESUME lets the next island go while fewer than four have resumed in 64 ticks; DETERMINISTIC_DRAIN of a
launch whose teams have all been freed applies its reductions in the order of the sort keys, a permutation of the entries. -/
def Obligations.BarriersAndDrains : Prop :=
  (∀ (s : State) (l : Nat), (s.launchOf l).gbarArr ≠ [] → s.gridGroups l ≤ (s.launchOf l).gbarArr.length →
    s.portsOpen ((s.launchOf l).red.map (·.place)) = true →
    let u := if 1 ≤ (s.launchOf l).det then s.drain l else s
    exec (.gbarRelease l) s = .next
      { u.modLaunch l fun x => { x with gbarArr := [] } with
        resumeQ := u.resumeQ ++ (islandOrder u.gbarPtr (u.waitingIslands l)).map fun k => (l, k)
        gbarPtr := (u.gbarPtr + 1) % 24
        teams := u.teams.map fun t => if t.2.launch == l then (t.1, t.2.releaseSaved .gbar) else t }) ∧
  (∀ (s : State) (l k : Nat) (rest : List (Nat × Nat)), s.resumeQ = (l, k) :: rest → s.releasedOn l k ≠ [] →
    let recent := s.resumed.filter fun t => s.timeref < t + 64
    (recent.length < 4 →
      exec .islandResume s = .next { s.resumeIsland l k with resumeQ := rest, resumed := s.timeref :: recent }) ∧
    (4 ≤ recent.length → exec .islandResume s = .next s)) ∧
  (∀ (s : State) (l : Nat) (x : Launch), tfind s.launches l = some x → x.grid ≤ x.freed →
    s.portsOpen (x.red.map (·.place)) = true → ∃ es : List RedEntry, es.Perm x.red ∧ es.Pairwise (fun a b => keyLe a.key b.key = true) ∧
      exec (.deterministicDrain l) s = .next ((es.foldl State.applyRed s).modLaunch l fun y => { y with red := [] }))

/-- R36, R192 to R198, R261, R265: the packet at the head of a queue that no head of higher priority blocks. WAITEV leaves once its
events are set; SIGNAL, after every earlier LAUNCH has completed, sets or clears its event; SETDET sets the queue's level; a LAUNCH
that meets a check is rejected with the reason, and one that meets none, and is not co-operative, is admitted with its figures
fixed; a reserved TYPE is rejected for reason 8. R36: a co-operative LAUNCH blocks, holding nothing, until every one of its teams
fits at once; then, in its queue's turn, it is admitted and they all start. -/
def Obligations.QueuePackets : Prop :=
  ∀ (s : State) (q ctx : Nat) (p : BitVec 512) (rest : List (BitVec 512)),
    (s.queue q).ctx = some ctx → (s.queue q).packets = p :: rest →
    (∀ r, r < 16 → s.headPrio q < s.headPrio r → s.headState r ≠ .blocks) →
    let popped (u : State) : State := u.modQueue q fun x => { x with packets := rest }
    (pktTYPE p = 1 → pktReserved p = false → (∀ e ∈ pktWaits p, e ∈ (s.ctx ctx).events) →
      exec (.waitev q) s = .next (popped s)) ∧
    (pktTYPE p = 2 → pktReserved p = false →
      (∀ e ∈ s.launches, e.2.queue = q → e.2.ctx = ctx → e.2.phase = .complete ∨ e.2.phase = .reset) →
      (∀ ev, packetSigev p = some ev → p.getLsbD 8 = false → exec (.signal q) s = .next (popped (s.setEvent ctx ev))) ∧
      (∀ ev, packetSigev p = some ev → p.getLsbD 8 = true → exec (.signal q) s =
        .next (popped (s.modCtx ctx fun c => { c with events := c.events.filter (· != ev) }))) ∧
      (packetSigev p = none → exec (.signal q) s = .next (popped s))) ∧
    (pktTYPE p = 3 → pktReserved p = false →
      exec (.setdet q) s = .next (s.modQueue q fun x => { x with packets := rest, level := pktDET p })) ∧
    (4 ≤ pktTYPE p → exec (.launch q) s = .next
      ((((s.setSigev ctx (packetSigev p)).modQueue q fun x => { x with packets := rest, reason := 8 }).interrupt 4).msi (4 + q))) ∧
    (pktTYPE p = 0 → s.placing q = none → s.ctrl.featWritten = true → (s.ctx ctx).preempted = false →
      (∀ e ∈ pktWaits p, e ∈ (s.ctx ctx).events) →
      (∀ code, s.rejection ctx q (s.queue q) p = some code → exec (.launch q) s = .next
        ((((s.setSigev ctx (packetSigev p)).modQueue q fun x => { x with packets := rest, reason := code }).interrupt 4).msi
          (4 + q))) ∧
      (∀ o k, s.rejection ctx q (s.queue q) p = none → s.current ctx (pktOBJ p) = some o → o.kernel (pktENTRY p) = some k →
        pktCOOP p = false → ∃ t x, exec (.launch q) s = .next t ∧ tfind t.launches s.nextLaunch = some x ∧
          t.nextLaunch = s.nextLaunch + 1 ∧ x.phase = .placing ∧ x.ctx = ctx ∧ x.queue = q ∧ x.args = pktARGS p ∧
          x.grid = pktTX p * pktTY p * pktTZ p ∧ x.groups = kernTEAM k ∧
          x.entry = BitVec.ofNat 32 (o.heapoff + kernENTRY k) ∧
          x.nreg = (if pktNREG p = 0 then kernNREG k else pktNREG p) ∧
          x.det = max (max (kernDET k) (pktDET p)) (s.queue q).level ∧ t.queues = s.queues ∧ t.groups = s.groups) ∧
      (∀ o k, s.rejection ctx q (s.queue q) p = none → s.current ctx (pktOBJ p) = some o → o.kernel (pktENTRY p) = some k →
        pktCOOP p = true → s.descValid ctx = true →
        ∃ y : Launch, s.asked ctx q p = some y ∧ y.coop = true ∧ y.ctx = ctx ∧ y.queue = q ∧ y.phase = .placing ∧ y.nextTeam = 0 ∧
          y.grid = pktTX p * pktTY p * pktTZ p ∧ y.groups = kernTEAM k ∧ y.args = pktARGS p ∧
          (s.coopFits .now y = false → s.headState q = .blocks ∧ exec (.launch q) s = .next s) ∧
          (s.coopFits .now y = true → ∃ cores : List Nat, cores.length = y.grid ∧ s.headState q = .begins y cores ∧
            (s.chosenQueue [3, 2, 1, 0] ≠ some q → exec (.launch q) s = .next s) ∧
            (s.chosenQueue [3, 2, 1, 0] = some q → ∃ (u : State) (x : Launch), exec (.launch q) s = .next (u.startTeams s.nextLaunch cores) ∧
              tfind u.launches s.nextLaunch = some x ∧ (∃ b, x = { y with bound := b }) ∧ u.nextLaunch = s.nextLaunch + 1 ∧
              u.teams = s.teams ∧ u.groups = s.groups ∧ u.queues = s.queues))))

/-- R34, R36, R41, R196, R198, R217, R220: TEAM_PLACE restores a saved team first (log entry 48, DEDUCED: R220 gives no order), and
otherwise serves, of the highest priority that can place and that no higher one blocks, the queue next in turn: its next team or
cluster starts (a cluster whole: log entry 41, DEDUCED), or every team of its co-operative launch; a group starts with its
identity, its arguments and every lane wanting the entry; TEAM_FREE frees a team that is done; LAUNCH_COMPLETE ends a launch whose
teams are all freed and sets its event. -/
def Obligations.TeamsAndLaunches : Prop :=
  (∀ (s : State) (ts : List (Nat × Team × Nat)), s.nextRestore = some ts → exec .teamPlace s = .next s.restoreStep.draw) ∧
  (∀ (s : State) (q : Nat), s.nextRestore = none → q < 16 →
    let prio := s.headPrio q
    let rank (r : Nat) : Nat := (r + 15 * (tget s.lastServed prio 15 + 1)) % 16
    let acts (r : Nat) : Prop := (∃ l cores, s.headState r = .place l cores) ∨ ∃ x cores, s.headState r = .begins x cores
    let t : State := { s with lastServed := tput s.lastServed prio q }
    (∀ r, r < 16 → acts r → s.headPrio r < prio ∨ s.headPrio r = prio ∧ rank q ≤ rank r) →
    (∀ r, r < 16 → s.headState r = .blocks → s.headPrio r ≤ prio) →
    (∀ l cores, s.headState q = .place l cores → exec .teamPlace s = .next (t.startTeams l cores).draw) ∧
    (∀ x cores, s.headState q = .begins x cores →
      exec .teamPlace s = .next ((t.admitLaunch x).startTeams s.nextLaunch cores).draw)) ∧
  (∀ (x : Launch) (team teamix groupix : Nat) (dbg : W64) (t : Nat), t < 32 →
    let g := startGroup x team teamix groupix dbg
    g.v.get t = BitVec.ofNat 32 (groupix * 32 + t) ∧ g.wl.get t = x.entry ∧ g.cursor = x.entry ∧ g.s.get 0 = x.args ∧
    g.s.get 1 = BitVec.ofNat 64 teamix ∧ g.s.get 2 = BitVec.ofNat 64 x.grid ∧ g.s.get 3 = BitVec.ofNat 64 groupix ∧
    g.ended = 0 ∧ g.parked = 0 ∧ g.nreg = x.nreg ∧ g.visit = none) ∧
  (∀ (s : State) (key : Nat) (t : Team) (x : Launch), tfind s.teams key = some t → s.teamDone key t = true →
    (∀ e ∈ t.slots, ∀ g, s.group e.2 = some g → g.putErr = none) →
    (t.member = true → (s.windowAccesses key).windowBusy key = false) → tfind s.launches t.launch = some x →
    ∃ u, exec (.teamFree key) s = .next u ∧ tfind u.teams key = none ∧ (∀ e ∈ t.slots, u.group e.2 = none) ∧
      tfind u.launches t.launch = some { x with freed := x.freed + 1 }) ∧
  (∀ (s : State) (l : Nat) (x : Launch), tfind s.launches l = some x → x.phase = .running → x.grid ≤ x.freed → x.red = [] →
    ∃ t y, exec (.launchComplete l) s = .next t ∧ tfind t.launches l = some y ∧ y.phase = .complete ∧
      ∀ e, x.sigev = some e → e ∈ (t.ctx x.ctx).events)

/-- R167, R214 to R221, R254: PREEMPT starts a drain or a restore unless one is in progress; the drain's expiry begins the
seize, or the reset where SEIZE is not accepted; the seize's expiry resets a context with a team left. A team whose groups and
operations have settled is saved into a save area of its context's region, keeps its slots, and leaves the cores: that its
contents stand in the model's own record beside the area is assumption 15 (DESIGN CHOICE), and the order in which teams are
restored assumption 48 (DEDUCED). -/
def Obligations.Preemption : Prop :=
  (∀ (s : State) (v : W64), s.ctrl.preState ≠ 1 → s.ctrl.preState ≠ 2 →
    let ctx := v.toNat % 64
    (v.getLsbD 8 = true → v.getLsbD 9 = false → s.hasTeams ctx = true → s.ctrl.tdrain ≠ 0 →
      exec (.preemptDrain v) s = .next (((s.modCtx ctx fun c => { c with preempted := true, restoring := false }).modCtrl fun c =>
        { c with preState := 1, preCtx := ctx, preReset := false, preDeadline := s.timeref + c.tdrain }).interrupt 3)) ∧
    (v.getLsbD 8 = false → v.getLsbD 9 = true → exec (.preemptRestore v) s = .next
      ((((s.modCtx ctx fun c => { c with restoring := true }).modCtrl fun c =>
        { c with preState := 0, preCtx := ctx, preRestored := false, restoreCtx := ctx }).interrupt 3).restoreStep.restoreCheck ctx)) ∧
    (v.getLsbD 8 = v.getLsbD 9 → exec (.preemptDrain v) s = .next s ∧ exec (.preemptRestore v) s = .next s)) ∧
  (∀ (s : State) (v : W64), s.ctrl.preState = 1 ∨ s.ctrl.preState = 2 →
    exec (.preemptDrain v) s = .next s ∧ exec (.preemptRestore v) s = .next s) ∧
  (∀ (s : State), s.hasTeams s.ctrl.preCtx = true → s.ctrl.preDeadline ≤ s.timeref →
    (s.ctrl.preState = 1 → s.ctrl.featacc.getLsbD 3 = true → exec .seizeBegin s = .next
      (((({ s with teams := s.teams.map fun e => (e.1, if e.2.ctx = s.ctrl.preCtx ∧ e.2.residence = .resident
          then { e.2 with residence := .saving } else e.2) } : State).modCtx s.ctrl.preCtx fun c =>
            { c with preempted := true }).modCtrl fun c =>
        { c with preState := 2, preDeadline := s.timeref + c.tseize }).interrupt 3)) ∧
    (s.ctrl.preState = 1 → s.ctrl.featacc.getLsbD 3 = false →
      exec .seizeBegin s = .next (s.forcedReset s.ctrl.preCtx)) ∧
    (s.ctrl.preState = 2 → exec .seizeDeadline s = .next (s.forcedReset s.ctrl.preCtx))) ∧
  (∀ (s : State) (key : Nat) (t y : Team), tfind s.teams key = some t → t.residence = .saving →
    (∀ e ∈ t.slots, s.savable e.2 = true) →
    let u := t.slots.foldl (fun s e => s.settleGroup e.2) s
    let image := y.slots.filterMap fun e => (u.group e.2).map fun g =>
      (e.1, g.saved (decide (y.teamix * 32 + e.1 ∉ (u.launchOf y.launch).gbarArr)))
    let size := (saveLayout y image).2.2.2
    ∀ base, tfind u.teams key = some y → u.unsettled y = false → u.areaAt y.ctx size = some base →
      ∃ v z, exec (.teamSaveComplete key) s = .next v ∧ tfind v.teams key = some z ∧ z.residence = .saved ∧ z.saved = image ∧
        z.slots = [] ∧ z.oldSlots = y.slots ∧ z.area.map (fun a => (a.base, a.size)) = some (base, size) ∧
        ∀ e ∈ y.slots, v.group e.2 = none)

/-! ### The device's own steps: registers, clocks, marks and power -/

/-- R236, R239, R248 to R254, R275 to R277: a clock step takes effect at once and a change of ratio stops the clock for 2,100
ticks; the registers of the control space and of BAR0 hold what is written to their fields, an offset that is not listed or
not aligned ignores it, the control space ignores an access of another width than 64 bits, and FEATACC accepts its first write
alone; BAR2 reaches HBM; the MSI-X capability's masks, table and control hold what is written, and a vector that is pending is sent
with its address and data when it is unmasked. That the step takes effect at once (R239 says within 64 ticks) is log entry 51 (DEDUCED), and that a
masked vector is sent at its unmasking entry 53 (PRESUMED). A 32-bit request of BAR0 writes its half of the register and leaves the other half (assumption 93,
DEDUCED); a device that serves its management port alone is left out (R246, assumption 92). -/
def Obligations.ClocksAndRegisters : Prop :=
  (∀ (s : State) (k ratio step : Nat), k < 24 → s.hot.contains (k / 6) = false →
    let i := s.island k
    (i.ratio < 3 → step < stepCount i.ratio → ∃ t, exec (.clockStepChange k step) s = .next t ∧ Elapsed s t ∧
      (t.island k).stepIdx = step ∧ (t.island k).ratio = i.ratio ∧ ∀ j, j ≠ k → t.island j = s.island j) ∧
    (ratio < 3 → step < stepCount ratio → i.ratio ≠ ratio → ∃ t, exec (.clockRatioChange k ratio step) s = .next t ∧
      Elapsed s t ∧ (t.island k).ratio = ratio ∧ (t.island k).stepIdx = step ∧ (t.island k).settling = 2100 ∧
      ∀ j, j ≠ k → t.island j = s.island j) ∧
    (i.settling ≠ 0 → i.settling ≤ (s.timeref - i.tick).toNat → ∃ t, exec (.ratioSettleEnd k) s = .next t ∧
      Elapsed s t ∧ (t.island k).settling = 0 ∧ (t.island k).ratio = i.ratio)) ∧
  (∀ (s : State) (v : W64) (off core link : Nat), core < 256 → link < 18 →
    let control (off : Nat) (t : State) : Prop := exec (.registerWrite .control off ⟨8, v⟩) s = .next t
    let bar0 (off n : Nat) (t : State) : Prop := s.confined = false → exec (.registerWrite .bar0 off ⟨n, v⟩) s = .next t
    control 0x000 (s.modCtrl fun c => { c with ctxtbl := v &&& 0x0000FFFFFFFFF000 }) ∧
    control 0x048 (s.modCtrl fun c => { c with tdrain := v }) ∧
    control 0x050 (s.modCtrl fun c => { c with tseize := v }) ∧
    control (0x1008 + 64 * link) (s.modLink link fun l => { l with injmask := v }) ∧
    control (0x100000 + 0x1000 * core) (s.modCore core fun c => { c with chkcmp := v }) ∧
    control (0x100008 + 0x1000 * core) (s.modCore core fun c => { c with chkskip := v }) ∧
    (off % 8 ≠ 0 → control off s) ∧ (0x200C00 ≤ off → control off s) ∧
    (∀ n, n ≠ 8 → exec (.registerWrite .control off ⟨n, v⟩) s = .next s) ∧
    bar0 0x20 8 (s.modCtrl fun c => { c with bar2base := v &&& 0x0000FFFFF0000000 }) ∧
    bar0 0x20 4 (s.modCtrl fun c => { c with bar2base :=
      (c.bar2base &&& 0xFFFFFFFF00000000 ||| v &&& 0xFFFFFFFF) &&& 0x0000FFFFF0000000 }) ∧
    bar0 0x24 4 (s.modCtrl fun c => { c with bar2base :=
      (c.bar2base &&& 0xFFFFFFFF ||| (v &&& 0xFFFFFFFF) <<< 32) &&& 0x0000FFFFF0000000 }) ∧
    bar0 0x28 8 (s.modCtrl fun c => { c with msistat := c.msistat &&& ~~~v }) ∧
    bar0 0x28 4 (s.modCtrl fun c => { c with msistat := c.msistat &&& ~~~(v &&& 0xFFFFFFFF) }) ∧
    bar0 0x2C 4 (s.modCtrl fun c => { c with msistat := c.msistat &&& ~~~((v &&& 0xFFFFFFFF) <<< 32) }) ∧
    (off ∉ [0x18, 0x20, 0x28] → bar0 off 8 s) ∧ (off / 8 * 8 ∉ [0x18, 0x20, 0x28] ∨ off % 4 ≠ 0 → bar0 off 4 s) ∧
    (∀ n, n ≠ 4 → n ≠ 8 → bar0 off n s) ∧
    exec (.feataccWrite v) s = .next (if s.ctrl.featWritten then s
      else s.modCtrl fun c => { c with featacc := v &&& c.featoff, featWritten := true })) ∧
  (∀ (s : State) (a : Nat) (bs : List Byte),
    let first := s.ctrl.bar2base.toNat / 2 ^ s.ctrl.bar2log2 * 2 ^ s.ctrl.bar2log2 + a
    s.confined = false → a + bs.length ≤ 2 ^ s.ctrl.bar2log2 → first + bs.length ≤ 640 * 2 ^ 30 →
    exec (.hostBar2Access (.write a bs)) s = .next (s.writeBytesAt (storeBytes .hbm first bs)) ∧
    exec (.hostBar2Access (.read a bs.length)) s = .next (s.send (.hostData (s.readBytesAt .hbm first bs.length)))) ∧
  (∀ (s : State) (n v : Nat),
    (28 ≤ n → n ≤ 40 → exec (.pcieConfigurationWrite (.bar2Size n)) s = .next (s.modCtrl fun c => { c with bar2log2 := n })) ∧
    (v < 64 → exec (.pcieConfigurationWrite (.msixMask v true)) s =
      .next (s.modCtrl fun c => { c with msimask := c.msimask ||| (1#64 <<< v) })) ∧
    (v < 64 → exec (.pcieConfigurationWrite (.msixMask v false)) s =
      let t := s.modCtrl fun c => { c with msimask := c.msimask &&& ~~~(1#64 <<< v) }
      .next (if s.ctrl.msixOn = true ∧ s.ctrl.msixOff = false ∧ s.ctrl.msipend.getLsbD v = true then
          (t.modCtrl fun c => { c with msipend := c.msipend &&& ~~~(1#64 <<< v) }).send (.msix v (s.ctrl.msixAddr.get v) (s.ctrl.msixData.get v))
        else t)) ∧
    (v < 64 → ∀ (addr : W64) (data : W32), exec (.pcieConfigurationWrite (.msixEntry v addr data)) s = .next (s.modCtrl fun c =>
      { c with msixAddr := c.msixAddr.set v (addr &&& ~~~3#64), msixData := c.msixData.set v data })) ∧
    (∀ b, exec (.pcieConfigurationWrite (.msixControl false b)) s = .next (s.modCtrl fun c => { c with msixOn := false, msixOff := b })))

/-- R226, R240 to R242, R282: a pending alarm that fires stretches the clock and is counted; the last stretched cycle begins
the capped cycles, and the last capped cycle ends them. A thermal mark that its sensor reaches is set, a hot die's islands going
to ratio 1/3 and the critical mark beginning the seizes of every context in use; one from which its sensor has fallen 5 °C is
cleared (which sensor judges a mark: assumption 42, DEDUCED; the order of the seizes: 43, DEDUCED); unacknowledged alerts are
sent again. -/
def Obligations.DroopsAndThermalMarks : Prop :=
  (∀ (s : State) (k : Nat),
    let i := s.island k
    let reaches (e : Instr) (st left : Nat) (n : W32) : Prop := ∃ t, exec e s = .next t ∧ Elapsed s t ∧
      (t.island k).capState = st ∧ (t.island k).capLeft = left ∧ (t.island k).droopcnt = n ∧
      ∀ j, j ≠ k → t.island j = s.island j
    i.settling = 0 →
    (1 ∈ i.alarms → reaches (.droopAlarm k) 1 6 (i.droopcnt + 1)) ∧
    (i.capState = 1 → i.capLeft = 1 → (∀ a ∈ i.alarms, 1 < a) → reaches (.droopStretchEnd k) 2 64 i.droopcnt) ∧
    (i.capState = 2 → i.capLeft = 1 → (∀ a ∈ i.alarms, 1 < a) → reaches (.droopCapEnd k) 0 0 i.droopcnt)) ∧
  (∀ (s : State) (d : Nat),
    let told (u : State) : Host.Outcome State Fault Refusal := .next (u.interrupt 5).refreshStatus
    (s.warn = false → 760 ≤ s.deviceTemp.toInt → exec .thermalWarn s = told { s with warn := true }) ∧
    (d < 4 → d ∉ s.hot → 840 ≤ (s.dieTemp d).toInt → ∃ t, exec (.thermalHot d) s = .next t ∧ t.hot = d :: s.hot ∧
      ∀ i, i < 6 → (t.island (6 * d + i)).ratio = 2 ∧ (t.island (6 * d + i)).stepIdx = 0) ∧
    (s.critical = false → 920 ≤ s.deviceTemp.toInt → s.ctrl.preState ≠ 2 → ∀ c rest, s.seizeOrder = c :: rest → s.hasTeams c = true →
      ∃ t, exec .thermalCritical s = .next t ∧ t.critical = true ∧ t.ctrl.critRun = true ∧ t.ctrl.critQueue = rest ∧
        t.ctrl.preState = 2 ∧ t.ctrl.preCtx = c) ∧
    (s.warn = true → s.deviceTemp.toInt ≤ 720 → exec (.thermalMarkClear .warn) s = told { s with warn := false }) ∧
    (d ∈ s.hot → (s.dieTemp d).toInt ≤ 800 → exec (.thermalMarkClear (.hot d)) s = told { s with hot := s.hot.filter (· != d) }) ∧
    (s.critical = true → s.deviceTemp.toInt ≤ 880 → exec (.thermalMarkClear .critical) s = told { s with critical := false }) ∧
    (s.mgmt.collector ≠ [] → exec .alertRepeat s = .next (s.mgmt.unacked.foldl (fun t a =>
      t.sendSigned (collectorEnd s.mgmt.collector) 0x21 false false a.1 (bytesOf a.2.toNat 4 ++ bytesOf s.statusWord.toNat 8)) s)))

/-- R216, R237, R238, R246, R247, R248, R273, R275: a function's READY bit rises at its bring-up and falls at its fault; a
reset leaves no group, no READY bit and FEATACC unwritten, and keeps HBM; a loss of power keeps what the flash holds; a
function-level reset resets every context, unless the device serves its management port alone; a restart of Vilaz stops the control programs and keeps the contexts. R235, R279:
LIFETIME_WRITEBACK puts the counters into the flash; LANE_RETIRE sets a bit of the retirement mask; an uncorrectable error
marks its word, the loads under way having read before it (assumption 77), and a corrected one leaves every byte as it was; a frame
goes to the address that the device owns, and a group frame to both. That a device reset keeps HBM and the counters and power-on
gives the HBM of reset is log entry 56 (DEDUCED), and TIMEREF 0 after it entry 1 (DESIGN CHOICE). -/
def Obligations.PowerAndReliability : Prop :=
  (∀ (s : State) (f : Function),
    let b := functionBit f
    (s.canRise f = true → ∃ t, exec (.functionBringup f) s = .next t ∧ t.ctrl.ready.getLsbD b = true ∧
      ∀ j, j ≠ b → t.ctrl.ready.getLsbD j = s.ctrl.ready.getLsbD j) ∧
    (functionExists f = true → ∃ t, exec (.functionFault f) s = .next t ∧ t.ctrl.ready.getLsbD b = false ∧
      ∀ j, j ≠ b → t.ctrl.ready.getLsbD j = s.ctrl.ready.getLsbD j)) ∧
  (∀ (s : State),
    let fresh (t : State) : Prop := t.groups = [] ∧ t.teams = [] ∧ t.queues = [] ∧ t.ctxs = [] ∧ t.ctrl.ready = 0 ∧
      t.ctrl.featWritten = false ∧ t.ctrl.featoff = 0x3FF ∧ t.timeref = 0
    (∃ t, exec .powerOn s = .next t ∧ fresh t ∧ t.powered = true ∧ t.hbm = State.reset.hbm) ∧
    (∃ t, exec .deviceReset s = .next t ∧ fresh t ∧ t.powered = true ∧ t.hbm = s.hbm ∧ t.mgmt.live = s.mgmt.live) ∧
    (∃ t, exec (.powerLoss true) s = .next t ∧ fresh t ∧ t.powered = false ∧ t.mgmt.flash = s.mgmt.live) ∧
    (∃ t, exec (.powerLoss false) s = .next t ∧ fresh t ∧ t.powered = false ∧ t.mgmt.flash = s.mgmt.flash) ∧
    (s.confined = false → ∃ t, exec .functionLevelReset s = .next t ∧ (∀ e ∈ t.teams, 64 ≤ e.2.ctx) ∧
      (∀ e ∈ t.queues, ∀ c, e.2.ctx = some c → 64 ≤ c)) ∧
    (s.confined = true → exec .functionLevelReset s = .next s) ∧
    (s.ctrl.ready.getLsbD 2 = true → ∃ t, exec .vilazRestart s = .next t ∧ t.ctrl.ready.getLsbD 3 = t.osFound ∧ ∀ c, (t.ctx c).running = false ∧
      (t.ctx c).waiting = none ∧ (t.ctx c).live = (s.ctx c).live ∧ (t.ctx c).allocs = (s.ctx c).allocs)) ∧
  (∀ (s : State),
     (∃ t, exec .lifetimeWriteback s = .next t ∧ t.mgmt.flash = t.mgmt.live ∧ t.groups = s.groups ∧ t.hbm = s.hbm) ∧
     (∀ d i l, d < 4 → i < 72 → l < 64 → (s.mgmt.retiredLanes.get (d * 72 + i)).getLsbD l = false →
       ∃ t, exec (.laneRetire d i l) s = .next t ∧
         t.mgmt.retiredLanes = s.mgmt.retiredLanes.set (d * 72 + i) (s.mgmt.retiredLanes.get (d * 72 + i) ||| (1#64 <<< l)) ∧
         Elapsed (s.modMgmt fun m => { m with retiredLanes := t.mgmt.retiredLanes }) t) ∧
     (∀ w, w ∉ s.poison → s.holdsCopy w = true →
       let u := s.readFirst [underCopy w]
       exec (.secdedError w false) s = .next (if u.readLater [underCopy w] then u else { u with poison := w :: u.poison })) ∧
     (∀ w, ∃ t, exec (.secdedError w true) s = .next t ∧ Elapsed s t) ∧
     (exec (.ethernetFrameReceive (Config.macBase + 1) false) s = .next (s.send (.frame true false)) ∧
       exec (.ethernetFrameReceive Config.macBase false) s = .next (s.send (.frame false true)) ∧
       ∀ m, exec (.ethernetFrameReceive m true) s = .next (s.send (.frame true true))))

/-! ### Management operations and system calls -/

/-- R237, R247, R278, R280 to R284: a request that is taken up is performed and answered with its body or its error code. A
signature by no trusted key is error 2, a stale STAMP error 3 and an operation that R281 does not list error 1; a request that
repeats one of the last 16 gets that response again. That FLASHOPEN unverifies its slot at once and SETSTORE replaces the whole list
is log entry 61, and the order signature, repetition, STAMP, operation, the STAMP kept before the operation, entry 60 (both
DEDUCED, the model's choice). -/
def Obligations.ManagementOperations : Prop :=
  ∀ (s : State) (m : MgmtMsg),
    let t := takenUp s m
    let b (i : Nat) : Nat := (m.body.getD i 0).toNat
    let answers (i : Instr) (u : State) (body : List Byte) : Prop := exec i s = .next (u.respond m false body)
    let fails (i : Instr) (code : Nat) : Prop := exec i s = .next (t.respond m true (bytesOf code 4))
    (TakesUp s m →
      (m.op = 0x01 → m.body = [] → answers (.getready m) t (bytesOf s.ctrl.ready.toNat 8)) ∧
      (m.op = 0x02 → m.body = [] → answers (.getstatus m) t (bytesOf s.ctrl.mgmtstat.toNat 8)) ∧
      (∀ first n, m.op = 0x03 → m.body = bytesOf first 4 ++ bytesOf n 4 → first < 2 ^ 32 → n ≤ 64 → first + n ≤ 1073 →
        answers (.getcount m) t ((List.range n).flatMap fun i => bytesOf (s.mgmt.live.get (first + i)).toNat 8)) ∧
      (m.op = 0x04 → m.body = [] → answers (.gettemp m) t
        ((([0, 1, 2, 3].map s.dieTemp) ++ [s.mgmt.hubTemp]).flatMap fun x => bytesOf x.toNat 2)) ∧
      (m.op = 0x10 → m.body.length = 5 → b 0 < 2 →
        (s.mgmt.openImage = none → answers (.flashopen m) (t.modMgmt fun x => { x with
          openImage := some (b 0 == 1, natOfBytes (m.body.drop 1), []), slots := x.slots.set (b 0) (false, 0, []) }) []) ∧
        (s.mgmt.openImage.isSome = true → fails (.flashopen m) 6)) ∧
      (∀ slot size img off data, m.op = 0x11 → m.body = bytesOf off 4 ++ data → off < 2 ^ 32 → data.length ≤ 1024 →
        off + data.length ≤ size → s.mgmt.openImage = some (slot, size, img) →
        answers (.flashdata m) (t.modMgmt fun x => { x with openImage := some (slot, size, Memory.writeBytes img off data) }) []) ∧
      (∀ slot size img, m.op = 0x12 → m.body = [] → s.mgmt.openImage = some (slot, size, img) →
        let good := Config.imageVerifies (Memory.readBytes img 0 size)
        let u := t.modMgmt fun x => { x with openImage := none, slots := x.slots.set slot.toNat (good, size, img) }
        (good = true → answers (.flashclose m) u []) ∧
        (good = false → exec (.flashclose m) s = .next (u.respond m true (bytesOf 5 4)))) ∧
      (m.op = 0x13 → m.body.length = 1 → b 0 < 2 →
        ((s.mgmt.slots.getD (b 0) (false, 0, [])).1 = true →
          answers (.setboot m) (t.modMgmt fun x => { x with bootSlot := b 0 == 1 }) []) ∧
        ((s.mgmt.slots.getD (b 0) (false, 0, [])).1 = false → fails (.setboot m) 5)) ∧
      (m.op = 0x20 → m.body.length = 19 → b 0 = 4 ∨ b 0 = 6 →
        answers (.setcoll m) (t.modMgmt fun x => { x with collector := m.body }) []) ∧
      (∀ q c, m.op = 0x22 → m.body = bytesOf q 4 → (BitVec.ofNat 32 q, c) ∈ s.mgmt.unacked →
        answers (.alertack m) (t.modMgmt fun x => { x with
          unacked := x.unacked.filter fun a => a.1 != BitVec.ofNat 32 q }).refreshStatus []) ∧
      (∀ list entries, m.op = 0x30 → m.body = bytesOf list 1 ++ entries → list < 2 → entries.length % 68 = 0 →
        entries.length ≤ 1088 → answers (.settrust m) (t.modMgmt fun x => { x with
          trust := x.trust.set list (chunks 68 16 entries) }) []) ∧
      (m.op = 0x31 → m.body.length % 256 = 0 → m.body.length ≤ 1024 → (∀ e ∈ chunks 256 4 m.body, storeEntryOk e = true) →
        ((chunks 256 4 m.body).map fun e => (e.getD 0 0).toNat).Nodup → answers (.setstore m) (t.modMgmt fun x => { x with
          storage := (chunks 256 4 m.body).foldl (fun l e => tput l (e.getD 0 0).toNat e) [] }) []) ∧
      (m.op ∉ [0x01, 0x02, 0x03, 0x04, 0x10, 0x11, 0x12, 0x13, 0x20, 0x22, 0x30, 0x31] → fails (.unknownOperation m) 1)) ∧
    (s.ctrl.ready.getLsbD 38 = true → s.delivered m = true → m.magic = 0x4D47 → m.version = 1 → m.flags.getLsbD 0 = false →
      m.op = 0x01 →
      (s.signedOk m = false → exec (.getready m) s = .next ((s.interrupt 7).respond m true (bytesOf 2 4))) ∧
      (s.signedOk m = true →
        (∀ key q op err body, s.mgmt.responses.find? (fun r => r.1 == m.keyId && r.2.1 == m.seq) = some (key, q, op, err, body) →
          exec (.getready m) s = .next ((s.interrupt 7).sendSigned m.src op err true m.seq body)) ∧
        (∀ l, (∀ r ∈ s.mgmt.responses, ¬ (r.1 = m.keyId ∧ r.2.1 = m.seq)) → s.lastStamp m.keyId.toNat = some l → m.stamp ≤ l →
          exec (.getready m) s = .next ((s.interrupt 7).respond m true (bytesOf 3 4)))))

/-- R255, R256, R258, R274, R284: each system call answers in a0 with its result or its negative error code and preserves the
other registers. An image whose header, sections, key and signature pass starts in a context that was not in use, or regains the
context that survived a restart of Vilaz (assumption 59, DEDUCED); one that fails is refused with EPERM. The model's choices: EINVAL
for another stream, EPERM for bytes that are not the image and ENOENT of obj_unload (log entry 63), the program's own memory
(entry 46, PRESUMED), the DBG bit as the debugger session (entry 65, DEDUCED), the lowest free queue (entry 102), and the hart that
runs a program, which leaves it while event_wait waits (entry 98, PRESUMED). A Galbel object that is loaded becomes a native one
that does what its code does (`Translates`): at a `pfor` of n logical threads, as R268 says, n = 0 skips the region, and else each
thread starts behind the `pfor` with vi its index, every other vector register and predicate zero, and the uniform registers of the
team; that nothing is promised while copies of the team are under way there is entry 17 (DESIGN CHOICE). -/
def Obligations.SystemCalls : Prop :=
  (∀ (s : State) (b : List Byte), objKIND b ≠ 2 → s.nativeOf b = .error einval ∨
    ∃ t, s.nativeOf b = .ok t ∧ Translates b (galbelTEAM b) t ∧ (kernelEntries t).length = (kernelEntries b).length) ∧
  (∀ (code : List Instr) (gid : Gid) (r : GalbelRun) (x : Group) (o : POp), r.ended = false → r.threads = none →
    r.s.group gid = some x → code[r.pc]? = some (.pfor o) → x.acts (.pfor o) = true →
    let n := (x.s.get o.a.toNat).toNat % 2 ^ 32
    (n = 0 → r.next code gid = some { r with pc := pendOf code r.pc + 1 }) ∧
    (0 < n → n ≤ 1048576 → (r.s.team x.team).hod = [] → ∃ ts : List Thread,
      r.next code gid = some { r with threads := some ts } ∧ ts.length = n ∧
      ∀ j, j < n → ∃ y, ts[j]? = some (r.pc + 1, y) ∧ y.s = x.s ∧ y.q = x.q ∧ (∀ k, y.p.get k = 0) ∧
        ∀ k t, t < 32 → y.v.get (k * 32 + t) = if k = o.dst.toNat ∧ t = 0 then BitVec.ofNat 32 j else 0)) ∧
  ∀ (s : State) (ctx h : Nat),
    let c := s.ctx ctx
    let arg (i : Nat) : W64 := (s.hart h).x.get (10 + i)
    let a (i : Nat) : Nat := (arg i).toNat
    let returns (i : Instr) (u : State) (v : W64) : Prop :=
      exec i s = .next (u.putHart h { s.hart h with x := (s.hart h).x.set 10 v })
    let fails (i : Instr) (e : Nat) : Prop := returns i s (-(BitVec.ofNat 64 e))
    let owned (q : Nat) : Prop := q < 16 ∧ (s.queue q).ctx = some ctx
    (AtCall s ctx h 0 → exec (.exitCall ctx) s = .next ((s.forcedReset ctx).releaseCtx ctx)) ∧
    (AtCall s ctx h 1 → (a 0 = 1 ∨ a 0 = 2 → returns (.write ctx)
        ((s.send (.stream ctx (a 0) (Memory.readBytes c.mem (a 1) (a 2)))).msi 3) (arg 2)) ∧
      (a 0 ≠ 1 → a 0 ≠ 2 → fails (.write ctx) 1)) ∧
    (AtCall s ctx h 2 → a 0 ≠ 0 → a 1 = 0 → ∀ va u, s.chooseVa ctx (a 0) = some va →
      s.draw.mapFresh ctx va 4 (pagesOf (a 0)) = some u → returns (.memAlloc ctx) (u.record ctx
        { kind := 0, va, size := a 0, phys := 0, handle := 0, offset := 0, writable := true }) (BitVec.ofNat 64 va)) ∧
    (AtCall s ctx h 3 → (s.inFlight ctx = true → fails (.memFree ctx) 4) ∧
      (s.inFlight ctx = false → ∀ x, c.allocAt (a 0) = some x → returns (.memFree ctx) (s.freeAlloc ctx x) 0)) ∧
    (AtCall s ctx h 4 → a 1 ≠ 0 → a 0 + a 1 ≤ 2 ^ 48 → a 2 < 2 → ∀ u va, s.mapNamed ctx 3 1 0 (a 0) (a 1) (a 2 == 1) = some (u, va) →
      returns (.memMap ctx) u (BitVec.ofNat 64 va)) ∧
    (AtCall s ctx h 5 → a 2 = 0 → (Memory.readBytes c.mem (a 0) c.image.length ≠ c.image → fails (.objLoad ctx) 5) ∧
      (Memory.readBytes c.mem (a 0) c.image.length = c.image →
        ∀ off len u id, (objectSections c.image)[a 1]? = some (2, off, len) →
          let b := (c.image.drop off).take len
          objectForm b = true → objKIND b = 2 → missingFeature b s.ctrl.featacc = false →
          s.loadObject ctx none b = .ok (u, id) → returns (.objLoad ctx) u (BitVec.ofNat 64 id))) ∧
    (AtCall s ctx h 6 → (s.current ctx (a 0) = none → fails (.objUnload ctx) 3) ∧
      (∀ o, s.current ctx (a 0) = some o → ∃ u, returns (.objUnload ctx) u 0 ∧
        ∀ p ∈ u.objects, p.heapoff = o.heapoff → p.freed = true ∨ p.unloaded = true)) ∧
    (AtCall s ctx h 7 → ∀ o name off, s.current ctx (a 0) = some o →
      o.symbols.find? (fun e => e.1 == nameAt c.mem (a 1) (((o.symbols.map fun e => e.1.length).foldl max 0) + 1)) = some (name, off) →
      returns (.objLookup ctx) s (BitVec.ofNat 64 (o.heapoff + off))) ∧
    (AtCall s ctx h 8 → owned (a 0) → returns (.launchCall ctx) (s.modQueue (a 0) fun x =>
      { x with packets := x.packets ++ [BitVec.ofNat 512 (Memory.readNat c.mem (a 1) 64)] }) 0) ∧
    (AtCall s ctx h 9 → a 0 < 1024 → (a 0 ∈ c.events → returns (.eventWait ctx) s 0) ∧
      (a 0 ∉ c.events → ∃ t, exec (.eventWait ctx) s = .next t ∧ t = { s with ctxs := t.ctxs, harts := t.harts } ∧
        t.hartOf ctx = none ∧ (∀ k, k ≠ ctx → t.ctx k = s.ctx k) ∧
        t.ctx ctx = { c with regs := (t.ctx ctx).regs
                             waiting := some (a 0, if arg 1 = 0 then none else some (s.timeref + arg 1)) } ∧
        ∀ i, i < 8 → (t.ctx ctx).regs.get i = arg i)) ∧
    (s.hartOf ctx = none → s.ctrl.ready.getLsbD 3 = true →
      (∀ e d, c.waiting = some (e, d) → e ∈ c.events → exec (.eventWait ctx) s =
        .next (s.modCtx ctx fun x => { x with waiting := none, regs := x.regs.set 0 0 })) ∧
      (∀ e d, c.waiting = some (e, some d) → d ≤ s.timeref → e ∉ c.events → exec (.eventWaitTimeout ctx) s =
        .next (s.modCtx ctx fun x => { x with waiting := none, regs := x.regs.set 0 (-6#64) }))) ∧
    (AtCall s ctx h 10 → a 0 < 1024 → owned (a 1) → returns (.eventQuery ctx) s
      (BitVec.ofNat 64 ((if a 0 ∈ c.events then 1 else 0) + 256 * (s.queue (a 1)).reason))) ∧
    (AtCall s ctx h 11 → a 0 ≤ 3 → (∀ q, q < 16 → (s.queue q).ctx = none → (∀ r, r < q → (s.queue r).ctx ≠ none) →
        returns (.queueCreate ctx) (s.modQueue q fun _ => { ctx := some ctx, prio := a 0 }) (BitVec.ofNat 64 q)) ∧
      ((∀ q, q < 16 → (s.queue q).ctx ≠ none) → fails (.queueCreate ctx) 4)) ∧
    (AtCall s ctx h 12 → owned (a 0) →
      ((s.queue (a 0)).packets = [] → returns (.queueDestroy ctx) (s.modQueue (a 0) fun _ => {}) 0) ∧
      ((s.queue (a 0)).packets ≠ [] → fails (.queueDestroy ctx) 4)) ∧
    (AtCall s ctx h 13 → returns (.featureQuery ctx) s s.ctrl.featacc) ∧
    (AtCall s ctx h 14 → returns (.timeNow ctx) s s.timeref) ∧
    (AtCall s ctx h 15 → a 0 < 256 →
      (s.portUp (portTo (a 0)) = true → Config.peerReachable (a 0) = true → returns (.peerOpen ctx)
        (s.modCtx ctx fun x => { x with handles := x.handles ++ [.peer (a 0)] }) (BitVec.ofNat 64 c.handles.length)) ∧
      (s.portUp (portTo (a 0)) = false ∨ Config.peerReachable (a 0) = false → fails (.peerOpen ctx) 3)) ∧
    (AtCall s ctx h 15 → 0x10000 ≤ a 0 →
      (tfind s.mgmt.storage (a 0 - 0x10000) = none → fails (.peerOpen ctx) 3) ∧
      (∀ e u, tfind s.mgmt.storage (a 0 - 0x10000) = some e → s.connect e = some u → returns (.peerOpen ctx)
        (u.modCtx ctx fun x => { x with handles := x.handles ++ [.storage e] }) (BitVec.ofNat 64 c.handles.length))) ∧
    (AtCall s ctx h 16 → ∀ d u va, c.handles[a 0]? = some (.peer d) → a 3 = 2 ∨ a 3 = 3 → a 2 ≠ 0 → a 1 + a 2 ≤ 2 ^ 48 →
      s.mapNamed ctx 4 (a 3) d (a 1) (a 2) true = some (u, va) → returns (.peerMap ctx) u (BitVec.ofNat 64 va)) ∧
    (AtCall s ctx h 17 →
      let body := s.report ctx (Memory.readBytes c.mem (a 0) 32)
      let all := body ++ Config.sm2Sign (Config.sm3 body)
      returns (.attestReport ctx) (s.modCtx ctx fun x => { x with mem := Memory.writeBytes x.mem (a 1) all })
        (BitVec.ofNat 64 all.length)) ∧
    (AtCall s ctx h 18 → owned (a 0) → (s.descDbg ctx = false → a 1 < 2 → fails (.debugAttach ctx) 5) ∧
      (s.descDbg ctx = true → a 1 = 0 → returns (.debugAttach ctx) (s.modQueue (a 0) fun x => { x with debug := 0 }) 0)) ∧
    (AtCall s ctx h 19 → returns (.yield ctx) s 0) ∧
    (∀ n, AtCall s ctx h n → 19 < n → fails (.unassignedCallNumber ctx) 7) ∧
    (∀ image, (s.ctrl.ready.getLsbD 3 = false → exec (.imageStart image) s = .next s) ∧
      (s.imageOk image = false → s.ctrl.ready.getLsbD 3 = true →
        exec (.imageStart image) s = .next (s.send (.imageRefused (-5#64)))) ∧
      (s.imageOk image = true → s.ctrl.ready.getLsbD 3 = true →
        (∀ x, s.survivor image = some x → exec (.imageStart image) s = .next (s.modCtx x fun y =>
          { y with running := true, regs := [], mem := [], handles := [] })) ∧
        (s.survivor image = none → (∃ x, x < 64 ∧ s.ctxUsed x = false) →
          (∀ x, x < 64 → ((s.reclaim x).draw.createCtx x image).isSome = true) →
          ∃ t x, exec (.imageStart image) s = .next t ∧ x < 64 ∧ s.ctxUsed x = false ∧
            (t.ctx x).live = true ∧ (t.ctx x).running = true ∧ (t.ctx x).image = image)))

/-! ### Words of the encoding tables, and reset -/

/-- R84, R86, R88, R91, R95, R97: words of the spec's own encoding examples decode to what they stand for. -/
def Obligations.EncodingExamples : Prop :=
  let h (form : Form) : Hdr := { form, guard := .off, stall := 0, last := false }
  let p (form : Form) (dst a b c : BitVec 9) : POp := { h := h form, ty := .none, dst, a, b, c }
  decode [0x05, 0x03, 0x01, 0x02] = .ok (.addI32Compact { stall := 1, d := 3, a := 1, b := 2 }, 4) ∧
  decode [0xC0, 0x25, 0x22, 0x00, 0xA0, 0x54, 0x2C, 0x17] = .ok (.mad
    { h := { form := .eight, guard := .on .p true 1, stall := 1, last := false }, ty := .i32, dst := 20, a := 21, b := 22
      c := 23, cd := .dflt, ca := .dflt, cb := .dflt, cc := .dflt, ma := .none, mb := .none, mc := .none, opt := 0 }, 8) ∧
  decode [0x88, 0x03, 0x50, 0xA0, 0x53, 0x2C] = .ok (.fadd
    { h := { form := .six, guard := .off, stall := 3, last := false }, ty := .bf16x2, dst := 40, a := 41, b := 300
      c := 0, cd := .dflt, ca := .dflt, cb := .dflt, cc := .dflt, ma := .none, mb := .none, mc := .none, opt := 0 }, 6) ∧
  decode [0xE5, 0x04, 0x00, 0x08, 0x1C, 0x00, 0x00, 0x3F, 0x80, 0x00, 0x00, 0x00] = .ok (.movi
    { h := h .twelve, ty := .n32, dst := 7, a := 0, b := 0, imm32 := 0x3F800000, ext8 := 0 }, 12) ∧
  decode [0xE8, 0x00, 0x00, 0x08, 0x28, 0x08, 0x03, 0x00, 0x34, 0x02, 0x00, 0x10] = .ok (.ld
    { h := h .twelve, ty := .n32, dst := 10, a := 4, b := 3, c := 0, scope := .dev, ord := .acq, size := .byType, op := 0
      af := false, sc := 2, dk := false, ik := false, nd := false, bank := false, imm := 16 }, 12) ∧
  decode [0xE5, 0x0C, 0x00, 0x08, 0x00, 0x50, 0x08, 0x00, 0x00, 0x06, 0x00, 0x08] = .ok (.wrx
    { h := h .twelve, ty := .n32, dst := 0, a := 40, b := 8, c := 0, cd := .k, ca := .dflt, cb := .dflt, cc := .dflt
      ma := .none, mb := .none, mc := .none, opt := 8 }, 12) ∧
  decode [0xA8, 0x00, 0x78, 0x50, 0x08, 0x05] = .ok (.kick (p .six 20 4 5 0), 6) ∧
  decode [0xD6, 0x18, 0x00, 0xF0, 0x10, 0x00, 0x02, 0x0C] = .ok (.mloop (p .eight 2 0 1 12), 8) ∧
  decode [0xED, 0x08, 0x00, 0x70, 0x00, 0xF8, 0x00, 0x00, 0x00, 0x01, 0x00, 0x25] = .ok (.csrw
    { h := h .twelve, ty := .b64, dst := 0, a := 124, b := 0, c := 0, cd := .dflt, ca := .s, num := 0x025 }, 12) ∧
  decode [0xB0, 0x50, 0xF8, 0x00, 0x00, 0x00] = .ok (.exit
    { h := { form := .six, guard := .off, stall := 0, last := true }, ty := .none, dst := 0, a := 0, b := 0, c := 0 }, 6)

/-- R5, R34, R209, R239, R240, R246 to R254, R272, R276: the machine after reset: no group, team, launch or queue; every READY
bit 0 and FEATACC 0, not yet written; FEATOFF, DROOPTH, TDRAIN and TSEIZE at their reset values; TIMEREF 0 (assumption 1, the model's choice); the handover
header in HBM, and every memory in its canonical form (assumption 2). -/
def Obligations.ResetState : Prop :=
  let s := State.reset
  Memories s ∧ s.groups = [] ∧ s.teams = [] ∧ s.launches = [] ∧ s.queues = [] ∧ s.timeref = 0 ∧ s.ctrl.ready = 0 ∧
  s.ctrl.featacc = 0 ∧ s.ctrl.featWritten = false ∧ s.ctrl.featoff = 0x3FF ∧ s.ctrl.tdrain = 10500000 ∧
  s.ctrl.tseize = 1050000 ∧ s.ctrl.ctxtbl = 0 ∧ s.ctrl.fbsize = 0 ∧ s.ctrl.fbhead = 0 ∧
  s.prestat = 0 ∧ s.tlbstat = 0 ∧ (∀ k, (s.island k).droopth = 0x04000 ∧ (s.island k).ratio = 0 ∧ (s.island k).stepIdx = 0) ∧
  s.hbm.readNat 0x9FFC000000 4 = 0x4C5A4844 ∧ s.hbm.readNat 0x9FFC000004 4 = 1
end

