-- ==== Sys2Proof/Laws/Elements.lean ====
section
/-!
SUPPORT. Elements of packed values (R66): an element of a packed value is the element packed, and an element-wise operation
acts on each element.
-/
namespace Sys2Proof

theorem ETy.width_pos (ty : ETy) : 0 < ty.width := by cases ty <;> decide

theorem elem_lt (w x k : Nat) : elem w x k < 2 ^ w := Nat.mod_lt _ (Nat.two_pow_pos w)

theorem pack_lt (w : Nat) (xs : List Nat) : pack w xs < 2 ^ (w * xs.length) := by
  induction xs with
  | nil => simp [pack]
  | cons x r ih =>
    have h1 : x % 2 ^ w < 2 ^ w := Nat.mod_lt _ (Nat.two_pow_pos w)
    rw [List.length_cons, Nat.mul_succ, Nat.pow_add, pack, Nat.mul_comm (2 ^ (w * r.length))]
    calc x % 2 ^ w + 2 ^ w * pack w r < 2 ^ w + 2 ^ w * pack w r := by omega
      _ = 2 ^ w * (pack w r + 1) := by rw [Nat.mul_add]; omega
      _ ≤ 2 ^ w * 2 ^ (w * r.length) := Nat.mul_le_mul_left _ ih

theorem elem_pack (w : Nat) (xs : List Nat) {k : Nat} (h : k < xs.length) : elem w (pack w xs) k = xs[k] % 2 ^ w := by
  have pos := Nat.two_pow_pos w
  induction xs generalizing k with
  | nil => simp at h
  | cons x r ih =>
    cases k with
    | zero => simp [elem, pack]
    | succ k =>
      have := ih (k := k) (by simpa using h)
      simp only [elem] at this ⊢
      rw [pack, Nat.mul_succ, Nat.add_comm (w * k), Nat.pow_add, ← Nat.div_div_eq_div_mul,
        Nat.add_mul_div_left _ _ pos, Nat.div_eq_of_lt (Nat.mod_lt _ pos), Nat.zero_add, this]
      simp

theorem elems_length (ty : ETy) (x : Nat) : (elems ty x).length = ty.count := by simp [elems]

theorem elems_get (ty : ETy) (x : Nat) {k : Nat} (h : k < (elems ty x).length) : (elems ty x)[k] = elem ty.width x k := by
  simp [elems]

/-! The integer formats' numbers (R82). -/

theorem wrap_lt (w : Nat) (y : Int) : wrap w y < 2 ^ w := by
  have h1 : (0 : Int) < (2 ^ w : Nat) := Int.natCast_pos.2 (Nat.two_pow_pos w)
  have := Int.emod_lt_of_pos y h1
  have := Int.emod_nonneg y (Int.ne_of_gt h1)
  unfold wrap; omega

/-- Wrapping gives back the bits of a number's own element. -/
theorem wrap_toInt (s : Bool) (w : Nat) {x : Nat} (h : x < 2 ^ w) : wrap w (toInt s w x) = x := by
  have h1 : ((x : Int) - 2 ^ w) % (2 ^ w : Nat) = x := by
    have : ((x : Int) - 2 ^ w) = x + (-1) * ((2 ^ w : Nat) : Int) := by push_cast; omega
    rw [this, Int.add_mul_emod_self_right, Int.emod_eq_of_lt (by omega) (by omega)]
  unfold wrap toInt
  split
  · rw [h1]; rfl
  · rw [Int.emod_eq_of_lt (by omega) (by exact_mod_cast h)]; rfl

theorem narrow_lt (sat s : Bool) (w : Nat) (y : Int) : narrow sat s w y < 2 ^ w := wrap_lt _ _

namespace Machine

/-- An element-wise operation acts on each element, and its result has the type's width. -/
theorem map1_elem (ty : ETy) (f : Nat → Nat) (x : Nat) {k : Nat} (h : k < ty.count) :
    elem ty.width (map1 ty f x) k = f (elem ty.width x k) % 2 ^ ty.width := by
  unfold map1
  rw [elem_pack _ _ (by simpa [elems_length] using h)]
  simp [elems]

theorem map2_elem (ty : ETy) (f : Nat → Nat → Nat) (x y : Nat) {k : Nat} (h : k < ty.count) :
    elem ty.width (map2 ty f x y) k = f (elem ty.width x k) (elem ty.width y k) % 2 ^ ty.width := by
  unfold map2
  rw [elem_pack _ _ (by simpa [elems_length] using h)]
  simp [elems]

theorem map3_elem (ty : ETy) (f : Nat → Nat → Nat → Nat) (x y z : Nat) {k : Nat} (h : k < ty.count) :
    elem ty.width (map3 ty f x y z) k =
      f (elem ty.width x k) (elem ty.width y k) (elem ty.width z k) % 2 ^ ty.width := by
  unfold map3
  rw [elem_pack _ _ (by simpa [elems_length] using h)]
  simp [elems]

theorem map1_lt (ty : ETy) (f : Nat → Nat) (x : Nat) : map1 ty f x < 2 ^ (ty.width * ty.count) := by
  have := pack_lt ty.width ((elems ty x).map f)
  simpa [map1, elems_length] using this

theorem map2_lt (ty : ETy) (f : Nat → Nat → Nat) (x y : Nat) : map2 ty f x y < 2 ^ (ty.width * ty.count) := by
  have := pack_lt ty.width (List.zipWith f (elems ty x) (elems ty y))
  simpa [map2, elems_length] using this

theorem map3_lt (ty : ETy) (f : Nat → Nat → Nat → Nat) (x y z : Nat) :
    map3 ty f x y z < 2 ^ (ty.width * ty.count) := by
  have := pack_lt ty.width (List.zipWith (fun p c => f p.1 p.2 c) ((elems ty x).zip (elems ty y)) (elems ty z))
  simpa [map3, elems_length] using this

end Machine

end Sys2Proof
end

