-- ==== Sys2Proof/Laws/Memory.lean ====
section
/-!
SUPPORT. The laws of sparse words, memories and keyed tables: read after write, and the canonical form that every
memory operation keeps.
-/
namespace Sys2Proof

variable {w : Nat} {α : Type}

/-! Read after write. -/

theorem Sparse.get_set_other (m : Sparse w) {k j : Nat} (v : BitVec w) (h : j ≠ k) :
    Sparse.get (Sparse.set m k v) j = Sparse.get m j := by
  induction m with
  | nil => by_cases hv : v = 0#w <;> simp [Sparse.set, Sparse.get, hv, Ne.symm h]
  | cons e r ih =>
    obtain ⟨a, x⟩ := e
    simp only [Sparse.set]
    by_cases h1 : a < k
    · simp [h1, Sparse.get, ih]
    · by_cases h2 : a = k
      · subst h2
        by_cases hv : v = 0#w <;> simp [hv, Sparse.get, Ne.symm h]
      · by_cases hv : v = 0#w <;> simp [h1, h2, hv, Sparse.get, Ne.symm h]

/-- The canonical form of a list with a head: the head is not zero, lies below the rest, and the rest is canonical. -/
theorem Sparse.wf_cons {a : Nat} {x : BitVec w} {r : Sparse w} :
    Sparse.wf ((a, x) :: r) = true ↔ x ≠ 0 ∧ (∀ e ∈ r, a < e.1) ∧ Sparse.wf r = true := by
  induction r generalizing a x with
  | nil => simp [Sparse.wf]
  | cons e r ih =>
    obtain ⟨b, y⟩ := e
    simp only [Sparse.wf, Bool.and_eq_true, decide_eq_true_eq, bne_iff_ne, ne_eq]
    constructor
    · rintro ⟨⟨h1, h2⟩, h3⟩
      refine ⟨h1, ?_, h3⟩
      intro e he
      rcases List.mem_cons.1 he with rfl | he
      · exact h2
      · exact Nat.lt_trans h2 ((ih.1 h3).2.1 e he)
    · rintro ⟨h1, h2, h3⟩
      exact ⟨⟨h1, h2 (b, y) (by simp)⟩, h3⟩

theorem Sparse.get_of_lt {m : Sparse w} {k : Nat} (h : ∀ e ∈ m, k < e.1) : Sparse.get m k = 0 := by
  induction m with
  | nil => rfl
  | cons e r ih =>
    obtain ⟨a, x⟩ := e
    have h1 : a ≠ k := Nat.ne_of_gt (h (a, x) (by simp))
    simp [Sparse.get, h1, ih fun e he => h e (by simp [he])]

theorem Sparse.get_set_self {m : Sparse w} {k : Nat} (v : BitVec w) (h : Sparse.wf m = true) :
    Sparse.get (Sparse.set m k v) k = v := by
  induction m with
  | nil => by_cases hv : v = 0#w <;> simp [Sparse.set, Sparse.get, hv]
  | cons e r ih =>
    obtain ⟨a, x⟩ := e
    obtain ⟨-, hlt, hr⟩ := Sparse.wf_cons.1 h
    simp only [Sparse.set]
    by_cases h1 : a < k
    · simp [h1, Sparse.get, Nat.ne_of_lt h1, ih hr]
    · by_cases h2 : a = k
      · subst h2
        by_cases hv : v = 0#w
        · simp [hv, Sparse.get_of_lt hlt]
        · simp [hv, Sparse.get]
      · have h3 : k < a := by omega
        by_cases hv : v = 0#w
        · simp only [h1, h2, hv, if_false]
          exact Sparse.get_of_lt fun e he => by
            rcases List.mem_cons.1 he with rfl | he
            · exact h3
            · exact Nat.lt_trans h3 (hlt e he)
        · simp [h1, h2, hv, Sparse.get]

/-- A key written is read back, and every other key reads as before. -/
theorem Sparse.get_set {m : Sparse w} (k j : Nat) (v : BitVec w) (h : Sparse.wf m = true) :
    Sparse.get (Sparse.set m k v) j = if j = k then v else Sparse.get m j := by
  by_cases hj : j = k
  · subst hj; simp [Sparse.get_set_self v h]
  · simp [hj, Sparse.get_set_other m v hj]

/-! The canonical form. -/

theorem Sparse.lt_set {m : Sparse w} {b k : Nat} {v : BitVec w} (hm : ∀ e ∈ m, b < e.1) (hk : b < k) :
    ∀ e ∈ Sparse.set m k v, b < e.1 := by
  induction m with
  | nil => by_cases hv : v = 0#w <;> simp [Sparse.set, hv, hk]
  | cons e r ih =>
    obtain ⟨a, x⟩ := e
    have ha := hm (a, x) (by simp)
    have hr : ∀ e ∈ r, b < e.1 := fun e he => hm e (by simp [he])
    simp only [Sparse.set]
    intro e he
    split at he
    · rcases List.mem_cons.1 he with rfl | he
      · exact ha
      · exact ih hr e he
    · split at he
      · split at he
        · exact hr e he
        · rcases List.mem_cons.1 he with rfl | he
          · exact hk
          · exact hr e he
      · split at he
        · exact hm e he
        · rcases List.mem_cons.1 he with rfl | he
          · exact hk
          · exact hm e he

theorem Sparse.wf_set {m : Sparse w} {k : Nat} {v : BitVec w} (h : Sparse.wf m = true) :
    Sparse.wf (Sparse.set m k v) = true := by
  induction m with
  | nil => by_cases hv : v = 0#w <;> simp [Sparse.set, Sparse.wf, hv]
  | cons e r ih =>
    obtain ⟨a, x⟩ := e
    obtain ⟨hx, hlt, hr⟩ := Sparse.wf_cons.1 h
    simp only [Sparse.set]
    split
    · next h1 => exact Sparse.wf_cons.2 ⟨hx, Sparse.lt_set hlt h1, ih hr⟩
    · split
      · next h2 =>
        split
        · exact hr
        · next hv => exact Sparse.wf_cons.2 ⟨hv, h2 ▸ hlt, hr⟩
      · split
        · exact h
        · next hv =>
          refine Sparse.wf_cons.2 ⟨hv, fun e he => ?_, h⟩
          rcases List.mem_cons.1 he with rfl | he
          · simp only; omega
          · have := hlt e he; omega

/-- The canonical form without its order of checks: keys strictly rising and no zero word. -/
theorem Sparse.wf_iff {m : Sparse w} :
    Sparse.wf m = true ↔ m.Pairwise (fun a b => a.1 < b.1) ∧ ∀ e ∈ m, e.2 ≠ 0 := by
  induction m with
  | nil => simp [Sparse.wf]
  | cons e r ih =>
    obtain ⟨a, x⟩ := e
    rw [Sparse.wf_cons, ih, List.pairwise_cons]
    simp only [List.mem_cons, forall_eq_or_imp]
    exact ⟨fun ⟨h1, h2, h3, h4⟩ => ⟨⟨h2, h3⟩, h1, h4⟩, fun ⟨⟨h2, h3⟩, h1, h4⟩ => ⟨h1, h2, h3, h4⟩⟩

theorem Sparse.wf_filter {m : Sparse w} (p : Nat × BitVec w → Bool) (h : Sparse.wf m = true) :
    Sparse.wf (m.filter p) = true := by
  rw [Sparse.wf_iff] at *
  exact ⟨h.1.filter p, fun e he => h.2 e (List.mem_filter.1 he).1⟩

theorem Sparse.wf_clear {m : Sparse w} {lo hi : Nat} (h : Sparse.wf m = true) : Sparse.wf (Sparse.clear m lo hi) = true :=
  Sparse.wf_filter _ h

theorem Sparse.wf_append {m n : Sparse w} (hm : Sparse.wf m = true) (hn : Sparse.wf n = true)
    (h : ∀ a ∈ m, ∀ b ∈ n, a.1 < b.1) : Sparse.wf (m ++ n) = true := by
  rw [Sparse.wf_iff] at *
  refine ⟨List.pairwise_append.2 ⟨hm.1, hn.1, h⟩, fun e he => ?_⟩
  rcases List.mem_append.1 he with he | he
  · exact hm.2 e he
  · exact hn.2 e he

/-- The listed words of a block, from a first key. -/
theorem Sparse.blockWords (vals : List (BitVec w)) (lo : Nat) :
    Sparse.wf ((vals.zipIdx lo).filterMap fun p => if p.1 = 0 then none else some (p.2, p.1)) = true ∧
    ∀ e ∈ ((vals.zipIdx lo).filterMap fun p => if p.1 = 0 then none else some (p.2, p.1)),
      lo ≤ e.1 ∧ e.1 < lo + vals.length := by
  induction vals generalizing lo with
  | nil => exact ⟨rfl, by simp⟩
  | cons v r ih =>
    obtain ⟨h1, h2⟩ := ih (lo + 1)
    by_cases hv : v = 0#w
    · refine ⟨by simpa [List.zipIdx_cons, hv] using h1, fun e he => ?_⟩
      have := h2 e (by simpa [List.zipIdx_cons, hv] using he)
      simp only [List.length_cons]; omega
    · refine ⟨?_, fun e he => ?_⟩
      · rw [List.zipIdx_cons, List.filterMap_cons_some (b := (lo, v)) (by simp [hv])]
        exact Sparse.wf_cons.2 ⟨hv, fun e he => by have := h2 e he; omega, h1⟩
      · rw [List.zipIdx_cons, List.filterMap_cons_some (b := (lo, v)) (by simp [hv])] at he
        rcases List.mem_cons.1 he with rfl | he
        · simp only [List.length_cons]; omega
        · have := h2 e he
          simp only [List.length_cons]; omega

theorem Sparse.wf_block {m : Sparse w} {lo hi : Nat} {vals : List (BitVec w)} (h : Sparse.wf m = true)
    (hl : lo + vals.length ≤ hi) : Sparse.wf (Sparse.block m lo hi vals) = true := by
  obtain ⟨h1, h2⟩ := Sparse.blockWords vals lo
  refine Sparse.wf_append (Sparse.wf_append (Sparse.wf_filter _ h) h1 ?_) (Sparse.wf_filter _ h) ?_
  · intro a ha b hb
    have := (List.mem_filter.1 ha).2
    have := h2 b hb
    simp only [decide_eq_true_eq] at *; omega
  · intro a ha b hb
    have hb := (List.mem_filter.1 hb).2
    rcases List.mem_append.1 ha with ha | ha
    · have := (List.mem_filter.1 ha).2
      simp only [decide_eq_true_eq] at *; omega
    · have := h2 a ha
      simp only [decide_eq_true_eq] at *; omega

theorem Memory.wf_writeBytes {m : Memory} {a : Nat} {bs : List Byte} (h : Memory.wf m = true) :
    Memory.wf (Memory.writeBytes m a bs) = true := by
  induction bs generalizing m a with
  | nil => exact h
  | cons b r ih => exact ih (Sparse.wf_set h)

theorem Memory.wf_writeNat {m : Memory} {a x n : Nat} (h : Memory.wf m = true) :
    Memory.wf (Memory.writeNat m a x n) = true := Memory.wf_writeBytes h

theorem Memory.wf_copyBlock {m src : Memory} {dst a n : Nat} (h : Memory.wf m = true) (hs : Memory.wf src = true) :
    Memory.wf (Memory.copyBlock m dst src a n) = true := by
  have key : ∀ e ∈ (src.filter fun e => decide (a ≤ e.1) && decide (e.1 < a + n)).map (fun e => (e.1 - a + dst, e.2)),
      dst ≤ e.1 ∧ e.1 < dst + n := by
    intro e he
    obtain ⟨f, hf, rfl⟩ := List.mem_map.1 he
    have := (List.mem_filter.1 hf).2
    simp only [Bool.and_eq_true, decide_eq_true_eq] at this
    simp only; omega
  have mid : Sparse.wf ((src.filter fun e => decide (a ≤ e.1) && decide (e.1 < a + n)).map
      (fun e => (e.1 - a + dst, e.2))) = true := by
    have hf := Sparse.wf_iff.1 (Sparse.wf_filter (fun e => decide (a ≤ e.1) && decide (e.1 < a + n)) hs)
    refine Sparse.wf_iff.2 ⟨?_, fun e he => ?_⟩
    · refine List.pairwise_map.2 (hf.1.imp_of_mem ?_)
      intro x y hx hy hxy
      have hx := (List.mem_filter.1 hx).2
      have hy := (List.mem_filter.1 hy).2
      simp only [Bool.and_eq_true, decide_eq_true_eq] at hx hy
      simp only; omega
    · obtain ⟨f, hf', rfl⟩ := List.mem_map.1 he
      exact hf.2 f hf'
  refine Sparse.wf_append (Sparse.wf_append (Sparse.wf_filter _ h) mid ?_) (Sparse.wf_filter _ h) ?_
  · intro x hx y hy
    have hx := (List.mem_filter.1 hx).2
    have := key y hy
    simp only [decide_eq_true_eq] at *; omega
  · intro x hx y hy
    have hy := (List.mem_filter.1 hy).2
    rcases List.mem_append.1 hx with hx | hx
    · have := (List.mem_filter.1 hx).2
      simp only [decide_eq_true_eq] at *; omega
    · have := key x hx
      simp only [decide_eq_true_eq] at *; omega

/-! Byte strings in memory. -/

theorem Memory.get_writeBytes_other {m : Memory} {a j : Nat} {bs : List Byte} (h : j < a ∨ a + bs.length ≤ j) :
    Sparse.get (Memory.writeBytes m a bs) j = Sparse.get m j := by
  induction bs generalizing m a with
  | nil => rfl
  | cons b r ih =>
    simp only [List.length_cons] at h
    rw [Memory.writeBytes, ih (by omega), Sparse.get_set_other _ _ (by omega)]

theorem Memory.get_writeBytes {m : Memory} {a : Nat} {bs : List Byte} (h : Memory.wf m = true) {i : Nat}
    (hi : i < bs.length) : Sparse.get (Memory.writeBytes m a bs) (a + i) = bs[i] := by
  induction bs generalizing m a i with
  | nil => simp at hi
  | cons b r ih =>
    rw [Memory.writeBytes]
    cases i with
    | zero => rw [Memory.get_writeBytes_other (by omega)]; simp [Sparse.get_set_self b h]
    | succ i =>
      have := ih (m := Sparse.set m a b) (a := a + 1) (Sparse.wf_set h) (i := i) (by simpa using hi)
      rw [show a + (i + 1) = a + 1 + i by omega, this]; simp

/-- What is written is read back (R11). -/
theorem Memory.readBytes_writeBytes {m : Memory} {a : Nat} {bs : List Byte} (h : Memory.wf m = true) :
    Memory.readBytes (Memory.writeBytes m a bs) a bs.length = bs := by
  have gen : ∀ (n : Memory) (b : Nat) (l : List Byte), (∀ i, (hi : i < l.length) → Sparse.get n (b + i) = l[i]) →
      Memory.readBytes n b l.length = l := by
    intro n b l
    induction l generalizing b with
    | nil => intro _; rfl
    | cons x r ih =>
      intro hl
      have h0 := hl 0 (by simp)
      simp only [List.length_cons, Memory.readBytes]
      rw [show Sparse.get n b = x by simpa using h0, ih (b + 1)]
      intro i hi
      have := hl (i + 1) (by simpa using hi)
      rw [show b + 1 + i = b + (i + 1) by omega]; simpa using this
  exact gen _ _ _ fun i hi => Memory.get_writeBytes h hi

theorem bytesOf_length (x n : Nat) : (bytesOf x n).length = n := by
  induction n generalizing x with
  | zero => rfl
  | succ n ih => simp [bytesOf, ih]

theorem natOfBytes_bytesOf (x n : Nat) : natOfBytes (bytesOf x n) = x % 256 ^ n := by
  induction n generalizing x with
  | zero => simp [bytesOf, natOfBytes, Nat.mod_one]
  | succ n ih =>
    rw [bytesOf, natOfBytes, ih, BitVec.toNat_ofNat, show (2 : Nat) ^ 8 = 256 from rfl, Nat.mod_mod, Nat.pow_succ,
      Nat.mul_comm (256 ^ n) 256, Nat.mod_mul]

/-! Keyed tables. -/

theorem tfind_tput_self (t : List (Nat × α)) (k : Nat) (v : α) : tfind (tput t k v) k = some v := by
  induction t with
  | nil => simp [tput, tfind]
  | cons e r ih =>
    obtain ⟨a, x⟩ := e
    simp only [tput]
    by_cases h1 : a < k
    · simp [h1, tfind, Nat.ne_of_lt h1, ih]
    · by_cases h2 : a = k
      · simp [h2, tfind]
      · simp [h1, h2, tfind]

theorem tfind_tput_other (t : List (Nat × α)) {k j : Nat} (v : α) (h : j ≠ k) : tfind (tput t k v) j = tfind t j := by
  induction t with
  | nil => simp [tput, tfind, Ne.symm h]
  | cons e r ih =>
    obtain ⟨a, x⟩ := e
    simp only [tput]
    by_cases h1 : a < k
    · simp [h1, tfind, ih]
    · by_cases h2 : a = k
      · subst h2; simp [tfind, Ne.symm h]
      · simp [h1, h2, tfind, Ne.symm h]

/-- An entry put is found, and every other entry is as before. -/
theorem tfind_tput (t : List (Nat × α)) (k j : Nat) (v : α) :
    tfind (tput t k v) j = if j = k then some v else tfind t j := by
  by_cases h : j = k
  · subst h; simp [tfind_tput_self]
  · simp [h, tfind_tput_other t v h]

theorem tget_tput (t : List (Nat × α)) (k j : Nat) (v d : α) :
    tget (tput t k v) j d = if j = k then v else tget t j d := by
  by_cases h : j = k <;> simp [tget, tfind_tput, h]

theorem tmod_some {t : List (Nat × α)} {k : Nat} {x : α} (h : tfind t k = some x) (f : α → α) :
    tmod t k f = tput t k (f x) := by simp [tmod, h]

theorem tmod_none {t : List (Nat × α)} {k : Nat} (h : tfind t k = none) (f : α → α) : tmod t k f = t := by
  simp [tmod, h]

theorem tfind_tmod (t : List (Nat × α)) (k j : Nat) (f : α → α) :
    tfind (tmod t k f) j = if j = k then (tfind t k).map f else tfind t j := by
  cases h : tfind t k with
  | none => by_cases hj : j = k <;> simp [tmod_none h, hj, h]
  | some x => by_cases hj : j = k <;> simp [tmod_some h, tfind_tput, hj]

theorem tput_tput (t : List (Nat × α)) (k : Nat) (v u : α) : tput (tput t k v) k u = tput t k u := by
  induction t with
  | nil => simp [tput]
  | cons e r ih =>
    obtain ⟨a, x⟩ := e
    simp only [tput]
    by_cases h1 : a < k
    · simp [h1, tput, ih]
    · by_cases h2 : a = k
      · simp [h2, tput]
      · simp [h1, h2, tput]

theorem tmod_tput (t : List (Nat × α)) (k : Nat) (v : α) (f : α → α) : tmod (tput t k v) k f = tput t k (f v) := by
  rw [tmod_some (tfind_tput_self t k v), tput_tput]

end Sys2Proof
end

