-- ==== Sys2Proof/Laws/State.lean ====
section
/-!
SUPPORT. What each keyed update of the state leaves in each field, so that no proof unfolds a record update, and what it
leaves in the keyed tables.
-/
namespace Sys2Proof.Machine

variable (s : State)

/-! `putGroup`. -/

@[simp] theorem State.putGroup_agenda (g : Gid) (x : Group) : (s.putGroup g x).agenda = s.agenda := rfl
@[simp] theorem State.putGroup_freeCtr (g : Gid) (x : Group) : (s.putGroup g x).freeCtr = s.freeCtr := rfl
@[simp] theorem State.putGroup_cur (g : Gid) (x : Group) : (s.putGroup g x).cur = s.cur := rfl
@[simp] theorem State.putGroup_upsets (g : Gid) (x : Group) : (s.putGroup g x).upsets = s.upsets := rfl
@[simp] theorem State.putGroup_hbm (g : Gid) (x : Group) : (s.putGroup g x).hbm = s.hbm := rfl
@[simp] theorem State.putGroup_host (g : Gid) (x : Group) : (s.putGroup g x).host = s.host := rfl
@[simp] theorem State.putGroup_peers (g : Gid) (x : Group) : (s.putGroup g x).peers = s.peers := rfl
@[simp] theorem State.putGroup_spaces (g : Gid) (x : Group) : (s.putGroup g x).spaces = s.spaces := rfl
@[simp] theorem State.putGroup_conns (g : Gid) (x : Group) : (s.putGroup g x).conns = s.conns := rfl
@[simp] theorem State.putGroup_bank (g : Gid) (x : Group) : (s.putGroup g x).bank = s.bank := rfl
@[simp] theorem State.putGroup_l2 (g : Gid) (x : Group) : (s.putGroup g x).l2 = s.l2 := rfl
@[simp] theorem State.putGroup_poison (g : Gid) (x : Group) : (s.putGroup g x).poison = s.poison := rfl
@[simp] theorem State.putGroup_timeref (g : Gid) (x : Group) : (s.putGroup g x).timeref = s.timeref := rfl
@[simp] theorem State.putGroup_sites (g : Gid) (x : Group) : (s.putGroup g x).sites = s.sites := rfl
@[simp] theorem State.putGroup_deadSites (g : Gid) (x : Group) : (s.putGroup g x).deadSites = s.deadSites := rfl
@[simp] theorem State.putGroup_fusedBad (g : Gid) (x : Group) : (s.putGroup g x).fusedBad = s.fusedBad := rfl
@[simp] theorem State.putGroup_laneBad (g : Gid) (x : Group) : (s.putGroup g x).laneBad = s.laneBad := rfl
@[simp] theorem State.putGroup_islands (g : Gid) (x : Group) : (s.putGroup g x).islands = s.islands := rfl
@[simp] theorem State.putGroup_hot (g : Gid) (x : Group) : (s.putGroup g x).hot = s.hot := rfl
@[simp] theorem State.putGroup_warn (g : Gid) (x : Group) : (s.putGroup g x).warn = s.warn := rfl
@[simp] theorem State.putGroup_critical (g : Gid) (x : Group) : (s.putGroup g x).critical = s.critical := rfl
@[simp] theorem State.putGroup_partition (g : Gid) (x : Group) : (s.putGroup g x).partition = s.partition := rfl
@[simp] theorem State.putGroup_gbarPtr (g : Gid) (x : Group) : (s.putGroup g x).gbarPtr = s.gbarPtr := rfl
@[simp] theorem State.putGroup_resumeQ (g : Gid) (x : Group) : (s.putGroup g x).resumeQ = s.resumeQ := rfl
@[simp] theorem State.putGroup_resumed (g : Gid) (x : Group) : (s.putGroup g x).resumed = s.resumed := rfl
@[simp] theorem State.putGroup_cores (g : Gid) (x : Group) : (s.putGroup g x).cores = s.cores := rfl
@[simp] theorem State.putGroup_groups (g : Gid) (x : Group) : (s.putGroup g x).groups = tput s.groups g x := rfl
@[simp] theorem State.putGroup_teams (g : Gid) (x : Group) : (s.putGroup g x).teams = s.teams := rfl
@[simp] theorem State.putGroup_launches (g : Gid) (x : Group) : (s.putGroup g x).launches = s.launches := rfl
@[simp] theorem State.putGroup_queues (g : Gid) (x : Group) : (s.putGroup g x).queues = s.queues := rfl
@[simp] theorem State.putGroup_lastServed (g : Gid) (x : Group) : (s.putGroup g x).lastServed = s.lastServed := rfl
@[simp] theorem State.putGroup_ctxs (g : Gid) (x : Group) : (s.putGroup g x).ctxs = s.ctxs := rfl
@[simp] theorem State.putGroup_objects (g : Gid) (x : Group) : (s.putGroup g x).objects = s.objects := rfl
@[simp] theorem State.putGroup_nextObj (g : Gid) (x : Group) : (s.putGroup g x).nextObj = s.nextObj := rfl
@[simp] theorem State.putGroup_reserved (g : Gid) (x : Group) : (s.putGroup g x).reserved = s.reserved := rfl
@[simp] theorem State.putGroup_hostUsed (g : Gid) (x : Group) : (s.putGroup g x).hostUsed = s.hostUsed := rfl
@[simp] theorem State.putGroup_nextLaunch (g : Gid) (x : Group) : (s.putGroup g x).nextLaunch = s.nextLaunch := rfl
@[simp] theorem State.putGroup_faults (g : Gid) (x : Group) : (s.putGroup g x).faults = s.faults := rfl
@[simp] theorem State.putGroup_tlb (g : Gid) (x : Group) : (s.putGroup g x).tlb = s.tlb := rfl
@[simp] theorem State.putGroup_ctrl (g : Gid) (x : Group) : (s.putGroup g x).ctrl = s.ctrl := rfl
@[simp] theorem State.putGroup_links (g : Gid) (x : Group) : (s.putGroup g x).links = s.links := rfl
@[simp] theorem State.putGroup_mgmt (g : Gid) (x : Group) : (s.putGroup g x).mgmt = s.mgmt := rfl
@[simp] theorem State.putGroup_powered (g : Gid) (x : Group) : (s.putGroup g x).powered = s.powered := rfl
@[simp] theorem State.putGroup_harts (g : Gid) (x : Group) : (s.putGroup g x).harts = s.harts := rfl
@[simp] theorem State.putGroup_osFound (g : Gid) (x : Group) : (s.putGroup g x).osFound = s.osFound := rfl
@[simp] theorem State.putGroup_confined (g : Gid) (x : Group) : (s.putGroup g x).confined = s.confined := rfl
@[simp] theorem State.putGroup_vilaz (g : Gid) (x : Group) : (s.putGroup g x).vilaz = s.vilaz := rfl
@[simp] theorem State.putGroup_vilazDigest (g : Gid) (x : Group) : (s.putGroup g x).vilazDigest = s.vilazDigest := rfl
@[simp] theorem State.putGroup_outbox (g : Gid) (x : Group) : (s.putGroup g x).outbox = s.outbox := rfl

/-! `modGroup`. -/

@[simp] theorem State.modGroup_agenda (g : Gid) (f : Group → Group) : (s.modGroup g f).agenda = s.agenda := rfl
@[simp] theorem State.modGroup_freeCtr (g : Gid) (f : Group → Group) : (s.modGroup g f).freeCtr = s.freeCtr := rfl
@[simp] theorem State.modGroup_cur (g : Gid) (f : Group → Group) : (s.modGroup g f).cur = s.cur := rfl
@[simp] theorem State.modGroup_upsets (g : Gid) (f : Group → Group) : (s.modGroup g f).upsets = s.upsets := rfl
@[simp] theorem State.modGroup_hbm (g : Gid) (f : Group → Group) : (s.modGroup g f).hbm = s.hbm := rfl
@[simp] theorem State.modGroup_host (g : Gid) (f : Group → Group) : (s.modGroup g f).host = s.host := rfl
@[simp] theorem State.modGroup_peers (g : Gid) (f : Group → Group) : (s.modGroup g f).peers = s.peers := rfl
@[simp] theorem State.modGroup_spaces (g : Gid) (f : Group → Group) : (s.modGroup g f).spaces = s.spaces := rfl
@[simp] theorem State.modGroup_conns (g : Gid) (f : Group → Group) : (s.modGroup g f).conns = s.conns := rfl
@[simp] theorem State.modGroup_bank (g : Gid) (f : Group → Group) : (s.modGroup g f).bank = s.bank := rfl
@[simp] theorem State.modGroup_l2 (g : Gid) (f : Group → Group) : (s.modGroup g f).l2 = s.l2 := rfl
@[simp] theorem State.modGroup_poison (g : Gid) (f : Group → Group) : (s.modGroup g f).poison = s.poison := rfl
@[simp] theorem State.modGroup_timeref (g : Gid) (f : Group → Group) : (s.modGroup g f).timeref = s.timeref := rfl
@[simp] theorem State.modGroup_sites (g : Gid) (f : Group → Group) : (s.modGroup g f).sites = s.sites := rfl
@[simp] theorem State.modGroup_deadSites (g : Gid) (f : Group → Group) : (s.modGroup g f).deadSites = s.deadSites := rfl
@[simp] theorem State.modGroup_fusedBad (g : Gid) (f : Group → Group) : (s.modGroup g f).fusedBad = s.fusedBad := rfl
@[simp] theorem State.modGroup_laneBad (g : Gid) (f : Group → Group) : (s.modGroup g f).laneBad = s.laneBad := rfl
@[simp] theorem State.modGroup_islands (g : Gid) (f : Group → Group) : (s.modGroup g f).islands = s.islands := rfl
@[simp] theorem State.modGroup_hot (g : Gid) (f : Group → Group) : (s.modGroup g f).hot = s.hot := rfl
@[simp] theorem State.modGroup_warn (g : Gid) (f : Group → Group) : (s.modGroup g f).warn = s.warn := rfl
@[simp] theorem State.modGroup_critical (g : Gid) (f : Group → Group) : (s.modGroup g f).critical = s.critical := rfl
@[simp] theorem State.modGroup_partition (g : Gid) (f : Group → Group) : (s.modGroup g f).partition = s.partition := rfl
@[simp] theorem State.modGroup_gbarPtr (g : Gid) (f : Group → Group) : (s.modGroup g f).gbarPtr = s.gbarPtr := rfl
@[simp] theorem State.modGroup_resumeQ (g : Gid) (f : Group → Group) : (s.modGroup g f).resumeQ = s.resumeQ := rfl
@[simp] theorem State.modGroup_resumed (g : Gid) (f : Group → Group) : (s.modGroup g f).resumed = s.resumed := rfl
@[simp] theorem State.modGroup_cores (g : Gid) (f : Group → Group) : (s.modGroup g f).cores = s.cores := rfl
@[simp] theorem State.modGroup_groups (g : Gid) (f : Group → Group) : (s.modGroup g f).groups = tmod s.groups g f := rfl
@[simp] theorem State.modGroup_teams (g : Gid) (f : Group → Group) : (s.modGroup g f).teams = s.teams := rfl
@[simp] theorem State.modGroup_launches (g : Gid) (f : Group → Group) : (s.modGroup g f).launches = s.launches := rfl
@[simp] theorem State.modGroup_queues (g : Gid) (f : Group → Group) : (s.modGroup g f).queues = s.queues := rfl
@[simp] theorem State.modGroup_lastServed (g : Gid) (f : Group → Group) : (s.modGroup g f).lastServed = s.lastServed := rfl
@[simp] theorem State.modGroup_ctxs (g : Gid) (f : Group → Group) : (s.modGroup g f).ctxs = s.ctxs := rfl
@[simp] theorem State.modGroup_objects (g : Gid) (f : Group → Group) : (s.modGroup g f).objects = s.objects := rfl
@[simp] theorem State.modGroup_nextObj (g : Gid) (f : Group → Group) : (s.modGroup g f).nextObj = s.nextObj := rfl
@[simp] theorem State.modGroup_reserved (g : Gid) (f : Group → Group) : (s.modGroup g f).reserved = s.reserved := rfl
@[simp] theorem State.modGroup_hostUsed (g : Gid) (f : Group → Group) : (s.modGroup g f).hostUsed = s.hostUsed := rfl
@[simp] theorem State.modGroup_nextLaunch (g : Gid) (f : Group → Group) : (s.modGroup g f).nextLaunch = s.nextLaunch := rfl
@[simp] theorem State.modGroup_faults (g : Gid) (f : Group → Group) : (s.modGroup g f).faults = s.faults := rfl
@[simp] theorem State.modGroup_tlb (g : Gid) (f : Group → Group) : (s.modGroup g f).tlb = s.tlb := rfl
@[simp] theorem State.modGroup_ctrl (g : Gid) (f : Group → Group) : (s.modGroup g f).ctrl = s.ctrl := rfl
@[simp] theorem State.modGroup_links (g : Gid) (f : Group → Group) : (s.modGroup g f).links = s.links := rfl
@[simp] theorem State.modGroup_mgmt (g : Gid) (f : Group → Group) : (s.modGroup g f).mgmt = s.mgmt := rfl
@[simp] theorem State.modGroup_powered (g : Gid) (f : Group → Group) : (s.modGroup g f).powered = s.powered := rfl
@[simp] theorem State.modGroup_harts (g : Gid) (f : Group → Group) : (s.modGroup g f).harts = s.harts := rfl
@[simp] theorem State.modGroup_osFound (g : Gid) (f : Group → Group) : (s.modGroup g f).osFound = s.osFound := rfl
@[simp] theorem State.modGroup_confined (g : Gid) (f : Group → Group) : (s.modGroup g f).confined = s.confined := rfl
@[simp] theorem State.modGroup_vilaz (g : Gid) (f : Group → Group) : (s.modGroup g f).vilaz = s.vilaz := rfl
@[simp] theorem State.modGroup_vilazDigest (g : Gid) (f : Group → Group) : (s.modGroup g f).vilazDigest = s.vilazDigest := rfl
@[simp] theorem State.modGroup_outbox (g : Gid) (f : Group → Group) : (s.modGroup g f).outbox = s.outbox := rfl

/-! `modTeam`. -/

@[simp] theorem State.modTeam_agenda (t : Nat) (f : Team → Team) : (s.modTeam t f).agenda = s.agenda := rfl
@[simp] theorem State.modTeam_freeCtr (t : Nat) (f : Team → Team) : (s.modTeam t f).freeCtr = s.freeCtr := rfl
@[simp] theorem State.modTeam_cur (t : Nat) (f : Team → Team) : (s.modTeam t f).cur = s.cur := rfl
@[simp] theorem State.modTeam_upsets (t : Nat) (f : Team → Team) : (s.modTeam t f).upsets = s.upsets := rfl
@[simp] theorem State.modTeam_hbm (t : Nat) (f : Team → Team) : (s.modTeam t f).hbm = s.hbm := rfl
@[simp] theorem State.modTeam_host (t : Nat) (f : Team → Team) : (s.modTeam t f).host = s.host := rfl
@[simp] theorem State.modTeam_peers (t : Nat) (f : Team → Team) : (s.modTeam t f).peers = s.peers := rfl
@[simp] theorem State.modTeam_spaces (t : Nat) (f : Team → Team) : (s.modTeam t f).spaces = s.spaces := rfl
@[simp] theorem State.modTeam_conns (t : Nat) (f : Team → Team) : (s.modTeam t f).conns = s.conns := rfl
@[simp] theorem State.modTeam_bank (t : Nat) (f : Team → Team) : (s.modTeam t f).bank = s.bank := rfl
@[simp] theorem State.modTeam_l2 (t : Nat) (f : Team → Team) : (s.modTeam t f).l2 = s.l2 := rfl
@[simp] theorem State.modTeam_poison (t : Nat) (f : Team → Team) : (s.modTeam t f).poison = s.poison := rfl
@[simp] theorem State.modTeam_timeref (t : Nat) (f : Team → Team) : (s.modTeam t f).timeref = s.timeref := rfl
@[simp] theorem State.modTeam_sites (t : Nat) (f : Team → Team) : (s.modTeam t f).sites = s.sites := rfl
@[simp] theorem State.modTeam_deadSites (t : Nat) (f : Team → Team) : (s.modTeam t f).deadSites = s.deadSites := rfl
@[simp] theorem State.modTeam_fusedBad (t : Nat) (f : Team → Team) : (s.modTeam t f).fusedBad = s.fusedBad := rfl
@[simp] theorem State.modTeam_laneBad (t : Nat) (f : Team → Team) : (s.modTeam t f).laneBad = s.laneBad := rfl
@[simp] theorem State.modTeam_islands (t : Nat) (f : Team → Team) : (s.modTeam t f).islands = s.islands := rfl
@[simp] theorem State.modTeam_hot (t : Nat) (f : Team → Team) : (s.modTeam t f).hot = s.hot := rfl
@[simp] theorem State.modTeam_warn (t : Nat) (f : Team → Team) : (s.modTeam t f).warn = s.warn := rfl
@[simp] theorem State.modTeam_critical (t : Nat) (f : Team → Team) : (s.modTeam t f).critical = s.critical := rfl
@[simp] theorem State.modTeam_partition (t : Nat) (f : Team → Team) : (s.modTeam t f).partition = s.partition := rfl
@[simp] theorem State.modTeam_gbarPtr (t : Nat) (f : Team → Team) : (s.modTeam t f).gbarPtr = s.gbarPtr := rfl
@[simp] theorem State.modTeam_resumeQ (t : Nat) (f : Team → Team) : (s.modTeam t f).resumeQ = s.resumeQ := rfl
@[simp] theorem State.modTeam_resumed (t : Nat) (f : Team → Team) : (s.modTeam t f).resumed = s.resumed := rfl
@[simp] theorem State.modTeam_cores (t : Nat) (f : Team → Team) : (s.modTeam t f).cores = s.cores := rfl
@[simp] theorem State.modTeam_groups (t : Nat) (f : Team → Team) : (s.modTeam t f).groups = s.groups := rfl
@[simp] theorem State.modTeam_teams (t : Nat) (f : Team → Team) : (s.modTeam t f).teams = tmod s.teams t f := rfl
@[simp] theorem State.modTeam_launches (t : Nat) (f : Team → Team) : (s.modTeam t f).launches = s.launches := rfl
@[simp] theorem State.modTeam_queues (t : Nat) (f : Team → Team) : (s.modTeam t f).queues = s.queues := rfl
@[simp] theorem State.modTeam_lastServed (t : Nat) (f : Team → Team) : (s.modTeam t f).lastServed = s.lastServed := rfl
@[simp] theorem State.modTeam_ctxs (t : Nat) (f : Team → Team) : (s.modTeam t f).ctxs = s.ctxs := rfl
@[simp] theorem State.modTeam_objects (t : Nat) (f : Team → Team) : (s.modTeam t f).objects = s.objects := rfl
@[simp] theorem State.modTeam_nextObj (t : Nat) (f : Team → Team) : (s.modTeam t f).nextObj = s.nextObj := rfl
@[simp] theorem State.modTeam_reserved (t : Nat) (f : Team → Team) : (s.modTeam t f).reserved = s.reserved := rfl
@[simp] theorem State.modTeam_hostUsed (t : Nat) (f : Team → Team) : (s.modTeam t f).hostUsed = s.hostUsed := rfl
@[simp] theorem State.modTeam_nextLaunch (t : Nat) (f : Team → Team) : (s.modTeam t f).nextLaunch = s.nextLaunch := rfl
@[simp] theorem State.modTeam_faults (t : Nat) (f : Team → Team) : (s.modTeam t f).faults = s.faults := rfl
@[simp] theorem State.modTeam_tlb (t : Nat) (f : Team → Team) : (s.modTeam t f).tlb = s.tlb := rfl
@[simp] theorem State.modTeam_ctrl (t : Nat) (f : Team → Team) : (s.modTeam t f).ctrl = s.ctrl := rfl
@[simp] theorem State.modTeam_links (t : Nat) (f : Team → Team) : (s.modTeam t f).links = s.links := rfl
@[simp] theorem State.modTeam_mgmt (t : Nat) (f : Team → Team) : (s.modTeam t f).mgmt = s.mgmt := rfl
@[simp] theorem State.modTeam_powered (t : Nat) (f : Team → Team) : (s.modTeam t f).powered = s.powered := rfl
@[simp] theorem State.modTeam_harts (t : Nat) (f : Team → Team) : (s.modTeam t f).harts = s.harts := rfl
@[simp] theorem State.modTeam_osFound (t : Nat) (f : Team → Team) : (s.modTeam t f).osFound = s.osFound := rfl
@[simp] theorem State.modTeam_confined (t : Nat) (f : Team → Team) : (s.modTeam t f).confined = s.confined := rfl
@[simp] theorem State.modTeam_vilaz (t : Nat) (f : Team → Team) : (s.modTeam t f).vilaz = s.vilaz := rfl
@[simp] theorem State.modTeam_vilazDigest (t : Nat) (f : Team → Team) : (s.modTeam t f).vilazDigest = s.vilazDigest := rfl
@[simp] theorem State.modTeam_outbox (t : Nat) (f : Team → Team) : (s.modTeam t f).outbox = s.outbox := rfl

/-! `modLaunch`. -/

@[simp] theorem State.modLaunch_agenda (l : Nat) (f : Launch → Launch) : (s.modLaunch l f).agenda = s.agenda := rfl
@[simp] theorem State.modLaunch_freeCtr (l : Nat) (f : Launch → Launch) : (s.modLaunch l f).freeCtr = s.freeCtr := rfl
@[simp] theorem State.modLaunch_cur (l : Nat) (f : Launch → Launch) : (s.modLaunch l f).cur = s.cur := rfl
@[simp] theorem State.modLaunch_upsets (l : Nat) (f : Launch → Launch) : (s.modLaunch l f).upsets = s.upsets := rfl
@[simp] theorem State.modLaunch_hbm (l : Nat) (f : Launch → Launch) : (s.modLaunch l f).hbm = s.hbm := rfl
@[simp] theorem State.modLaunch_host (l : Nat) (f : Launch → Launch) : (s.modLaunch l f).host = s.host := rfl
@[simp] theorem State.modLaunch_peers (l : Nat) (f : Launch → Launch) : (s.modLaunch l f).peers = s.peers := rfl
@[simp] theorem State.modLaunch_spaces (l : Nat) (f : Launch → Launch) : (s.modLaunch l f).spaces = s.spaces := rfl
@[simp] theorem State.modLaunch_conns (l : Nat) (f : Launch → Launch) : (s.modLaunch l f).conns = s.conns := rfl
@[simp] theorem State.modLaunch_bank (l : Nat) (f : Launch → Launch) : (s.modLaunch l f).bank = s.bank := rfl
@[simp] theorem State.modLaunch_l2 (l : Nat) (f : Launch → Launch) : (s.modLaunch l f).l2 = s.l2 := rfl
@[simp] theorem State.modLaunch_poison (l : Nat) (f : Launch → Launch) : (s.modLaunch l f).poison = s.poison := rfl
@[simp] theorem State.modLaunch_timeref (l : Nat) (f : Launch → Launch) : (s.modLaunch l f).timeref = s.timeref := rfl
@[simp] theorem State.modLaunch_sites (l : Nat) (f : Launch → Launch) : (s.modLaunch l f).sites = s.sites := rfl
@[simp] theorem State.modLaunch_deadSites (l : Nat) (f : Launch → Launch) : (s.modLaunch l f).deadSites = s.deadSites := rfl
@[simp] theorem State.modLaunch_fusedBad (l : Nat) (f : Launch → Launch) : (s.modLaunch l f).fusedBad = s.fusedBad := rfl
@[simp] theorem State.modLaunch_laneBad (l : Nat) (f : Launch → Launch) : (s.modLaunch l f).laneBad = s.laneBad := rfl
@[simp] theorem State.modLaunch_islands (l : Nat) (f : Launch → Launch) : (s.modLaunch l f).islands = s.islands := rfl
@[simp] theorem State.modLaunch_hot (l : Nat) (f : Launch → Launch) : (s.modLaunch l f).hot = s.hot := rfl
@[simp] theorem State.modLaunch_warn (l : Nat) (f : Launch → Launch) : (s.modLaunch l f).warn = s.warn := rfl
@[simp] theorem State.modLaunch_critical (l : Nat) (f : Launch → Launch) : (s.modLaunch l f).critical = s.critical := rfl
@[simp] theorem State.modLaunch_partition (l : Nat) (f : Launch → Launch) : (s.modLaunch l f).partition = s.partition := rfl
@[simp] theorem State.modLaunch_gbarPtr (l : Nat) (f : Launch → Launch) : (s.modLaunch l f).gbarPtr = s.gbarPtr := rfl
@[simp] theorem State.modLaunch_resumeQ (l : Nat) (f : Launch → Launch) : (s.modLaunch l f).resumeQ = s.resumeQ := rfl
@[simp] theorem State.modLaunch_resumed (l : Nat) (f : Launch → Launch) : (s.modLaunch l f).resumed = s.resumed := rfl
@[simp] theorem State.modLaunch_cores (l : Nat) (f : Launch → Launch) : (s.modLaunch l f).cores = s.cores := rfl
@[simp] theorem State.modLaunch_groups (l : Nat) (f : Launch → Launch) : (s.modLaunch l f).groups = s.groups := rfl
@[simp] theorem State.modLaunch_teams (l : Nat) (f : Launch → Launch) : (s.modLaunch l f).teams = s.teams := rfl
@[simp] theorem State.modLaunch_launches (l : Nat) (f : Launch → Launch) : (s.modLaunch l f).launches = tmod s.launches l f := rfl
@[simp] theorem State.modLaunch_queues (l : Nat) (f : Launch → Launch) : (s.modLaunch l f).queues = s.queues := rfl
@[simp] theorem State.modLaunch_lastServed (l : Nat) (f : Launch → Launch) : (s.modLaunch l f).lastServed = s.lastServed := rfl
@[simp] theorem State.modLaunch_ctxs (l : Nat) (f : Launch → Launch) : (s.modLaunch l f).ctxs = s.ctxs := rfl
@[simp] theorem State.modLaunch_objects (l : Nat) (f : Launch → Launch) : (s.modLaunch l f).objects = s.objects := rfl
@[simp] theorem State.modLaunch_nextObj (l : Nat) (f : Launch → Launch) : (s.modLaunch l f).nextObj = s.nextObj := rfl
@[simp] theorem State.modLaunch_reserved (l : Nat) (f : Launch → Launch) : (s.modLaunch l f).reserved = s.reserved := rfl
@[simp] theorem State.modLaunch_hostUsed (l : Nat) (f : Launch → Launch) : (s.modLaunch l f).hostUsed = s.hostUsed := rfl
@[simp] theorem State.modLaunch_nextLaunch (l : Nat) (f : Launch → Launch) : (s.modLaunch l f).nextLaunch = s.nextLaunch := rfl
@[simp] theorem State.modLaunch_faults (l : Nat) (f : Launch → Launch) : (s.modLaunch l f).faults = s.faults := rfl
@[simp] theorem State.modLaunch_tlb (l : Nat) (f : Launch → Launch) : (s.modLaunch l f).tlb = s.tlb := rfl
@[simp] theorem State.modLaunch_ctrl (l : Nat) (f : Launch → Launch) : (s.modLaunch l f).ctrl = s.ctrl := rfl
@[simp] theorem State.modLaunch_links (l : Nat) (f : Launch → Launch) : (s.modLaunch l f).links = s.links := rfl
@[simp] theorem State.modLaunch_mgmt (l : Nat) (f : Launch → Launch) : (s.modLaunch l f).mgmt = s.mgmt := rfl
@[simp] theorem State.modLaunch_powered (l : Nat) (f : Launch → Launch) : (s.modLaunch l f).powered = s.powered := rfl
@[simp] theorem State.modLaunch_harts (l : Nat) (f : Launch → Launch) : (s.modLaunch l f).harts = s.harts := rfl
@[simp] theorem State.modLaunch_osFound (l : Nat) (f : Launch → Launch) : (s.modLaunch l f).osFound = s.osFound := rfl
@[simp] theorem State.modLaunch_confined (l : Nat) (f : Launch → Launch) : (s.modLaunch l f).confined = s.confined := rfl
@[simp] theorem State.modLaunch_vilaz (l : Nat) (f : Launch → Launch) : (s.modLaunch l f).vilaz = s.vilaz := rfl
@[simp] theorem State.modLaunch_vilazDigest (l : Nat) (f : Launch → Launch) : (s.modLaunch l f).vilazDigest = s.vilazDigest := rfl
@[simp] theorem State.modLaunch_outbox (l : Nat) (f : Launch → Launch) : (s.modLaunch l f).outbox = s.outbox := rfl

/-! `modCore`. -/

@[simp] theorem State.modCore_agenda (c : Nat) (f : Core → Core) : (s.modCore c f).agenda = s.agenda := rfl
@[simp] theorem State.modCore_freeCtr (c : Nat) (f : Core → Core) : (s.modCore c f).freeCtr = s.freeCtr := rfl
@[simp] theorem State.modCore_cur (c : Nat) (f : Core → Core) : (s.modCore c f).cur = s.cur := rfl
@[simp] theorem State.modCore_upsets (c : Nat) (f : Core → Core) : (s.modCore c f).upsets = s.upsets := rfl
@[simp] theorem State.modCore_hbm (c : Nat) (f : Core → Core) : (s.modCore c f).hbm = s.hbm := rfl
@[simp] theorem State.modCore_host (c : Nat) (f : Core → Core) : (s.modCore c f).host = s.host := rfl
@[simp] theorem State.modCore_peers (c : Nat) (f : Core → Core) : (s.modCore c f).peers = s.peers := rfl
@[simp] theorem State.modCore_spaces (c : Nat) (f : Core → Core) : (s.modCore c f).spaces = s.spaces := rfl
@[simp] theorem State.modCore_conns (c : Nat) (f : Core → Core) : (s.modCore c f).conns = s.conns := rfl
@[simp] theorem State.modCore_bank (c : Nat) (f : Core → Core) : (s.modCore c f).bank = s.bank := rfl
@[simp] theorem State.modCore_l2 (c : Nat) (f : Core → Core) : (s.modCore c f).l2 = s.l2 := rfl
@[simp] theorem State.modCore_poison (c : Nat) (f : Core → Core) : (s.modCore c f).poison = s.poison := rfl
@[simp] theorem State.modCore_timeref (c : Nat) (f : Core → Core) : (s.modCore c f).timeref = s.timeref := rfl
@[simp] theorem State.modCore_sites (c : Nat) (f : Core → Core) : (s.modCore c f).sites = s.sites := rfl
@[simp] theorem State.modCore_deadSites (c : Nat) (f : Core → Core) : (s.modCore c f).deadSites = s.deadSites := rfl
@[simp] theorem State.modCore_fusedBad (c : Nat) (f : Core → Core) : (s.modCore c f).fusedBad = s.fusedBad := rfl
@[simp] theorem State.modCore_laneBad (c : Nat) (f : Core → Core) : (s.modCore c f).laneBad = s.laneBad := rfl
@[simp] theorem State.modCore_islands (c : Nat) (f : Core → Core) : (s.modCore c f).islands = s.islands := rfl
@[simp] theorem State.modCore_hot (c : Nat) (f : Core → Core) : (s.modCore c f).hot = s.hot := rfl
@[simp] theorem State.modCore_warn (c : Nat) (f : Core → Core) : (s.modCore c f).warn = s.warn := rfl
@[simp] theorem State.modCore_critical (c : Nat) (f : Core → Core) : (s.modCore c f).critical = s.critical := rfl
@[simp] theorem State.modCore_partition (c : Nat) (f : Core → Core) : (s.modCore c f).partition = s.partition := rfl
@[simp] theorem State.modCore_gbarPtr (c : Nat) (f : Core → Core) : (s.modCore c f).gbarPtr = s.gbarPtr := rfl
@[simp] theorem State.modCore_resumeQ (c : Nat) (f : Core → Core) : (s.modCore c f).resumeQ = s.resumeQ := rfl
@[simp] theorem State.modCore_resumed (c : Nat) (f : Core → Core) : (s.modCore c f).resumed = s.resumed := rfl
@[simp] theorem State.modCore_cores (c : Nat) (f : Core → Core) : (s.modCore c f).cores = tput s.cores c (f (s.core c)) := rfl
@[simp] theorem State.modCore_groups (c : Nat) (f : Core → Core) : (s.modCore c f).groups = s.groups := rfl
@[simp] theorem State.modCore_teams (c : Nat) (f : Core → Core) : (s.modCore c f).teams = s.teams := rfl
@[simp] theorem State.modCore_launches (c : Nat) (f : Core → Core) : (s.modCore c f).launches = s.launches := rfl
@[simp] theorem State.modCore_queues (c : Nat) (f : Core → Core) : (s.modCore c f).queues = s.queues := rfl
@[simp] theorem State.modCore_lastServed (c : Nat) (f : Core → Core) : (s.modCore c f).lastServed = s.lastServed := rfl
@[simp] theorem State.modCore_ctxs (c : Nat) (f : Core → Core) : (s.modCore c f).ctxs = s.ctxs := rfl
@[simp] theorem State.modCore_objects (c : Nat) (f : Core → Core) : (s.modCore c f).objects = s.objects := rfl
@[simp] theorem State.modCore_nextObj (c : Nat) (f : Core → Core) : (s.modCore c f).nextObj = s.nextObj := rfl
@[simp] theorem State.modCore_reserved (c : Nat) (f : Core → Core) : (s.modCore c f).reserved = s.reserved := rfl
@[simp] theorem State.modCore_hostUsed (c : Nat) (f : Core → Core) : (s.modCore c f).hostUsed = s.hostUsed := rfl
@[simp] theorem State.modCore_nextLaunch (c : Nat) (f : Core → Core) : (s.modCore c f).nextLaunch = s.nextLaunch := rfl
@[simp] theorem State.modCore_faults (c : Nat) (f : Core → Core) : (s.modCore c f).faults = s.faults := rfl
@[simp] theorem State.modCore_tlb (c : Nat) (f : Core → Core) : (s.modCore c f).tlb = s.tlb := rfl
@[simp] theorem State.modCore_ctrl (c : Nat) (f : Core → Core) : (s.modCore c f).ctrl = s.ctrl := rfl
@[simp] theorem State.modCore_links (c : Nat) (f : Core → Core) : (s.modCore c f).links = s.links := rfl
@[simp] theorem State.modCore_mgmt (c : Nat) (f : Core → Core) : (s.modCore c f).mgmt = s.mgmt := rfl
@[simp] theorem State.modCore_powered (c : Nat) (f : Core → Core) : (s.modCore c f).powered = s.powered := rfl
@[simp] theorem State.modCore_harts (c : Nat) (f : Core → Core) : (s.modCore c f).harts = s.harts := rfl
@[simp] theorem State.modCore_osFound (c : Nat) (f : Core → Core) : (s.modCore c f).osFound = s.osFound := rfl
@[simp] theorem State.modCore_confined (c : Nat) (f : Core → Core) : (s.modCore c f).confined = s.confined := rfl
@[simp] theorem State.modCore_vilaz (c : Nat) (f : Core → Core) : (s.modCore c f).vilaz = s.vilaz := rfl
@[simp] theorem State.modCore_vilazDigest (c : Nat) (f : Core → Core) : (s.modCore c f).vilazDigest = s.vilazDigest := rfl
@[simp] theorem State.modCore_outbox (c : Nat) (f : Core → Core) : (s.modCore c f).outbox = s.outbox := rfl

/-! `putIsland`. -/

@[simp] theorem State.putIsland_agenda (k : Nat) (x : Island) : (s.putIsland k x).agenda = s.agenda := rfl
@[simp] theorem State.putIsland_freeCtr (k : Nat) (x : Island) : (s.putIsland k x).freeCtr = s.freeCtr := rfl
@[simp] theorem State.putIsland_cur (k : Nat) (x : Island) : (s.putIsland k x).cur = s.cur := rfl
@[simp] theorem State.putIsland_upsets (k : Nat) (x : Island) : (s.putIsland k x).upsets = s.upsets := rfl
@[simp] theorem State.putIsland_hbm (k : Nat) (x : Island) : (s.putIsland k x).hbm = s.hbm := rfl
@[simp] theorem State.putIsland_host (k : Nat) (x : Island) : (s.putIsland k x).host = s.host := rfl
@[simp] theorem State.putIsland_peers (k : Nat) (x : Island) : (s.putIsland k x).peers = s.peers := rfl
@[simp] theorem State.putIsland_spaces (k : Nat) (x : Island) : (s.putIsland k x).spaces = s.spaces := rfl
@[simp] theorem State.putIsland_conns (k : Nat) (x : Island) : (s.putIsland k x).conns = s.conns := rfl
@[simp] theorem State.putIsland_bank (k : Nat) (x : Island) : (s.putIsland k x).bank = s.bank := rfl
@[simp] theorem State.putIsland_l2 (k : Nat) (x : Island) : (s.putIsland k x).l2 = s.l2 := rfl
@[simp] theorem State.putIsland_poison (k : Nat) (x : Island) : (s.putIsland k x).poison = s.poison := rfl
@[simp] theorem State.putIsland_timeref (k : Nat) (x : Island) : (s.putIsland k x).timeref = s.timeref := rfl
@[simp] theorem State.putIsland_sites (k : Nat) (x : Island) : (s.putIsland k x).sites = s.sites := rfl
@[simp] theorem State.putIsland_deadSites (k : Nat) (x : Island) : (s.putIsland k x).deadSites = s.deadSites := rfl
@[simp] theorem State.putIsland_fusedBad (k : Nat) (x : Island) : (s.putIsland k x).fusedBad = s.fusedBad := rfl
@[simp] theorem State.putIsland_laneBad (k : Nat) (x : Island) : (s.putIsland k x).laneBad = s.laneBad := rfl
@[simp] theorem State.putIsland_islands (k : Nat) (x : Island) : (s.putIsland k x).islands = tput s.islands k x := rfl
@[simp] theorem State.putIsland_hot (k : Nat) (x : Island) : (s.putIsland k x).hot = s.hot := rfl
@[simp] theorem State.putIsland_warn (k : Nat) (x : Island) : (s.putIsland k x).warn = s.warn := rfl
@[simp] theorem State.putIsland_critical (k : Nat) (x : Island) : (s.putIsland k x).critical = s.critical := rfl
@[simp] theorem State.putIsland_partition (k : Nat) (x : Island) : (s.putIsland k x).partition = s.partition := rfl
@[simp] theorem State.putIsland_gbarPtr (k : Nat) (x : Island) : (s.putIsland k x).gbarPtr = s.gbarPtr := rfl
@[simp] theorem State.putIsland_resumeQ (k : Nat) (x : Island) : (s.putIsland k x).resumeQ = s.resumeQ := rfl
@[simp] theorem State.putIsland_resumed (k : Nat) (x : Island) : (s.putIsland k x).resumed = s.resumed := rfl
@[simp] theorem State.putIsland_cores (k : Nat) (x : Island) : (s.putIsland k x).cores = s.cores := rfl
@[simp] theorem State.putIsland_groups (k : Nat) (x : Island) : (s.putIsland k x).groups = s.groups := rfl
@[simp] theorem State.putIsland_teams (k : Nat) (x : Island) : (s.putIsland k x).teams = s.teams := rfl
@[simp] theorem State.putIsland_launches (k : Nat) (x : Island) : (s.putIsland k x).launches = s.launches := rfl
@[simp] theorem State.putIsland_queues (k : Nat) (x : Island) : (s.putIsland k x).queues = s.queues := rfl
@[simp] theorem State.putIsland_lastServed (k : Nat) (x : Island) : (s.putIsland k x).lastServed = s.lastServed := rfl
@[simp] theorem State.putIsland_ctxs (k : Nat) (x : Island) : (s.putIsland k x).ctxs = s.ctxs := rfl
@[simp] theorem State.putIsland_objects (k : Nat) (x : Island) : (s.putIsland k x).objects = s.objects := rfl
@[simp] theorem State.putIsland_nextObj (k : Nat) (x : Island) : (s.putIsland k x).nextObj = s.nextObj := rfl
@[simp] theorem State.putIsland_reserved (k : Nat) (x : Island) : (s.putIsland k x).reserved = s.reserved := rfl
@[simp] theorem State.putIsland_hostUsed (k : Nat) (x : Island) : (s.putIsland k x).hostUsed = s.hostUsed := rfl
@[simp] theorem State.putIsland_nextLaunch (k : Nat) (x : Island) : (s.putIsland k x).nextLaunch = s.nextLaunch := rfl
@[simp] theorem State.putIsland_faults (k : Nat) (x : Island) : (s.putIsland k x).faults = s.faults := rfl
@[simp] theorem State.putIsland_tlb (k : Nat) (x : Island) : (s.putIsland k x).tlb = s.tlb := rfl
@[simp] theorem State.putIsland_ctrl (k : Nat) (x : Island) : (s.putIsland k x).ctrl = s.ctrl := rfl
@[simp] theorem State.putIsland_links (k : Nat) (x : Island) : (s.putIsland k x).links = s.links := rfl
@[simp] theorem State.putIsland_mgmt (k : Nat) (x : Island) : (s.putIsland k x).mgmt = s.mgmt := rfl
@[simp] theorem State.putIsland_powered (k : Nat) (x : Island) : (s.putIsland k x).powered = s.powered := rfl
@[simp] theorem State.putIsland_harts (k : Nat) (x : Island) : (s.putIsland k x).harts = s.harts := rfl
@[simp] theorem State.putIsland_osFound (k : Nat) (x : Island) : (s.putIsland k x).osFound = s.osFound := rfl
@[simp] theorem State.putIsland_confined (k : Nat) (x : Island) : (s.putIsland k x).confined = s.confined := rfl
@[simp] theorem State.putIsland_vilaz (k : Nat) (x : Island) : (s.putIsland k x).vilaz = s.vilaz := rfl
@[simp] theorem State.putIsland_vilazDigest (k : Nat) (x : Island) : (s.putIsland k x).vilazDigest = s.vilazDigest := rfl
@[simp] theorem State.putIsland_outbox (k : Nat) (x : Island) : (s.putIsland k x).outbox = s.outbox := rfl

/-! `modCtx`. -/

@[simp] theorem State.modCtx_agenda (c : Nat) (f : Ctx → Ctx) : (s.modCtx c f).agenda = s.agenda := rfl
@[simp] theorem State.modCtx_freeCtr (c : Nat) (f : Ctx → Ctx) : (s.modCtx c f).freeCtr = s.freeCtr := rfl
@[simp] theorem State.modCtx_cur (c : Nat) (f : Ctx → Ctx) : (s.modCtx c f).cur = s.cur := rfl
@[simp] theorem State.modCtx_upsets (c : Nat) (f : Ctx → Ctx) : (s.modCtx c f).upsets = s.upsets := rfl
@[simp] theorem State.modCtx_hbm (c : Nat) (f : Ctx → Ctx) : (s.modCtx c f).hbm = s.hbm := rfl
@[simp] theorem State.modCtx_host (c : Nat) (f : Ctx → Ctx) : (s.modCtx c f).host = s.host := rfl
@[simp] theorem State.modCtx_peers (c : Nat) (f : Ctx → Ctx) : (s.modCtx c f).peers = s.peers := rfl
@[simp] theorem State.modCtx_spaces (c : Nat) (f : Ctx → Ctx) : (s.modCtx c f).spaces = s.spaces := rfl
@[simp] theorem State.modCtx_conns (c : Nat) (f : Ctx → Ctx) : (s.modCtx c f).conns = s.conns := rfl
@[simp] theorem State.modCtx_bank (c : Nat) (f : Ctx → Ctx) : (s.modCtx c f).bank = s.bank := rfl
@[simp] theorem State.modCtx_l2 (c : Nat) (f : Ctx → Ctx) : (s.modCtx c f).l2 = s.l2 := rfl
@[simp] theorem State.modCtx_poison (c : Nat) (f : Ctx → Ctx) : (s.modCtx c f).poison = s.poison := rfl
@[simp] theorem State.modCtx_timeref (c : Nat) (f : Ctx → Ctx) : (s.modCtx c f).timeref = s.timeref := rfl
@[simp] theorem State.modCtx_sites (c : Nat) (f : Ctx → Ctx) : (s.modCtx c f).sites = s.sites := rfl
@[simp] theorem State.modCtx_deadSites (c : Nat) (f : Ctx → Ctx) : (s.modCtx c f).deadSites = s.deadSites := rfl
@[simp] theorem State.modCtx_fusedBad (c : Nat) (f : Ctx → Ctx) : (s.modCtx c f).fusedBad = s.fusedBad := rfl
@[simp] theorem State.modCtx_laneBad (c : Nat) (f : Ctx → Ctx) : (s.modCtx c f).laneBad = s.laneBad := rfl
@[simp] theorem State.modCtx_islands (c : Nat) (f : Ctx → Ctx) : (s.modCtx c f).islands = s.islands := rfl
@[simp] theorem State.modCtx_hot (c : Nat) (f : Ctx → Ctx) : (s.modCtx c f).hot = s.hot := rfl
@[simp] theorem State.modCtx_warn (c : Nat) (f : Ctx → Ctx) : (s.modCtx c f).warn = s.warn := rfl
@[simp] theorem State.modCtx_critical (c : Nat) (f : Ctx → Ctx) : (s.modCtx c f).critical = s.critical := rfl
@[simp] theorem State.modCtx_partition (c : Nat) (f : Ctx → Ctx) : (s.modCtx c f).partition = s.partition := rfl
@[simp] theorem State.modCtx_gbarPtr (c : Nat) (f : Ctx → Ctx) : (s.modCtx c f).gbarPtr = s.gbarPtr := rfl
@[simp] theorem State.modCtx_resumeQ (c : Nat) (f : Ctx → Ctx) : (s.modCtx c f).resumeQ = s.resumeQ := rfl
@[simp] theorem State.modCtx_resumed (c : Nat) (f : Ctx → Ctx) : (s.modCtx c f).resumed = s.resumed := rfl
@[simp] theorem State.modCtx_cores (c : Nat) (f : Ctx → Ctx) : (s.modCtx c f).cores = s.cores := rfl
@[simp] theorem State.modCtx_groups (c : Nat) (f : Ctx → Ctx) : (s.modCtx c f).groups = s.groups := rfl
@[simp] theorem State.modCtx_teams (c : Nat) (f : Ctx → Ctx) : (s.modCtx c f).teams = s.teams := rfl
@[simp] theorem State.modCtx_launches (c : Nat) (f : Ctx → Ctx) : (s.modCtx c f).launches = s.launches := rfl
@[simp] theorem State.modCtx_queues (c : Nat) (f : Ctx → Ctx) : (s.modCtx c f).queues = s.queues := rfl
@[simp] theorem State.modCtx_lastServed (c : Nat) (f : Ctx → Ctx) : (s.modCtx c f).lastServed = s.lastServed := rfl
@[simp] theorem State.modCtx_ctxs (c : Nat) (f : Ctx → Ctx) : (s.modCtx c f).ctxs = tput s.ctxs c (f (s.ctx c)) := rfl
@[simp] theorem State.modCtx_objects (c : Nat) (f : Ctx → Ctx) : (s.modCtx c f).objects = s.objects := rfl
@[simp] theorem State.modCtx_nextObj (c : Nat) (f : Ctx → Ctx) : (s.modCtx c f).nextObj = s.nextObj := rfl
@[simp] theorem State.modCtx_reserved (c : Nat) (f : Ctx → Ctx) : (s.modCtx c f).reserved = s.reserved := rfl
@[simp] theorem State.modCtx_hostUsed (c : Nat) (f : Ctx → Ctx) : (s.modCtx c f).hostUsed = s.hostUsed := rfl
@[simp] theorem State.modCtx_nextLaunch (c : Nat) (f : Ctx → Ctx) : (s.modCtx c f).nextLaunch = s.nextLaunch := rfl
@[simp] theorem State.modCtx_faults (c : Nat) (f : Ctx → Ctx) : (s.modCtx c f).faults = s.faults := rfl
@[simp] theorem State.modCtx_tlb (c : Nat) (f : Ctx → Ctx) : (s.modCtx c f).tlb = s.tlb := rfl
@[simp] theorem State.modCtx_ctrl (c : Nat) (f : Ctx → Ctx) : (s.modCtx c f).ctrl = s.ctrl := rfl
@[simp] theorem State.modCtx_links (c : Nat) (f : Ctx → Ctx) : (s.modCtx c f).links = s.links := rfl
@[simp] theorem State.modCtx_mgmt (c : Nat) (f : Ctx → Ctx) : (s.modCtx c f).mgmt = s.mgmt := rfl
@[simp] theorem State.modCtx_powered (c : Nat) (f : Ctx → Ctx) : (s.modCtx c f).powered = s.powered := rfl
@[simp] theorem State.modCtx_harts (c : Nat) (f : Ctx → Ctx) : (s.modCtx c f).harts = s.harts := rfl
@[simp] theorem State.modCtx_osFound (c : Nat) (f : Ctx → Ctx) : (s.modCtx c f).osFound = s.osFound := rfl
@[simp] theorem State.modCtx_confined (c : Nat) (f : Ctx → Ctx) : (s.modCtx c f).confined = s.confined := rfl
@[simp] theorem State.modCtx_vilaz (c : Nat) (f : Ctx → Ctx) : (s.modCtx c f).vilaz = s.vilaz := rfl
@[simp] theorem State.modCtx_vilazDigest (c : Nat) (f : Ctx → Ctx) : (s.modCtx c f).vilazDigest = s.vilazDigest := rfl
@[simp] theorem State.modCtx_outbox (c : Nat) (f : Ctx → Ctx) : (s.modCtx c f).outbox = s.outbox := rfl

/-! `modQueue`. -/

@[simp] theorem State.modQueue_agenda (q : Nat) (f : Queue → Queue) : (s.modQueue q f).agenda = s.agenda := rfl
@[simp] theorem State.modQueue_freeCtr (q : Nat) (f : Queue → Queue) : (s.modQueue q f).freeCtr = s.freeCtr := rfl
@[simp] theorem State.modQueue_cur (q : Nat) (f : Queue → Queue) : (s.modQueue q f).cur = s.cur := rfl
@[simp] theorem State.modQueue_upsets (q : Nat) (f : Queue → Queue) : (s.modQueue q f).upsets = s.upsets := rfl
@[simp] theorem State.modQueue_hbm (q : Nat) (f : Queue → Queue) : (s.modQueue q f).hbm = s.hbm := rfl
@[simp] theorem State.modQueue_host (q : Nat) (f : Queue → Queue) : (s.modQueue q f).host = s.host := rfl
@[simp] theorem State.modQueue_peers (q : Nat) (f : Queue → Queue) : (s.modQueue q f).peers = s.peers := rfl
@[simp] theorem State.modQueue_spaces (q : Nat) (f : Queue → Queue) : (s.modQueue q f).spaces = s.spaces := rfl
@[simp] theorem State.modQueue_conns (q : Nat) (f : Queue → Queue) : (s.modQueue q f).conns = s.conns := rfl
@[simp] theorem State.modQueue_bank (q : Nat) (f : Queue → Queue) : (s.modQueue q f).bank = s.bank := rfl
@[simp] theorem State.modQueue_l2 (q : Nat) (f : Queue → Queue) : (s.modQueue q f).l2 = s.l2 := rfl
@[simp] theorem State.modQueue_poison (q : Nat) (f : Queue → Queue) : (s.modQueue q f).poison = s.poison := rfl
@[simp] theorem State.modQueue_timeref (q : Nat) (f : Queue → Queue) : (s.modQueue q f).timeref = s.timeref := rfl
@[simp] theorem State.modQueue_sites (q : Nat) (f : Queue → Queue) : (s.modQueue q f).sites = s.sites := rfl
@[simp] theorem State.modQueue_deadSites (q : Nat) (f : Queue → Queue) : (s.modQueue q f).deadSites = s.deadSites := rfl
@[simp] theorem State.modQueue_fusedBad (q : Nat) (f : Queue → Queue) : (s.modQueue q f).fusedBad = s.fusedBad := rfl
@[simp] theorem State.modQueue_laneBad (q : Nat) (f : Queue → Queue) : (s.modQueue q f).laneBad = s.laneBad := rfl
@[simp] theorem State.modQueue_islands (q : Nat) (f : Queue → Queue) : (s.modQueue q f).islands = s.islands := rfl
@[simp] theorem State.modQueue_hot (q : Nat) (f : Queue → Queue) : (s.modQueue q f).hot = s.hot := rfl
@[simp] theorem State.modQueue_warn (q : Nat) (f : Queue → Queue) : (s.modQueue q f).warn = s.warn := rfl
@[simp] theorem State.modQueue_critical (q : Nat) (f : Queue → Queue) : (s.modQueue q f).critical = s.critical := rfl
@[simp] theorem State.modQueue_partition (q : Nat) (f : Queue → Queue) : (s.modQueue q f).partition = s.partition := rfl
@[simp] theorem State.modQueue_gbarPtr (q : Nat) (f : Queue → Queue) : (s.modQueue q f).gbarPtr = s.gbarPtr := rfl
@[simp] theorem State.modQueue_resumeQ (q : Nat) (f : Queue → Queue) : (s.modQueue q f).resumeQ = s.resumeQ := rfl
@[simp] theorem State.modQueue_resumed (q : Nat) (f : Queue → Queue) : (s.modQueue q f).resumed = s.resumed := rfl
@[simp] theorem State.modQueue_cores (q : Nat) (f : Queue → Queue) : (s.modQueue q f).cores = s.cores := rfl
@[simp] theorem State.modQueue_groups (q : Nat) (f : Queue → Queue) : (s.modQueue q f).groups = s.groups := rfl
@[simp] theorem State.modQueue_teams (q : Nat) (f : Queue → Queue) : (s.modQueue q f).teams = s.teams := rfl
@[simp] theorem State.modQueue_launches (q : Nat) (f : Queue → Queue) : (s.modQueue q f).launches = s.launches := rfl
@[simp] theorem State.modQueue_queues (q : Nat) (f : Queue → Queue) : (s.modQueue q f).queues = tput s.queues q (f (s.queue q)) := rfl
@[simp] theorem State.modQueue_lastServed (q : Nat) (f : Queue → Queue) : (s.modQueue q f).lastServed = s.lastServed := rfl
@[simp] theorem State.modQueue_ctxs (q : Nat) (f : Queue → Queue) : (s.modQueue q f).ctxs = s.ctxs := rfl
@[simp] theorem State.modQueue_objects (q : Nat) (f : Queue → Queue) : (s.modQueue q f).objects = s.objects := rfl
@[simp] theorem State.modQueue_nextObj (q : Nat) (f : Queue → Queue) : (s.modQueue q f).nextObj = s.nextObj := rfl
@[simp] theorem State.modQueue_reserved (q : Nat) (f : Queue → Queue) : (s.modQueue q f).reserved = s.reserved := rfl
@[simp] theorem State.modQueue_hostUsed (q : Nat) (f : Queue → Queue) : (s.modQueue q f).hostUsed = s.hostUsed := rfl
@[simp] theorem State.modQueue_nextLaunch (q : Nat) (f : Queue → Queue) : (s.modQueue q f).nextLaunch = s.nextLaunch := rfl
@[simp] theorem State.modQueue_faults (q : Nat) (f : Queue → Queue) : (s.modQueue q f).faults = s.faults := rfl
@[simp] theorem State.modQueue_tlb (q : Nat) (f : Queue → Queue) : (s.modQueue q f).tlb = s.tlb := rfl
@[simp] theorem State.modQueue_ctrl (q : Nat) (f : Queue → Queue) : (s.modQueue q f).ctrl = s.ctrl := rfl
@[simp] theorem State.modQueue_links (q : Nat) (f : Queue → Queue) : (s.modQueue q f).links = s.links := rfl
@[simp] theorem State.modQueue_mgmt (q : Nat) (f : Queue → Queue) : (s.modQueue q f).mgmt = s.mgmt := rfl
@[simp] theorem State.modQueue_powered (q : Nat) (f : Queue → Queue) : (s.modQueue q f).powered = s.powered := rfl
@[simp] theorem State.modQueue_harts (q : Nat) (f : Queue → Queue) : (s.modQueue q f).harts = s.harts := rfl
@[simp] theorem State.modQueue_osFound (q : Nat) (f : Queue → Queue) : (s.modQueue q f).osFound = s.osFound := rfl
@[simp] theorem State.modQueue_confined (q : Nat) (f : Queue → Queue) : (s.modQueue q f).confined = s.confined := rfl
@[simp] theorem State.modQueue_vilaz (q : Nat) (f : Queue → Queue) : (s.modQueue q f).vilaz = s.vilaz := rfl
@[simp] theorem State.modQueue_vilazDigest (q : Nat) (f : Queue → Queue) : (s.modQueue q f).vilazDigest = s.vilazDigest := rfl
@[simp] theorem State.modQueue_outbox (q : Nat) (f : Queue → Queue) : (s.modQueue q f).outbox = s.outbox := rfl

/-! `modLink`. -/

@[simp] theorem State.modLink_agenda (l : Nat) (f : Link → Link) : (s.modLink l f).agenda = s.agenda := rfl
@[simp] theorem State.modLink_freeCtr (l : Nat) (f : Link → Link) : (s.modLink l f).freeCtr = s.freeCtr := rfl
@[simp] theorem State.modLink_cur (l : Nat) (f : Link → Link) : (s.modLink l f).cur = s.cur := rfl
@[simp] theorem State.modLink_upsets (l : Nat) (f : Link → Link) : (s.modLink l f).upsets = s.upsets := rfl
@[simp] theorem State.modLink_hbm (l : Nat) (f : Link → Link) : (s.modLink l f).hbm = s.hbm := rfl
@[simp] theorem State.modLink_host (l : Nat) (f : Link → Link) : (s.modLink l f).host = s.host := rfl
@[simp] theorem State.modLink_peers (l : Nat) (f : Link → Link) : (s.modLink l f).peers = s.peers := rfl
@[simp] theorem State.modLink_spaces (l : Nat) (f : Link → Link) : (s.modLink l f).spaces = s.spaces := rfl
@[simp] theorem State.modLink_conns (l : Nat) (f : Link → Link) : (s.modLink l f).conns = s.conns := rfl
@[simp] theorem State.modLink_bank (l : Nat) (f : Link → Link) : (s.modLink l f).bank = s.bank := rfl
@[simp] theorem State.modLink_l2 (l : Nat) (f : Link → Link) : (s.modLink l f).l2 = s.l2 := rfl
@[simp] theorem State.modLink_poison (l : Nat) (f : Link → Link) : (s.modLink l f).poison = s.poison := rfl
@[simp] theorem State.modLink_timeref (l : Nat) (f : Link → Link) : (s.modLink l f).timeref = s.timeref := rfl
@[simp] theorem State.modLink_sites (l : Nat) (f : Link → Link) : (s.modLink l f).sites = s.sites := rfl
@[simp] theorem State.modLink_deadSites (l : Nat) (f : Link → Link) : (s.modLink l f).deadSites = s.deadSites := rfl
@[simp] theorem State.modLink_fusedBad (l : Nat) (f : Link → Link) : (s.modLink l f).fusedBad = s.fusedBad := rfl
@[simp] theorem State.modLink_laneBad (l : Nat) (f : Link → Link) : (s.modLink l f).laneBad = s.laneBad := rfl
@[simp] theorem State.modLink_islands (l : Nat) (f : Link → Link) : (s.modLink l f).islands = s.islands := rfl
@[simp] theorem State.modLink_hot (l : Nat) (f : Link → Link) : (s.modLink l f).hot = s.hot := rfl
@[simp] theorem State.modLink_warn (l : Nat) (f : Link → Link) : (s.modLink l f).warn = s.warn := rfl
@[simp] theorem State.modLink_critical (l : Nat) (f : Link → Link) : (s.modLink l f).critical = s.critical := rfl
@[simp] theorem State.modLink_partition (l : Nat) (f : Link → Link) : (s.modLink l f).partition = s.partition := rfl
@[simp] theorem State.modLink_gbarPtr (l : Nat) (f : Link → Link) : (s.modLink l f).gbarPtr = s.gbarPtr := rfl
@[simp] theorem State.modLink_resumeQ (l : Nat) (f : Link → Link) : (s.modLink l f).resumeQ = s.resumeQ := rfl
@[simp] theorem State.modLink_resumed (l : Nat) (f : Link → Link) : (s.modLink l f).resumed = s.resumed := rfl
@[simp] theorem State.modLink_cores (l : Nat) (f : Link → Link) : (s.modLink l f).cores = s.cores := rfl
@[simp] theorem State.modLink_groups (l : Nat) (f : Link → Link) : (s.modLink l f).groups = s.groups := rfl
@[simp] theorem State.modLink_teams (l : Nat) (f : Link → Link) : (s.modLink l f).teams = s.teams := rfl
@[simp] theorem State.modLink_launches (l : Nat) (f : Link → Link) : (s.modLink l f).launches = s.launches := rfl
@[simp] theorem State.modLink_queues (l : Nat) (f : Link → Link) : (s.modLink l f).queues = s.queues := rfl
@[simp] theorem State.modLink_lastServed (l : Nat) (f : Link → Link) : (s.modLink l f).lastServed = s.lastServed := rfl
@[simp] theorem State.modLink_ctxs (l : Nat) (f : Link → Link) : (s.modLink l f).ctxs = s.ctxs := rfl
@[simp] theorem State.modLink_objects (l : Nat) (f : Link → Link) : (s.modLink l f).objects = s.objects := rfl
@[simp] theorem State.modLink_nextObj (l : Nat) (f : Link → Link) : (s.modLink l f).nextObj = s.nextObj := rfl
@[simp] theorem State.modLink_reserved (l : Nat) (f : Link → Link) : (s.modLink l f).reserved = s.reserved := rfl
@[simp] theorem State.modLink_hostUsed (l : Nat) (f : Link → Link) : (s.modLink l f).hostUsed = s.hostUsed := rfl
@[simp] theorem State.modLink_nextLaunch (l : Nat) (f : Link → Link) : (s.modLink l f).nextLaunch = s.nextLaunch := rfl
@[simp] theorem State.modLink_faults (l : Nat) (f : Link → Link) : (s.modLink l f).faults = s.faults := rfl
@[simp] theorem State.modLink_tlb (l : Nat) (f : Link → Link) : (s.modLink l f).tlb = s.tlb := rfl
@[simp] theorem State.modLink_ctrl (l : Nat) (f : Link → Link) : (s.modLink l f).ctrl = s.ctrl := rfl
@[simp] theorem State.modLink_links (l : Nat) (f : Link → Link) : (s.modLink l f).links = tput s.links l (f (s.link l)) := rfl
@[simp] theorem State.modLink_mgmt (l : Nat) (f : Link → Link) : (s.modLink l f).mgmt = s.mgmt := rfl
@[simp] theorem State.modLink_powered (l : Nat) (f : Link → Link) : (s.modLink l f).powered = s.powered := rfl
@[simp] theorem State.modLink_harts (l : Nat) (f : Link → Link) : (s.modLink l f).harts = s.harts := rfl
@[simp] theorem State.modLink_osFound (l : Nat) (f : Link → Link) : (s.modLink l f).osFound = s.osFound := rfl
@[simp] theorem State.modLink_confined (l : Nat) (f : Link → Link) : (s.modLink l f).confined = s.confined := rfl
@[simp] theorem State.modLink_vilaz (l : Nat) (f : Link → Link) : (s.modLink l f).vilaz = s.vilaz := rfl
@[simp] theorem State.modLink_vilazDigest (l : Nat) (f : Link → Link) : (s.modLink l f).vilazDigest = s.vilazDigest := rfl
@[simp] theorem State.modLink_outbox (l : Nat) (f : Link → Link) : (s.modLink l f).outbox = s.outbox := rfl

/-! `modCtrl`. -/

@[simp] theorem State.modCtrl_agenda (f : Ctrl → Ctrl) : (s.modCtrl f).agenda = s.agenda := rfl
@[simp] theorem State.modCtrl_freeCtr (f : Ctrl → Ctrl) : (s.modCtrl f).freeCtr = s.freeCtr := rfl
@[simp] theorem State.modCtrl_cur (f : Ctrl → Ctrl) : (s.modCtrl f).cur = s.cur := rfl
@[simp] theorem State.modCtrl_upsets (f : Ctrl → Ctrl) : (s.modCtrl f).upsets = s.upsets := rfl
@[simp] theorem State.modCtrl_hbm (f : Ctrl → Ctrl) : (s.modCtrl f).hbm = s.hbm := rfl
@[simp] theorem State.modCtrl_host (f : Ctrl → Ctrl) : (s.modCtrl f).host = s.host := rfl
@[simp] theorem State.modCtrl_peers (f : Ctrl → Ctrl) : (s.modCtrl f).peers = s.peers := rfl
@[simp] theorem State.modCtrl_spaces (f : Ctrl → Ctrl) : (s.modCtrl f).spaces = s.spaces := rfl
@[simp] theorem State.modCtrl_conns (f : Ctrl → Ctrl) : (s.modCtrl f).conns = s.conns := rfl
@[simp] theorem State.modCtrl_bank (f : Ctrl → Ctrl) : (s.modCtrl f).bank = s.bank := rfl
@[simp] theorem State.modCtrl_l2 (f : Ctrl → Ctrl) : (s.modCtrl f).l2 = s.l2 := rfl
@[simp] theorem State.modCtrl_poison (f : Ctrl → Ctrl) : (s.modCtrl f).poison = s.poison := rfl
@[simp] theorem State.modCtrl_timeref (f : Ctrl → Ctrl) : (s.modCtrl f).timeref = s.timeref := rfl
@[simp] theorem State.modCtrl_sites (f : Ctrl → Ctrl) : (s.modCtrl f).sites = s.sites := rfl
@[simp] theorem State.modCtrl_deadSites (f : Ctrl → Ctrl) : (s.modCtrl f).deadSites = s.deadSites := rfl
@[simp] theorem State.modCtrl_fusedBad (f : Ctrl → Ctrl) : (s.modCtrl f).fusedBad = s.fusedBad := rfl
@[simp] theorem State.modCtrl_laneBad (f : Ctrl → Ctrl) : (s.modCtrl f).laneBad = s.laneBad := rfl
@[simp] theorem State.modCtrl_islands (f : Ctrl → Ctrl) : (s.modCtrl f).islands = s.islands := rfl
@[simp] theorem State.modCtrl_hot (f : Ctrl → Ctrl) : (s.modCtrl f).hot = s.hot := rfl
@[simp] theorem State.modCtrl_warn (f : Ctrl → Ctrl) : (s.modCtrl f).warn = s.warn := rfl
@[simp] theorem State.modCtrl_critical (f : Ctrl → Ctrl) : (s.modCtrl f).critical = s.critical := rfl
@[simp] theorem State.modCtrl_partition (f : Ctrl → Ctrl) : (s.modCtrl f).partition = s.partition := rfl
@[simp] theorem State.modCtrl_gbarPtr (f : Ctrl → Ctrl) : (s.modCtrl f).gbarPtr = s.gbarPtr := rfl
@[simp] theorem State.modCtrl_resumeQ (f : Ctrl → Ctrl) : (s.modCtrl f).resumeQ = s.resumeQ := rfl
@[simp] theorem State.modCtrl_resumed (f : Ctrl → Ctrl) : (s.modCtrl f).resumed = s.resumed := rfl
@[simp] theorem State.modCtrl_cores (f : Ctrl → Ctrl) : (s.modCtrl f).cores = s.cores := rfl
@[simp] theorem State.modCtrl_groups (f : Ctrl → Ctrl) : (s.modCtrl f).groups = s.groups := rfl
@[simp] theorem State.modCtrl_teams (f : Ctrl → Ctrl) : (s.modCtrl f).teams = s.teams := rfl
@[simp] theorem State.modCtrl_launches (f : Ctrl → Ctrl) : (s.modCtrl f).launches = s.launches := rfl
@[simp] theorem State.modCtrl_queues (f : Ctrl → Ctrl) : (s.modCtrl f).queues = s.queues := rfl
@[simp] theorem State.modCtrl_lastServed (f : Ctrl → Ctrl) : (s.modCtrl f).lastServed = s.lastServed := rfl
@[simp] theorem State.modCtrl_ctxs (f : Ctrl → Ctrl) : (s.modCtrl f).ctxs = s.ctxs := rfl
@[simp] theorem State.modCtrl_objects (f : Ctrl → Ctrl) : (s.modCtrl f).objects = s.objects := rfl
@[simp] theorem State.modCtrl_nextObj (f : Ctrl → Ctrl) : (s.modCtrl f).nextObj = s.nextObj := rfl
@[simp] theorem State.modCtrl_reserved (f : Ctrl → Ctrl) : (s.modCtrl f).reserved = s.reserved := rfl
@[simp] theorem State.modCtrl_hostUsed (f : Ctrl → Ctrl) : (s.modCtrl f).hostUsed = s.hostUsed := rfl
@[simp] theorem State.modCtrl_nextLaunch (f : Ctrl → Ctrl) : (s.modCtrl f).nextLaunch = s.nextLaunch := rfl
@[simp] theorem State.modCtrl_faults (f : Ctrl → Ctrl) : (s.modCtrl f).faults = s.faults := rfl
@[simp] theorem State.modCtrl_tlb (f : Ctrl → Ctrl) : (s.modCtrl f).tlb = s.tlb := rfl
@[simp] theorem State.modCtrl_ctrl (f : Ctrl → Ctrl) : (s.modCtrl f).ctrl = f s.ctrl := rfl
@[simp] theorem State.modCtrl_links (f : Ctrl → Ctrl) : (s.modCtrl f).links = s.links := rfl
@[simp] theorem State.modCtrl_mgmt (f : Ctrl → Ctrl) : (s.modCtrl f).mgmt = s.mgmt := rfl
@[simp] theorem State.modCtrl_powered (f : Ctrl → Ctrl) : (s.modCtrl f).powered = s.powered := rfl
@[simp] theorem State.modCtrl_harts (f : Ctrl → Ctrl) : (s.modCtrl f).harts = s.harts := rfl
@[simp] theorem State.modCtrl_osFound (f : Ctrl → Ctrl) : (s.modCtrl f).osFound = s.osFound := rfl
@[simp] theorem State.modCtrl_confined (f : Ctrl → Ctrl) : (s.modCtrl f).confined = s.confined := rfl
@[simp] theorem State.modCtrl_vilaz (f : Ctrl → Ctrl) : (s.modCtrl f).vilaz = s.vilaz := rfl
@[simp] theorem State.modCtrl_vilazDigest (f : Ctrl → Ctrl) : (s.modCtrl f).vilazDigest = s.vilazDigest := rfl
@[simp] theorem State.modCtrl_outbox (f : Ctrl → Ctrl) : (s.modCtrl f).outbox = s.outbox := rfl

/-! `modMgmt`. -/

@[simp] theorem State.modMgmt_agenda (f : Mgmt → Mgmt) : (s.modMgmt f).agenda = s.agenda := rfl
@[simp] theorem State.modMgmt_freeCtr (f : Mgmt → Mgmt) : (s.modMgmt f).freeCtr = s.freeCtr := rfl
@[simp] theorem State.modMgmt_cur (f : Mgmt → Mgmt) : (s.modMgmt f).cur = s.cur := rfl
@[simp] theorem State.modMgmt_upsets (f : Mgmt → Mgmt) : (s.modMgmt f).upsets = s.upsets := rfl
@[simp] theorem State.modMgmt_hbm (f : Mgmt → Mgmt) : (s.modMgmt f).hbm = s.hbm := rfl
@[simp] theorem State.modMgmt_host (f : Mgmt → Mgmt) : (s.modMgmt f).host = s.host := rfl
@[simp] theorem State.modMgmt_peers (f : Mgmt → Mgmt) : (s.modMgmt f).peers = s.peers := rfl
@[simp] theorem State.modMgmt_spaces (f : Mgmt → Mgmt) : (s.modMgmt f).spaces = s.spaces := rfl
@[simp] theorem State.modMgmt_conns (f : Mgmt → Mgmt) : (s.modMgmt f).conns = s.conns := rfl
@[simp] theorem State.modMgmt_bank (f : Mgmt → Mgmt) : (s.modMgmt f).bank = s.bank := rfl
@[simp] theorem State.modMgmt_l2 (f : Mgmt → Mgmt) : (s.modMgmt f).l2 = s.l2 := rfl
@[simp] theorem State.modMgmt_poison (f : Mgmt → Mgmt) : (s.modMgmt f).poison = s.poison := rfl
@[simp] theorem State.modMgmt_timeref (f : Mgmt → Mgmt) : (s.modMgmt f).timeref = s.timeref := rfl
@[simp] theorem State.modMgmt_sites (f : Mgmt → Mgmt) : (s.modMgmt f).sites = s.sites := rfl
@[simp] theorem State.modMgmt_deadSites (f : Mgmt → Mgmt) : (s.modMgmt f).deadSites = s.deadSites := rfl
@[simp] theorem State.modMgmt_fusedBad (f : Mgmt → Mgmt) : (s.modMgmt f).fusedBad = s.fusedBad := rfl
@[simp] theorem State.modMgmt_laneBad (f : Mgmt → Mgmt) : (s.modMgmt f).laneBad = s.laneBad := rfl
@[simp] theorem State.modMgmt_islands (f : Mgmt → Mgmt) : (s.modMgmt f).islands = s.islands := rfl
@[simp] theorem State.modMgmt_hot (f : Mgmt → Mgmt) : (s.modMgmt f).hot = s.hot := rfl
@[simp] theorem State.modMgmt_warn (f : Mgmt → Mgmt) : (s.modMgmt f).warn = s.warn := rfl
@[simp] theorem State.modMgmt_critical (f : Mgmt → Mgmt) : (s.modMgmt f).critical = s.critical := rfl
@[simp] theorem State.modMgmt_partition (f : Mgmt → Mgmt) : (s.modMgmt f).partition = s.partition := rfl
@[simp] theorem State.modMgmt_gbarPtr (f : Mgmt → Mgmt) : (s.modMgmt f).gbarPtr = s.gbarPtr := rfl
@[simp] theorem State.modMgmt_resumeQ (f : Mgmt → Mgmt) : (s.modMgmt f).resumeQ = s.resumeQ := rfl
@[simp] theorem State.modMgmt_resumed (f : Mgmt → Mgmt) : (s.modMgmt f).resumed = s.resumed := rfl
@[simp] theorem State.modMgmt_cores (f : Mgmt → Mgmt) : (s.modMgmt f).cores = s.cores := rfl
@[simp] theorem State.modMgmt_groups (f : Mgmt → Mgmt) : (s.modMgmt f).groups = s.groups := rfl
@[simp] theorem State.modMgmt_teams (f : Mgmt → Mgmt) : (s.modMgmt f).teams = s.teams := rfl
@[simp] theorem State.modMgmt_launches (f : Mgmt → Mgmt) : (s.modMgmt f).launches = s.launches := rfl
@[simp] theorem State.modMgmt_queues (f : Mgmt → Mgmt) : (s.modMgmt f).queues = s.queues := rfl
@[simp] theorem State.modMgmt_lastServed (f : Mgmt → Mgmt) : (s.modMgmt f).lastServed = s.lastServed := rfl
@[simp] theorem State.modMgmt_ctxs (f : Mgmt → Mgmt) : (s.modMgmt f).ctxs = s.ctxs := rfl
@[simp] theorem State.modMgmt_objects (f : Mgmt → Mgmt) : (s.modMgmt f).objects = s.objects := rfl
@[simp] theorem State.modMgmt_nextObj (f : Mgmt → Mgmt) : (s.modMgmt f).nextObj = s.nextObj := rfl
@[simp] theorem State.modMgmt_reserved (f : Mgmt → Mgmt) : (s.modMgmt f).reserved = s.reserved := rfl
@[simp] theorem State.modMgmt_hostUsed (f : Mgmt → Mgmt) : (s.modMgmt f).hostUsed = s.hostUsed := rfl
@[simp] theorem State.modMgmt_nextLaunch (f : Mgmt → Mgmt) : (s.modMgmt f).nextLaunch = s.nextLaunch := rfl
@[simp] theorem State.modMgmt_faults (f : Mgmt → Mgmt) : (s.modMgmt f).faults = s.faults := rfl
@[simp] theorem State.modMgmt_tlb (f : Mgmt → Mgmt) : (s.modMgmt f).tlb = s.tlb := rfl
@[simp] theorem State.modMgmt_ctrl (f : Mgmt → Mgmt) : (s.modMgmt f).ctrl = s.ctrl := rfl
@[simp] theorem State.modMgmt_links (f : Mgmt → Mgmt) : (s.modMgmt f).links = s.links := rfl
@[simp] theorem State.modMgmt_mgmt (f : Mgmt → Mgmt) : (s.modMgmt f).mgmt = f s.mgmt := rfl
@[simp] theorem State.modMgmt_powered (f : Mgmt → Mgmt) : (s.modMgmt f).powered = s.powered := rfl
@[simp] theorem State.modMgmt_harts (f : Mgmt → Mgmt) : (s.modMgmt f).harts = s.harts := rfl
@[simp] theorem State.modMgmt_osFound (f : Mgmt → Mgmt) : (s.modMgmt f).osFound = s.osFound := rfl
@[simp] theorem State.modMgmt_confined (f : Mgmt → Mgmt) : (s.modMgmt f).confined = s.confined := rfl
@[simp] theorem State.modMgmt_vilaz (f : Mgmt → Mgmt) : (s.modMgmt f).vilaz = s.vilaz := rfl
@[simp] theorem State.modMgmt_vilazDigest (f : Mgmt → Mgmt) : (s.modMgmt f).vilazDigest = s.vilazDigest := rfl
@[simp] theorem State.modMgmt_outbox (f : Mgmt → Mgmt) : (s.modMgmt f).outbox = s.outbox := rfl

/-! `send`. -/

@[simp] theorem State.send_agenda (m : OutMsg) : (s.send m).agenda = s.agenda := rfl
@[simp] theorem State.send_freeCtr (m : OutMsg) : (s.send m).freeCtr = s.freeCtr := rfl
@[simp] theorem State.send_cur (m : OutMsg) : (s.send m).cur = s.cur := rfl
@[simp] theorem State.send_upsets (m : OutMsg) : (s.send m).upsets = s.upsets := rfl
@[simp] theorem State.send_hbm (m : OutMsg) : (s.send m).hbm = s.hbm := rfl
@[simp] theorem State.send_host (m : OutMsg) : (s.send m).host = s.host := rfl
@[simp] theorem State.send_peers (m : OutMsg) : (s.send m).peers = s.peers := rfl
@[simp] theorem State.send_spaces (m : OutMsg) : (s.send m).spaces = s.spaces := rfl
@[simp] theorem State.send_conns (m : OutMsg) : (s.send m).conns = s.conns := rfl
@[simp] theorem State.send_bank (m : OutMsg) : (s.send m).bank = s.bank := rfl
@[simp] theorem State.send_l2 (m : OutMsg) : (s.send m).l2 = s.l2 := rfl
@[simp] theorem State.send_poison (m : OutMsg) : (s.send m).poison = s.poison := rfl
@[simp] theorem State.send_timeref (m : OutMsg) : (s.send m).timeref = s.timeref := rfl
@[simp] theorem State.send_sites (m : OutMsg) : (s.send m).sites = s.sites := rfl
@[simp] theorem State.send_deadSites (m : OutMsg) : (s.send m).deadSites = s.deadSites := rfl
@[simp] theorem State.send_fusedBad (m : OutMsg) : (s.send m).fusedBad = s.fusedBad := rfl
@[simp] theorem State.send_laneBad (m : OutMsg) : (s.send m).laneBad = s.laneBad := rfl
@[simp] theorem State.send_islands (m : OutMsg) : (s.send m).islands = s.islands := rfl
@[simp] theorem State.send_hot (m : OutMsg) : (s.send m).hot = s.hot := rfl
@[simp] theorem State.send_warn (m : OutMsg) : (s.send m).warn = s.warn := rfl
@[simp] theorem State.send_critical (m : OutMsg) : (s.send m).critical = s.critical := rfl
@[simp] theorem State.send_partition (m : OutMsg) : (s.send m).partition = s.partition := rfl
@[simp] theorem State.send_gbarPtr (m : OutMsg) : (s.send m).gbarPtr = s.gbarPtr := rfl
@[simp] theorem State.send_resumeQ (m : OutMsg) : (s.send m).resumeQ = s.resumeQ := rfl
@[simp] theorem State.send_resumed (m : OutMsg) : (s.send m).resumed = s.resumed := rfl
@[simp] theorem State.send_cores (m : OutMsg) : (s.send m).cores = s.cores := rfl
@[simp] theorem State.send_groups (m : OutMsg) : (s.send m).groups = s.groups := rfl
@[simp] theorem State.send_teams (m : OutMsg) : (s.send m).teams = s.teams := rfl
@[simp] theorem State.send_launches (m : OutMsg) : (s.send m).launches = s.launches := rfl
@[simp] theorem State.send_queues (m : OutMsg) : (s.send m).queues = s.queues := rfl
@[simp] theorem State.send_lastServed (m : OutMsg) : (s.send m).lastServed = s.lastServed := rfl
@[simp] theorem State.send_ctxs (m : OutMsg) : (s.send m).ctxs = s.ctxs := rfl
@[simp] theorem State.send_objects (m : OutMsg) : (s.send m).objects = s.objects := rfl
@[simp] theorem State.send_nextObj (m : OutMsg) : (s.send m).nextObj = s.nextObj := rfl
@[simp] theorem State.send_reserved (m : OutMsg) : (s.send m).reserved = s.reserved := rfl
@[simp] theorem State.send_hostUsed (m : OutMsg) : (s.send m).hostUsed = s.hostUsed := rfl
@[simp] theorem State.send_nextLaunch (m : OutMsg) : (s.send m).nextLaunch = s.nextLaunch := rfl
@[simp] theorem State.send_faults (m : OutMsg) : (s.send m).faults = s.faults := rfl
@[simp] theorem State.send_tlb (m : OutMsg) : (s.send m).tlb = s.tlb := rfl
@[simp] theorem State.send_ctrl (m : OutMsg) : (s.send m).ctrl = s.ctrl := rfl
@[simp] theorem State.send_links (m : OutMsg) : (s.send m).links = s.links := rfl
@[simp] theorem State.send_mgmt (m : OutMsg) : (s.send m).mgmt = s.mgmt := rfl
@[simp] theorem State.send_powered (m : OutMsg) : (s.send m).powered = s.powered := rfl
@[simp] theorem State.send_harts (m : OutMsg) : (s.send m).harts = s.harts := rfl
@[simp] theorem State.send_osFound (m : OutMsg) : (s.send m).osFound = s.osFound := rfl
@[simp] theorem State.send_confined (m : OutMsg) : (s.send m).confined = s.confined := rfl
@[simp] theorem State.send_vilaz (m : OutMsg) : (s.send m).vilaz = s.vilaz := rfl
@[simp] theorem State.send_vilazDigest (m : OutMsg) : (s.send m).vilazDigest = s.vilazDigest := rfl
@[simp] theorem State.send_outbox (m : OutMsg) : (s.send m).outbox = s.outbox ++ [m] := rfl

/-! `draw`. -/

@[simp] theorem State.draw_agenda : (s.draw).agenda = s.agenda := rfl
@[simp] theorem State.draw_freeCtr : (s.draw).freeCtr = s.freeCtr + 1 := rfl
@[simp] theorem State.draw_cur : (s.draw).cur = s.cur := rfl
@[simp] theorem State.draw_upsets : (s.draw).upsets = s.upsets := rfl
@[simp] theorem State.draw_hbm : (s.draw).hbm = s.hbm := rfl
@[simp] theorem State.draw_host : (s.draw).host = s.host := rfl
@[simp] theorem State.draw_peers : (s.draw).peers = s.peers := rfl
@[simp] theorem State.draw_spaces : (s.draw).spaces = s.spaces := rfl
@[simp] theorem State.draw_conns : (s.draw).conns = s.conns := rfl
@[simp] theorem State.draw_bank : (s.draw).bank = s.bank := rfl
@[simp] theorem State.draw_l2 : (s.draw).l2 = s.l2 := rfl
@[simp] theorem State.draw_poison : (s.draw).poison = s.poison := rfl
@[simp] theorem State.draw_timeref : (s.draw).timeref = s.timeref := rfl
@[simp] theorem State.draw_sites : (s.draw).sites = s.sites := rfl
@[simp] theorem State.draw_deadSites : (s.draw).deadSites = s.deadSites := rfl
@[simp] theorem State.draw_fusedBad : (s.draw).fusedBad = s.fusedBad := rfl
@[simp] theorem State.draw_laneBad : (s.draw).laneBad = s.laneBad := rfl
@[simp] theorem State.draw_islands : (s.draw).islands = s.islands := rfl
@[simp] theorem State.draw_hot : (s.draw).hot = s.hot := rfl
@[simp] theorem State.draw_warn : (s.draw).warn = s.warn := rfl
@[simp] theorem State.draw_critical : (s.draw).critical = s.critical := rfl
@[simp] theorem State.draw_partition : (s.draw).partition = s.partition := rfl
@[simp] theorem State.draw_gbarPtr : (s.draw).gbarPtr = s.gbarPtr := rfl
@[simp] theorem State.draw_resumeQ : (s.draw).resumeQ = s.resumeQ := rfl
@[simp] theorem State.draw_resumed : (s.draw).resumed = s.resumed := rfl
@[simp] theorem State.draw_cores : (s.draw).cores = s.cores := rfl
@[simp] theorem State.draw_groups : (s.draw).groups = s.groups := rfl
@[simp] theorem State.draw_teams : (s.draw).teams = s.teams := rfl
@[simp] theorem State.draw_launches : (s.draw).launches = s.launches := rfl
@[simp] theorem State.draw_queues : (s.draw).queues = s.queues := rfl
@[simp] theorem State.draw_lastServed : (s.draw).lastServed = s.lastServed := rfl
@[simp] theorem State.draw_ctxs : (s.draw).ctxs = s.ctxs := rfl
@[simp] theorem State.draw_objects : (s.draw).objects = s.objects := rfl
@[simp] theorem State.draw_nextObj : (s.draw).nextObj = s.nextObj := rfl
@[simp] theorem State.draw_reserved : (s.draw).reserved = s.reserved := rfl
@[simp] theorem State.draw_hostUsed : (s.draw).hostUsed = s.hostUsed := rfl
@[simp] theorem State.draw_nextLaunch : (s.draw).nextLaunch = s.nextLaunch := rfl
@[simp] theorem State.draw_faults : (s.draw).faults = s.faults := rfl
@[simp] theorem State.draw_tlb : (s.draw).tlb = s.tlb := rfl
@[simp] theorem State.draw_ctrl : (s.draw).ctrl = s.ctrl := rfl
@[simp] theorem State.draw_links : (s.draw).links = s.links := rfl
@[simp] theorem State.draw_mgmt : (s.draw).mgmt = s.mgmt := rfl
@[simp] theorem State.draw_powered : (s.draw).powered = s.powered := rfl
@[simp] theorem State.draw_harts : (s.draw).harts = s.harts := rfl
@[simp] theorem State.draw_osFound : (s.draw).osFound = s.osFound := rfl
@[simp] theorem State.draw_confined : (s.draw).confined = s.confined := rfl
@[simp] theorem State.draw_vilaz : (s.draw).vilaz = s.vilaz := rfl
@[simp] theorem State.draw_vilazDigest : (s.draw).vilazDigest = s.vilazDigest := rfl
@[simp] theorem State.draw_outbox : (s.draw).outbox = s.outbox := rfl

/-! Keyed tables after an update. -/

@[simp] theorem State.putGroup_group (g h : Gid) (x : Group) :
    (s.putGroup g x).group h = if h = g then some x else s.group h := tfind_tput _ _ _ _
@[simp] theorem State.modGroup_group (g h : Gid) (f : Group → Group) :
    (s.modGroup g f).group h = if h = g then (s.group g).map f else s.group h := tfind_tmod _ _ _ _
@[simp] theorem State.putIsland_island (k j : Nat) (x : Island) :
    (s.putIsland k x).island j = if j = k then x else s.island j := tget_tput _ _ _ _ _
@[simp] theorem State.modCtx_ctx (c d : Nat) (f : Ctx → Ctx) :
    (s.modCtx c f).ctx d = if d = c then f (s.ctx c) else s.ctx d := tget_tput _ _ _ _ _
@[simp] theorem State.modQueue_queue (q r : Nat) (f : Queue → Queue) :
    (s.modQueue q f).queue r = if r = q then f (s.queue q) else s.queue r := tget_tput _ _ _ _ _
@[simp] theorem State.modLink_link (l m : Nat) (f : Link → Link) :
    (s.modLink l f).link m = if m = l then f (s.link l) else s.link m := tget_tput _ _ _ _ _
@[simp] theorem State.modCore_core (c d : Nat) (f : Core → Core) :
    (s.modCore c f).core d = if d = c then f (s.core c) else s.core d := tget_tput _ _ _ _ _

/-- Putting a group that was just put, and changing one, are one put. -/
theorem State.modGroup_putGroup (g : Gid) (x : Group) (f : Group → Group) :
    (s.putGroup g x).modGroup g f = s.putGroup g (f x) := by
  simp [State.putGroup, State.modGroup, tmod_tput]
theorem State.putGroup_putGroup (g : Gid) (x y : Group) : (s.putGroup g x).putGroup g y = s.putGroup g y := by
  simp [State.putGroup, tput_tput]

end Sys2Proof.Machine
end

