-- ==== Sys2Proof/Laws/Time.lean ====
section
/-!
SUPPORT. The passing of time: every operation that spends cycles changes the islands, TIMEREF and what the droop alarms
are counted in, and nothing else.
-/
namespace Sys2Proof.Safety

open Sys2Proof.Machine

theorem elapse_elapse (s t u : State) : elapse (elapse s t) u = elapse s u := rfl

theorem Elapsed.refl (s : State) : Elapsed s s := rfl

theorem Elapsed.eq {s t : State} (h : Elapsed s t) : t = elapse s t := h

theorem Elapsed.trans {s t u : State} (h : Elapsed s t) (k : Elapsed t u) : Elapsed s u :=
  k.eq.trans (congrArg (fun x => elapse x u) h.eq :)

/-! What time leaves alone. -/

theorem Elapsed.groups {s t : State} (h : Elapsed s t) : t.groups = s.groups := (congrArg State.groups h.eq :)
theorem Elapsed.group {s t : State} (h : Elapsed s t) (g : Gid) : t.group g = s.group g := by
  simp [State.group, h.groups]
theorem Elapsed.hbm {s t : State} (h : Elapsed s t) : t.hbm = s.hbm := (congrArg State.hbm h.eq :)
theorem Elapsed.host {s t : State} (h : Elapsed s t) : t.host = s.host := (congrArg State.host h.eq :)
theorem Elapsed.bank {s t : State} (h : Elapsed s t) : t.bank = s.bank := (congrArg State.bank h.eq :)
theorem Elapsed.peers {s t : State} (h : Elapsed s t) : t.peers = s.peers := (congrArg State.peers h.eq :)
theorem Elapsed.teams {s t : State} (h : Elapsed s t) : t.teams = s.teams := (congrArg State.teams h.eq :)
theorem Elapsed.team {s t : State} (h : Elapsed s t) (k : Nat) : t.team k = s.team k := by simp [State.team, h.teams]
theorem Elapsed.ctxs {s t : State} (h : Elapsed s t) : t.ctxs = s.ctxs := (congrArg State.ctxs h.eq :)
theorem Elapsed.spaces {s t : State} (h : Elapsed s t) : t.spaces = s.spaces := (congrArg State.spaces h.eq :)
theorem Elapsed.slots {s t : State} (h : Elapsed s t) : t.mgmt.slots = s.mgmt.slots :=
  (congrArg (fun u : State => u.mgmt.slots) h.eq :)
theorem Elapsed.openImage {s t : State} (h : Elapsed s t) : t.mgmt.openImage = s.mgmt.openImage :=
  (congrArg (fun u : State => u.mgmt.openImage) h.eq :)
theorem Elapsed.launches {s t : State} (h : Elapsed s t) : t.launches = s.launches := (congrArg State.launches h.eq :)
theorem Elapsed.cores {s t : State} (h : Elapsed s t) : t.cores = s.cores := (congrArg State.cores h.eq :)
theorem Elapsed.cur {s t : State} (h : Elapsed s t) : t.cur = s.cur := (congrArg State.cur h.eq :)
theorem Elapsed.agenda {s t : State} (h : Elapsed s t) : t.agenda = s.agenda := (congrArg State.agenda h.eq :)
theorem Elapsed.poison {s t : State} (h : Elapsed s t) : t.poison = s.poison := (congrArg State.poison h.eq :)

/-- A byte at its point of coherence reads as before. -/
theorem Elapsed.readByte {s t : State} (h : Elapsed s t) (p : Place) (a : Nat) : t.readByte p a = s.readByte p a := by
  cases p <;> simp [State.readByte, h.hbm, h.host, h.bank, h.peers, h.team]

/-- An update that time does not touch commutes with time. -/
theorem Elapsed.putGroup {s t : State} (h : Elapsed s t) (g : Gid) (x : Group) :
    Elapsed (s.putGroup g x) (t.putGroup g x) := by
  unfold Elapsed
  conv => lhs; rw [h.eq]
  simp [elapse, State.putGroup, h.groups]

theorem Elapsed.modGroup {s t : State} (h : Elapsed s t) (g : Gid) (f : Group → Group) :
    Elapsed (s.modGroup g f) (t.modGroup g f) := by
  unfold Elapsed
  conv => lhs; rw [h.eq]
  simp [elapse, State.modGroup, h.groups]

/-! The operations that spend time. -/

theorem elapsed_draw (s : State) : Elapsed s s.draw := rfl

theorem elapsed_msi1 (s : State) (x : W64) : Elapsed s ((s.modCtrl fun c => { c with mgmtstat := x }).msi 1) := by
  unfold State.msi
  dsimp only
  split
  · rfl
  · split <;> rfl

theorem elapsed_sendSigned (s : State) (dst : Endpoint) (op : Byte) (err dup : Bool) (seq : W32) (body : List Byte) :
    Elapsed s (s.sendSigned dst op err dup seq body) := rfl

theorem elapsed_sendAlert (s : State) (seq cause : W32) : Elapsed s (s.sendAlert seq cause) := by
  unfold State.sendAlert
  split
  · rfl
  · exact elapsed_sendSigned _ _ _ _ _ _ _

theorem elapsed_raiseAlert (s : State) (cause : W32) : Elapsed s (s.raiseAlert cause) :=
  Elapsed.trans (t := s.modMgmt fun m => { m with
    alertSeq := m.alertSeq + 1, unacked := m.unacked ++ [(BitVec.ofNat 32 (s.mgmt.alertSeq + 1), cause)] })
    rfl (elapsed_sendAlert _ _ _)

theorem elapsed_refreshStatus (s : State) : Elapsed s s.refreshStatus := by
  have first : Elapsed s (if overThreshold s.mgmt.live || (List.range 4).any s.noSpare then
      s.modCtrl fun c => { c with repl := true } else s) := by split <;> rfl
  have mid : ∀ (s : State) (x : W64) (c : W32), Elapsed s (if x = 0 then s else s.raiseAlert c) := by
    intro s x c
    split
    · rfl
    · exact elapsed_raiseAlert _ _
  unfold State.refreshStatus
  dsimp only
  refine first.trans ?_
  generalize (if overThreshold s.mgmt.live || (List.range 4).any s.noSpare then
      s.modCtrl fun c => { c with repl := true } else s) = s1
  refine (mid s1 (s1.statusWord &&& ~~~s1.ctrl.mgmtstat &&& 0x37)
    ((s1.statusWord &&& ~~~s1.ctrl.mgmtstat &&& 0x37 ||| 0x8 &&& ~~~s1.ctrl.mgmtstat).setWidth 32)).trans ?_
  generalize (if s1.statusWord &&& ~~~s1.ctrl.mgmtstat &&& 0x37 = 0 then s1 else _) = s2
  split
  · rfl
  · exact elapsed_msi1 _ _

theorem elapsed_count (s : State) (idx width : Nat) : Elapsed s (s.count idx width) := by
  unfold State.count
  refine Elapsed.trans ?_ (elapsed_refreshStatus _)
  show _ = _
  simp only [State.modMgmt, elapse]
  split <;> rfl

theorem elapsed_putIsland (s : State) (k : Nat) (i : Island) : Elapsed s (s.putIsland k i) := rfl

theorem elapsed_countDroops (k n : Nat) : ∀ s : State, Elapsed s (s.countDroops k n) := by
  induction n with
  | zero => intro s; rfl
  | succ n ih => intro s; exact (elapsed_count s _ _).trans (ih _)

theorem elapsed_setIsland (s : State) (k : Nat) (j : Island) : Elapsed s (s.setIsland k j) :=
  (elapsed_putIsland s k j).trans (elapsed_countDroops _ _ _)

theorem elapsed_syncIsland (s : State) (k : Nat) : Elapsed s (s.syncIsland k) := elapsed_setIsland _ _ _

theorem elapsed_timeref (s : State) (x : W64) : Elapsed s { s with timeref := x } := rfl

theorem elapsed_edge (s : State) (k ops : Nat) (start : Option Nat) : Elapsed s (s.edge k ops start) := by
  unfold State.edge
  dsimp only
  split
  · exact (elapsed_setIsland _ _ _).trans (elapsed_timeref _ _)
  · exact elapsed_setIsland _ _ _

theorem elapsed_wakeIsland (s : State) (core : Nat) : Elapsed s (s.wakeIsland core) := by
  unfold State.wakeIsland
  dsimp only
  split
  · exact elapsed_syncIsland _ _
  · exact ((elapsed_syncIsland _ _).trans (elapsed_timeref _ _)).trans (elapsed_syncIsland _ _)

theorem elapsed_startCycle (s : State) (core pipe : Nat) : Elapsed s (s.startCycle core pipe) := by
  unfold State.startCycle
  dsimp only
  split
  · exact (elapsed_wakeIsland _ _).trans (elapsed_edge _ _ _ _)
  · exact elapsed_wakeIsland _ _

theorem elapsed_edges (l : List Nat) (s : State) (k : Nat) :
    Elapsed s (l.foldl (fun s o => s.edge k o none) s) := by
  induction l generalizing s with
  | nil => rfl
  | cons o r ih => exact (elapsed_edge s k o none).trans (ih _)

theorem elapsed_spend (s : State) (core pipe : Nat) (ops : List Nat) (idle : Nat) :
    Elapsed s (s.spend core pipe ops idle) := by
  unfold State.spend
  dsimp only
  refine Elapsed.trans ?_ (elapsed_edges _ _ _)
  split
  · exact elapsed_wakeIsland _ _
  · exact ((elapsed_startCycle _ _ _).trans (elapsed_edge _ _ _ _)).trans (elapsed_edges _ _ _)

theorem elapsed_idle (s : State) (g : Gid) (n : Nat) : Elapsed s (s.idle g n) := elapsed_spend _ _ _ _ _

theorem elapsed_spendIssue (s : State) (e : Env) (cls : IClass) (paired : Bool) :
    Elapsed s (s.spendIssue e cls paired) := elapsed_spend _ _ _ _ _

/-- An instruction that issued: the visit is advanced and time passes. -/
theorem elapsed_advance (s : State) (e : Env) (cls : IClass) (paired : Bool) :
    Elapsed (s.modGroup e.gid fun g => g.advance e cls) (s.advance e cls paired) :=
  (elapsed_spendIssue _ _ _ _).trans (elapsed_draw _)

end Sys2Proof.Safety
end

