-- ==== Sys2Proof/Laws/Issue.lean ====
section
/-!
SUPPORT. What issuing an instruction comes to, said once: the outcome of `issue` for an instruction that issues, one whose
guard does not hold, and one that is illegal; and what the two shared forms of a fixed-latency instruction post.
-/
namespace Sys2Proof.Safety

open Sys2Proof.Machine

variable {i : Instr} {s : State} {e : Env} {p : Bool}

/-- The group that issues, before its results land. -/
theorem Issues.group_eq (h : Issues i s e p) : ∃ g, s.group e.gid = some g ∧ e.g = g.land e.slot := by
  have ht := h.turn
  unfold State.env at ht
  split at ht
  · cases ht
  · split at ht
    · cases ht
    · next g hg =>
      split at ht
      · cases ht
      · split at ht
        · simp only [Option.some.injEq, Prod.mk.injEq] at ht
          have hgid := congrArg Env.gid ht.1
          have hgrp := congrArg Env.g ht.1
          have hslot := congrArg Env.slot ht.1
          dsimp only at hgid hgrp hslot
          exact ⟨g, by rw [← hgid]; exact hg, by rw [← hgrp, ← hslot]⟩
        · cases ht

/-- What has landed when an instruction issues: its group's visible results, and marks cleared under them. -/
theorem Issues.landed_eq (h : Issues i s e p) :
    ∃ ws, landed s e = (s.clearMarks e.gid ws).putGroup e.gid e.g := by
  obtain ⟨g, hg, he⟩ := h.group_eq
  exact ⟨_, by unfold landed State.landed; rw [hg, he]; rfl⟩

/-- On a state with no mark it is the group alone. -/
theorem Issues.landed_unmarked (h : Issues i s e p) (hp : s.poison = []) : landed s e = s.putGroup e.gid e.g := by
  obtain ⟨ws, hw⟩ := h.landed_eq
  rw [hw]
  unfold State.clearMarks
  rw [if_pos (by rw [hp]; rfl)]

/-- An instruction that issues reaches its effect. -/
theorem Issues.issue_eq (h : Issues i s e p) (cls : IClass) (legal : Env → State → Bool) (eff : Env → State → Eff)
    (hl : legal { e with mask := e.v.active } (landed s e) = true) :
    issue i cls legal eff s = .next ((landed s e).finish e cls p (eff e (landed s e))) := by
  have hc : (if e.launch.check then e.g.meets i.names else none) = none := by
    split
    · next hc => exact h.checked hc
    · rfl
  unfold issue
  rw [h.turn]
  dsimp only
  rw [show s.landed e.gid e.slot = landed s e from rfl, h.legal, h.registers, h.awaited, show legal _ (landed s e) = true from hl, hc, h.pending, h.guard]
  simp only [Bool.and_self, Bool.not_true, Bool.false_eq_true, if_false]
  rw [show (landed s e).poisonedSource { e with mask := e.mask } = false from h.clean]
  rfl

theorem stepTrap_of_ne {s : State} {e : Env} {cls : IClass} (h : e.g.stepctl ≠ 1) : s.stepTrap e cls = s := by
  unfold State.stepTrap
  split
  · exact if_neg (by simp only [Bool.and_eq_true, beq_iff_eq]; exact fun k => h k.1.1.1.1)
  · rfl

/-- An effect that is done leaves the state it names, advanced. -/
theorem Issues.finish_done (h : Issues i s e p) (cls : IClass) (u : State) :
    (landed s e).finish e cls p (.done u) = u.advance e cls p := stepTrap_of_ne h.free

theorem Issues.completes (h : Issues i s e p) {cls : IClass} {legal : Env → State → Bool} {eff : Env → State → Eff}
    {u : State} (hx : exec i s = issue i cls legal eff s)
    (hl : legal { e with mask := e.v.active } (landed s e) = true) (hd : eff e (landed s e) = .done u) :
    Completes i s e cls u := by
  refine ⟨u.advance e cls p, ?_, elapsed_advance u e cls p⟩
  rw [hx, h.issue_eq cls legal eff hl, hd, h.finish_done]

/-- An effect that holds its pipe for more cycles leaves the same, and time. -/
theorem Issues.finish_held (h : Issues i s e p) (cls : IClass) (u : State) (n : Nat) :
    (landed s e).finish e cls p (.held u n) = (u.advance e cls p).idle e.gid n := stepTrap_of_ne h.free

theorem Issues.completes_held (h : Issues i s e p) {cls : IClass} {legal : Env → State → Bool} {eff : Env → State → Eff}
    {u : State} {n : Nat} (hx : exec i s = issue i cls legal eff s)
    (hl : legal { e with mask := e.v.active } (landed s e) = true) (hd : eff e (landed s e) = .held u n) :
    Completes i s e cls u := by
  refine ⟨(u.advance e cls p).idle e.gid n, ?_, (elapsed_advance u e cls p).trans (elapsed_idle _ _ _)⟩
  rw [hx, h.issue_eq cls legal eff hl, hd, h.finish_held]

/-- A result under way. -/
theorem Issues.result_landed (h : Issues i s e p) (latency : Nat) (ws : List RegWrite) (fl : Fl) :
    (landed s e).result e latency ws fl = (landed s e).putGroup e.gid (posted e (result e latency ws fl)) := by
  obtain ⟨ws', hw⟩ := h.landed_eq
  rw [hw, State.putGroup_putGroup]
  unfold State.result
  rw [State.modGroup_putGroup]
  rfl

theorem Issues.posts (h : Issues i s e p) {cls : IClass} {legal : Env → State → Bool} {eff : Env → State → Eff}
    {latency : Nat} {ws : List RegWrite} {fl : Fl} (hx : exec i s = issue i cls legal eff s)
    (hl : legal { e with mask := e.v.active } (landed s e) = true)
    (hd : eff e (landed s e) = .done ((landed s e).result e latency ws fl)) : Posts i s e cls latency ws fl := by
  have := h.completes hx hl hd
  rwa [h.result_landed] at this

/-- A group-wise instruction posts what its form computes. -/
theorem Issues.groupwise (h : Issues i s e p) {cls : IClass} {latency : Nat} {f : Env → List RegWrite × Fl}
    (hx : exec i s = groupwise i cls latency f s) : Posts i s e cls latency (f e).1 (f e).2 :=
  h.posts (legal := always) hx rfl rfl

/-- The flags of a lane-wise instruction: those of every active lane. -/
def laneFlags (e : Env) (f : Nat → Fl) : Fl := e.lanes.foldl (fun a t => a.or (f t)) {}

/-- A lane-wise instruction posts the write of every active lane. -/
theorem Issues.lanewise (h : Issues i s e p) {latency : Nat} {write : Nat → Nat → List RegWrite}
    {f : Env → Nat → Nat × Fl} (hx : exec i s = lanewise i latency write f s) :
    Posts i s e .vector latency (e.lanes.flatMap fun t => write t (f e t).1) (laneFlags e fun t => (f e t).2) := by
  have := h.posts (legal := always) hx rfl rfl
  simpa only [List.flatMap_map, List.foldl_map, laneFlags] using this

/-- No lane raises a flag. -/
theorem laneFlags_none (e : Env) : laneFlags e (fun _ => {}) = {} := by
  unfold laneFlags
  generalize e.lanes = l
  induction l with
  | nil => rfl
  | cons _ _ ih => simpa [Fl.or] using ih

end Sys2Proof.Safety
end

