-- ==== Sys2Proof/Laws/PerInstr.lean ====
section
/-!
SUPPORT. What the encoder answers for each instruction (R84): the bytes of a well-formed native instruction are as many as
its form says, and a device step, which has no encoding, has no bytes.
-/
set_option Elab.async false
namespace Sys2Proof

theorem toBe_length (n w : Nat) : (toBe n w).length = n := by simp [toBe]

theorem Hdr.ok_form {h : Hdr} {fs : List Form} (k : h.ok fs = true) : h.form ≠ .compact := by
  simp only [Hdr.ok, Bool.and_eq_true, bne_iff_ne, ne_eq] at k
  exact k.1.2

theorem VOp.has_form {o : VOp} {s : Shape} (k : o.has s = true) : o.h.form ≠ .compact := by
  simp only [VOp.has, Bool.and_eq_true] at k
  exact Hdr.ok_form k.1.1.1.1.1.1.1.1.1.1.1

theorem POp.has_form {o : POp} {fs tys d a b c g} (k : o.has fs tys d a b c g = true) : o.h.form ≠ .compact := by
  simp only [POp.has, Bool.and_eq_true] at k
  exact Hdr.ok_form k.1.1.1.1.1.1.1

theorem LiOp.has_form {o : LiOp} {tys d a b x g} (k : o.has tys d a b x g = true) : o.h.form ≠ .compact := by
  simp only [LiOp.has, Bool.and_eq_true] at k
  exact Hdr.ok_form k.1.1.1.1.1.1

theorem SysOp.has_form {o : SysOp} {fs tys n} (k : o.has fs tys n = true) : o.h.form ≠ .compact := by
  simp only [SysOp.has, Bool.and_eq_true] at k
  exact Hdr.ok_form k.1.1.1.1.1

namespace Laws.Encoding

/-- A well-formed native instruction encodes to the bytes of its form; a device step has no encoding (R84). -/
def Statement (i : Instr) : Prop :=
  (i.native = true → i.wf = true → ∃ bs, encode i = some bs ∧ bs.length = i.len) ∧
  (i.native = false → encode i = none)

theorem of_compact {i : Instr} {p : BitVec 5 × CompactOp} (hn : i.native = true) (hh : i.hdr = none)
    (hc : i.compactOp = some p) : Statement i := by
  refine ⟨fun _ _ => ⟨toBe 4 (compactWord p.1 p.2).toNat, ?_, ?_⟩, fun h => absurd h (by simp [hn])⟩
  · unfold encode; rw [hc]
  · simp only [Instr.len, hh, toBe_length]

theorem of_step {i : Instr} (hn : i.native = false) (hc : i.compactOp = none) (hw : i.iword = none) : Statement i := by
  refine ⟨fun h => absurd h (by simp [hn]), fun _ => ?_⟩
  unfold encode
  rw [hc, hw]
  rfl

theorem of_word {i : Instr} {w : IWord} {h : Hdr} (hn : i.native = true) (hc : i.compactOp = none)
    (hw : i.iword = some w) (hh : i.hdr = some h) (hf : w.form = h.form)
    (k : i.wf = true → h.form ≠ .compact) : Statement i := by
  refine ⟨fun _ wf => ?_, fun e => absurd e (by simp [hn])⟩
  have k := k wf
  unfold encode
  rw [hc, hw]
  simp only [Option.map_some, Instr.len, hh]
  cases e : h.form with
  | compact => exact absurd e k
  | six => exact ⟨_, rfl, by simp only [hf, e, toBe_length]⟩
  | eight => exact ⟨_, rfl, by simp only [hf, e, toBe_length]⟩
  | twelve => exact ⟨_, rfl, by simp only [hf, e, toBe_length]⟩

theorem nopCompact (o : CompactOp) : Statement (.nopCompact o) := of_compact rfl rfl rfl
theorem addI32Compact (o : CompactOp) : Statement (.addI32Compact o) := of_compact rfl rfl rfl
theorem subI32Compact (o : CompactOp) : Statement (.subI32Compact o) := of_compact rfl rfl rfl
theorem mulI32Compact (o : CompactOp) : Statement (.mulI32Compact o) := of_compact rfl rfl rfl
theorem minI32Compact (o : CompactOp) : Statement (.minI32Compact o) := of_compact rfl rfl rfl
theorem maxI32Compact (o : CompactOp) : Statement (.maxI32Compact o) := of_compact rfl rfl rfl
theorem andCompact (o : CompactOp) : Statement (.andCompact o) := of_compact rfl rfl rfl
theorem orCompact (o : CompactOp) : Statement (.orCompact o) := of_compact rfl rfl rfl
theorem xorCompact (o : CompactOp) : Statement (.xorCompact o) := of_compact rfl rfl rfl
theorem shlN32Compact (o : CompactOp) : Statement (.shlN32Compact o) := of_compact rfl rfl rfl
theorem shrN32Compact (o : CompactOp) : Statement (.shrN32Compact o) := of_compact rfl rfl rfl
theorem sarI32Compact (o : CompactOp) : Statement (.sarI32Compact o) := of_compact rfl rfl rfl
theorem movCompact (o : CompactOp) : Statement (.movCompact o) := of_compact rfl rfl rfl
theorem faddF32Compact (o : CompactOp) : Statement (.faddF32Compact o) := of_compact rfl rfl rfl
theorem fsubF32Compact (o : CompactOp) : Statement (.fsubF32Compact o) := of_compact rfl rfl rfl
theorem fmulF32Compact (o : CompactOp) : Statement (.fmulF32Compact o) := of_compact rfl rfl rfl
theorem fminF32Compact (o : CompactOp) : Statement (.fminF32Compact o) := of_compact rfl rfl rfl
theorem fmaxF32Compact (o : CompactOp) : Statement (.fmaxF32Compact o) := of_compact rfl rfl rfl
theorem faddH16x2Compact (o : CompactOp) : Statement (.faddH16x2Compact o) := of_compact rfl rfl rfl
theorem fmulH16x2Compact (o : CompactOp) : Statement (.fmulH16x2Compact o) := of_compact rfl rfl rfl
theorem lmulLn8x4Compact (o : CompactOp) : Statement (.lmulLn8x4Compact o) := of_compact rfl rfl rfl
theorem lmulLn4x8Compact (o : CompactOp) : Statement (.lmulLn4x8Compact o) := of_compact rfl rfl rfl
theorem saddCompact (o : CompactOp) : Statement (.saddCompact o) := of_compact rfl rfl rfl
theorem ssubCompact (o : CompactOp) : Statement (.ssubCompact o) := of_compact rfl rfl rfl
theorem sandCompact (o : CompactOp) : Statement (.sandCompact o) := of_compact rfl rfl rfl
theorem sorCompact (o : CompactOp) : Statement (.sorCompact o) := of_compact rfl rfl rfl
theorem sxorCompact (o : CompactOp) : Statement (.sxorCompact o) := of_compact rfl rfl rfl
theorem popcCompact (o : CompactOp) : Statement (.popcCompact o) := of_compact rfl rfl rfl
theorem clzCompact (o : CompactOp) : Statement (.clzCompact o) := of_compact rfl rfl rfl
theorem brevCompact (o : CompactOp) : Statement (.brevCompact o) := of_compact rfl rfl rfl
theorem notCompact (o : CompactOp) : Statement (.notCompact o) := of_compact rfl rfl rfl
theorem absI32Compact (o : CompactOp) : Statement (.absI32Compact o) := of_compact rfl rfl rfl
theorem abs (o : VOp) : Statement (.abs o) := of_word rfl rfl rfl rfl rfl fun wf => by
  simp only [Instr.wf] at wf
  with_reducible first
    | exact VOp.has_form wf | exact VOp.has_form wf.1 | exact VOp.has_form wf.2 | exact VOp.has_form wf.1.1
theorem add (o : VOp) : Statement (.add o) := of_word rfl rfl rfl rfl rfl fun wf => by
  simp only [Instr.wf] at wf
  with_reducible first
    | exact VOp.has_form wf | exact VOp.has_form wf.1 | exact VOp.has_form wf.2 | exact VOp.has_form wf.1.1
theorem sub (o : VOp) : Statement (.sub o) := of_word rfl rfl rfl rfl rfl fun wf => by
  simp only [Instr.wf] at wf
  with_reducible first
    | exact VOp.has_form wf | exact VOp.has_form wf.1 | exact VOp.has_form wf.2 | exact VOp.has_form wf.1.1
theorem mul (o : VOp) : Statement (.mul o) := of_word rfl rfl rfl rfl rfl fun wf => by
  simp only [Instr.wf] at wf
  with_reducible first
    | exact VOp.has_form wf | exact VOp.has_form wf.1 | exact VOp.has_form wf.2 | exact VOp.has_form wf.1.1
theorem mulhi (o : VOp) : Statement (.mulhi o) := of_word rfl rfl rfl rfl rfl fun wf => by
  simp only [Instr.wf] at wf
  with_reducible first
    | exact VOp.has_form wf | exact VOp.has_form wf.1 | exact VOp.has_form wf.2 | exact VOp.has_form wf.1.1
theorem mad (o : VOp) : Statement (.mad o) := of_word rfl rfl rfl rfl rfl fun wf => by
  simp only [Instr.wf] at wf
  with_reducible first
    | exact VOp.has_form wf | exact VOp.has_form wf.1 | exact VOp.has_form wf.2 | exact VOp.has_form wf.1.1
theorem min (o : VOp) : Statement (.min o) := of_word rfl rfl rfl rfl rfl fun wf => by
  simp only [Instr.wf] at wf
  with_reducible first
    | exact VOp.has_form wf | exact VOp.has_form wf.1 | exact VOp.has_form wf.2 | exact VOp.has_form wf.1.1
theorem max (o : VOp) : Statement (.max o) := of_word rfl rfl rfl rfl rfl fun wf => by
  simp only [Instr.wf] at wf
  with_reducible first
    | exact VOp.has_form wf | exact VOp.has_form wf.1 | exact VOp.has_form wf.2 | exact VOp.has_form wf.1.1
theorem and (o : VOp) : Statement (.and o) := of_word rfl rfl rfl rfl rfl fun wf => by
  simp only [Instr.wf] at wf
  with_reducible first
    | exact VOp.has_form wf | exact VOp.has_form wf.1 | exact VOp.has_form wf.2 | exact VOp.has_form wf.1.1
theorem or (o : VOp) : Statement (.or o) := of_word rfl rfl rfl rfl rfl fun wf => by
  simp only [Instr.wf] at wf
  with_reducible first
    | exact VOp.has_form wf | exact VOp.has_form wf.1 | exact VOp.has_form wf.2 | exact VOp.has_form wf.1.1
theorem xor (o : VOp) : Statement (.xor o) := of_word rfl rfl rfl rfl rfl fun wf => by
  simp only [Instr.wf] at wf
  with_reducible first
    | exact VOp.has_form wf | exact VOp.has_form wf.1 | exact VOp.has_form wf.2 | exact VOp.has_form wf.1.1
theorem not (o : VOp) : Statement (.not o) := of_word rfl rfl rfl rfl rfl fun wf => by
  simp only [Instr.wf] at wf
  with_reducible first
    | exact VOp.has_form wf | exact VOp.has_form wf.1 | exact VOp.has_form wf.2 | exact VOp.has_form wf.1.1
theorem shl (o : VOp) : Statement (.shl o) := of_word rfl rfl rfl rfl rfl fun wf => by
  simp only [Instr.wf] at wf
  with_reducible first
    | exact VOp.has_form wf | exact VOp.has_form wf.1 | exact VOp.has_form wf.2 | exact VOp.has_form wf.1.1
theorem shr (o : VOp) : Statement (.shr o) := of_word rfl rfl rfl rfl rfl fun wf => by
  simp only [Instr.wf] at wf
  with_reducible first
    | exact VOp.has_form wf | exact VOp.has_form wf.1 | exact VOp.has_form wf.2 | exact VOp.has_form wf.1.1
theorem sar (o : VOp) : Statement (.sar o) := of_word rfl rfl rfl rfl rfl fun wf => by
  simp only [Instr.wf] at wf
  with_reducible first
    | exact VOp.has_form wf | exact VOp.has_form wf.1 | exact VOp.has_form wf.2 | exact VOp.has_form wf.1.1
theorem fsl (o : VOp) : Statement (.fsl o) := of_word rfl rfl rfl rfl rfl fun wf => by
  simp only [Instr.wf] at wf
  with_reducible first
    | exact VOp.has_form wf | exact VOp.has_form wf.1 | exact VOp.has_form wf.2 | exact VOp.has_form wf.1.1
theorem fsr (o : VOp) : Statement (.fsr o) := of_word rfl rfl rfl rfl rfl fun wf => by
  simp only [Instr.wf] at wf
  with_reducible first
    | exact VOp.has_form wf | exact VOp.has_form wf.1 | exact VOp.has_form wf.2 | exact VOp.has_form wf.1.1
theorem bfx (o : VOp) : Statement (.bfx o) := of_word rfl rfl rfl rfl rfl fun wf => by
  simp only [Instr.wf] at wf
  with_reducible first
    | exact VOp.has_form wf | exact VOp.has_form wf.1 | exact VOp.has_form wf.2 | exact VOp.has_form wf.1.1
theorem bfi (o : VOp) : Statement (.bfi o) := of_word rfl rfl rfl rfl rfl fun wf => by
  simp only [Instr.wf] at wf
  with_reducible first
    | exact VOp.has_form wf | exact VOp.has_form wf.1 | exact VOp.has_form wf.2 | exact VOp.has_form wf.1.1
theorem popc (o : VOp) : Statement (.popc o) := of_word rfl rfl rfl rfl rfl fun wf => by
  simp only [Instr.wf] at wf
  with_reducible first
    | exact VOp.has_form wf | exact VOp.has_form wf.1 | exact VOp.has_form wf.2 | exact VOp.has_form wf.1.1
theorem clz (o : VOp) : Statement (.clz o) := of_word rfl rfl rfl rfl rfl fun wf => by
  simp only [Instr.wf] at wf
  with_reducible first
    | exact VOp.has_form wf | exact VOp.has_form wf.1 | exact VOp.has_form wf.2 | exact VOp.has_form wf.1.1
theorem brev (o : VOp) : Statement (.brev o) := of_word rfl rfl rfl rfl rfl fun wf => by
  simp only [Instr.wf] at wf
  with_reducible first
    | exact VOp.has_form wf | exact VOp.has_form wf.1 | exact VOp.has_form wf.2 | exact VOp.has_form wf.1.1
theorem cmp (o : VOp) : Statement (.cmp o) := of_word rfl rfl rfl rfl rfl fun wf => by
  simp only [Instr.wf, Bool.and_eq_true] at wf
  with_reducible first
    | exact VOp.has_form wf | exact VOp.has_form wf.1 | exact VOp.has_form wf.2 | exact VOp.has_form wf.1.1
theorem sel (o : VOp) : Statement (.sel o) := of_word rfl rfl rfl rfl rfl fun wf => by
  simp only [Instr.wf] at wf
  with_reducible first
    | exact VOp.has_form wf | exact VOp.has_form wf.1 | exact VOp.has_form wf.2 | exact VOp.has_form wf.1.1
theorem lea (o : VOp) : Statement (.lea o) := of_word rfl rfl rfl rfl rfl fun wf => by
  simp only [Instr.wf] at wf
  with_reducible first
    | exact VOp.has_form wf | exact VOp.has_form wf.1 | exact VOp.has_form wf.2 | exact VOp.has_form wf.1.1
theorem idot (o : VOp) : Statement (.idot o) := of_word rfl rfl rfl rfl rfl fun wf => by
  simp only [Instr.wf] at wf
  with_reducible first
    | exact VOp.has_form wf | exact VOp.has_form wf.1 | exact VOp.has_form wf.2 | exact VOp.has_form wf.1.1
theorem fadd (o : VOp) : Statement (.fadd o) := of_word rfl rfl rfl rfl rfl fun wf => by
  simp only [Instr.wf] at wf
  with_reducible first
    | exact VOp.has_form wf | exact VOp.has_form wf.1 | exact VOp.has_form wf.2 | exact VOp.has_form wf.1.1
theorem fsub (o : VOp) : Statement (.fsub o) := of_word rfl rfl rfl rfl rfl fun wf => by
  simp only [Instr.wf] at wf
  with_reducible first
    | exact VOp.has_form wf | exact VOp.has_form wf.1 | exact VOp.has_form wf.2 | exact VOp.has_form wf.1.1
theorem fmul (o : VOp) : Statement (.fmul o) := of_word rfl rfl rfl rfl rfl fun wf => by
  simp only [Instr.wf] at wf
  with_reducible first
    | exact VOp.has_form wf | exact VOp.has_form wf.1 | exact VOp.has_form wf.2 | exact VOp.has_form wf.1.1
theorem ffma (o : VOp) : Statement (.ffma o) := of_word rfl rfl rfl rfl rfl fun wf => by
  simp only [Instr.wf] at wf
  with_reducible first
    | exact VOp.has_form wf | exact VOp.has_form wf.1 | exact VOp.has_form wf.2 | exact VOp.has_form wf.1.1
theorem fmin (o : VOp) : Statement (.fmin o) := of_word rfl rfl rfl rfl rfl fun wf => by
  simp only [Instr.wf] at wf
  with_reducible first
    | exact VOp.has_form wf | exact VOp.has_form wf.1 | exact VOp.has_form wf.2 | exact VOp.has_form wf.1.1
theorem fmax (o : VOp) : Statement (.fmax o) := of_word rfl rfl rfl rfl rfl fun wf => by
  simp only [Instr.wf] at wf
  with_reducible first
    | exact VOp.has_form wf | exact VOp.has_form wf.1 | exact VOp.has_form wf.2 | exact VOp.has_form wf.1.1
theorem fcmp (o : VOp) : Statement (.fcmp o) := of_word rfl rfl rfl rfl rfl fun wf => by
  simp only [Instr.wf] at wf
  with_reducible first
    | exact VOp.has_form wf | exact VOp.has_form wf.1 | exact VOp.has_form wf.2 | exact VOp.has_form wf.1.1
theorem fcvt (o : VOp) : Statement (.fcvt o) := of_word rfl rfl rfl rfl rfl fun wf => by
  simp only [Instr.wf, Bool.and_eq_true] at wf
  with_reducible first
    | exact VOp.has_form wf | exact VOp.has_form wf.1 | exact VOp.has_form wf.2 | exact VOp.has_form wf.1.1
theorem frcp (o : VOp) : Statement (.frcp o) := of_word rfl rfl rfl rfl rfl fun wf => by
  simp only [Instr.wf, special] at wf
  with_reducible first
    | exact VOp.has_form wf | exact VOp.has_form wf.1 | exact VOp.has_form wf.2 | exact VOp.has_form wf.1.1
theorem frsq (o : VOp) : Statement (.frsq o) := of_word rfl rfl rfl rfl rfl fun wf => by
  simp only [Instr.wf, special] at wf
  with_reducible first
    | exact VOp.has_form wf | exact VOp.has_form wf.1 | exact VOp.has_form wf.2 | exact VOp.has_form wf.1.1
theorem fex2 (o : VOp) : Statement (.fex2 o) := of_word rfl rfl rfl rfl rfl fun wf => by
  simp only [Instr.wf, special] at wf
  with_reducible first
    | exact VOp.has_form wf | exact VOp.has_form wf.1 | exact VOp.has_form wf.2 | exact VOp.has_form wf.1.1
theorem flg2 (o : VOp) : Statement (.flg2 o) := of_word rfl rfl rfl rfl rfl fun wf => by
  simp only [Instr.wf, special] at wf
  with_reducible first
    | exact VOp.has_form wf | exact VOp.has_form wf.1 | exact VOp.has_form wf.2 | exact VOp.has_form wf.1.1
theorem fsin (o : VOp) : Statement (.fsin o) := of_word rfl rfl rfl rfl rfl fun wf => by
  simp only [Instr.wf, special] at wf
  with_reducible first
    | exact VOp.has_form wf | exact VOp.has_form wf.1 | exact VOp.has_form wf.2 | exact VOp.has_form wf.1.1
theorem fcos (o : VOp) : Statement (.fcos o) := of_word rfl rfl rfl rfl rfl fun wf => by
  simp only [Instr.wf, special] at wf
  with_reducible first
    | exact VOp.has_form wf | exact VOp.has_form wf.1 | exact VOp.has_form wf.2 | exact VOp.has_form wf.1.1
theorem lmul (o : VOp) : Statement (.lmul o) := of_word rfl rfl rfl rfl rfl fun wf => by
  simp only [Instr.wf, logBin] at wf
  with_reducible first
    | exact VOp.has_form wf | exact VOp.has_form wf.1 | exact VOp.has_form wf.2 | exact VOp.has_form wf.1.1
theorem ldiv (o : VOp) : Statement (.ldiv o) := of_word rfl rfl rfl rfl rfl fun wf => by
  simp only [Instr.wf, logBin] at wf
  with_reducible first
    | exact VOp.has_form wf | exact VOp.has_form wf.1 | exact VOp.has_form wf.2 | exact VOp.has_form wf.1.1
theorem lscl (o : VOp) : Statement (.lscl o) := of_word rfl rfl rfl rfl rfl fun wf => by
  simp only [Instr.wf, logBin] at wf
  with_reducible first
    | exact VOp.has_form wf | exact VOp.has_form wf.1 | exact VOp.has_form wf.2 | exact VOp.has_form wf.1.1
theorem lcvt (o : VOp) : Statement (.lcvt o) := of_word rfl rfl rfl rfl rfl fun wf => by
  simp only [Instr.wf, lcvtOk, Bool.and_eq_true] at wf
  with_reducible first
    | exact VOp.has_form wf | exact VOp.has_form wf.1 | exact VOp.has_form wf.2 | exact VOp.has_form wf.1.1
theorem lqnt (o : VOp) : Statement (.lqnt o) := of_word rfl rfl rfl rfl rfl fun wf => by
  simp only [Instr.wf, lqntOk, Bool.and_eq_true] at wf
  with_reducible first
    | exact VOp.has_form wf | exact VOp.has_form wf.1 | exact VOp.has_form wf.2 | exact VOp.has_form wf.1.1
theorem ldot (o : VOp) : Statement (.ldot o) := of_word rfl rfl rfl rfl rfl fun wf => by
  simp only [Instr.wf] at wf
  with_reducible first
    | exact VOp.has_form wf | exact VOp.has_form wf.1 | exact VOp.has_form wf.2 | exact VOp.has_form wf.1.1
theorem mfmt (o : POp) : Statement (.mfmt o) := of_word rfl rfl rfl rfl rfl fun wf => by
  simp only [Instr.wf] at wf
  first
    | exact POp.has_form wf | exact POp.has_form wf.1 | exact POp.has_form wf.1.1 | exact POp.has_form wf.1.1.1
    | exact POp.has_form wf.1.1.1.1 | exact POp.has_form wf.1.1.1.1.1
theorem mlay (o : POp) : Statement (.mlay o) := of_word rfl rfl rfl rfl rfl fun wf => by
  simp only [Instr.wf] at wf
  first
    | exact POp.has_form wf | exact POp.has_form wf.1 | exact POp.has_form wf.1.1 | exact POp.has_form wf.1.1.1
    | exact POp.has_form wf.1.1.1.1 | exact POp.has_form wf.1.1.1.1.1
theorem mma (o : POp) : Statement (.mma o) := of_word rfl rfl rfl rfl rfl fun wf => by
  simp only [Instr.wf] at wf
  first
    | exact POp.has_form wf | exact POp.has_form wf.1 | exact POp.has_form wf.1.1 | exact POp.has_form wf.1.1.1
    | exact POp.has_form wf.1.1.1.1 | exact POp.has_form wf.1.1.1.1.1
theorem mloop (o : POp) : Statement (.mloop o) := of_word rfl rfl rfl rfl rfl fun wf => by
  simp only [Instr.wf] at wf
  first
    | exact POp.has_form wf | exact POp.has_form wf.1 | exact POp.has_form wf.1.1 | exact POp.has_form wf.1.1.1
    | exact POp.has_form wf.1.1.1.1 | exact POp.has_form wf.1.1.1.1.1
theorem mzero (o : POp) : Statement (.mzero o) := of_word rfl rfl rfl rfl rfl fun wf => by
  simp only [Instr.wf] at wf
  first
    | exact POp.has_form wf | exact POp.has_form wf.1 | exact POp.has_form wf.1.1 | exact POp.has_form wf.1.1.1
    | exact POp.has_form wf.1.1.1.1 | exact POp.has_form wf.1.1.1.1.1
theorem mrd (o : POp) : Statement (.mrd o) := of_word rfl rfl rfl rfl rfl fun wf => by
  simp only [Instr.wf] at wf
  first
    | exact POp.has_form wf | exact POp.has_form wf.1 | exact POp.has_form wf.1.1 | exact POp.has_form wf.1.1.1
    | exact POp.has_form wf.1.1.1.1 | exact POp.has_form wf.1.1.1.1.1
theorem mwr (o : POp) : Statement (.mwr o) := of_word rfl rfl rfl rfl rfl fun wf => by
  simp only [Instr.wf] at wf
  first
    | exact POp.has_form wf | exact POp.has_form wf.1 | exact POp.has_form wf.1.1 | exact POp.has_form wf.1.1.1
    | exact POp.has_form wf.1.1.1.1 | exact POp.has_form wf.1.1.1.1.1
theorem mov (o : VOp) : Statement (.mov o) := of_word rfl rfl rfl rfl rfl fun wf => by
  simp only [Instr.wf] at wf
  with_reducible first
    | exact VOp.has_form wf | exact VOp.has_form wf.1 | exact VOp.has_form wf.2 | exact VOp.has_form wf.1.1
theorem movi (o : LiOp) : Statement (.movi o) := of_word rfl rfl rfl rfl rfl fun wf => by
  simp only [Instr.wf, Bool.and_eq_true] at wf
  first
    | exact LiOp.has_form wf | exact LiOp.has_form wf.1 | exact LiOp.has_form wf.1.1 | exact LiOp.has_form wf.1.1.1
    | exact LiOp.has_form wf.1.1.1.1 | exact LiOp.has_form wf.1.1.1.1.1
theorem rdx (o : VOp) : Statement (.rdx o) := of_word rfl rfl rfl rfl rfl fun wf => by
  simp only [Instr.wf, rdxOk, Bool.and_eq_true] at wf
  with_reducible first
    | exact VOp.has_form wf | exact VOp.has_form wf.1 | exact VOp.has_form wf.2 | exact VOp.has_form wf.1.1
theorem wrx (o : VOp) : Statement (.wrx o) := of_word rfl rfl rfl rfl rfl fun wf => by
  simp only [Instr.wf, rdxOk, Bool.and_eq_true] at wf
  with_reducible first
    | exact VOp.has_form wf | exact VOp.has_form wf.1 | exact VOp.has_form wf.2 | exact VOp.has_form wf.1.1
theorem vtos (o : VOp) : Statement (.vtos o) := of_word rfl rfl rfl rfl rfl fun wf => by
  simp only [Instr.wf] at wf
  with_reducible first
    | exact VOp.has_form wf | exact VOp.has_form wf.1 | exact VOp.has_form wf.2 | exact VOp.has_form wf.1.1
theorem stov (o : VOp) : Statement (.stov o) := of_word rfl rfl rfl rfl rfl fun wf => by
  simp only [Instr.wf] at wf
  with_reducible first
    | exact VOp.has_form wf | exact VOp.has_form wf.1 | exact VOp.has_form wf.2 | exact VOp.has_form wf.1.1
theorem shfl (o : VOp) : Statement (.shfl o) := of_word rfl rfl rfl rfl rfl fun wf => by
  simp only [Instr.wf, shflOk, Bool.and_eq_true] at wf
  with_reducible first
    | exact VOp.has_form wf | exact VOp.has_form wf.1 | exact VOp.has_form wf.2 | exact VOp.has_form wf.1.1
theorem redux (o : VOp) : Statement (.redux o) := of_word rfl rfl rfl rfl rfl fun wf => by
  simp only [Instr.wf, foldOk, Bool.and_eq_true] at wf
  with_reducible first
    | exact VOp.has_form wf | exact VOp.has_form wf.1 | exact VOp.has_form wf.2 | exact VOp.has_form wf.1.1
theorem pfx (o : VOp) : Statement (.pfx o) := of_word rfl rfl rfl rfl rfl fun wf => by
  simp only [Instr.wf, foldOk, Bool.and_eq_true] at wf
  with_reducible first
    | exact VOp.has_form wf | exact VOp.has_form wf.1 | exact VOp.has_form wf.2 | exact VOp.has_form wf.1.1
theorem matchKeys (o : VOp) : Statement (.matchKeys o) := of_word rfl rfl rfl rfl rfl fun wf => by
  simp only [Instr.wf, matchOk, Bool.and_eq_true] at wf
  with_reducible first
    | exact VOp.has_form wf | exact VOp.has_form wf.1 | exact VOp.has_form wf.2 | exact VOp.has_form wf.1.1
theorem vote (o : VOp) : Statement (.vote o) := of_word rfl rfl rfl rfl rfl fun wf => by
  simp only [Instr.wf, voteOk, Bool.and_eq_true] at wf
  with_reducible first
    | exact VOp.has_form wf | exact VOp.has_form wf.1 | exact VOp.has_form wf.2 | exact VOp.has_form wf.1.1
theorem nzscan (o : VOp) : Statement (.nzscan o) := of_word rfl rfl rfl rfl rfl fun wf => by
  simp only [Instr.wf] at wf
  with_reducible first
    | exact VOp.has_form wf | exact VOp.has_form wf.1 | exact VOp.has_form wf.2 | exact VOp.has_form wf.1.1
theorem sadd (o : VOp) : Statement (.sadd o) := of_word rfl rfl rfl rfl rfl fun wf => by
  simp only [Instr.wf, uniBin, Bool.and_eq_true] at wf
  with_reducible first
    | exact VOp.has_form wf | exact VOp.has_form wf.1 | exact VOp.has_form wf.2 | exact VOp.has_form wf.1.1
theorem ssub (o : VOp) : Statement (.ssub o) := of_word rfl rfl rfl rfl rfl fun wf => by
  simp only [Instr.wf, uniBin, Bool.and_eq_true] at wf
  with_reducible first
    | exact VOp.has_form wf | exact VOp.has_form wf.1 | exact VOp.has_form wf.2 | exact VOp.has_form wf.1.1
theorem smul (o : VOp) : Statement (.smul o) := of_word rfl rfl rfl rfl rfl fun wf => by
  simp only [Instr.wf, uniBin, Bool.and_eq_true] at wf
  with_reducible first
    | exact VOp.has_form wf | exact VOp.has_form wf.1 | exact VOp.has_form wf.2 | exact VOp.has_form wf.1.1
theorem sand (o : VOp) : Statement (.sand o) := of_word rfl rfl rfl rfl rfl fun wf => by
  simp only [Instr.wf, uniBin, Bool.and_eq_true] at wf
  with_reducible first
    | exact VOp.has_form wf | exact VOp.has_form wf.1 | exact VOp.has_form wf.2 | exact VOp.has_form wf.1.1
theorem sor (o : VOp) : Statement (.sor o) := of_word rfl rfl rfl rfl rfl fun wf => by
  simp only [Instr.wf, uniBin, Bool.and_eq_true] at wf
  with_reducible first
    | exact VOp.has_form wf | exact VOp.has_form wf.1 | exact VOp.has_form wf.2 | exact VOp.has_form wf.1.1
theorem sxor (o : VOp) : Statement (.sxor o) := of_word rfl rfl rfl rfl rfl fun wf => by
  simp only [Instr.wf, uniBin, Bool.and_eq_true] at wf
  with_reducible first
    | exact VOp.has_form wf | exact VOp.has_form wf.1 | exact VOp.has_form wf.2 | exact VOp.has_form wf.1.1
theorem sshl (o : VOp) : Statement (.sshl o) := of_word rfl rfl rfl rfl rfl fun wf => by
  simp only [Instr.wf, uniBin, Bool.and_eq_true] at wf
  with_reducible first
    | exact VOp.has_form wf | exact VOp.has_form wf.1 | exact VOp.has_form wf.2 | exact VOp.has_form wf.1.1
theorem sshr (o : VOp) : Statement (.sshr o) := of_word rfl rfl rfl rfl rfl fun wf => by
  simp only [Instr.wf, uniBin, Bool.and_eq_true] at wf
  with_reducible first
    | exact VOp.has_form wf | exact VOp.has_form wf.1 | exact VOp.has_form wf.2 | exact VOp.has_form wf.1.1
theorem scmp (o : VOp) : Statement (.scmp o) := of_word rfl rfl rfl rfl rfl fun wf => by
  simp only [Instr.wf, scmpOk, Bool.and_eq_true] at wf
  with_reducible first
    | exact VOp.has_form wf | exact VOp.has_form wf.1 | exact VOp.has_form wf.2 | exact VOp.has_form wf.1.1
theorem ssel (o : VOp) : Statement (.ssel o) := of_word rfl rfl rfl rfl rfl fun wf => by
  simp only [Instr.wf, sselOk] at wf
  with_reducible first
    | exact VOp.has_form wf | exact VOp.has_form wf.1 | exact VOp.has_form wf.2 | exact VOp.has_form wf.1.1
theorem smovi (o : LiOp) : Statement (.smovi o) := of_word rfl rfl rfl rfl rfl fun wf => by
  simp only [Instr.wf] at wf
  first
    | exact LiOp.has_form wf | exact LiOp.has_form wf.1 | exact LiOp.has_form wf.1.1 | exact LiOp.has_form wf.1.1.1
    | exact LiOp.has_form wf.1.1.1.1 | exact LiOp.has_form wf.1.1.1.1.1
theorem slea (o : VOp) : Statement (.slea o) := of_word rfl rfl rfl rfl rfl fun wf => by
  simp only [Instr.wf, sleaOk] at wf
  with_reducible first
    | exact VOp.has_form wf | exact VOp.has_form wf.1 | exact VOp.has_form wf.2 | exact VOp.has_form wf.1.1
theorem sld (o : MemOp) : Statement (.sld o) := of_word rfl rfl rfl rfl rfl fun wf => by
  simp only [Instr.wf, uniMemOk, Bool.and_eq_true] at wf
  exact Hdr.ok_form (fs := forms6) (by simp only [wf])
theorem sst (o : MemOp) : Statement (.sst o) := of_word rfl rfl rfl rfl rfl fun wf => by
  simp only [Instr.wf, uniMemOk, Bool.and_eq_true] at wf
  exact Hdr.ok_form (fs := forms6) (by simp only [wf])
theorem ld (o : MemOp) : Statement (.ld o) := of_word rfl rfl rfl rfl rfl fun wf => by
  simp only [Instr.wf, accessOk, Bool.and_eq_true] at wf
  exact Hdr.ok_form (fs := forms6) (by simp only [wf])
theorem ldv (o : MemOp) : Statement (.ldv o) := of_word rfl rfl rfl rfl rfl fun wf => by
  simp only [Instr.wf, accessOk, Bool.and_eq_true] at wf
  exact Hdr.ok_form (fs := forms6) (by simp only [wf])
theorem lds (o : MemOp) : Statement (.lds o) := of_word rfl rfl rfl rfl rfl fun wf => by
  simp only [Instr.wf, accessOk, Bool.and_eq_true] at wf
  exact Hdr.ok_form (fs := forms6) (by simp only [wf])
theorem ldb (o : MemOp) : Statement (.ldb o) := of_word rfl rfl rfl rfl rfl fun wf => by
  simp only [Instr.wf, accessOk, Bool.and_eq_true] at wf
  exact Hdr.ok_form (fs := forms6) (by simp only [wf])
theorem st (o : MemOp) : Statement (.st o) := of_word rfl rfl rfl rfl rfl fun wf => by
  simp only [Instr.wf, accessOk, Bool.and_eq_true] at wf
  exact Hdr.ok_form (fs := forms6) (by simp only [wf])
theorem stv (o : MemOp) : Statement (.stv o) := of_word rfl rfl rfl rfl rfl fun wf => by
  simp only [Instr.wf, accessOk, Bool.and_eq_true] at wf
  exact Hdr.ok_form (fs := forms6) (by simp only [wf])
theorem sts (o : MemOp) : Statement (.sts o) := of_word rfl rfl rfl rfl rfl fun wf => by
  simp only [Instr.wf, accessOk, Bool.and_eq_true] at wf
  exact Hdr.ok_form (fs := forms6) (by simp only [wf])
theorem stb (o : MemOp) : Statement (.stb o) := of_word rfl rfl rfl rfl rfl fun wf => by
  simp only [Instr.wf, accessOk, Bool.and_eq_true] at wf
  exact Hdr.ok_form (fs := forms6) (by simp only [wf])
theorem bop (o : MemOp) : Statement (.bop o) := of_word rfl rfl rfl rfl rfl fun wf => by
  simp only [Instr.wf, bopOk, Bool.and_eq_true] at wf
  exact Hdr.ok_form (fs := [.six, .twelve]) (by simp only [wf])
theorem atom (o : MemOp) : Statement (.atom o) := of_word rfl rfl rfl rfl rfl fun wf => by
  simp only [Instr.wf, atomOk, atomicOk, Bool.and_eq_true] at wf
  exact Hdr.ok_form (fs := forms8) (by simp only [wf])
theorem cas (o : MemOp) : Statement (.cas o) := of_word rfl rfl rfl rfl rfl fun wf => by
  simp only [Instr.wf, casOk, atomicOk, Bool.and_eq_true] at wf
  exact Hdr.ok_form (fs := forms8) (by simp only [wf])
theorem red (o : MemOp) : Statement (.red o) := of_word rfl rfl rfl rfl rfl fun wf => by
  simp only [Instr.wf, redOk, atomicOk, Bool.and_eq_true] at wf
  exact Hdr.ok_form (fs := forms8) (by simp only [wf])
theorem fence (o : MemOp) : Statement (.fence o) := of_word rfl rfl rfl rfl rfl fun wf => by
  simp only [Instr.wf, fenceOk, Bool.and_eq_true] at wf
  exact Hdr.ok_form (fs := forms6) (by simp only [wf])
theorem kick (o : POp) : Statement (.kick o) := of_word rfl rfl rfl rfl rfl fun wf => by
  simp only [Instr.wf] at wf
  first
    | exact POp.has_form wf | exact POp.has_form wf.1 | exact POp.has_form wf.1.1 | exact POp.has_form wf.1.1.1
    | exact POp.has_form wf.1.1.1.1 | exact POp.has_form wf.1.1.1.1.1
theorem barinit (o : POp) : Statement (.barinit o) := of_word rfl rfl rfl rfl rfl fun wf => by
  simp only [Instr.wf] at wf
  first
    | exact POp.has_form wf | exact POp.has_form wf.1 | exact POp.has_form wf.1.1 | exact POp.has_form wf.1.1.1
    | exact POp.has_form wf.1.1.1.1 | exact POp.has_form wf.1.1.1.1.1
theorem waitb (o : POp) : Statement (.waitb o) := of_word rfl rfl rfl rfl rfl fun wf => by
  simp only [Instr.wf, Bool.and_eq_true] at wf
  first
    | exact POp.has_form wf | exact POp.has_form wf.1 | exact POp.has_form wf.1.1 | exact POp.has_form wf.1.1.1
    | exact POp.has_form wf.1.1.1.1 | exact POp.has_form wf.1.1.1.1.1
theorem waitc (o : POp) : Statement (.waitc o) := of_word rfl rfl rfl rfl rfl fun wf => by
  simp only [Instr.wf] at wf
  first
    | exact POp.has_form wf | exact POp.has_form wf.1 | exact POp.has_form wf.1.1 | exact POp.has_form wf.1.1.1
    | exact POp.has_form wf.1.1.1.1 | exact POp.has_form wf.1.1.1.1.1
theorem sleep (o : POp) : Statement (.sleep o) := of_word rfl rfl rfl rfl rfl fun wf => by
  simp only [Instr.wf] at wf
  first
    | exact POp.has_form wf | exact POp.has_form wf.1 | exact POp.has_form wf.1.1 | exact POp.has_form wf.1.1.1
    | exact POp.has_form wf.1.1.1.1 | exact POp.has_form wf.1.1.1.1.1
theorem bar (o : POp) : Statement (.bar o) := of_word rfl rfl rfl rfl rfl fun wf => by
  simp only [Instr.wf] at wf
  first
    | exact POp.has_form wf | exact POp.has_form wf.1 | exact POp.has_form wf.1.1 | exact POp.has_form wf.1.1.1
    | exact POp.has_form wf.1.1.1.1 | exact POp.has_form wf.1.1.1.1.1
theorem cbar (o : POp) : Statement (.cbar o) := of_word rfl rfl rfl rfl rfl fun wf => by
  simp only [Instr.wf] at wf
  first
    | exact POp.has_form wf | exact POp.has_form wf.1 | exact POp.has_form wf.1.1 | exact POp.has_form wf.1.1.1
    | exact POp.has_form wf.1.1.1.1 | exact POp.has_form wf.1.1.1.1.1
theorem gbar (o : POp) : Statement (.gbar o) := of_word rfl rfl rfl rfl rfl fun wf => by
  simp only [Instr.wf] at wf
  first
    | exact POp.has_form wf | exact POp.has_form wf.1 | exact POp.has_form wf.1.1 | exact POp.has_form wf.1.1.1
    | exact POp.has_form wf.1.1.1.1 | exact POp.has_form wf.1.1.1.1.1
theorem join (o : POp) : Statement (.join o) := of_word rfl rfl rfl rfl rfl fun wf => by
  simp only [Instr.wf] at wf
  first
    | exact POp.has_form wf | exact POp.has_form wf.1 | exact POp.has_form wf.1.1 | exact POp.has_form wf.1.1.1
    | exact POp.has_form wf.1.1.1.1 | exact POp.has_form wf.1.1.1.1.1
theorem leave (o : POp) : Statement (.leave o) := of_word rfl rfl rfl rfl rfl fun wf => by
  simp only [Instr.wf] at wf
  first
    | exact POp.has_form wf | exact POp.has_form wf.1 | exact POp.has_form wf.1.1 | exact POp.has_form wf.1.1.1
    | exact POp.has_form wf.1.1.1.1 | exact POp.has_form wf.1.1.1.1.1
theorem want (o : LiOp) : Statement (.want o) := of_word rfl rfl rfl rfl rfl fun wf => by
  simp only [Instr.wf] at wf
  first
    | exact LiOp.has_form wf | exact LiOp.has_form wf.1 | exact LiOp.has_form wf.1.1 | exact LiOp.has_form wf.1.1.1
    | exact LiOp.has_form wf.1.1.1.1 | exact LiOp.has_form wf.1.1.1.1.1
theorem wantr (o : POp) : Statement (.wantr o) := of_word rfl rfl rfl rfl rfl fun wf => by
  simp only [Instr.wf] at wf
  first
    | exact POp.has_form wf | exact POp.has_form wf.1 | exact POp.has_form wf.1.1 | exact POp.has_form wf.1.1.1
    | exact POp.has_form wf.1.1.1.1 | exact POp.has_form wf.1.1.1.1.1
theorem call (o : LiOp) : Statement (.call o) := of_word rfl rfl rfl rfl rfl fun wf => by
  simp only [Instr.wf] at wf
  first
    | exact LiOp.has_form wf | exact LiOp.has_form wf.1 | exact LiOp.has_form wf.1.1 | exact LiOp.has_form wf.1.1.1
    | exact LiOp.has_form wf.1.1.1.1 | exact LiOp.has_form wf.1.1.1.1.1
theorem callr (o : POp) : Statement (.callr o) := of_word rfl rfl rfl rfl rfl fun wf => by
  simp only [Instr.wf] at wf
  first
    | exact POp.has_form wf | exact POp.has_form wf.1 | exact POp.has_form wf.1.1 | exact POp.has_form wf.1.1.1
    | exact POp.has_form wf.1.1.1.1 | exact POp.has_form wf.1.1.1.1.1
theorem ret (o : POp) : Statement (.ret o) := of_word rfl rfl rfl rfl rfl fun wf => by
  simp only [Instr.wf] at wf
  first
    | exact POp.has_form wf | exact POp.has_form wf.1 | exact POp.has_form wf.1.1 | exact POp.has_form wf.1.1.1
    | exact POp.has_form wf.1.1.1.1 | exact POp.has_form wf.1.1.1.1.1
theorem exit (o : POp) : Statement (.exit o) := of_word rfl rfl rfl rfl rfl fun wf => by
  simp only [Instr.wf] at wf
  first
    | exact POp.has_form wf | exact POp.has_form wf.1 | exact POp.has_form wf.1.1 | exact POp.has_form wf.1.1.1
    | exact POp.has_form wf.1.1.1.1 | exact POp.has_form wf.1.1.1.1.1
theorem park (o : LiOp) : Statement (.park o) := of_word rfl rfl rfl rfl rfl fun wf => by
  simp only [Instr.wf, Bool.and_eq_true] at wf
  first
    | exact LiOp.has_form wf | exact LiOp.has_form wf.1 | exact LiOp.has_form wf.1.1 | exact LiOp.has_form wf.1.1.1
    | exact LiOp.has_form wf.1.1.1.1 | exact LiOp.has_form wf.1.1.1.1.1
theorem rejoin (o : LiOp) : Statement (.rejoin o) := of_word rfl rfl rfl rfl rfl fun wf => by
  simp only [Instr.wf] at wf
  first
    | exact LiOp.has_form wf | exact LiOp.has_form wf.1 | exact LiOp.has_form wf.1.1 | exact LiOp.has_form wf.1.1.1
    | exact LiOp.has_form wf.1.1.1.1 | exact LiOp.has_form wf.1.1.1.1.1
theorem region (o : LiOp) : Statement (.region o) := of_word rfl rfl rfl rfl rfl fun wf => by
  simp only [Instr.wf] at wf
  first
    | exact LiOp.has_form wf | exact LiOp.has_form wf.1 | exact LiOp.has_form wf.1.1 | exact LiOp.has_form wf.1.1.1
    | exact LiOp.has_form wf.1.1.1.1 | exact LiOp.has_form wf.1.1.1.1.1
theorem pfor (o : POp) : Statement (.pfor o) := of_word rfl rfl rfl rfl rfl fun wf => by
  simp only [Instr.wf] at wf
  first
    | exact POp.has_form wf | exact POp.has_form wf.1 | exact POp.has_form wf.1.1 | exact POp.has_form wf.1.1.1
    | exact POp.has_form wf.1.1.1.1 | exact POp.has_form wf.1.1.1.1.1
theorem pend (o : POp) : Statement (.pend o) := of_word rfl rfl rfl rfl rfl fun wf => by
  simp only [Instr.wf] at wf
  first
    | exact POp.has_form wf | exact POp.has_form wf.1 | exact POp.has_form wf.1.1 | exact POp.has_form wf.1.1.1
    | exact POp.has_form wf.1.1.1.1 | exact POp.has_form wf.1.1.1.1.1
theorem nop (o : SysOp) : Statement (.nop o) := of_word rfl rfl rfl rfl rfl fun wf => by
  simp only [Instr.wf, Bool.and_eq_true] at wf
  first
    | exact SysOp.has_form wf | exact SysOp.has_form wf.1 | exact SysOp.has_form wf.1.1 | exact SysOp.has_form wf.1.1.1
    | exact SysOp.has_form wf.1.1.1.1 | exact SysOp.has_form wf.1.1.1.1.1
theorem csrr (o : SysOp) : Statement (.csrr o) := of_word rfl rfl rfl rfl rfl fun wf => by
  simp only [Instr.wf, csrrOk, Bool.and_eq_true] at wf
  first
    | exact SysOp.has_form wf | exact SysOp.has_form wf.1 | exact SysOp.has_form wf.1.1 | exact SysOp.has_form wf.1.1.1
    | exact SysOp.has_form wf.1.1.1.1 | exact SysOp.has_form wf.1.1.1.1.1
theorem csrw (o : SysOp) : Statement (.csrw o) := of_word rfl rfl rfl rfl rfl fun wf => by
  simp only [Instr.wf, csrwOk, Bool.and_eq_true] at wf
  first
    | exact SysOp.has_form wf | exact SysOp.has_form wf.1 | exact SysOp.has_form wf.1.1 | exact SysOp.has_form wf.1.1.1
    | exact SysOp.has_form wf.1.1.1.1 | exact SysOp.has_form wf.1.1.1.1.1
theorem time (o : SysOp) : Statement (.time o) := of_word rfl rfl rfl rfl rfl fun wf => by
  simp only [Instr.wf, timeOk, Bool.and_eq_true] at wf
  first
    | exact SysOp.has_form wf | exact SysOp.has_form wf.1 | exact SysOp.has_form wf.1.1 | exact SysOp.has_form wf.1.1.1
    | exact SysOp.has_form wf.1.1.1.1 | exact SysOp.has_form wf.1.1.1.1.1
theorem trap (o : SysOp) : Statement (.trap o) := of_word rfl rfl rfl rfl rfl fun wf => by
  simp only [Instr.wf, Bool.and_eq_true] at wf
  first
    | exact SysOp.has_form wf | exact SysOp.has_form wf.1 | exact SysOp.has_form wf.1.1 | exact SysOp.has_form wf.1.1.1
    | exact SysOp.has_form wf.1.1.1.1 | exact SysOp.has_form wf.1.1.1.1.1
theorem eret (o : SysOp) : Statement (.eret o) := of_word rfl rfl rfl rfl rfl fun wf => by
  simp only [Instr.wf, Bool.and_eq_true] at wf
  first
    | exact SysOp.has_form wf | exact SysOp.has_form wf.1 | exact SysOp.has_form wf.1.1 | exact SysOp.has_form wf.1.1.1
    | exact SysOp.has_form wf.1.1.1.1 | exact SysOp.has_form wf.1.1.1.1.1
theorem brk (o : SysOp) : Statement (.brk o) := of_word rfl rfl rfl rfl rfl fun wf => by
  simp only [Instr.wf, Bool.and_eq_true] at wf
  first
    | exact SysOp.has_form wf | exact SysOp.has_form wf.1 | exact SysOp.has_form wf.1.1 | exact SysOp.has_form wf.1.1.1
    | exact SysOp.has_form wf.1.1.1.1 | exact SysOp.has_form wf.1.1.1.1.1
theorem arbitrationTurn (core pipe : Nat) : Statement (.arbitrationTurn core pipe) := of_step rfl rfl rfl
theorem courseBoundary (g : Gid) : Statement (.courseBoundary g) := of_step rfl rfl rfl
theorem idempotentRollback (g : Gid) : Statement (.idempotentRollback g) := of_step rfl rfl rfl
theorem valueArrival (g : Gid) (index : Nat) (move : ArrivalMove) : Statement (.valueArrival g index move) := of_step rfl rfl rfl
theorem storePerform (g : Gid) (move : StoreMove) : Statement (.storePerform g move) := of_step rfl rfl rfl
theorem parkNeRead (g : Gid) (lane : Nat) : Statement (.parkNeRead g lane) := of_step rfl rfl rfl
theorem parkConditionWake (g : Gid) : Statement (.parkConditionWake g) := of_step rfl rfl rfl
theorem sleepWake (g : Gid) : Statement (.sleepWake g) := of_step rfl rfl rfl
theorem lateCopyTrap (g : Gid) : Statement (.lateCopyTrap g) := of_step rfl rfl rfl
theorem faultRecordWrite (g : Gid) : Statement (.faultRecordWrite g) := of_step rfl rfl rfl
theorem matrixStep (team tile : Nat) : Statement (.matrixStep team tile) := of_step rfl rfl rfl
theorem formatEmulation (g : Gid) : Statement (.formatEmulation g) := of_step rfl rfl rfl
theorem hodDestinationWrite (g : Gid) (kick request row : Nat) : Statement (.hodDestinationWrite g kick request row) := of_step rfl rfl rfl
theorem bankOperationPerform (g : Gid) : Statement (.bankOperationPerform g) := of_step rfl rfl rfl
theorem remoteAcknowledge (g : Gid) : Statement (.remoteAcknowledge g) := of_step rfl rfl rfl
theorem peerRequest (port : Nat) (dev : Nat) (req : LinkReq) : Statement (.peerRequest port dev req) := of_step rfl rfl rfl
theorem putReceive (port : Nat) (phys : BitVec 48) (data : List Byte) : Statement (.putReceive port phys data) := of_step rfl rfl rfl
theorem putErrorResponse (p : PutRef) : Statement (.putErrorResponse p) := of_step rfl rfl rfl
theorem flitReceive (port : Nat) : Statement (.flitReceive port) := of_step rfl rfl rfl
theorem pauseFlitReceive (port : Nat) : Statement (.pauseFlitReceive port) := of_step rfl rfl rfl
theorem resumeFlitReceive (port : Nat) : Statement (.resumeFlitReceive port) := of_step rfl rfl rfl
theorem linkInjection (link : Nat) : Statement (.linkInjection link) := of_step rfl rfl rfl
theorem deterministicDrain (launch : Nat) : Statement (.deterministicDrain launch) := of_step rfl rfl rfl
theorem gbarRelease (launch : Nat) : Statement (.gbarRelease launch) := of_step rfl rfl rfl
theorem islandResume : Statement (.islandResume) := of_step rfl rfl rfl
theorem launch (q : Nat) : Statement (.launch q) := of_step rfl rfl rfl
theorem waitev (q : Nat) : Statement (.waitev q) := of_step rfl rfl rfl
theorem signal (q : Nat) : Statement (.signal q) := of_step rfl rfl rfl
theorem setdet (q : Nat) : Statement (.setdet q) := of_step rfl rfl rfl
theorem teamPlace : Statement (.teamPlace) := of_step rfl rfl rfl
theorem teamFree (team : Nat) : Statement (.teamFree team) := of_step rfl rfl rfl
theorem launchComplete (launch : Nat) : Statement (.launchComplete launch) := of_step rfl rfl rfl
theorem preemptDrain (value : W64) : Statement (.preemptDrain value) := of_step rfl rfl rfl
theorem seizeBegin : Statement (.seizeBegin) := of_step rfl rfl rfl
theorem teamSaveComplete (team : Nat) : Statement (.teamSaveComplete team) := of_step rfl rfl rfl
theorem seizeDeadline : Statement (.seizeDeadline) := of_step rfl rfl rfl
theorem preemptRestore (value : W64) : Statement (.preemptRestore value) := of_step rfl rfl rfl
theorem fbreplyReplay (slot : Nat) : Statement (.fbreplyReplay slot) := of_step rfl rfl rfl
theorem fbreplyKill (slot : Nat) : Statement (.fbreplyKill slot) := of_step rfl rfl rfl
theorem faultBufferConfigure (size : Bool) (value : W64) : Statement (.faultBufferConfigure size value) := of_step rfl rfl rfl
theorem tlbinvContext (ctx : Nat) : Statement (.tlbinvContext ctx) := of_step rfl rfl rfl
theorem tlbinvPage (ctx : Nat) (vpn : Nat) : Statement (.tlbinvPage ctx vpn) := of_step rfl rfl rfl
theorem tlbinvAll : Statement (.tlbinvAll) := of_step rfl rfl rfl
theorem tlbInvalidationComplete : Statement (.tlbInvalidationComplete) := of_step rfl rfl rfl
theorem injcfgWrite (link : Nat) (value : W64) : Statement (.injcfgWrite link value) := of_step rfl rfl rfl
theorem clockStepChange (island step : Nat) : Statement (.clockStepChange island step) := of_step rfl rfl rfl
theorem clockRatioChange (island ratio step : Nat) : Statement (.clockRatioChange island ratio step) := of_step rfl rfl rfl
theorem ratioSettleEnd (island : Nat) : Statement (.ratioSettleEnd island) := of_step rfl rfl rfl
theorem registerWrite (space : RegSpace) (offset : Nat) (value : RegData) : Statement (.registerWrite space offset value) := of_step rfl rfl rfl
theorem feataccWrite (value : W64) : Statement (.feataccWrite value) := of_step rfl rfl rfl
theorem hostBar2Access (req : LinkReq) : Statement (.hostBar2Access req) := of_step rfl rfl rfl
theorem droopAlarm (island : Nat) : Statement (.droopAlarm island) := of_step rfl rfl rfl
theorem droopStretchEnd (island : Nat) : Statement (.droopStretchEnd island) := of_step rfl rfl rfl
theorem droopCapEnd (island : Nat) : Statement (.droopCapEnd island) := of_step rfl rfl rfl
theorem thermalWarn : Statement (.thermalWarn) := of_step rfl rfl rfl
theorem alertRepeat : Statement (.alertRepeat) := of_step rfl rfl rfl
theorem thermalHot (die : Nat) : Statement (.thermalHot die) := of_step rfl rfl rfl
theorem thermalCritical : Statement (.thermalCritical) := of_step rfl rfl rfl
theorem thermalMarkClear (mark : Mark) : Statement (.thermalMarkClear mark) := of_step rfl rfl rfl
theorem lifetimeWriteback : Statement (.lifetimeWriteback) := of_step rfl rfl rfl
theorem laneRetire (die site lane : Nat) : Statement (.laneRetire die site lane) := of_step rfl rfl rfl
theorem powerOn : Statement (.powerOn) := of_step rfl rfl rfl
theorem functionBringup (f : Function) : Statement (.functionBringup f) := of_step rfl rfl rfl
theorem functionLevelReset : Statement (.functionLevelReset) := of_step rfl rfl rfl
theorem vilazRestart : Statement (.vilazRestart) := of_step rfl rfl rfl
theorem ethernetFrameReceive (dst : BitVec 48) (group : Bool) : Statement (.ethernetFrameReceive dst group) := of_step rfl rfl rfl
theorem getready (m : MgmtMsg) : Statement (.getready m) := of_step rfl rfl rfl
theorem getstatus (m : MgmtMsg) : Statement (.getstatus m) := of_step rfl rfl rfl
theorem getcount (m : MgmtMsg) : Statement (.getcount m) := of_step rfl rfl rfl
theorem gettemp (m : MgmtMsg) : Statement (.gettemp m) := of_step rfl rfl rfl
theorem flashopen (m : MgmtMsg) : Statement (.flashopen m) := of_step rfl rfl rfl
theorem flashdata (m : MgmtMsg) : Statement (.flashdata m) := of_step rfl rfl rfl
theorem flashclose (m : MgmtMsg) : Statement (.flashclose m) := of_step rfl rfl rfl
theorem setboot (m : MgmtMsg) : Statement (.setboot m) := of_step rfl rfl rfl
theorem setcoll (m : MgmtMsg) : Statement (.setcoll m) := of_step rfl rfl rfl
theorem alertack (m : MgmtMsg) : Statement (.alertack m) := of_step rfl rfl rfl
theorem settrust (m : MgmtMsg) : Statement (.settrust m) := of_step rfl rfl rfl
theorem setstore (m : MgmtMsg) : Statement (.setstore m) := of_step rfl rfl rfl
theorem exitCall (ctx : Nat) : Statement (.exitCall ctx) := of_step rfl rfl rfl
theorem write (ctx : Nat) : Statement (.write ctx) := of_step rfl rfl rfl
theorem memAlloc (ctx : Nat) : Statement (.memAlloc ctx) := of_step rfl rfl rfl
theorem memFree (ctx : Nat) : Statement (.memFree ctx) := of_step rfl rfl rfl
theorem memMap (ctx : Nat) : Statement (.memMap ctx) := of_step rfl rfl rfl
theorem objLoad (ctx : Nat) : Statement (.objLoad ctx) := of_step rfl rfl rfl
theorem objUnload (ctx : Nat) : Statement (.objUnload ctx) := of_step rfl rfl rfl
theorem objLookup (ctx : Nat) : Statement (.objLookup ctx) := of_step rfl rfl rfl
theorem launchCall (ctx : Nat) : Statement (.launchCall ctx) := of_step rfl rfl rfl
theorem eventWait (ctx : Nat) : Statement (.eventWait ctx) := of_step rfl rfl rfl
theorem eventWaitTimeout (ctx : Nat) : Statement (.eventWaitTimeout ctx) := of_step rfl rfl rfl
theorem eventQuery (ctx : Nat) : Statement (.eventQuery ctx) := of_step rfl rfl rfl
theorem queueCreate (ctx : Nat) : Statement (.queueCreate ctx) := of_step rfl rfl rfl
theorem queueDestroy (ctx : Nat) : Statement (.queueDestroy ctx) := of_step rfl rfl rfl
theorem featureQuery (ctx : Nat) : Statement (.featureQuery ctx) := of_step rfl rfl rfl
theorem timeNow (ctx : Nat) : Statement (.timeNow ctx) := of_step rfl rfl rfl
theorem peerOpen (ctx : Nat) : Statement (.peerOpen ctx) := of_step rfl rfl rfl
theorem peerMap (ctx : Nat) : Statement (.peerMap ctx) := of_step rfl rfl rfl
theorem attestReport (ctx : Nat) : Statement (.attestReport ctx) := of_step rfl rfl rfl
theorem debugAttach (ctx : Nat) : Statement (.debugAttach ctx) := of_step rfl rfl rfl
theorem yield (ctx : Nat) : Statement (.yield ctx) := of_step rfl rfl rfl
theorem powerLoss (orderly : Bool) : Statement (.powerLoss orderly) := of_step rfl rfl rfl
theorem deviceReset : Statement (.deviceReset) := of_step rfl rfl rfl
theorem functionFault (f : Function) : Statement (.functionFault f) := of_step rfl rfl rfl
theorem secdedError (w : ProtWord) (corrected : Bool) : Statement (.secdedError w corrected) := of_step rfl rfl rfl
theorem pcieConfigurationWrite (c : PcieCfg) : Statement (.pcieConfigurationWrite c) := of_step rfl rfl rfl
theorem imageStart (image : List Byte) : Statement (.imageStart image) := of_step rfl rfl rfl
theorem unassignedCallNumber (ctx : Nat) : Statement (.unassignedCallNumber ctx) := of_step rfl rfl rfl
theorem unknownOperation (m : MgmtMsg) : Statement (.unknownOperation m) := of_step rfl rfl rfl

end Laws.Encoding
end Sys2Proof
end

