-- ==== Sys2Proof/Tests/Slice0.lean ====
section
/-!
SUPPORT. The model's own tests: the words of the spec's encoding examples, an ill-formed term for each check of
WellFormed, single results that the spec works out, and for every statement a state that meets its hypotheses.
-/
set_option Elab.async false
namespace Sys2Proof.Tests

open Sys2Proof.Machine Sys2Proof.Safety

/-! ### Operands -/

def h6 : Hdr := { form := .six, guard := .off, stall := 0, last := false }
def h8 : Hdr := { h6 with form := .eight }
def h12 : Hdr := { h6 with form := .twelve }

def vop (h : Hdr) (ty : ETy) (dst a b : BitVec 9) (c : BitVec 9 := 0) (opt : BitVec 11 := 0) : VOp :=
  { h, ty, dst, a, b, c, cd := .dflt, ca := .dflt, cb := .dflt, cc := .dflt, ma := .none, mb := .none, mc := .none, opt }

def pop (h : Hdr) (dst a b : BitVec 9) (c : BitVec 9 := 0) (ty : ETy := .none) : POp := { h, ty, dst, a, b, c }

def liop (dst a b : BitVec 9) (imm32 : W32) (ext8 : BitVec 8 := 0) (ty : ETy := .none) (h : Hdr := h12) : LiOp :=
  { h, ty, dst, a, b, imm32, ext8 }

def mem (h : Hdr) (ty : ETy) (dst a b : BitVec 9) (c : BitVec 9 := 0) (imm : BitVec 12 := 0) : MemOp :=
  { h, ty, dst, a, b, c, scope := .grp, ord := .plain, size := .byType, op := 0, af := false, sc := 0, dk := false
    ik := false, nd := false, bank := false, imm }

def sys (h : Hdr) (ty : ETy) (dst a : BitVec 9) (num : BitVec 12 := 0) (cd : Cls := .dflt) (ca : Cls := .dflt) : SysOp :=
  { h, ty, dst, a, b := 0, c := 0, cd, ca, num }

def comp (d a b : BitVec 8) (stall : BitVec 2 := 0) : CompactOp := { stall, d, a, b }

/-! ### Words of the spec's encoding examples -/

/-- Bytes decode to an instruction that takes all of them. -/
def reads (w : List Byte × Instr) : Bool :=
  match decode w.1 with
  | .ok r => r == (w.2, w.1.length)
  | .error _ => false

/-- The compact words of chapters 4 and 18 to 22. -/
theorem test_words_compact : ([
  ([0x05, 0x03, 0x01, 0x02], .addI32Compact (comp 3 1 2 1)), ([0x7C, 0x05, 0x06, 0x00], .absI32Compact (comp 5 6 0)),
  ([0x18, 0x08, 0x05, 0x0F], .andCompact (comp 8 5 15)), ([0x74, 0x03, 0x04, 0x00], .brevCompact (comp 3 4 0)),
  ([0x70, 0x02, 0x09, 0x00], .clzCompact (comp 2 9 0)), ([0x50, 0x04, 0x05, 0x06], .lmulLn8x4Compact (comp 4 5 6)),
  ([0x0C, 0x07, 0x04, 0x09], .mulI32Compact (comp 7 4 9)), ([0x78, 0x03, 0x02, 0x00], .notCompact (comp 3 2 0)),
  ([0x1C, 0x0B, 0x05, 0x07], .orCompact (comp 11 5 7)), ([0x6C, 0x04, 0x05, 0x00], .popcCompact (comp 4 5 0)),
  ([0x30, 0x29, 0x28, 0x00], .movCompact (comp 41 40 0)), ([0x14, 0x07, 0x07, 0x11], .maxI32Compact (comp 7 7 17)),
  ([0x08, 0x07, 0x07, 0x09], .subI32Compact (comp 7 7 9)), ([0x20, 0x04, 0x04, 0x05], .xorCompact (comp 4 4 5)),
  ([0x58, 0x09, 0x08, 0x09], .saddCompact (comp 9 8 9)), ([0x68, 0x03, 0x03, 0x04], .sxorCompact (comp 3 3 4))
  ] : List (List Byte × Instr)).all reads = true := by decide +kernel

/-- Integer and floating words (chapters 4, 16 and 18 to 22). -/
theorem test_words_integer_and_float : ([
  ([0xE0, 0x00, 0x00, 0x10, 0x04, 0x08, 0x09, 0x00, 0x28, 0x06, 0x40, 0x01],
    .add { vop h12 .i16x2 1 4 9 0 1 with cd := .k, cb := .s, ma := .h1 }),
  ([0xC0, 0x25, 0x22, 0x00, 0xA0, 0x54, 0x2C, 0x17], .mad (vop { h8 with guard := .on .p true 1, stall := 1 } .i32 20 21 22 23)),
  ([0xC0, 0x88, 0x02, 0x00, 0x28, 0x04, 0x06, 0x0C], .bfx (vop { h8 with stall := 1 } .i32 5 1 3 12)),
  ([0xE0, 0x58, 0x00, 0x00, 0x08, 0x0A, 0x06, 0x00, 0x00, 0x00, 0x00, 0x04], .cmp (vop h12 .i32 2 5 6 0 4)),
  ([0xC0, 0x78, 0x00, 0x10, 0x20, 0x14, 0x0C, 0x07], .fsl (vop h8 .n32 4 5 6 7)),
  ([0xC0, 0xC8, 0x00, 0x40, 0x50, 0x2C, 0x18, 0x0D], .idot (vop h8 .i8x4 10 11 12 13)),
  ([0xC0, 0xC0, 0x00, 0xE1, 0x40, 0x50, 0x00, 0x02], .lea (vop h8 .b64 40 20 0 2)),
  ([0x80, 0x30, 0x08, 0x0C, 0x02, 0x02], .mulhi (vop h6 .n32 3 1 2)),
  ([0xC0, 0xB8, 0x00, 0x10, 0x50, 0x2C, 0x18, 0x03], .sel (vop h8 .n32 10 11 12 3)),
  ([0x88, 0x03, 0x50, 0xA0, 0x53, 0x2C], .fadd (vop { h6 with stall := 3 } .bf16x2 40 41 300)),
  ([0xC4, 0x18, 0x00, 0x80, 0xA0, 0x50, 0x04, 0x03], .ffma (vop h8 .f32 20 20 2 3)),
  ([0xE2, 0x18, 0x00, 0x40, 0x04, 0x08, 0x05, 0x00, 0x00, 0x00, 0x00, 0x08], .fcmp (vop h12 .f32 1 4 5 0 8)),
  ([0xE2, 0x1C, 0x00, 0x00, 0x0C, 0x04, 0x00, 0x00, 0x00, 0x00, 0x01, 0x01], .fcvt (vop h12 .i32 3 2 0 0 0x101)),
  ([0x88, 0x80, 0x40, 0x24, 0x10, 0x00], .frcp (vop h6 .f32 9 8 0))
  ] : List (List Byte × Instr)).all reads = true := by decide +kernel

/-- Logarithmic, matrix and cross-lane words (chapters 8, 10, 14, 16 and 20 to 22). -/
theorem test_words_log_matrix_and_lanes : ([
  ([0xE4, 0x08, 0x00, 0x60, 0x18, 0x0A, 0x02, 0x00, 0x00, 0x00, 0x00, 0x10], .lcvt (vop h12 .ln8x4 6 5 2 0 0x10)),
  ([0xE4, 0x0C, 0x00, 0x60, 0x88, 0x40, 0x00, 0x00, 0x00, 0x00, 0x00, 0x12], .lqnt (vop h12 .ln8x4 34 32 0 0 0x12)),
  ([0x90, 0x40, 0x60, 0x24, 0x12, 0x1E], .lscl (vop h6 .ln8x4 9 9 30)),
  ([0xC8, 0x28, 0x00, 0xC0, 0xA0, 0x04, 0x02, 0x14], .ldot (vop h8 .ln8x4 20 1 1 20)),
  ([0xAC, 0x00, 0x78, 0x00, 0x10, 0x00], .mfmt (pop h6 0 8 0)),
  ([0xD6, 0x08, 0x00, 0xF2, 0x80, 0x60, 0x2E, 0x01], .mlay (pop h8 80 24 23 1)),
  ([0xAC, 0x20, 0x78, 0x04, 0x80, 0x50], .mma (pop h6 1 64 80)),
  ([0xD6, 0x18, 0x00, 0xF0, 0x10, 0x00, 0x02, 0x0C], .mloop (pop h8 2 0 1 12)),
  ([0xAC, 0x50, 0xC1, 0x80, 0x00, 0x00], .mrd (pop { h6 with last := true } 96 0 0 0 .f32)),
  ([0xE5, 0x04, 0x00, 0x08, 0x1C, 0x00, 0x00, 0x3F, 0x80, 0x00, 0x00, 0x00], .movi (liop 7 0 0 0x3F800000 0 .n32)),
  ([0xE5, 0x08, 0x00, 0x08, 0x38, 0x50, 0x08, 0x00, 0x00, 0x00, 0x00, 0x08], .rdx (vop h12 .n32 14 40 8 0 8)),
  ([0xE5, 0x0C, 0x00, 0x08, 0x00, 0x50, 0x08, 0x00, 0x00, 0x06, 0x00, 0x08],
    .wrx { vop h12 .n32 0 40 8 0 8 with cd := .k }),
  ([0x94, 0x40, 0x08, 0x28, 0x26, 0x00], .vtos (vop h6 .n32 10 19 0)),
  ([0x94, 0x50, 0x08, 0x78, 0x18, 0x00], .stov (vop h6 .n32 30 12 0)),
  ([0xCA, 0x30, 0x00, 0x10, 0x40, 0x1C, 0x06, 0x04], .shfl (vop h8 .n32 8 7 3 4)),
  ([0xE5, 0x18, 0x00, 0x08, 0x24, 0x0E, 0x07, 0x00, 0x00, 0x00, 0x00, 0x03], .shfl (vop h12 .n32 9 7 7 0 3)),
  ([0x94, 0x70, 0x08, 0x1C, 0x0A, 0x00], .redux (vop h6 .n32 7 5 0)),
  ([0xE5, 0x20, 0x00, 0x08, 0x18, 0x0A, 0x00, 0x00, 0x00, 0x00, 0x00, 0x08], .pfx (vop h12 .n32 6 5 0 0 8)),
  ([0x94, 0x90, 0x08, 0x14, 0x12, 0x00], .matchKeys (vop h6 .n32 5 9 0)),
  ([0x94, 0xA0, 0x78, 0x10, 0x04, 0x00], .vote (vop h6 .none 4 2 0)),
  ([0x94, 0xB0, 0x48, 0x08, 0x02, 0x00], .nzscan (vop h6 .h16x2 2 1 0))
  ] : List (List Byte × Instr)).all reads = true := by decide +kernel

/-- Uniform and memory words (chapters 4, 6, 7, 9, 13 and 18 to 22). -/
theorem test_words_uniform_and_memory : ([
  ([0xE6, 0x20, 0x00, 0x00, 0x04, 0x08, 0x05, 0x00, 0x00, 0x00, 0x00, 0x04], .scmp (vop h12 .i32 1 4 5 0 4)),
  ([0xCC, 0x48, 0x00, 0xE0, 0x30, 0x10, 0x0A, 0x01], .ssel (vop h8 .b64 6 4 5 1)),
  ([0xCC, 0x58, 0x00, 0xE0, 0x40, 0x10, 0x0A, 0x03], .slea (vop h8 .b64 8 4 5 3)),
  ([0xE6, 0x28, 0x00, 0x08, 0x24, 0x00, 0x00, 0x00, 0x00, 0x14, 0x00, 0x00], .smovi (liop 9 0 0 0x1400 0 .n32)),
  ([0xE6, 0x30, 0x00, 0x70, 0x18, 0x08, 0x00, 0x00, 0x00, 0x00, 0x00, 0x80], .sld (mem h12 .b64 6 4 0 0 128)),
  ([0xE6, 0x34, 0x00, 0x70, 0x28, 0x08, 0x00, 0x00, 0x00, 0x00, 0x01, 0x00], .sst (mem h12 .b64 10 4 0 0 256)),
  ([0xE8, 0x00, 0x00, 0x08, 0x28, 0x08, 0x03, 0x00, 0x34, 0x02, 0x00, 0x10],
    .ld { mem h12 .n32 10 4 3 0 16 with ord := .acq, scope := .dev, sc := 2 }),
  ([0xA0, 0x00, 0x08, 0x08, 0x08, 0x01], .ld (mem h6 .n32 2 4 1)),
  ([0xE8, 0x00, 0x00, 0x70, 0x50, 0x10, 0x00, 0x00, 0x00, 0x04, 0x00, 0x18], .ld { mem h12 .b64 20 8 0 0 24 with af := true }),
  ([0xE8, 0x18, 0x00, 0x08, 0x1C, 0x18, 0x03, 0x00, 0x00, 0x02, 0x00, 0x40], .ldb { mem h12 .n32 7 12 3 0 64 with sc := 2 }),
  ([0xE8, 0x10, 0x00, 0x08, 0x18, 0x14, 0x02, 0x00, 0x00, 0x0A, 0x00, 0x08],
    .lds { mem h12 .n32 6 10 2 0 8 with sc := 2, op := 1 }),
  ([0xE8, 0x04, 0x00, 0x08, 0x08, 0x08, 0x00, 0x00, 0x00, 0x02, 0x00, 0x00], .st { mem h12 .n32 2 4 0 with sc := 2 }),
  ([0xE8, 0x04, 0x00, 0x08, 0x04, 0x10, 0x01, 0x00, 0x38, 0x04, 0x00, 0x00],
    .st { mem h12 .n32 1 8 1 with ord := .rel, scope := .dev, af := true }),
  ([0xE8, 0x0C, 0x00, 0x08, 0x40, 0x3C, 0x00, 0x00, 0x00, 0x04, 0x00, 0x24], .stv { mem h12 .n32 16 30 0 0 0x24 with af := true }),
  ([0xE8, 0x20, 0x00, 0x40, 0x20, 0x12, 0x0A, 0x00, 0x00, 0x10, 0x00, 0x00], .bop { mem h12 .f32 8 9 10 with op := 2 }),
  ([0xE8, 0x24, 0x00, 0x08, 0x24, 0x08, 0x02, 0x03, 0xB0, 0x02, 0x20, 0x00],
    .atom { mem h12 .n32 9 4 2 7 with scope := .dev, nd := true, sc := 2 }),
  ([0xE8, 0x28, 0x00, 0x70, 0x28, 0x28, 0x00, 0x06, 0x34, 0x04, 0x20, 0x08],
    .cas { mem h12 .b64 10 20 0 12 8 with ord := .acq, scope := .dev, nd := true, af := true }),
  ([0xE8, 0x2C, 0x00, 0x40, 0x00, 0x08, 0x02, 0x03, 0xB0, 0x02, 0x00, 0x00],
    .red { mem h12 .f32 0 4 2 7 with scope := .dev, sc := 2 }),
  ([0xE8, 0x30, 0x00, 0x78, 0x00, 0x00, 0x00, 0x00, 0x30, 0x00, 0x00, 0x00], .fence { mem h12 .none 0 0 0 with scope := .dev })
  ] : List (List Byte × Instr)).all reads = true := by decide +kernel

/-- Asynchronous, barrier, control and system words (chapters 1, 2, 5, 9, 12, 13, 15, 17 and 18 to 22). -/
theorem test_words_control_and_system : ([
  ([0xA8, 0x00, 0x78, 0x50, 0x08, 0x05], .kick (pop h6 20 4 5)), ([0xA8, 0x10, 0x78, 0x00, 0x0C, 0x07], .barinit (pop h6 0 6 7)),
  ([0xA8, 0x20, 0x70, 0x00, 0x0C, 0x14], .waitb (pop h6 0 6 20 0 .b64)), ([0xA8, 0x30, 0x78, 0x00, 0x00, 0x01], .waitc (pop h6 0 0 1)),
  ([0xA8, 0x40, 0x78, 0x00, 0x0E, 0x00], .sleep (pop h6 0 7 0)), ([0xA8, 0x80, 0x78, 0x00, 0x00, 0x00], .join (pop h6 0 0 0)),
  ([0xA8, 0x90, 0x78, 0x00, 0x00, 0x00], .leave (pop h6 0 0 0)), ([0xA8, 0x50, 0xF8, 0x00, 0x00, 0x00], .bar (pop { h6 with last := true } 0 0 0)),
  ([0xD4, 0x2E, 0x40, 0xF0, 0x00, 0x00, 0x00, 0x00], .bar (pop { h8 with guard := .on .q false 2 } 0 0 0)),
  ([0xA8, 0x60, 0x78, 0x00, 0x00, 0x00], .cbar (pop h6 0 0 0)), ([0xA8, 0x70, 0x78, 0x00, 0x00, 0x00], .gbar (pop h6 0 0 0)),
  ([0xEC, 0x00, 0x00, 0x78, 0x00, 0x00, 0x00, 0x00, 0x00, 0x01, 0x40, 0x00], .want (liop 0 0 0 0x140)),
  ([0xEC, 0x02, 0x20, 0x78, 0x00, 0x00, 0x00, 0x00, 0x00, 0x00, 0xA0, 0x00],
    .want (liop 0 0 0 0xA0 0 .none { h12 with guard := .on .p false 2 })),
  ([0xB0, 0x10, 0x08, 0x00, 0x18, 0x00], .wantr (pop h6 0 12 0 0 .n32)),
  ([0xEC, 0x08, 0x00, 0xF8, 0x00, 0x00, 0x00, 0x00, 0x00, 0x02, 0x10, 0x00], .call (liop 0 0 0 0x210 0 .none { h12 with last := true })),
  ([0xB0, 0x30, 0x08, 0x00, 0x0C, 0x00], .callr (pop h6 0 6 0 0 .n32)),
  ([0xB0, 0x40, 0xF8, 0x00, 0x00, 0x00], .ret (pop { h6 with last := true } 0 0 0)),
  ([0xB0, 0x50, 0xF8, 0x00, 0x00, 0x00], .exit (pop { h6 with last := true } 0 0 0)),
  ([0xEC, 0x18, 0x00, 0xF8, 0x00, 0xF0, 0x7A, 0x00, 0x00, 0x02, 0x30, 0x00],
    .park (liop 0 120 122 0x230 0 .none { h12 with last := true })),
  ([0xEC, 0x1C, 0x00, 0x78, 0x00, 0x0A, 0x00, 0x00, 0x00, 0x01, 0x80, 0x00], .rejoin (liop 0 5 0 0x180)),
  ([0xEC, 0x20, 0x00, 0x78, 0x00, 0x00, 0x00, 0x00, 0x00, 0x01, 0x00, 0x00], .region (liop 0 0 0 0x100)),
  ([0xEC, 0x24, 0x00, 0x08, 0x04, 0x10, 0x00, 0x00, 0x00, 0x00, 0x00, 0x00], .pfor (pop h12 1 8 0 0 .n32)),
  ([0xEC, 0x28, 0x00, 0x78, 0x00, 0x00, 0x00, 0x00, 0x00, 0x00, 0x00, 0x00], .pend (pop h12 0 0 0)),
  ([0xED, 0x04, 0x00, 0x08, 0x40, 0x00, 0x00, 0x00, 0x00, 0x00, 0x00, 0x20], .csrr (sys h12 .n32 16 0 0x020)),
  ([0xED, 0x04, 0x00, 0x70, 0x28, 0x00, 0x00, 0x00, 0x00, 0x04, 0x00, 0x14], .csrr (sys h12 .b64 10 0 0x014 .s)),
  ([0xED, 0x08, 0x00, 0x70, 0x00, 0xF8, 0x00, 0x00, 0x00, 0x01, 0x00, 0x25], .csrw (sys h12 .b64 0 124 0x025 .dflt .s)),
  ([0xB4, 0x30, 0x70, 0x28, 0x00, 0x00], .time (sys h6 .b64 10 0)),
  ([0xED, 0x10, 0x00, 0x78, 0x00, 0x00, 0x00, 0x00, 0x00, 0x00, 0x00, 0x2A], .trap (sys h12 .none 0 0 0x2A)),
  ([0xB4, 0x50, 0xF8, 0x00, 0x00, 0x00], .eret (sys { h6 with last := true } .none 0 0)), ([0xB4, 0x60, 0x78, 0x00, 0x00, 0x00], .brk (sys h6 .none 0 0))
  ] : List (List Byte × Instr)).all reads = true := by decide +kernel

/-- `.trail.nosig v10` (chapter 4) names v10 and no signature. -/
theorem test_words_trailer : decodeTrailer [0xEF, 0xFC, 0x00, 0x08, 0x28, 0x00, 0x00, 0x00, 0x00, 0x00, 0x00, 0x00] =
    some { awaited := [(false, 10)], chk := false, sig := 0 } := by decide +kernel


/-- One word for every other row, laid out by the tables of R84, R86, R96 and R97. -/
theorem test_words_other_rows : ([
  ([0x03, 0x00, 0x00, 0x00], .nopCompact (comp 0 0 0 3)),
  ([0x10, 0x2C, 0x07, 0x09], .minI32Compact (comp 44 7 9)),
  ([0x24, 0x31, 0x07, 0x09], .shlN32Compact (comp 49 7 9)),
  ([0x28, 0x32, 0x07, 0x09], .shrN32Compact (comp 50 7 9)),
  ([0x2C, 0x33, 0x07, 0x09], .sarI32Compact (comp 51 7 9)),
  ([0x34, 0x35, 0x07, 0x09], .faddF32Compact (comp 53 7 9)),
  ([0x38, 0x36, 0x07, 0x09], .fsubF32Compact (comp 54 7 9)),
  ([0x3C, 0x37, 0x07, 0x09], .fmulF32Compact (comp 55 7 9)),
  ([0x40, 0x38, 0x07, 0x09], .fminF32Compact (comp 56 7 9)),
  ([0x44, 0x39, 0x07, 0x09], .fmaxF32Compact (comp 57 7 9)),
  ([0x48, 0x3A, 0x07, 0x09], .faddH16x2Compact (comp 58 7 9)),
  ([0x4C, 0x3B, 0x07, 0x09], .fmulH16x2Compact (comp 59 7 9)),
  ([0x54, 0x3D, 0x07, 0x09], .lmulLn4x8Compact (comp 61 7 9)),
  ([0x5C, 0x3F, 0x07, 0x09], .ssubCompact (comp 63 7 9)),
  ([0x60, 0x40, 0x07, 0x09], .sandCompact (comp 64 7 9)),
  ([0x64, 0x41, 0x07, 0x09], .sorCompact (comp 65 7 9)),
  ([0x80, 0x10, 0x00, 0x28, 0x2C, 0x24], .sub (vop h6 .i32 10 22 36)),
  ([0x80, 0x20, 0x08, 0x28, 0x2C, 0x24], .mul (vop h6 .n32 10 22 36)),
  ([0x80, 0x50, 0x00, 0x28, 0x2C, 0x24], .min (vop h6 .i32 10 22 36)),
  ([0x80, 0x60, 0x08, 0x28, 0x2C, 0x24], .max (vop h6 .n32 10 22 36)),
  ([0x80, 0x70, 0x00, 0x28, 0x2C, 0x00], .abs (vop h6 .i32 10 22 0)),
  ([0x80, 0xA0, 0x70, 0x28, 0x2C, 0x24], .xor (vop h6 .b64 10 22 36)),
  ([0x80, 0xC0, 0x08, 0x28, 0x2C, 0x24], .shl (vop h6 .n32 10 22 36)),
  ([0x80, 0xD0, 0x08, 0x28, 0x2C, 0x24], .shr (vop h6 .n32 10 22 36)),
  ([0x80, 0xE0, 0x00, 0x28, 0x2C, 0x24], .sar (vop h6 .i32 10 22 36)),
  ([0x81, 0x30, 0x08, 0x28, 0x2C, 0x00], .popc (vop h6 .n32 10 22 0)),
  ([0x81, 0x40, 0x08, 0x28, 0x2C, 0x00], .clz (vop h6 .n32 10 22 0)),
  ([0x81, 0x50, 0x08, 0x28, 0x2C, 0x00], .brev (vop h6 .n32 10 22 0)),
  ([0x88, 0x10, 0x40, 0x28, 0x2C, 0x24], .fsub (vop h6 .f32 10 22 36)),
  ([0x88, 0x20, 0x40, 0x28, 0x2C, 0x24], .fmul (vop h6 .f32 10 22 36)),
  ([0x88, 0x40, 0x40, 0x28, 0x2C, 0x24], .fmin (vop h6 .f32 10 22 36)),
  ([0x88, 0x50, 0x40, 0x28, 0x2C, 0x24], .fmax (vop h6 .f32 10 22 36)),
  ([0x88, 0x90, 0x40, 0x28, 0x2C, 0x00], .frsq (vop h6 .f32 10 22 0)),
  ([0x88, 0xA0, 0x40, 0x28, 0x2C, 0x00], .fex2 (vop h6 .f32 10 22 0)),
  ([0x88, 0xB0, 0x40, 0x28, 0x2C, 0x00], .flg2 (vop h6 .f32 10 22 0)),
  ([0x88, 0xC0, 0x40, 0x28, 0x2C, 0x00], .fsin (vop h6 .f32 10 22 0)),
  ([0x88, 0xD0, 0x40, 0x28, 0x2C, 0x00], .fcos (vop h6 .f32 10 22 0)),
  ([0x90, 0x00, 0x60, 0x28, 0x2C, 0x24], .lmul (vop h6 .ln8x4 10 22 36)),
  ([0x90, 0x10, 0x60, 0x28, 0x2C, 0x24], .ldiv (vop h6 .ln8x4 10 22 36)),
  ([0x94, 0x00, 0x40, 0x28, 0x2C, 0x00], .mov (vop h6 .f32 10 22 0)),
  ([0x98, 0x00, 0x70, 0x28, 0x2C, 0x24], .sadd (vop h6 .b64 10 22 36)),
  ([0x98, 0x10, 0x70, 0x28, 0x2C, 0x24], .ssub (vop h6 .b64 10 22 36)),
  ([0x98, 0x20, 0x70, 0x28, 0x2C, 0x24], .smul (vop h6 .b64 10 22 36)),
  ([0x98, 0x30, 0x70, 0x28, 0x2C, 0x24], .sand (vop h6 .b64 10 22 36)),
  ([0x98, 0x40, 0x70, 0x28, 0x2C, 0x24], .sor (vop h6 .b64 10 22 36)),
  ([0x98, 0x50, 0x70, 0x28, 0x2C, 0x24], .sxor (vop h6 .b64 10 22 36)),
  ([0x98, 0x60, 0x70, 0x28, 0x2C, 0x24], .sshl (vop h6 .b64 10 22 36)),
  ([0x98, 0x70, 0x70, 0x28, 0x2C, 0x24], .sshr (vop h6 .b64 10 22 36)),
  ([0x80, 0x80, 0x70, 0x28, 0x2C, 0x24], .and (vop h6 .b64 10 22 36)),
  ([0x80, 0x90, 0x70, 0x28, 0x2C, 0x24], .or (vop h6 .b64 10 22 36)),
  ([0x80, 0xB0, 0x70, 0x28, 0x2C, 0x00], .not (vop h6 .b64 10 22 0)),
  ([0xC0, 0x80, 0x00, 0x1F, 0xA0, 0x58, 0x49, 0x2C], .fsr (vop h8 .n32 500 22 36 300)),
  ([0xC0, 0x90, 0x00, 0x1F, 0xA0, 0x58, 0x49, 0x2C], .bfi (vop h8 .n32 500 22 36 300)),
  ([0xA0, 0x20, 0x08, 0x28, 0x2D, 0x2C], .ldv (mem h6 .n32 10 22 300)),
  ([0xA0, 0x50, 0x08, 0x28, 0x2D, 0x2C], .sts (mem h6 .n32 10 22 300)),
  ([0xA0, 0x70, 0x08, 0x28, 0x2D, 0x2C], .stb (mem h6 .n32 10 22 300)),
  ([0xAC, 0x40, 0x78, 0x1C, 0x00, 0x00], .mzero (pop h6 7 0 0)),
  ([0xAC, 0x60, 0x40, 0x1C, 0x1F, 0x2C], .mwr (pop h6 7 15 300 0 .f32)),
  ([0xB4, 0x00, 0xF8, 0x00, 0x00, 0x00], .nop (sys { h6 with last := true } .none 0 0))
  ] : List (List Byte × Instr)).all reads = true := by decide +kernel

/-! ### Ill-formed terms -/

/-- A register-form instruction that breaks one check each: form, guard in six bytes, type, odd pair, register class, unused
field, predicate number, immediate, class or OPT in a short form, modifier on one element, OPT bit, vector guard. -/
theorem test_ill_formed_register_forms : ([
  .add (vop { h6 with form := .compact } .i32 1 2 3), .mad (vop h6 .i32 1 2 3), .add (vop { h6 with guard := .on .q false 0 } .i32 1 2 3),
  .add (vop h6 .f32 1 2 3), .add (vop h6 .b64 2 4 6), .and (vop h6 .b64 3 4 6), .and (vop h6 .b64 2 5 6),
  .add { vop h12 .i32 1 2 3 with cd := .s }, .add { vop h12 .i32 1 2 128 with cb := .s }, .add { vop h12 .i32 8 2 3 with cd := .k },
  .add (vop h8 .i32 1 2 3 4), .abs (vop h6 .i32 1 2 3), .cmp (vop h12 .i32 8 2 3), .cmp (vop h12 .i32 1 2 3 0 14), .sel (vop h8 .i32 1 2 3 8),
  .lea (vop h8 .n32 1 2 3 32), .add { vop h8 .i32 1 2 3 with cb := .s }, .add (vop h8 .i32 1 2 3 0 1),
  .add { vop h12 .i32 1 2 3 with ma := .h0 }, .add (vop h12 .i32 1 2 3 0 2), .abs (vop h6 .n32 1 2 0), .sar (vop h6 .n32 1 2 3),
  .fsl (vop h8 .i32 1 2 3 4), .idot (vop h8 .i16x2 1 2 3 4), .sadd (vop { h8 with guard := .on .p false 0 } .b64 1 2 3)
  ] : List Instr).all (!·.wf) = true := by decide +kernel

/-- The checks of single entries: conversion pairs, formats, immediates of `shfl`, operations of a fold, keys, modes, window
lengths, uniform registers and saturation; and the compact fields. -/
theorem test_ill_formed_entries : ([
  .fcvt (vop h12 .i32 1 2 0 0 0), .fcvt (vop h12 .f32 1 2 0 0 (0x100)), .fcvt (vop h12 .f32 1 2 3 0 0x120), .frcp (vop h6 .h16x2 1 2 0),
  .lmul (vop h6 .f32 1 2 3), .lcvt (vop h12 .ln8x4 1 2 4 0 0x10), .lcvt (vop h12 .ln8x4 1 2 0 0 0), .lqnt (vop h12 .ln8x4 1 2 0 0 0),
  .ldot (vop h8 .ln16x2 1 2 3 4), .shfl (vop h12 .n32 1 2 32 0 3), .shfl (vop h12 .n8x4 1 2 0 4 3), .redux (vop h12 .n32 1 2 0 0 6),
  .redux (vop h12 .f32 1 2 0 0 3), .redux (vop h12 .n32 1 2 0 0 8), .matchKeys (vop h6 .i32 1 2 0), .vote (vop h12 .none 1 2 0 0 3),
  .rdx (vop h12 .n32 1 2 3 0 1), .rdx (vop h12 .n32 1 2 3 0 33), .wrx { vop h12 .n32 1 2 3 0 8 with ca := .k }, .nzscan (vop h6 .b64 2 4 0),
  .sadd (vop h6 .b64 128 1 2), .sadd (vop h12 .b64 1 2 3 0 1), .scmp (vop h12 .i32 1 2 3 0 14), .ssel (vop h8 .b64 1 2 3 8),
  .slea (vop h8 .n32 1 2 3 0), .stov (vop h6 .i32 1 2 0), .vtos { vop h12 .n32 1 2 0 with ca := .s },
  .nopCompact (comp 0 0 1), .movCompact (comp 1 2 3), .saddCompact (comp 1 128 2)
  ] : List Instr).all (!·.wf) = true := by decide +kernel

/-- The checks of the memory instructions: short forms, address form, data register and size, ordering and scope, operation,
and the fields that each entry leaves zero. -/
theorem test_ill_formed_memory : ([
  .ld (mem h6 .n32 1 2 3 0 4), .ld (mem h6 .none 1 2 3), .ld { mem h12 .n32 1 2 0 with af := true, sc := 1 },
  .ld { mem h12 .n32 1 3 0 with af := true }, .ld { mem h12 .n32 1 2 2 with af := true }, .ld { mem h12 .n32 1 128 1 with af := true },
  .ld (mem h6 .n32 1 128 3), .ld { mem h12 .n32 1 2 8 with ik := true }, .ld (mem h6 .b64 1 2 3), .ld { mem h12 .n32 8 2 3 with dk := true },
  .ld { mem h12 .f32 1 2 3 with size := .s8 }, .ld { mem h12 .b64 2 2 3 with size := .s128 }, .ldv { mem h12 .b64 4 2 3 with size := .s128 },
  .ld { mem h12 .n32 1 2 3 with scope := .dev }, .ld { mem h12 .n32 1 2 3 with ord := .rel }, .lds { mem h12 .n32 1 2 3 with ord := .acq, scope := .dev },
  .st { mem h12 .n32 1 2 3 with ord := .acq }, .ld { mem h12 .n32 1 2 3 with op := 1 }, .ld (mem h8 .n32 1 2 3 1),
  .ld { mem h12 .n32 1 2 3 with nd := true }, .ld { mem h12 .n32 1 2 3 with bank := true }, .atom (mem h6 .n32 1 2 3),
  .atom { mem h12 .n32 1 2 3 with op := 7 }, .atom { mem h12 .f32 1 2 3 with op := 3 }, .atom (mem h12 .b64 2 2 3 5),
  .cas { mem h12 .n32 1 2 3 with op := 1 }, .cas (mem h12 .n32 1 2 3 5), .cas { mem h12 .n32 1 2 3 4 with bank := true },
  .red (mem h12 .n32 1 2 3), .red { mem h12 .n32 0 2 3 with op := 6 }, .red { mem h12 .n32 0 2 3 with ord := .acq },
  .sld (mem h6 .n32 128 2 0), .sld (mem h6 .n32 1 2 3), .sld (mem { h8 with guard := .on .p false 0 } .n32 1 2 0),
  .bop { mem h12 .f32 1 2 3 with op := 5 }, .bop { mem h12 .f32 1 2 3 4 with op := 2 }, .bop { mem h12 .f32 1 2 3 with op := 1 },
  .bop (mem h8 .f32 1 2 3), .fence (mem h6 .n32 0 0 0), .fence { mem h12 .none 0 0 0 with ord := .acq }
  ] : List Instr).all (!·.wf) = true := by decide +kernel

/-- The checks of the remaining classes: forms, bounds of the fields, types, guards, special registers, and the end flag of
`eret`. -/
theorem test_ill_formed_control_and_system : ([
  .mma (pop h6 8 1 2), .mma (pop { h8 with guard := .on .p false 0 } 1 2 3), .mfmt (pop h6 0 128 0), .mlay (pop h8 1 2 3 4), .mloop (pop h8 1 4 0 1),
  .mrd (pop h6 1 2 16 0 .f32), .mwr (pop h6 1 16 2 0 .f32), .mwr (pop h6 1 2 3 0 .ln8x4), .kick (pop h12 1 2 3), .waitb (pop h6 0 1 1), .waitc (pop h6 0 4 0),
  .waitc (pop h6 0 0 64), .bar (pop h6 0 1 0), .wantr (pop h6 0 1 0), .movi (liop 1 0 0 0 0 .none), .movi (liop 1 0 0 0 0 .b64),
  .movi (liop 2 0 0 0 0 .n32 h8), .park (liop 0 1 1 0 3), .park (liop 0 1 1 0 1), .region (liop 0 0 0 0 0 .none { h12 with guard := .on .p false 0 }),
  .pfor (pop h8 1 2 0 0 .n32), .pend (pop h12 0 0 1), .nop (sys h6 .n32 0 0), .nop (sys h6 .none 1 0), .csrr (sys h12 .n32 1 0 0x01D),
  .csrr (sys h12 .n32 1 0 0x000 .s), .csrr (sys h12 .b64 1 0 0), .csrw (sys h12 .b64 0 1 0x014 .dflt .s), .csrw (sys h12 .n32 0 1 0x010 .dflt .s),
  .csrw (sys h12 .b64 0 1 0x010), .csrw (sys h12 .b64 0 1 0x01C), .time (sys h6 .n32 128 0), .trap (sys { h12 with guard := .on .p false 0 } .none 0 0 1),
  .eret (sys h6 .none 0 0), .eret (sys { h8 with last := true, guard := .on .q false 0 } .none 0 0), .brk (sys { h8 with guard := .on .p false 0 } .none 0 0)
  ] : List Instr).all (!·.wf) = true := by decide +kernel

/-- Bytes are refused with the given name. -/
def refuses (w : List Byte × DecodeError) : Bool :=
  match decode w.1 with
  | .ok _ => false
  | .error e => e == w.2

/-- Bytes that are no instruction, by name (R102, R103): a reserved prefix, the trailer's opcode, an unassigned opcode, a
disabled guard with another bit set, and too few bytes. -/
theorem test_refused_words : ([
  ([0xF0, 0, 0, 0], .prefixReserved), ([0xEF, 0xFC, 0, 0, 0, 0, 0, 0, 0, 0, 0, 0], .trailerOpcode),
  ([0x81, 0xA0, 0x00, 0x00, 0x00, 0x00], .illegal 6), ([0xC0, 0x00, 0x20, 0x00, 0x08, 0x04, 0x06, 0x00], .illegal 8),
  ([0x80, 0x00], .truncated), ([], .truncated)
  ] : List (List Byte × DecodeError)).all refuses = true := by decide +kernel

/-- Stall counts (R26, R28, R31): an integer result read two slots later and one slot later; a uniform instruction that shares the slot of
the vector instruction before it, for which a result of `vtos` then comes too late. -/
theorem test_stalls_cover :
    stallsCover [.add (vop { h6 with stall := 1 } .i32 1 2 3), .add (vop h6 .i32 4 1 3)] = true ∧
    stallsCover [.add (vop h6 .i32 1 2 3), .add (vop h6 .i32 4 1 3)] = false ∧
    stallsCover [.vtos (vop h6 .n32 1 2 0), .add (vop { h6 with stall := 1 } .i32 4 5 6), .saddCompact (comp 2 1 1)] = true ∧
    stallsCover [.vtos (vop h6 .n32 1 2 0), .add (vop h6 .i32 4 5 6), .saddCompact (comp 2 1 1)] = false := by decide +kernel

/-! ### States that meet the hypotheses of the statements -/

/-- A group about to issue an instruction, with its group changed by `f` and then its state by `h`. -/
def ready (f : Group → Group := id) (h : State → State := id) : State :=
  h ((State.reset.placeProgram []).modGroup 0 f)

/-- The environment with which `i` issues at `s`, if it does. -/
def issuing (i : Instr) (s : State) : Option (Env × Bool) :=
  match s.env i (pairable i) with
  | none => none
  | some (e, p) =>
    match e.g.guardMask i.guard e.v.active with
    | none => none
    | some m =>
      if e.mask == e.v.active && i.wf && e.g.nregOk i && (landed s e).awaitOk e.gid e.g e.v i &&
        (!e.launch.check || (e.g.meets i.names).isNone) && (e.g.pendingName i).isNone &&
        !(landed s e).poisonedSource { e with mask := m } && e.g.stepctl != 1
      then some ({ e with mask := m }, p) else none

theorem issuing_issues {i : Instr} {s : State} {e : Env} {p : Bool} (h : issuing i s = some (e, p)) : Issues i s e p := by
  unfold issuing at h
  split at h
  · cases h
  · next e0 p0 he =>
    split at h
    · cases h
    · next m hm =>
      split at h
      · next hc =>
        cases h
        simp only [Bool.and_eq_true, beq_iff_eq, Bool.or_eq_true, Bool.not_eq_true', Option.isNone_iff_eq_none, bne_iff_ne,
          ne_eq] at hc
        obtain ⟨⟨⟨⟨⟨⟨⟨h1, h2⟩, h3⟩, h4⟩, h5⟩, h6⟩, h7⟩, h8⟩ := hc
        exact { turn := by rw [he]; simp only [← h1], legal := h2, registers := h3, awaited := h4
                checked := fun k => h5.resolve_left (by rw [show e0.launch.check = true from k]; decide)
                pending := h6, guard := hm, clean := h7, free := h8 }
      · cases h

/-- `i` issues at `s`, in an environment of which `q` holds. -/
theorem issues_at {i : Instr} {s : State} (q : Env → Bool) (h : ((issuing i s).any fun x => q x.1) = true) :
    ∃ e p, Issues i s e p ∧ q e = true := by
  cases hx : issuing i s with
  | none => rw [hx] at h; cases h
  | some x => rw [hx] at h; exact ⟨x.1, x.2, issuing_issues hx, h⟩

/-- Each instruction issues at the state. -/
theorem issue_all {is : List Instr} {s : State} (h : (is.all fun i => (issuing i s).isSome) = true) :
    ∀ i ∈ is, ∃ e p, Issues i s e p := by
  intro i hi
  have h := List.all_eq_true.mp h i hi
  cases hx : issuing i s with
  | none => rw [hx] at h; cases h
  | some x => exact ⟨x.1, x.2, issuing_issues hx⟩

/-- A list of cases, each an instruction, and what holds of the environment in which it issues. -/
theorem issue_with {cs : List (Instr × (Env → Bool))} {s : State}
    (h : (cs.all fun c => (issuing c.1 s).any fun x => c.2 x.1) = true) : ∀ c ∈ cs, ∃ e p, Issues c.1 s e p ∧ c.2 e = true :=
  fun c hc => issues_at c.2 (List.all_eq_true.mp h c hc)

/-- A state some of whose lanes, registers and predicates hold something. -/
def varied : State := ready fun g => { g with
  v := [(64, 0xFFFFFFFF#32), (65, 0x80000000#32), (95, 7#32), (96, 3#32), (127, 0xFF#32)], p := [(7, 0x80000001#32)], q := 0x80#8
  s := [(4, 0xFFFFFFFFFFFFFFFF#64), (127, 1#64)] }

/-- IntegerArithmetic: each clause, with registers at the ends of their range, saturation and both signs. -/
theorem test_witness_integer_arithmetic : ∀ i ∈ [
    Instr.add (vop h12 .i4x8 511 2 3 0 1), .sub (vop h6 .n32 0 511 3), .mul (vop h12 .i16x2 5 2 2 0 1), .mulhi (vop h6 .i8x4 2 2 3),
    .mad (vop h12 .n8x4 5 2 3 511 1), .abs (vop h12 .i32 511 2 0 0 1), .min (vop h6 .n4x8 1 2 3), .max (vop h6 .i32 1 2 3),
    .addI32Compact (comp 255 2 3), .subI32Compact (comp 1 2 255), .mulI32Compact (comp 2 2 2), .minI32Compact (comp 0 2 3),
    .maxI32Compact (comp 0 2 3), .absI32Compact (comp 0 2 0)], ∃ e p, Issues i varied e p := issue_all (by decide +kernel)

/-- BitwiseAndShifts: each clause; pairs at b64. -/
theorem test_witness_bitwise_and_shifts : ∀ i ∈ [
    Instr.and (vop h6 .b64 510 2 4), .or (vop h6 .i32 1 2 3), .xor (vop h6 .n4x8 1 2 3), .not (vop h6 .b64 510 2 0), .shl (vop h6 .i8x4 1 2 3),
    .shr (vop h6 .n32 1 3 2), .sar (vop h6 .i16x2 1 2 3), .fsl (vop h8 .n32 1 2 3 511), .fsr (vop h8 .n4x8 1 2 3 2),
    .andCompact (comp 255 2 3), .orCompact (comp 1 2 3), .xorCompact (comp 2 2 2), .notCompact (comp 1 255 0),
    .shlN32Compact (comp 1 2 3), .shrN32Compact (comp 1 3 2), .sarI32Compact (comp 1 2 3)], ∃ e p, Issues i varied e p :=
  issue_all (by decide +kernel)

/-- FieldsAndCounts: each clause. -/
theorem test_witness_fields_and_counts : ∀ i ∈ [
    Instr.bfx (vop h8 .i32 1 2 3 3), .bfi (vop h8 .n32 1 2 3 2), .popc (vop h6 .b64 510 2 0), .clz (vop h6 .n32 1 4 0), .brev (vop h6 .n32 1 2 0),
    .popcCompact (comp 255 2 0), .clzCompact (comp 1 255 0), .brevCompact (comp 1 2 0)], ∃ e p, Issues i varied e p :=
  issue_all (by decide +kernel)

/-- CompareSelectMove: each clause, `cmp` with its first and its last condition. -/
theorem test_witness_compare_select_move : ∀ i ∈ [
    Instr.cmp (vop h6 .n32 7 2 3), .cmp (vop h12 .i32 0 2 3 0 12), .sel (vop h8 .b64 510 2 4 7), .lea (vop h8 .n32 1 2 3 31),
    .idot (vop h8 .n4x8 1 2 3 2), .mov (vop h6 .b64 510 2 0), .mov { vop h12 .n32 1 4 0 with ca := .s }, .stov (vop h6 .b64 2 127 0),
    .movi (liop 510 0 0 0x80000000 0 .b64), .movi (liop 511 0 0 0 0 .f32), .movCompact (comp 255 2 0)], ∃ e p, Issues i varied e p :=
  issue_all (by decide +kernel)

/-- FloatArithmetic: each clause, with every rounding mode of RND. -/
theorem test_witness_float_arithmetic : ∀ i ∈ [
    Instr.fadd (vop h12 .f32 511 2 3 0 1), .fsub (vop h12 .h16x2 1 2 3 0 2), .fmul (vop h12 .bf16x2 1 2 3 0 3), .ffma (vop h8 .f32 1 2 3 511),
    .fmin (vop h6 .f32 1 2 3), .fmax (vop h6 .h16x2 1 2 3), .faddF32Compact (comp 255 2 3), .fsubF32Compact (comp 1 2 3),
    .fmulF32Compact (comp 1 2 3), .fminF32Compact (comp 1 2 3), .fmaxF32Compact (comp 1 2 3), .faddH16x2Compact (comp 1 2 3),
    .fmulH16x2Compact (comp 1 2 3)], ∃ e p, Issues i varied e p := issue_all (by decide +kernel)

/-- FloatCompareConvertSpecial: each clause, and a conversion of two sources into one. -/
theorem test_witness_float_compare_convert_special : ∀ i ∈ [
    Instr.fcmp (vop h12 .f32 7 2 3 0 0x1C), .fcvt (vop h12 .h16x2 1 2 3 0 0x100), .fcvt (vop h12 .f32 1 2 0 0 0x120), .fcvt (vop h12 .i32 1 2 0 0 0x101),
    .frcp (vop h6 .f32 511 2 0), .frsq (vop h6 .f32 1 2 0), .fex2 (vop h6 .f32 1 2 0), .flg2 (vop h6 .f32 1 2 0), .fsin (vop h6 .f32 1 2 0),
    .fcos (vop h6 .f32 1 2 0)], ∃ e p, Issues i varied e p := issue_all (by decide +kernel)

/-- FloatArithmetic, FloatCompareConvertSpecial: an infinity, both kinds of NaN, both zeros and a finite value of each format. -/
theorem test_witness_float_values : ∀ f ∈ [fmt32, fmt16, fmtBf],
    f.decode (f.inf true) = .inf true ∧ f.decode f.nan = .nan false ∧ f.decode (f.nan - 1) = .nan true ∧
    (∃ e, f.decode (f.zero true) = .fin true 0 e) ∧ (∃ e, f.decode (f.maxFinite false) = .fin false (2 ^ (f.mbits + 1) - 1) e) := by
  intro f hf
  simp only [List.mem_cons, List.not_mem_nil, or_false] at hf
  rcases hf with rfl | rfl | rfl <;> exact ⟨rfl, rfl, rfl, ⟨_, rfl⟩, ⟨_, rfl⟩⟩

/-- LogProductAddsExponents: LN8 values above, at and below the ends of the range, and in both roundings; elements with a NaR
and without. -/
theorem test_witness_log_values :
    (let l (n : Nat) (e : Int) : Int := Nat.log2 (n ^ 16) + e * 16
     2 * 63 < l 1 8 ∧ l 235 0 = 2 * 63 ∧ l 1 (-8) < 2 * (1 - 64) - 1 ∧ 2 * 13 - 1 ≤ l 3 0 ∧ l 3 0 ≤ 2 * 13 ∧
       2 * 12 ≤ l 3 0 ∧ l 3 0 ≤ 2 * 12 + 1) ∧
    (elem 8 0x80 0 = 128 ∧ ∀ k < 4, elem 8 0x0040B54B k ≠ 128) := by decide +kernel

/-- RoundingKeepsRepresentable: zero, the least subnormal and the largest finite value of each format. -/
theorem test_witness_rounding : ∀ c ∈ [(fmt32, 0, 0#32), (fmt32, 3, 1#32), (fmt32, 1, 0xFF7FFFFF#32), (fmt16, 2, 0x8001#32), (fmt16, 0, 0x7BFF#32),
    (fmtBf, 0, 0x8000#32), (fmtBf, 3, 0x7F7F#32)], c.1 ∈ [fmt32, fmt16, fmtBf] ∧ c.2.1 < 4 ∧ c.2.2.toNat < 2 ^ c.1.width ∧
      ∃ s m e, c.1.decode c.2.2.toNat = .fin s m e := by
  intro c hc
  have h : c.1 ∈ [fmt32, fmt16, fmtBf] ∧ c.2.1 < 4 ∧ c.2.2.toNat < 2 ^ c.1.width ∧
      (match c.1.decode c.2.2.toNat with
        | .fin .. => true
        | _ => false) = true := by
    revert c; decide +kernel
  refine ⟨h.1, h.2.1, h.2.2.1, ?_⟩
  have h := h.2.2.2
  split at h
  · next s m e k => exact ⟨s, m, e, k⟩
  · cases h

/-- LogarithmicResults: each clause. -/
theorem test_witness_logarithmic : ∀ i ∈ [
    Instr.lmul (vop h6 .ln16x2 511 2 3), .ldiv (vop h6 .ln8x4 1 2 3), .lscl (vop h6 .ln4x8 1 2 3), .lcvt (vop h12 .ln4x8 1 2 7 0 0x10),
    .lcvt (vop h12 .ln8x4 1 2 2 0 0x12), .lqnt (vop h12 .ln8x4 1 2 0 0 0x13), .ldot (vop h8 .ln4x8 1 2 3 511), .lmulLn8x4Compact (comp 255 2 3),
    .lmulLn4x8Compact (comp 1 2 3)], ∃ e p, Issues i varied e p := issue_all (by decide +kernel)

/-- LogProductAddsExponents: the product at the top and at the bottom of the range of each format. -/
theorem test_witness_log_product : ∀ c ∈ [(ETy.ln16x2, 0x7FFF, 0xC000), (.ln16x2, 1, 0x4000), (.ln8x4, 0x7F, 0x40),
    (.ln8x4, 0x81, 0x40), (.ln4x8, 7, 4), (.ln4x8, 9, 4)],
    let (ty, a, b) := c
    (ty ∈ logTypes ∧ a < 2 ^ ty.width ∧ b < 2 ^ ty.width ∧ ty.logField a ≠ 0 ∧ ty.logField b ≠ 0 ∧
      1 ≤ ty.logExp a + ty.logExp b + ty.logX ∧ ty.logExp a + ty.logExp b + ty.logX ≤ ty.logMax) := by decide +kernel

/-- PrefixAndReduction: each clause, with EX and with the fold of f32. -/
theorem test_witness_prefix_and_reduction : ∀ i ∈ [
    Instr.pfx (vop h12 .n32 511 2 0 0 8), .pfx (vop h12 .f32 1 2 0 0 2), .redux (vop h12 .i4x8 1 2 0 0 5), .redux (vop h6 .f32 1 2 0)],
    ∃ e p, Issues i varied e p := issue_all (by decide +kernel)

/-- MatchVoteScan: each clause and mode. -/
theorem test_witness_match_vote_scan : ∀ i ∈ [
    Instr.matchKeys (vop h6 .n32 511 2 0), .matchKeys (vop h12 .b64 7 2 0 0 1), .vote (vop h6 .none 127 7 0), .vote (vop h12 .none 7 7 0 0 1),
    .vote (vop h12 .none 0 0 0 0 2), .nzscan (vop h6 .f32 511 2 0), .nzscan (vop h6 .i4x8 1 2 0)], ∃ e p, Issues i varied e p :=
  issue_all (by decide +kernel)

/-- LaneExchange: each clause; the indices of `rdx` and `wrx` at the first and the last register of a window of 2. -/
theorem test_witness_lane_exchange : varied.poison = [] ∧ (∀ i ∈ [
    Instr.shfl (vop h12 .n4x8 511 2 31 7 3), .shfl (vop h8 .b64 510 2 4 3), .vtos (vop h6 .i32 127 2 0), .vtos (vop h6 .b64 0 2 0)],
    ∃ e p, Issues i varied e p) := ⟨rfl, issue_all (by decide +kernel)⟩

/-- Indices 0 and 1 in the lanes. -/
def indexed : State := ready fun g => { g with v := [(256, 1#32), (287, 1#32)] }

def inWindow (o : VOp) (e : Env) : Bool :=
  e.lanes.all fun t => decide (0 ≤ toInt true 32 (e.g.src o.cb o.b false t) ∧ toInt true 32 (e.g.src o.cb o.b false t) < o.len)

theorem test_witness_windows : let r := vop h12 .n32 511 510 8 0 2
    indexed.poison = [] ∧ ∀ i ∈ [Instr.rdx r, .wrx r], ∃ e p, Issues i indexed e p ∧ ∀ t ∈ e.lanes,
      0 ≤ toInt true 32 (e.g.src r.cb r.b false t) ∧ toInt true 32 (e.g.src r.cb r.b false t) < r.len := by
  have key : ∀ i ∈ [Instr.rdx (vop h12 .n32 511 510 8 0 2), .wrx (vop h12 .n32 511 510 8 0 2)],
      ((issuing i indexed).any fun x => inWindow (vop h12 .n32 511 510 8 0 2) x.1) = true := by decide +kernel
  refine ⟨rfl, fun i hi => ?_⟩
  obtain ⟨e, p, h, k⟩ := issues_at _ (key i hi)
  exact ⟨e, p, h, fun t ht => of_decide_eq_true (List.all_eq_true.mp k t ht)⟩

/-- WindowTrap: lane 0's index is −1 and lane 31's is the length of the window. -/
def beyond : State := ready fun g => { g with v := [(256, 0xFFFFFFFF#32), (257, 1#32), (287, 2#32)] }

/-- The lanes of a mask are those of which `p` holds. -/
def exactly (bad : LaneMask) (p : Nat → Bool) : Bool := (List.range 32).all fun u => bad.getLsbD u == p u

theorem exactly_iff {bad : LaneMask} {p : Nat → Bool} (h : exactly bad p = true) :
    ∀ u, u < 32 → (bad.getLsbD u = true ↔ p u = true) := fun u hu => by
  rw [beq_iff_eq.mp (List.all_eq_true.mp h u (List.mem_range.mpr hu))]

theorem test_witness_window_trap : let r := vop h12 .n32 511 510 8 0 2
    beyond.poison = [] ∧ lowest 0x80000001#32 = some 0 ∧ ∀ i ∈ [Instr.rdx r, .wrx r], ∃ e p, Issues i beyond e p ∧
      ∀ u, u < 32 → ((0x80000001#32).getLsbD u = true ↔ u ∈ e.lanes ∧
        ¬ (0 ≤ toInt true 32 (e.g.src r.cb r.b false u) ∧ toInt true 32 (e.g.src r.cb r.b false u) < r.len)) := by
  have key : ∀ i ∈ [Instr.rdx (vop h12 .n32 511 510 8 0 2), .wrx (vop h12 .n32 511 510 8 0 2)],
      ((issuing i beyond).any fun x => exactly 0x80000001 fun u => decide (u ∈ x.1.lanes) &&
        !inWindow (vop h12 .n32 511 510 8 0 2) { x.1 with mask := 1#32 <<< u }) = true := by decide +kernel
  refine ⟨rfl, by decide +kernel, fun i hi => ?_⟩
  obtain ⟨e, p, h, k⟩ := issues_at (fun e => exactly 0x80000001 fun u => decide (u ∈ e.lanes) &&
        !inWindow (vop h12 .n32 511 510 8 0 2) { e with mask := 1#32 <<< u }) (key i hi)
  refine ⟨e, p, h, fun u hu => (exactly_iff k u hu).trans ?_⟩
  have one : lanesOf (1#32 <<< u) = [u] := by revert u; decide +kernel
  rw [Bool.and_eq_true, decide_eq_true_iff]
  simp only [inWindow, Env.lanes, one, List.all_cons, List.all_nil, Bool.and_true, Bool.not_eq_true',
    decide_eq_false_iff_not]

/-- UniformResults: each clause, with registers at the ends of their range. -/
theorem test_witness_uniform_results : ∀ i ∈ [
    Instr.sadd (vop h12 .i32 127 4 0 0 1), .ssub (vop h6 .b64 0 127 4), .smul (vop h6 .n32 1 4 4), .sand (vop h6 .b64 1 4 127), .sor (vop h6 .i32 1 4 2),
    .sxor (vop h6 .n32 1 4 4), .sshl (vop h6 .b64 1 4 127), .sshr (vop h6 .i32 1 4 4), .scmp (vop h12 .i32 7 4 0 0 12), .scmp (vop h6 .b64 0 4 4),
    .ssel (vop h8 .b64 1 4 0 7), .slea (vop h8 .b64 1 4 127 31), .smovi (liop 127 0 0 0x80000000 0 .b64), .smovi (liop 0 0 0 0 0 .n32),
    .saddCompact (comp 127 4 4), .ssubCompact (comp 0 0 4), .sandCompact (comp 1 4 127), .sorCompact (comp 1 4 2), .sxorCompact (comp 1 4 4)],
    ∃ e p, Issues i varied e p := issue_all (by decide +kernel)

/-! Memory: addresses 0x100000 + 4 x lane of a context whose page table maps the first terabyte, read and write, to a space; a
scratch of 4,096 bytes; and a grant of all bank memory. -/

def mapped (space : Nat := 0) (f : Group → Group := id) : State := ready (fun g => f { g with
    v := (List.range 32).map fun t => (64 + t, BitVec.ofNat 32 t), s := [(4, 0x100000#64), (5, 0xF80#64), (6, 0xFFFFF80#64)] })
  fun s => { s with ctrl := { s.ctrl with featacc := 0x10 }
                    hbm := Memory.writeBytes (Memory.writeBytes s.hbm 0x8000 [BitVec.ofNat 8 (15 + 32 * space)]) 22 [0x00, 0x10] }

/-- Every lane's access is accepted. -/
def accepted (s : State) (sp : Space) (n : Nat) (va : Env → Nat → W64) (p : Place) (a : Nat → Nat) (q : Env → Bool) (e : Env) : Bool :=
  q e && e.lanes.all fun t => (landed s e).locate e sp n (va e t) == .ok p (a t)

theorem accepts {i : Instr} {s : State} {sp : Space} {n : Nat} {va : Env → Nat → W64} (p : Place) (a : Nat → Nat) (q : Env → Bool)
    (h : ((issuing i s).any fun x => accepted s sp n va p a q x.1) = true) :
    ∃ e b, Issues i s e b ∧ q e = true ∧ ∀ t ∈ e.lanes, (landed s e).locate e sp n (va e t) = .ok p (a t) := by
  obtain ⟨e, b, h, k⟩ := issues_at _ h
  unfold accepted at k
  rw [Bool.and_eq_true] at k
  exact ⟨e, b, h, k.1, fun t ht => beq_iff_eq.mp (List.all_eq_true.mp k.2 t ht)⟩

/-- The instruction, its operands, and the place of its accesses: lane t's is at `a t`. -/
abbrev Placed := Instr × MemOp × Space × Place × (Nat → Nat)

/-- The rows of a list of accesses are accepted in every active lane. -/
theorem accept_all {rows : List Placed} {s : State} (q : Env → Bool)
    (h : (rows.all fun r => (issuing r.1 s).any fun x =>
      accepted s r.2.2.1 r.2.1.bytes (fun e => MemOp.addr r.2.1 e.g) r.2.2.2.1 r.2.2.2.2 q x.1) = true) :
    ∀ r ∈ rows, ∃ e b, Issues r.1 s e b ∧ q e = true ∧
      ∀ t ∈ e.lanes, (landed s e).locate e r.2.2.1 r.2.1.bytes (MemOp.addr r.2.1 e.g t) = .ok r.2.2.2.1 (r.2.2.2.2 t) :=
  fun r hr => accepts _ _ q (List.all_eq_true.mp h r hr)

/-- The address base + 4 x v2. -/
def at4 (o : MemOp) : MemOp := { o with sc := 2 }

def member (s : State) : State := s.modTeam 0 fun t => { t with member := true }

def unwatched (e : Env) : Bool := !e.g.watchm.getLsbD 31

/-- LoadsIssue: each instruction, the sharing window among them; the last lane's bytes are the last of the scratch and of bank
memory. -/
theorem test_witness_loads : (member (mapped)).poison = [] ∧ ∀ r ∈ ([
    (.ld (at4 (mem h12 .n32 511 4 2)), at4 (mem h12 .n32 511 4 2), .global .load true, .hbm, fun t => 0x100000 + 4 * t),
    (.ld { at4 (mem h12 .b64 510 4 2) with ord := .acq, scope := .sys }, { at4 (mem h12 .b64 510 4 2) with ord := .acq, scope := .sys },
      .global .load true, .hbm, fun t => 0x100000 + 4 * t / 8 * 8),
    (.ldv (at4 (mem h12 .n32 511 4 2)), at4 (mem h12 .n32 511 4 2), .global .load true, .hbm, fun t => 0x100000 + 4 * t),
    (.lds (at4 (mem h12 .n32 511 5 2)), at4 (mem h12 .n32 511 5 2), .scratch, .scratch 0, fun t => 0xF80 + 4 * t),
    (.lds { at4 (mem h12 .n32 511 5 2) with op := 1 }, { at4 (mem h12 .n32 511 5 2) with op := 1 }, .window, .scratch 0,
      fun t => 0xF80 + 4 * t),
    (.ldb (at4 (mem h12 .n32 511 6 2)), at4 (mem h12 .n32 511 6 2), .bank, .bank, fun t => 0xFFFFF80 + 4 * t)] : List Placed),
    ∃ e p, Issues r.1 (member (mapped)) e p ∧ unwatched e = true ∧ ∀ t ∈ e.lanes,
      (landed (member (mapped)) e).locate e r.2.2.1 r.2.1.bytes (MemOp.addr r.2.1 e.g t) = .ok r.2.2.2.1 (r.2.2.2.2 t) :=
  ⟨rfl, accept_all _ (by decide +kernel)⟩

/-- 62 operations of a class are outstanding. -/
def busy (c : OpClass) (g : Group) : Group :=
  { g with ops := (List.range 62).map fun i => { cls := c, seq := i, finished := false, region := 0, puts := [] } }

def room (e : Env) : Bool := unwatched e && [OpClass.matrix, .hod, .bank, .remote].all fun c => decide (e.g.counter c < 63)

/-- StoresIssue: each instruction, with one place left in the bank class. -/
theorem test_witness_stores : ∀ r ∈ ([
    (.st { at4 (mem h12 .n32 511 4 2) with ord := .rel, scope := .dev }, { at4 (mem h12 .n32 511 4 2) with ord := .rel, scope := .dev },
      .global .store true, .hbm, fun t => 0x100000 + 4 * t),
    (.stv (at4 (mem h12 .n32 511 4 2)), at4 (mem h12 .n32 511 4 2), .global .atomic true, .hbm, fun t => 0x100000 + 4 * t),
    (.sts (at4 (mem h12 .n32 511 5 2)), at4 (mem h12 .n32 511 5 2), .scratch, .scratch 0, fun t => 0xF80 + 4 * t),
    (.sts { at4 (mem h12 .n32 511 5 2) with op := 1 }, { at4 (mem h12 .n32 511 5 2) with op := 1 }, .window, .scratch 0,
      fun t => 0xF80 + 4 * t),
    (.stb (at4 (mem h12 .n32 511 6 2)), at4 (mem h12 .n32 511 6 2), .bank, .bank, fun t => 0xFFFFF80 + 4 * t)] : List Placed),
    ∃ e p, Issues r.1 (member (mapped 0 (busy .bank))) e p ∧ room e = true ∧ ∀ t ∈ e.lanes,
      (landed (member (mapped 0 (busy .bank))) e).locate e r.2.2.1 r.2.1.bytes (MemOp.addr r.2.1 e.g t) =
        .ok r.2.2.2.1 (r.2.2.2.2 t) := accept_all _ (by decide +kernel)

/-- StoresIssue: a put, with one place left in the remote class. -/
theorem test_witness_puts : ∀ r ∈ ([
    (.st (at4 (mem h12 .n32 511 4 2)), at4 (mem h12 .n32 511 4 2), .global .store true, .peerScratch 0, fun t => 0x100000 + 4 * t)] : List Placed),
    ∃ e p, Issues r.1 (mapped 3 (busy .remote)) e p ∧ room e = true ∧ ∀ t ∈ e.lanes,
      (landed (mapped 3 (busy .remote)) e).locate e r.2.2.1 r.2.1.bytes (MemOp.addr r.2.1 e.g t) = .ok r.2.2.2.1 (r.2.2.2.2 t) :=
  accept_all _ (by decide +kernel)

/-- AtomicsIssue: each clause, in HBM and in bank memory; `atom` and `cas` with the nd bit in a launch of level 1. -/
theorem test_witness_atomics :
    let o := at4 (mem h12 .n32 511 4 2 10)
    let n := { o with nd := true }
    let r := { o with dst := 0 }
    let b := { r with a := 6, bank := true }
    (mapped 0 (busy .bank)).poison = [] ∧ ∀ x ∈ ([
      (.atom o, o, .global .atomic (MemOp.hostAtom o true), .hbm, fun t => 0x100000 + 4 * t),
      (.atom { n with bank := true, a := 6, op := 6 }, { n with bank := true, a := 6, op := 6 }, .bank, .bank, fun t => 0xFFFFF80 + 4 * t),
      (.cas o, o, .global .atomic true, .hbm, fun t => 0x100000 + 4 * t), (.cas n, n, .global .atomic true, .hbm, fun t => 0x100000 + 4 * t),
      (.red r, r, .global .atomic (MemOp.hostAtom r false), .hbm, fun t => 0x100000 + 4 * t),
      (.red b, b, .bank, .bank, fun t => 0xFFFFF80 + 4 * t)] : List Placed),
      ∃ e p, Issues x.1 (mapped 0 (busy .bank)) e p ∧ (room e && decide (e.launch.det = 0)) = true ∧ ∀ t ∈ e.lanes,
        (landed (mapped 0 (busy .bank)) e).locate e x.2.2.1 x.2.1.bytes (MemOp.addr x.2.1 e.g t) = .ok x.2.2.2.1 (x.2.2.2.2 t) :=
  ⟨rfl, accept_all _ (by decide +kernel)⟩

/-- AtomicsIssue at level 1: `atom` and `cas` with the nd bit and without it, and a releasing `red` with nothing outstanding. -/
def levelOne : State := State.modLaunch (mapped) 0 fun l => { l with det := 1 }

theorem test_witness_atomics_level_1 :
    let o := at4 (mem h12 .n32 511 4 2 10)
    let n := { o with nd := true }
    let r := { o with dst := 0, ord := .rel, scope := .dev }
    levelOne.poison = [] ∧ (levelOne.core 0).flight = [] ∧ levelOne.spillsFit 0 = true ∧ (levelOne.buffered 0).length + 32 ≤ 4096 ∧
    ∀ x ∈ ([
      (.atom n, n, .global .atomic (MemOp.hostAtom n true), .hbm, fun t => 0x100000 + 4 * t), (.cas n, n, .global .atomic true, .hbm, fun t => 0x100000 + 4 * t),
      (.atom o, o, .global .atomic (MemOp.hostAtom o true), .hbm, fun t => 0x100000 + 4 * t), (.cas o, o, .global .atomic true, .hbm, fun t => 0x100000 + 4 * t),
      (.red r, r, .global .atomic (MemOp.hostAtom r false), .hbm, fun t => 0x100000 + 4 * t)] : List Placed),
      ∃ e p, Issues x.1 levelOne e p ∧ (decide (1 ≤ e.launch.det) && decide (coreOf e.gid = 0) && e.g.await.isEmpty && e.g.stq.isEmpty &&
        e.g.ops.isEmpty) = true ∧ ∀ t ∈ e.lanes,
        (landed levelOne e).locate e x.2.2.1 x.2.1.bytes (MemOp.addr x.2.1 e.g t) = .ok x.2.2.2.1 (x.2.2.2.2 t) :=
  ⟨rfl, rfl, by decide +kernel, by decide +kernel, accept_all _ (by decide +kernel)⟩

/-- UniformMemory: `sld` and `sst` at the last word of HBM. -/
def lastWord : State := mapped 0 fun g => busy .remote { g with s := [(4, 0x9FFFFFFFF8#64)] }
def lastOp : MemOp := mem h12 .b64 127 4 0 0 4

theorem test_witness_uniform_memory : lastWord.poison = [] ∧
    ∀ c ∈ [(Instr.sld lastOp, Space.global .load true), (.sst lastOp, .global .store true)], ∃ e p, Issues c.1 lastWord e p ∧
      room e = true ∧ (landed lastWord e).locate e c.2 lastOp.bytes (MemOp.uniAddr lastOp e.g) = .ok .hbm 0x9FFFFFFFF8 := by
  refine ⟨rfl, fun c hc => ?_⟩
  have key : ∀ c ∈ [(Instr.sld lastOp, Space.global .load true), (.sst lastOp, .global .store true)],
      ((issuing c.1 lastWord).any fun x => room x.1 && (landed lastWord x.1).locate x.1 c.2 lastOp.bytes
        (MemOp.uniAddr lastOp x.1.g) == .ok .hbm 0x9FFFFFFFF8) = true := by decide +kernel
  obtain ⟨e, p, h, k⟩ := issues_at (fun e => room e && (landed lastWord e).locate e c.2 lastOp.bytes
    (MemOp.uniAddr lastOp e.g) == .ok .hbm 0x9FFFFFFFF8) (key c hc)
  rw [Bool.and_eq_true, beq_iff_eq] at k
  exact ⟨e, p, h, k⟩

/-- AddressesAndViolations: lane 0's address is the last that is accepted, so the others are refused; the sharing window refuses
every lane of a team that is no member. -/
def refusedLanes (s : State) (sp : Space) (o : MemOp) (bad : LaneMask) (e : Env) : Bool := exactly bad fun u =>
  decide (u ∈ e.lanes) && (landed s e).locate e sp o.bytes (MemOp.addr o e.g u) == .violation

def edge : State := mapped 0 fun g => { g with s := [(4, 0x9FFFFFFFFC#64), (5, 0xFFC#64), (6, 0xFFFFFFC#64), (7, 0xA000000000#64)] }

theorem test_witness_violations :
    let g := at4 (mem h12 .n32 511 4 2)
    let s := at4 (mem h12 .n32 511 5 2)
    let b := at4 (mem h12 .n32 511 6 2)
    ∀ c ∈ ([(.ld g, g, .global .load true, 0xFFFFFFFE, 1), (.ldv g, g, .global .load true, 0xFFFFFFFE, 1),
      (.st g, g, .global .store true, 0xFFFFFFFE, 1), (.stv g, g, .global .atomic true, 0xFFFFFFFE, 1), (.ldb b, b, .bank, 0xFFFFFFFE, 1),
      (.stb b, b, .bank, 0xFFFFFFFE, 1), (.cas g, g, .global .atomic true, 0xFFFFFFFE, 1),
      (.atom g, g, .global .atomic (MemOp.hostAtom g true), 0xFFFFFFFE, 1), (.atom { b with bank := true }, { b with bank := true }, .bank, 0xFFFFFFFE, 1),
      (.red { g with dst := 0 }, { g with dst := 0 }, .global .atomic (MemOp.hostAtom g false), 0xFFFFFFFE, 1),
      (.red { b with dst := 0, bank := true }, { b with dst := 0, bank := true }, .bank, 0xFFFFFFFE, 1), (.lds s, s, .scratch, 0xFFFFFFFE, 1), (.sts s, s, .scratch, 0xFFFFFFFE, 1),
      (.lds { s with op := 1 }, { s with op := 1 }, .window, 0xFFFFFFFF, 0),
      (.sts { s with op := 1 }, { s with op := 1 }, .window, 0xFFFFFFFF, 0)] : List (Instr × MemOp × Space × LaneMask × Nat)),
    lowest c.2.2.2.1 = some c.2.2.2.2 ∧ ∃ e p, Issues c.1 edge e p ∧
      ∀ u, u < 32 → (c.2.2.2.1.getLsbD u = true ↔
        u ∈ e.lanes ∧ (landed edge e).locate e c.2.2.1 c.2.1.bytes (MemOp.addr c.2.1 e.g u) = .violation) := by
  intro g s b c hc
  have key : lowest c.2.2.2.1 = some c.2.2.2.2 ∧
      ((issuing c.1 edge).any fun x => refusedLanes edge c.2.2.1 c.2.1 c.2.2.2.1 x.1) = true := by
    revert c; decide +kernel
  obtain ⟨e, p, h, k⟩ := issues_at (refusedLanes edge c.2.2.1 c.2.1 c.2.2.2.1) key.2
  exact ⟨key.1, e, p, h, fun u hu => by simpa using exactly_iff k u hu⟩

/-- AddressesAndViolations: every lane's address, the uniform address and the object of `park.ne` are the first that no leaf maps; a
uniform address that is refused; and code whose page is not mapped, at an instruction and at a trailer. -/
def unmapped : State := mapped 0 fun g => { g with s := [(4, 0x10000000000#64)] }

def faultLanes (s : State) (sp : Space) (o : MemOp) (bad : LaneMask) (level : Nat) (e : Env) : Bool :=
  e.lanes.all (fun u => (landed s e).locate e sp o.bytes (MemOp.addr o e.g u) != .violation) &&
  exactly bad fun u => decide (u ∈ e.lanes) && (landed s e).locate e sp o.bytes (MemOp.addr o e.g u) == .fault level

def uniformIs (s : State) (k : AccessKind) (o : MemOp) (x : Trans) (e : Env) : Bool :=
  (landed s e).locate e (.global k true) o.bytes (MemOp.uniAddr o e.g) == x

def parkIs (s : State) (r : Nat) (x : Trans) (e : Env) : Bool :=
  decide (e.mask ≠ 0) && s.isStart e.g.ctx (s.objectBase e.g.ctx e.v.start) && (landed s e).translate (coreOf e.gid) e.g.ctx .load (e.g.s.get r) == x

theorem test_witness_translation_faults :
    let g := at4 (mem h12 .n32 511 4 2)
    let r := { g with dst := 0 }
    let f (k : AccessKind) (q : Bool) (o : MemOp) := faultLanes unmapped (.global k q) o 0xFFFFFFFF 1
    lowest 0xFFFFFFFF#32 = some 0 ∧
    ∀ c ∈ ([(.ld g, f .load true g), (.ldv g, f .load true g), (.st g, f .store true g), (.stv g, f .atomic true g), (.cas g, f .atomic true g),
      (.atom g, f .atomic (MemOp.hostAtom g true) g), (.red r, f .atomic (MemOp.hostAtom r false) r),
      (.sld (mem h12 .b64 127 4 0), uniformIs unmapped .load (mem h12 .b64 127 4 0) (.fault 1)),
      (.sst (mem h12 .b64 127 4 0), uniformIs unmapped .store (mem h12 .b64 127 4 0) (.fault 1)),
      (.park (liop 0 4 4 0 0), parkIs unmapped 4 (.fault 1))] : List (Instr × (Env → Bool))),
      ∃ e p, Issues c.1 unmapped e p ∧ c.2 e = true := ⟨by decide, issue_with (by decide +kernel)⟩

theorem test_witness_uniform_violations :
    ∀ c ∈ ([(.sld (mem h12 .b64 127 7 0), uniformIs edge .load (mem h12 .b64 127 7 0) .violation),
      (.sst (mem h12 .b64 127 7 0), uniformIs edge .store (mem h12 .b64 127 7 0) .violation),
      (.park (liop 0 7 4 0 0), parkIs edge 7 .violation)] : List (Instr × (Env → Bool))),
      ∃ e p, Issues c.1 edge e p ∧ c.2 e = true := issue_with (by decide +kernel)

theorem test_witness_fetch_faults : ∀ ended ∈ [false, true],
    let s := { ready fun g => { g with visit := g.visit.map fun v => { v with ended } } with
      hbm := (ready).hbm.set 0x8000 0, ctrl := { (ready).ctrl with fbsize := 0 } }
    s.agenda = [] ∧ s.cur = some 0 ∧ s.powered = true ∧ s.ringFree = false ∧ ((s.group 0).any fun g => g.status == .running && g.awaitedK.isNone &&
      g.visit.any fun v => v.ended == ended && (match s.fetch 0 g.ctx v.pos.toNat with
        | .fault _ _ _ => true
        | _ => false)) = true := by decide +kernel

/-- FenceAndBankOperation: `fence` at its widest scope, `bop` of no elements, and `bop` of one element at the end of bank memory with
one place left in the bank class. -/
def banked : State := mapped 0 fun g => busy .bank { g with s := [(8, 0xFFFFFFC#64), (10, 1#64)] }

theorem test_witness_fence_and_bop :
    let o := { mem h12 .f32 8 8 10 with op := 2 }
    (∃ e p, Issues (.fence { mem h12 .none 0 0 0 with scope := .sys }) banked e p ∧
      ((landed banked e).fenceAt e.gid .sys).fenced e.gid .sys = true) ∧
    (∃ e p, Issues (.bop { o with b := 9 }) banked e p ∧ (decide ((e.g.s.get 9).toNat % 2 ^ 32 = 0)) = true) ∧
    ∃ e p, Issues (.bop o) banked e p ∧ (decide ((e.g.s.get 10).toNat % 2 ^ 32 ≠ 0) &&
      (landed banked e).bopFails e.g.ctx 0xFFFFFFC 0xFFFFFFC 1 == none && decide (e.g.counter .bank < 63) &&
      ((landed banked e).leaveOwn e.gid).queueEmpty e.gid) = true :=
  ⟨issues_at _ (by decide +kernel), issues_at _ (by decide +kernel), issues_at _ (by decide +kernel)⟩

/-! Engines, barriers, control and system. -/

/-- A team with one record at the end of its scratch: 4 bytes from address 0 to offset 0. -/
def recorded : State := (ready fun g => busy .hod { g with s := [(4, 0xFE0#64), (5, 1#64)] }).modTeam 0 fun t =>
  { t with scratch := [(0xFE8, 4), (0xFF8, 1)] }

/-- KickPromises: no record, and one record with one place left in the hod class. -/
theorem test_witness_kick :
    (∃ e p, Issues (.kick (pop h6 127 4 7)) recorded e p ∧
      (decide ((e.g.s.get 4).toNat % 2 ^ 20 % 32 = 0) && decide ((e.g.s.get 7).toNat % 2 ^ 32 = 0)) = true) ∧
    (∃ e p, Issues (.kick (pop h6 127 4 5)) recorded e p ∧
      (decide ((e.g.s.get 4).toNat % 2 ^ 20 = 0xFE0) && decide ((e.g.s.get 5).toNat % 2 ^ 32 = 1) && decide (e.g.counter .hod < 63) &&
        ((landed recorded e).leaveOwn e.gid).queueEmpty e.gid && (match ((landed recorded e).leaveOwn e.gid).readRecords e 0xFE0 0 1 with
          | .ok _ => true
          | .error _ => false)) = true) :=
  ⟨issues_at _ (by decide +kernel), issues_at _ (by decide +kernel)⟩

/-- BarrierObjectsAndSleep: the object at the end of the scratch, its count zero and not, and a promise that has passed. -/
def objected (n : Byte) : State := ({ ready fun g => { g with s := [(4, 0xFFF#64), (5, 9#64), (6, 0xFFFFFFFF#64), (7, 1#64 <<< 32)] } with
  timeref := 10 } : State).modTeam 0 fun t => { t with scratch := Memory.writeBytes [] 0xFF8 [n] }

def drained (s : State) (e : Env) : State := (landed s e).leaveBytes e.gid e.g.seq ((List.range 8).map fun i => (.scratch e.g.team, 0xFF8 + i))

def countAt (s : State) (e : Env) : Nat := (drained s e).objectCount e.g.team 0xFF8

def goneAt (s : State) (e : Env) : Bool :=
  (drained s e).queuedBytes e.gid ((List.range 8).map fun i => (.scratch e.g.team, 0xFF8 + i)) == false

theorem test_witness_barrier_objects :
    let at_ (e : Env) : Bool := decide ((e.g.s.get 4).toNat % 2 ^ 20 / 8 * 8 = 0xFF8) && decide (0xFF8 < e.team.scratchSize)
    (∀ c ∈ ([(.barinit (pop h6 0 4 6), at_), (.waitb (pop h6 0 4 0), fun e => at_ e && goneAt (objected 0) e && decide (countAt (objected 0) e = 0)),
      (.sleep (pop h6 0 7 0), fun e => decide ((e.g.s.get 7).toNat % 2 ^ 32 = 0)),
      (.sleep (pop h6 0 6 0), fun e => decide ((e.g.s.get 6).toNat % 2 ^ 32 ≠ 0))] : List (Instr × (Env → Bool))),
      ∃ e p, Issues c.1 (objected 0) e p ∧ c.2 e = true) ∧
    ∃ e p, Issues (.waitb (pop h6 0 4 5 0 .b64)) (objected 1) e p ∧
      (at_ e && goneAt (objected 1) e && decide (countAt (objected 1) e ≠ 0) && decide (e.g.s.get 5 < (drained (objected 1) e).timeref)) = true :=
  ⟨issue_with (by decide +kernel), issues_at _ (by decide +kernel)⟩

/-- WaitOnClass: every class, below, at and above its bound, and a put that was discarded. -/
theorem test_witness_wait_on_class :
    (∀ c ∈ ([(.waitc (pop h6 0 0 62), fun e => decide (e.g.counter .matrix ≤ 62)), (.waitc (pop h6 0 0 61), fun e => decide (61 < e.g.counter .matrix)),
      (.waitc (pop h6 0 1 0), fun e => decide (e.g.counter .hod ≤ 0)), (.waitc (pop h6 0 2 63), fun e => decide (e.g.counter .bank ≤ 63)),
      (.waitc (pop h6 0 3 0), fun e => decide (e.g.counter .remote ≤ 0) && e.g.putErr.isNone)] : List (Instr × (Env → Bool))),
      ∃ e p, Issues c.1 (ready (busy .matrix)) e p ∧ c.2 e = true) ∧
    (∀ c ∈ ([(.waitc (pop h6 0 1 61), fun e => decide (61 < e.g.counter .hod))] : List (Instr × (Env → Bool))),
      ∃ e p, Issues c.1 (ready (busy .hod)) e p ∧ c.2 e = true) ∧
    (∀ c ∈ ([(.waitc (pop h6 0 2 61), fun e => decide (61 < e.g.counter .bank))] : List (Instr × (Env → Bool))),
      ∃ e p, Issues c.1 (ready (busy .bank)) e p ∧ c.2 e = true) ∧
    (∀ c ∈ ([(.waitc (pop h6 0 3 61), fun e => decide (61 < e.g.counter .remote) && e.g.putErr.isNone)] : List (Instr × (Env → Bool))),
      ∃ e p, Issues c.1 (ready (busy .remote)) e p ∧ c.2 e = true) ∧
    (∃ e p, Issues (.waitc (pop h6 0 3 0)) (ready fun g => { g with putErr := some 8 }) e p ∧ (e.g.putErr == some 8) = true) :=
  ⟨issue_with (by decide +kernel), issue_with (by decide +kernel), issue_with (by decide +kernel), issue_with (by decide +kernel),
    issues_at _ (by decide +kernel)⟩

/-- A collective instruction meets its condition: every lane is active, or is done. -/
def all (e : Env) : Bool := ~~~e.g.ended &&& ~~~e.v.active == 0

/-- Lanes 4 to 31 have not reached the course, or are done. -/
def partly (ended : LaneMask) : State := ready fun g => { g with
  ended, visit := g.visit.map fun v => { v with active := 0xF }, mlay := [(0, 0, 16), (0, 0, 496), (0, 0, 0), (0, 0, 0)] }

/-- BarriersStop: each barrier in a co-operative grid, with the lanes that are not active done. -/
theorem test_witness_barriers : let s := (partly 0xFFFFFFF0).modLaunch 0 fun l => { l with coop := true }
    let done (sc : Scope) (e : Env) : Bool := ((landed s e).fenceAt e.gid sc).fenced e.gid sc
    ∀ c ∈ ([(.bar (pop h6 0 0 0), fun e => all e && done .team e), (.cbar (pop h6 0 0 0), fun e => all e && done .clu e),
      (.gbar (pop h6 0 0 0), fun e => all e && e.launch.coop && done .dev e)] :
      List (Instr × (Env → Bool))), ∃ e p, Issues c.1 s e p ∧ c.2 e = true := issue_with (by decide +kernel)

/-- JoinAndLeave: each clause. -/
theorem test_witness_join_and_leave :
    (∀ c ∈ ([(.join (pop h6 0 0 0), all), (.leave (pop h6 0 0 0), fun e => all e && !e.team.member)] : List (Instr × (Env → Bool))),
      ∃ e p, Issues c.1 (ready) e p ∧ c.2 e = true) ∧
    ∃ e p, Issues (.leave (pop h6 0 0 0)) (member (ready)) e p ∧ (all e && e.team.member &&
      (landed (member (ready)) e).windowRow e.g.team == none && !(landed (member (ready)) e).windowWrites e.g.team &&
      !((landed (member (ready)) e).windowAccesses e.g.team).windowBusy e.g.team) = true :=
  ⟨issue_with (by decide +kernel), issues_at _ (by decide +kernel)⟩

/-- CollectiveTrap: each instruction, with lanes 4 to 31 neither active nor done. -/
theorem test_witness_collective_trap : let s := (partly 0).modLaunch 0 fun l => { l with coop := true }
    let n (e : Env) : Bool := !all e
    let o := pop h6 0 0 0
    ∀ c ∈ ([(.bar o, n), (.cbar o, n), (.join o, n), (.leave o, n), (.mfmt o, n), (.mlay { o with h := h8 }, n),
      (.gbar o, fun e => n e && e.launch.coop), (.region (liop 0 0 0 0), fun e => n e && e.g.shadow.isNone),
      (.mloop { o with h := h8, a := 1 }, fun e => n e && decide (0 < e.team.heavy) && !overlapping e.g 1 0),
      (.mma o, fun e => n e && decide (0 < e.team.heavy)), (.mzero o, fun e => n e && decide (0 < e.team.heavy)),
      (.mwr { o with ty := .f32 }, fun e => n e && decide (0 < e.team.heavy)),
      (.mrd { o with ty := .f32 }, fun e => n e && decide (0 < e.team.heavy))] : List (Instr × (Env → Bool))),
      ∃ e p, Issues c.1 s e p ∧ c.2 e = true := issue_with (by decide +kernel)

/-- MatrixStateAndTiles: each clause, at the last tile, band and layout. -/
def tiled : State := (ready fun g => { g with s := [(8, 0x0002#64 <<< 48)] }).modTeam 0 fun t => { t with heavy := 8 }

theorem test_witness_matrix_state_and_tiles : tiled.poison = [] ∧
    ∀ c ∈ ([(.mfmt (pop h6 0 8 0), fun e => all e && !fmtIllegal (e.g.s.get 8)), (.mlay (pop h8 496 9 127 3), fun e => all e && !layIllegal (e.g.s.get 9) (e.g.s.get 127)),
      (.mzero (pop h6 7 0 0), fun e => all e && decide (7 < e.team.heavy)), (.mwr (pop h6 7 15 504 0 .f32), fun e => all e && decide (7 < e.team.heavy)),
      (.mrd (pop h6 504 7 15 0 .f32), fun e => all e && decide (7 < e.team.heavy)),
      (.mrd (pop h6 0 0 0 0 .ln8x4), fun e => all e && decide (0 < e.team.heavy))] : List (Instr × (Env → Bool))),
      ∃ e p, Issues c.1 tiled e p ∧ c.2 e = true := ⟨rfl, issue_with (by decide +kernel)⟩

/-- MatrixSteps: an `mma`, also with scales at the end of the scratch; an `mloop` of no step, of one and of one too many, and one
whose rows leave the scratch; a format that is not native, with and without its emulation. -/
def looped (w : W64 := 0) (acc : W64 := 0) : State := ({ ready fun g => busy .matrix { g with
    s := [(12, 1#64), (13, 0xFFFF#64), (14, 0x10000#64)], mfmt := w, mlay := [(0, 0, 16), (0, 0, 496), (0x1FFFF#64 <<< 11, 0, 16), (0, 0, 0)] } with
  ctrl := { (ready).ctrl with featacc := acc } } : State).modTeam 0 fun t => { t with heavy := 8 }

/-- MFMT: with scales at the last place of a scratch of 4,096 bytes, and of a format that is not native. -/
def scaledFmt : W64 := (1#64 <<< 6) ||| (0xF80#64 <<< 8) ||| (0xF80#64 <<< 28)
def foreignFmt : W64 := 0x3F

/-- What an engine instruction on tile 7 meets before its operands. -/
def stepsOk (e : Env) : Bool := all e && decide (7 < e.team.heavy) && !fmtFaults e.g.mfmt && decide (e.g.counter .matrix < 63) &&
  e.team.mayCapture && ((landed (looped e.g.mfmt) e).leaveOwn e.gid).queueEmpty e.gid

theorem test_witness_matrix_steps : (looped).poison = [] ∧
    let lays (n : Nat) (e : Env) : Bool := stepsOk e && !overlapping e.g 0 1 && layFails (e.g.mlay.getD 0 (0, 0, 0)) n e.team.scratchSize == none &&
      layFails (e.g.mlay.getD 1 (0, 0, 0)) n e.team.scratchSize == none && scaleFails e.g.mfmt n e.team.scratchSize == none
    ∀ c ∈ ([(.mma (pop h6 7 496 480), fun e => stepsOk e && decide (fmtBLK e.g.mfmt = 0)),
      (.mloop (pop h8 7 0 1 127), fun e => stepsOk e && !overlapping e.g 0 1),
      (.mloop (pop h8 7 0 1 14), fun e => stepsOk e && !overlapping e.g 0 1), (.mloop (pop h8 7 2 1 12), fun e => stepsOk e && !overlapping e.g 2 1 &&
        (layFails (e.g.mlay.getD 2 (0, 0, 0)) 1 e.team.scratchSize).isSome), (.mloop (pop h8 7 0 1 12), lays 1)] : List (Instr × (Env → Bool))),
      ∃ e p, Issues c.1 (looped) e p ∧ c.2 e = true := ⟨rfl, issue_with (by decide +kernel)⟩

theorem test_witness_matrix_scales : (looped scaledFmt).poison = [] ∧ ∃ e p, Issues (.mma (pop h6 7 496 480)) (looped scaledFmt) e p ∧
    (stepsOk e && decide (fmtBLK e.g.mfmt ≠ 0) && decide (fmtASB e.g.mfmt + 128 = e.team.scratchSize) &&
      decide (fmtBSB e.g.mfmt + 128 ≤ e.team.scratchSize)) = true := ⟨rfl, issues_at _ (by decide +kernel)⟩

/-- A format that is not native. -/
def foreign (e : Env) : Bool := all e && decide (7 < e.team.heavy) && fmtFaults e.g.mfmt && !overlapping e.g 0 1

theorem test_witness_matrix_formats : (looped foreignFmt).poison = [] ∧ (looped foreignFmt 0x200).poison = [] ∧
    (∀ c ∈ ([(.mma (pop h6 7 496 480), foreign), (.mloop (pop h8 7 0 1 13), foreign)] : List (Instr × (Env → Bool))),
      ∃ e p, Issues c.1 (looped foreignFmt) e p ∧ c.2 e = true) ∧
    ∀ c ∈ ([(.mma (pop h6 7 496 480), foreign), (.mloop (pop h8 7 0 1 13), foreign)] : List (Instr × (Env → Bool))),
      ∃ e p, Issues c.1 (looped foreignFmt 0x200) e p ∧ c.2 e = true := ⟨rfl, rfl, issue_with (by decide +kernel), issue_with (by decide +kernel)⟩

/-- WantFamily: each clause; the object's one course starts at offset 0 of it. Vector register 12 and the links hold its start. -/
def wanting (f : Group → Group := id) : State := mapped 0 fun g => f { g with
  v := lanes.map fun t => (384 + t, 0x10000#32), lk := lanes.map fun t => (t, 0x10000#32), s := [(4, 0x100000#64), (5, 0xFFF#64)] }

theorem test_witness_want_family :
    let imm (e : Env) : Bool := (wanting).isStart e.g.ctx ((wanting).objectBase e.g.ctx e.v.start + 0)
    let all_ (f : Env → Nat → W32) (e : Env) : Bool := e.lanes.all fun t => (wanting).isStart e.g.ctx (f e t)
    let park (b : BitVec 9) (a : BitVec 9) (x : BitVec 8) : Instr := .park (liop 0 a b 0 x)
    ∀ c ∈ ([(.want (liop 0 0 0 0), imm), (.call (liop 0 0 0 0), imm), (.rejoin (liop 0 127 0 0), imm),
      (.wantr (pop h6 0 12 0 0 .n32), all_ fun e t => e.g.v.get (384 + t)), (.callr (pop h6 0 12 0 0 .n32), all_ fun e t => e.g.v.get (384 + t)),
      (.ret (pop h6 0 0 0), all_ fun e t => e.g.lk.get t), (.exit (pop h6 0 0 0), fun e => e.g.shadow.isNone),
      (park 0 127 2, imm), (park 0 5 1, fun e => imm e && decide ((e.g.s.get 5).toNat / 8 * 8 < e.team.scratchSize)),
      (park 127 4 0, fun e => imm e && (landed (wanting) e).translate (coreOf e.gid) e.g.ctx .load ((e.g.s.get 4) &&& ~~~3#64) == .ok .hbm 0x100000)] :
      List (Instr × (Env → Bool))), ∃ e p, Issues c.1 (wanting) e p ∧ c.2 e = true := issue_with (by decide +kernel)

/-- TargetTrap: an immediate target that is no start, and register targets of which lanes 0 and 31 are no starts. -/
def astray : State := wanting fun g => { g with
  v := (g.v.set 384 0x10010#32).set 415 0x20000#32, lk := (g.lk.set 0 0#32).set 31 0x10004#32 }

theorem test_witness_target_trap :
    let bad (m : LaneMask) (f : Env → Nat → W32) (e : Env) : Bool :=
      exactly m fun u => decide (u ∈ e.lanes) && !astray.isStart e.g.ctx (f e u)
    let imm : Env → Nat → W32 := fun e _ => astray.objectBase e.g.ctx e.v.start + 16
    (lowest 0xFFFFFFFF#32 = some 0 ∧ lowest 0x80000001#32 = some 0) ∧
    ∀ c ∈ ([(.want (liop 0 0 0 16), bad 0xFFFFFFFF imm), (.call (liop 0 0 0 16), bad 0xFFFFFFFF imm), (.park (liop 0 0 0 16 2), bad 0xFFFFFFFF imm),
      (.rejoin (liop 0 0 0 16), bad 0xFFFFFFFF imm), (.wantr (pop h6 0 12 0 0 .n32), bad 0x80000001 fun e t => e.g.v.get (384 + t)),
      (.callr (pop h6 0 12 0 0 .n32), bad 0x80000001 fun e t => e.g.v.get (384 + t)),
      (.ret (pop h6 0 0 0), bad 0x80000001 fun e t => e.g.lk.get t)] : List (Instr × (Env → Bool))),
      ∃ e p, Issues c.1 astray e p ∧ c.2 e = true := ⟨by decide +kernel, issue_with (by decide +kernel)⟩

/-- A group in a handler. -/
def handling (sh : Shadow) (f : Group → Group := id) : State := ready fun g => f { g with shadow := some sh }

/-- RegionOpens, NopChangesNothing, SpecialRegisters and TrapAndBreak: each clause. -/
theorem test_witness_region_nop_special_trap :
    (∀ c ∈ ([(.region (liop 0 0 0 0), fun e => all e && e.g.shadow.isNone && (ready).isStart e.g.ctx ((ready).objectBase e.g.ctx e.v.start + 0)),
      (.nop (sys h12 .none 0 0), fun _ => true), (.nopCompact (comp 0 0 0 3), fun _ => true), (.csrr (sys h12 .n32 511 0 0x000), fun _ => true),
      (.csrr (sys h12 .b64 127 0 0x032 .s), fun _ => true), (.csrr (sys h12 .n32 127 0 0x010 .s), fun _ => true),
      (.csrw (sys h12 .b64 0 127 0x010 .dflt .s), fun e => !csrwIllegal 0x010 (e.g.s.get 127)), (.csrw (sys h12 .n32 0 511 0x01C), fun _ => true),
      (.time (sys h6 .n32 127 0), fun _ => true), (.trap (sys h12 .none 0 0 0xFFF), fun _ => true),
      (.brk (sys h6 .none 0 0), fun e => e.g.shadow.isNone)] : List (Instr × (Env → Bool))), ∃ e p, Issues c.1 (ready) e p ∧ c.2 e = true) ∧
    ∀ c ∈ ([(.brk (sys h6 .none 0 0), fun e => e.g.shadow.isSome),
      (.csrw (sys h12 .b64 0 127 0x024 .dflt .s), fun e => e.g.shadow.isSome && !csrwIllegal 0x024 (e.g.s.get 127))] : List (Instr × (Env → Bool))),
      ∃ e p, Issues c.1 (handling default) e p ∧ c.2 e = true := ⟨issue_with (by decide +kernel), issue_with (by decide +kernel)⟩

/-- TakingATrap: outside a handler with an entry for the last cause, with none, by cause 2, and inside a handler. -/
theorem test_witness_taking_a_trap :
    let s := { ready with hbm := Memory.writeBytes (ready).hbm (8 * 24 + 4) [1] }
    let entry (n : Nat) : Nat := s.hbm.readNat (s.htbl 0 + 8 * n) 8
    s.htbl 0 = 0 ∧ (s.group 0).map (·.shadow) = some none ∧ (entry 24).testBit 32 = true ∧ (entry 23).testBit 32 = false ∧
      ((handling default).group 0).map (·.shadow) = some (some default) := by decide +kernel

/-- ContextKilled: a group of context 0; launches of it that have not completed, with and without SIGEV, and one of another context. -/
theorem test_witness_context_killed :
    (∀ e ∈ (ready).groups, e.2.ctx = 0) ∧ (ready).groups.length = 1 ∧
    let s := { ready with launches := [(0, { phase := .placing, sigev := some 1023 }), (1, { phase := .running }), (2, { ctx := 1, phase := .running })] }
    (([0, 1, 2] : List Nat).map fun l => (tfind s.launches l).map fun x => (x.ctx, x.phase, x.sigev)) =
      [some (0, .placing, some 1023), some (0, .running, none), some (1, .running, none)] := by decide +kernel

/-- ResultsLand: no result under way, or one for the same register in the same slot; before, at and after its slot. -/
theorem test_witness_results_land : let g := (startGroup {} 0 0 0 0)
    g.pend = [] ∧ Sparse.wf g.s = true ∧ (0 < 0 + 1 ∧ 0 + 1 ≤ 1 ∧ 0 + 1 ≤ 2) := by decide +kernel

/-- EretReturns: each home of the return, and EPC changed to a course start and to something else. -/
def shadowed (pos : Nat) (cause : Nat := 17) : Shadow := { (default : Shadow) with
  epc := 0x10000, pos, cause, visit := some (newVisit 0x10000 allLanes 0) }

theorem test_witness_eret :
    let eret : SysOp := sys { h6 with last := true } .none 0 0
    (Instr.eret eret).last = true ∧ (∀ c ∈ [(shadowed 0, 0x10000#32, true), (shadowed 1, 0x10000#32, true), (shadowed 2, 0x10000#32, true),
      (shadowed 3, 0x10000#32, true), (shadowed 0 3, 0x10000#32, true), (shadowed 0 3, 0x10020#32, false)],
      ∃ e p, Issues (.eret eret) (handling c.1 fun g => { g with epc := c.2.1 }) e p ∧
        (e.g.shadow.isSome && e.g.landAll.shadow == some c.1 && e.g.landAll.epc == c.2.1 && (ready).isStart e.g.ctx e.g.landAll.epc == c.2.2) = true) := by
  refine ⟨rfl, fun c hc => issues_at _ ?_⟩
  revert c; decide +kernel

/-- EretReturns: the end step of a course that ended at its last instruction, and one that faults as the next course is no start. -/
theorem test_witness_eret_end_step : ∀ c ∈ [(0#32, true), (0x10000#32, false)],
    let sh := { shadowed 1 with wl := (List.range 32).map fun t => (t, c.1) }
    ∃ e p, Issues (.eret (sys { h6 with last := true } .none 0 0)) (handling sh fun g => { g with epc := 0x10000 }) e p ∧
      (match e.g.landAll.shadow with
        | some x => x == sh && (x.visit.any fun v => (((landed (handling sh) e)).endStep e.gid { e.g.landAll with
            wl := x.wl, parked := 0, ended := 0, shadow := none, visit := x.visit } v).isSome == c.2)
        | none => false) = true := by
  intro c hc
  refine issues_at _ ?_
  revert c
  refine List.all_eq_true.mp ?_
  decide +kernel

/-- LegalityAndGuards: a word with its fields ill formed, a register at NREG, a destination that the trailer does not name, a
condition of the instruction's own, an earlier result under way in checking mode, and a false uniform guard. -/
def checking : State := ready (fun g => { g with
    pend := [{ land := 4, csr := false, writer := 0x10000, writes := [.lane false 5 0 1], ff := 0, lf := 0 }]
    visit := g.visit.map fun v => { v with slot := 1 } })
  fun s => s.modLaunch 0 fun l => { l with check := true }

theorem test_witness_legality :
    let legal (i : Instr) (s : State) (e : Env) : Bool := i.wf && e.g.nregOk i && (landed s e).awaitOk e.gid e.g e.v i
    (∀ c ∈ [(Instr.add (vop h6 .f32 1 2 3), ready), (.add (vop h6 .i32 16 2 3), ready fun g => { g with nreg := 16 }),
      (.ld (mem h6 .n32 2 4 1), State.withFetchWord State.reset 48 0)],
      ((c.2.env c.1 (pairable c.1)).any fun x => c.1.native && (!legal c.1 c.2 x.1 || c.1 == .ld (mem h6 .n32 2 4 1))) = true) ∧
    (∀ i ∈ [Instr.pfor (pop h12 1 2 0 0 .n32), .gbar (pop h6 0 0 0), .mma (pop h6 7 0 16), .csrw (sys h12 .b64 0 1 0x020 .dflt .s)],
      (((ready).env i (pairable i)).any fun x => i.native && legal i (ready) x.1) = true) ∧
    ((checking.env (.add (vop h6 .i32 1 5 3)) false).any fun x => x.1.launch.check && legal (.add (vop h6 .i32 1 5 3)) checking x.1 &&
      x.1.g.meets (Instr.add (vop h6 .i32 1 5 3)).names == some 0x10000) = true ∧
    (((ready).env (.bar (pop { h8 with guard := .on .q false 7 } 0 0 0)) false).any fun x =>
      legal (.bar (pop { h8 with guard := .on .q false 7 } 0 0 0)) (ready) x.1 &&
        (x.1.g.guardMask (Instr.bar (pop { h8 with guard := .on .q false 7 } 0 0 0)).guard x.1.v.active).isNone &&
        x.1.g.stepctl != 1 && (x.1.g.pendingName (.bar (pop { h8 with guard := .on .q false 7 } 0 0 0))).isNone) = true := by
  decide +kernel

/-- StepRunsTheDecodedInstruction: the end of a course; an instruction, an illegal word, a reserved prefix and the opcode of a
trailer at the position. -/
def fetching (bs : List Byte) : State := State.reset.placeProgram bs

theorem test_witness_step :
    (∀ n ∈ [0, 23, 24], ∀ bs ∈ [[(0x05 : Byte), 3, 1, 2], [0x81, 0xA0, 0, 0, 0, 0], [0xF0, 0, 0, 0], [0xEF, 0xFC]],
      let s := (fetching bs).modGroup 0 fun g => { g with visit := g.visit.map fun v => { v with count := n } }
      s.agenda = [] ∧ s.cur = some 0 ∧ s.powered = true ∧ ((s.group 0).any fun g => g.status == .running && g.visit.any fun v =>
        !v.ended && v.count == n && (s.regionOver g v).isNone && (match s.fetch 0 g.ctx v.pos.toNat with
          | .bytes l => (match decode l, decode (bs ++ List.replicate 10 0) with
            | .ok a, .ok b => a == b
            | .error a, .error b => a == b
            | _, _ => false)
          | _ => false)) = true) ∧
    (let s : State := { (fetching [0x05, 3, 1, 2]).modGroup 0 (fun g => { g with s := [(9, 0x100001#64)] }) with
       objects := (fetching []).objects.map fun o => { o with regions := [(0, 9)] } }
     (s.group 0).any (fun g => g.visit.any fun v => !v.ended && s.regionOver g v == some 0x100001) = true) ∧
    ((ready fun g => { g with visit := g.visit.map fun v => { v with ended := true } }).group 0).any
      (fun g => g.visit.any (·.ended)) = true := by decide +kernel

/-- StepKeepsMemories: the state after reset with a program placed, from which a step answers a next state. -/
def memoriesOk (s : State) : Bool :=
  Memory.wf s.hbm && Memory.wf s.host && Memory.wf s.bank && s.peers.all (fun e => Memory.wf e.2) && s.spaces.all (fun e => Memory.wf e.2) &&
  s.teams.all (fun e => Memory.wf e.2.scratch && Sparse.wf e.2.tiles) && s.ctxs.all (fun e => Memory.wf e.2.mem) && s.mgmt.slots.all (fun e => Memory.wf e.2.2) &&
  s.mgmt.openImage.all fun e => Memory.wf e.2.2

theorem test_witness_step_keeps_memories : let s := fetching [0x05, 3, 1, 2]
    (memoriesOk s && (match step s with
      | .next t => memoriesOk t
      | _ => false)) = true := by decide +kernel

/-! The device's own steps. -/

/-- The group of a placed program, whose bytes are given, changed. -/
def stands (bs : List Byte) (f : Group → Group := id) (h : State → State := id) : State :=
  h ((State.reset.placeProgram bs).modGroup 0 f)

def groupIs (s : State) (p : Group → Bool) : Bool := (s.group 0).any p
def visitIs (g : Group) (p : Visit → Bool) : Bool := g.visit.any p

/-- CourseTurns: a ready group alone on its pipe; the end of a course with its signature unchecked, wrong and right; a group that
rolls back. -/
def ending (bs : List Byte) (raised : Option (Nat × W64) := none) : State :=
  stands bs (fun g => { g with visit := g.visit.map fun v => { v with ended := true, raised } })
  fun s => { s with objects := s.objects.map fun o => { o with starts := [0, 16] } }

theorem test_witness_course_turns :
    (let s := stands [] (fun g => { g with status := .ready }) fun s => { s with cur := none }
     s.pipeRunning 0 0 = false ∧ (s.winner 0 0).isSome = true ∧ groupIs s (fun g => visitIs g (fun _ => true) && !g.stepDue) = true) ∧
    (∀ c ∈ [([0xEF, 0xFC, 0, 0, 0, 0, 0, 0, 0, 0, 0, 0], false, 0#16), ([0xEF, 0xFC, 0, 0, 0, 0, 0, 0, 0, 1, 0, 0], true, 0#16),
        ([(0xEF : Byte), 0xFC, 0, 0, 0, 0, 0, 0, 0, 1, 0xFF, 0xFF], true, 0xFFFF#16)], let s := ending c.1
      groupIs s (fun x => x.status == .running && x.awaitedK.isNone && x.sigacc == 0 && x.pendingTrap.isNone && x.stepctl == 0 &&
        decide (x.wake ≤ s.timeref) && visitIs x fun v => v.ended && s.isStart 0 (nextCourse v.pos.toNat) &&
          (match s.fetch 0 x.ctx v.pos.toNat with
            | .bytes bs => decodeTrailer bs == some { awaited := [], chk := c.2.1, sig := c.2.2 }
            | _ => false)) = true) ∧
    groupIs (ending [0xEF, 0xFC, 0, 0, 0, 0, 0, 0, 0, 0, 0, 0] (some (21, 7))) (fun x => visitIs x fun v => v.raised == some (21, 7)) = true ∧
    groupIs (ready fun g => { g with status := .rolling }) (fun x => x.status == .rolling && x.ops.isEmpty && x.await.isEmpty) = true := by
  decide +kernel

/-- ArrivalsAndStores: a load of scratch, and a volatile load of a cached place; plain loads of HBM and `sld` with no line held and
with one; `atom`, `cas` and `red`; a store into the team's own scratch and one to HBM; a store on its way behind another one. -/
def asking (req : List Access → Request) (p : Place) : Group → Group := fun g => { g with await := [{
    seq := 0, iaddr := 0x10000, names := [⟨false, 5, 1, false⟩], val := none, lf := 0,
    req := req [{ lane := 0, place := p, addr := 0xFFC, va := 0, operand := 7, operand2 := 9 }] }] }
def loading (vol : Bool) (p : Place) : Group → Group := asking (fun l => .load vol none 4 false l false 5) p
def entryTo (p : Place) (a : Nat) : StEntry := { gid := 0, seq := 0, vol := false, rel := none, bytes := [⟨p, a, 1⟩] }

def holding (s : State) : State := s.modCore 0 fun c => { c with l1 := [{ place := .hbm, line := 31, bytes := List.replicate 128 1 }] }

theorem test_witness_arrivals_and_stores :
    (∀ c ∈ [(false, Place.scratch 0), (true, .hbm)], groupIs (ready (loading c.1 c.2)) (fun x => x.await.length == 1 &&
      x.await.all (fun a => a.val.isNone && a.home == .here) && x.status != .retired && x.stq.isEmpty) = true ∧
      ((ready (loading c.1 c.2)).core 0).flight = [] ∧ (ready (loading c.1 c.2)).poison = [] ∧ (ready (loading c.1 c.2)).portsOpen [c.2] = true ∧
      (c.1 = true ∨ c.2.cached = false)) ∧
    (∀ f ∈ [loading false .hbm, asking (fun l => .sload 4 true (l.headD default) 5) .hbm], let s := ready f
      groupIs s (fun x => x.await.length == 1 && x.await.all (fun a => a.val.isNone && a.home == .here) && x.status != .retired) = true ∧
      Place.hbm.cached = true ∧ s.portsOpen [.hbm] = true ∧ (s.core 0).l1 = [] ∧ ((holding s).core 0).line .hbm 0xFFC ≠ none ∧ 0xFFC % 128 + 4 ≤ 128) ∧
    (∀ r ∈ [fun l => Request.atom 0 .n32 4 .dev .plain l false 5, fun l => .cas 4 .dev .plain l false 5, fun l => .red 0 .n32 4 .dev .plain l],
      ∀ p ∈ [Place.hbm, .bank], let s := ready (asking r p)
      groupIs s (fun x => x.await.length == 1 && x.stq.isEmpty && x.ops.isEmpty && x.status != .retired) = true ∧ (s.core 0).flight = [] ∧ s.poison = [] ∧
        s.portsOpen [p] = true) ∧
    (∀ p ∈ [Place.scratch 0, .hbm], let s := ready fun g => { g with stq := [entryTo p 0xFFF] }
      groupIs s (fun x => x.await.isEmpty && x.stq == [entryTo p 0xFFF]) = true ∧ (entryTo p 0xFFF).rel = none ∧
      ((∀ b ∈ (entryTo p 0xFFF).bytes, b.place = .scratch 0) ∨ ((∀ b ∈ (entryTo p 0xFFF).bytes, b.place.isScratchOf 0 = false) ∧
        (s.core 0).l1 = []))) ∧
    (let s := (ready).modCore 0 fun c => { c with flight := [entryTo .hbm 0, entryTo .hbm 1] }
     (s.core 0).flight[1]? = some (entryTo .hbm 1) ∧ (entryTo .hbm 1).gid = 0 ∧
     (∀ f ∈ (s.core 0).flight.take 1, f.meets (entryTo .hbm 1).spots = false ∧ (f.vol = false ∨ (entryTo .hbm 1).vol = false ∨ f.gid ≠ 0)) ∧
     ∀ b ∈ (entryTo .hbm 1).bytes, b.place = .hbm) := by decide +kernel

/-- SleepersWake: each condition at the tick or count that meets it; the wake time; a read that is due. -/
theorem test_witness_sleepers_wake :
    (∀ w ∈ [WaitRec.time 5, .bar 0xFF8, .ne 0 0 0 none true none],
      let s := { ready fun g => { g with status := .asleep, waits := [(31, w)] } with timeref := 5 }
      groupIs s (fun x => x.status == .asleep && decide ((31, w) ∈ x.waits) && !x.objectQueued 0xFF8) = true ∧ s.objectCount 0 0xFF8 = 0) ∧
    (let s := { ready fun g => { g with status := .napping, wake := 5 } with timeref := 5 }
     groupIs s (fun x => x.status == .napping && decide (x.wake ≤ s.timeref)) = true) ∧
    (let s := { ready fun g => { g with waits := [(31, .ne 0x100003 1 0 (some 5) false none)] } with timeref := 5 }
     groupIs s (fun x => tfind x.waits 31 == some (.ne 0x100003 1 0 (some 5) false none)) = true ∧
     groupIs s (fun x => x.await.isEmpty && x.stq.isEmpty) = true ∧ (s.core 0).flight = [] ∧ s.portsOpen [.hbm] = true ∧
     s.translate 0 0 .load (0x100003#64 &&& ~~~3#64) = .ok .hbm 0x100000) := by decide +kernel

/-- SleepersWake: a `waitb` past its promise, its stores to the object gone from the queue. -/
def lateWait : State := (stands [0xA8, 0x20, 0x70, 0x00, 0x08, 0x05] (fun g => { g with s := [(4, 0xFF8#64), (5, 9#64)] })
  fun s => { s with timeref := 10 }).modTeam 0 fun t => { t with scratch := [(0xFF8, 1)] }

theorem test_witness_late_copy_trap :
    let o := pop h6 0 4 5 0 .b64
    ∃ e p, Issues (.waitb o) { lateWait with cur := some 0 } e p ∧ (decide (e.gid = 0) && groupIs lateWait (fun x => x.status == .running &&
      decide (x.s.get 5 < lateWait.timeref) && e.g.s.get 4 == x.s.get 4 && e.g.s.get 5 == x.s.get 5 && decide (x.s.get 5 < (drained lateWait e).timeref) &&
      visitIs x fun v => lateWait.instrAt 0 x.ctx v.pos == some (.waitb o)) && decide (lateWait.objectCount 0 0xFF8 ≠ 0) &&
      decide (0xFF8 < e.team.scratchSize) && goneAt lateWait e && decide (countAt lateWait e ≠ 0)) = true := issues_at _ (by decide +kernel)

/-- FaultsAndInvalidations: a free slot at the end of the ring, an answered record, and each command at the end of its range, with 15
and with 16 requests pending. -/
theorem test_witness_faults_and_invalidations :
    (let s := ready (fun g => { g with status := .faulted none }) fun s => { s with ctrl := { s.ctrl with fbsize := 4, fbhead := 3, fbbase := 0x30000 } }
     groupIs s (fun x => x.status == .faulted none) = true ∧ s.ctrl.fbsize ≠ 0 ∧
     (s.hbm.get (s.ctrl.fbbase.toNat + 32 * s.ctrl.fbhead.toNat + 31)).getLsbD 7 = false) ∧
    (let s := ready (fun g => { g with status := .faulted (some 3) }) fun s => { s with faults := [(3, .group 0)] }
     tfind s.faults 3 = some (.group 0) ∧ groupIs s (fun x => x.status == .faulted (some 3) && (s.ctx x.ctx).allocs.isEmpty) = true) ∧
    (63 < 64 ∧ 2 ^ 36 - 1 < 2 ^ 36) ∧
    (∀ n ∈ [15, 16], ∀ w ∈ [1 + 256 * 63, 2 + 256 * 63 + 65536 * (2 ^ 36 - 1), 3],
      let s := { State.reset with ctrl := { State.reset.ctrl with tlbreqs := BitVec.ofNat 64 w :: List.replicate (n - 1) 3#64 } }
      s.ctrl.tlbreqs.length = n ∧ s.ctrl.tlbreqs.head? = some (BitVec.ofNat 64 w)) := by decide +kernel

/-- MatrixStepAndEmulation: an `mma` of each native format, without and with scales; and a faulted `mma`. -/
def oneStep (w : W64) (next total : Nat) (one : Bool) : EngineOp := .steps 0 0 0x10000 7 w (0, 0, 0) (0, 0, 16) next total one [] [] [] [] 0

def stepping (w : W64) (next total : Nat) (one : Bool) : State := (ready).modTeam 0 fun t => { t with engine := [oneStep w next total one] }

theorem test_witness_matrix_step : (ready).poison = [] ∧ (ready).upsets = [] ∧
    ([0, 9, 18, 0x49, 0x1000000000000, 0x2000000000000] : List W64).all (fun w => [(0, 1, true), (0, 2, false), (1, 2, false)].all fun c =>
      (stepping w c.1 c.2.1 c.2.2).teams.any fun t => t.1 == 0 && t.2.residence == .resident && t.2.engine == [oneStep w c.1 c.2.1 c.2.2] &&
        (stepping w c.1 c.2.1 c.2.2).engineTurn t.2.core == some 0) = true := by decide +kernel

theorem test_witness_format_emulation :
    ∀ c ∈ [([(0xAC : Byte), 0x20, 0x78, 0x04, 0x80, 0x50], Instr.mma (pop h6 1 64 80)),
      ([0xD6, 0x18, 0x00, 0xF0, 0x10, 0x00, 0x02, 0x0C], .mloop (pop h8 2 0 1 12))],
    let s := stands c.1 fun g => { g with status := .emulating }
    groupIs s (fun x => x.status == .emulating && visitIs x fun v => s.instrAt 0 x.ctx v.pos == some c.2) = true ∧ (s.team 0).engine = [] := by
  decide +kernel

/-- OperationsComplete: the last row of a request, with and without its barrier object; a bank operation; a remote operation, and the
put that it was. -/
def oneRow (r : BitVec 256) : State := (ready).modTeam 0 fun t => { t with hod := [
  { gid := 0, seq := 0, iaddr := 0, reqs := [{ record := r, rows := [1], fault := none, dests := [0] }], promise := 0 }] }

theorem test_witness_operations_complete :
    (([0x1000000000000400100000000000000040000000000000000, 0xFF8000000000000000000400100000000000000040000000000000000] : List (BitVec 256)).all fun r => let s := oneRow r
      s.poison.isEmpty && (s.team 0).area.isNone && ((s.team 0).hod[0]?).any (fun k => k.gid == 0 && (k.reqs[0]?).any fun q =>
        q.fault.isNone && decide (1 ∈ q.rows) && q.dests == [0] &&
          s.readRow 0 0 q.record 1 == .bytes (([1, 0, 0, 0] : List Byte).map fun b => (b, false)))) = true ∧
    (let b : BankOp := { gid := 0, seq := 0, op := 2, ty := .f32, dst := 0xFFFFFFC, src := 0, n := 1, scalar := 0 }
     let s := (ready).modTeam 0 fun t => { t with bank := [b] }
     (s.team 0).bank = [b] ∧ b.gid = 0 ∧ s.poison = []) ∧
    (([[], [8, 16]] : List (List W64)).all fun puts => [Status.running, .stopped (.waitc .remote 0)].all fun status =>
      let o : OpRec := { cls := .remote, seq := 0, finished := false, region := 0, puts }
      let s := ready fun g => { g with ops := [o], status }
      groupIs s (fun x => x.ops == [o] && x.stq.isEmpty && x.await.isEmpty && x.status == status && x.putErr.isNone) &&
        (s.core 0).flight.isEmpty) = true := by decide +kernel

/-! The device's steps: links, queues, teams, registers, marks and power. -/

/-- LinkTraffic: the last port, at the edges of its reserve, and its injector at its Nth flit and before; reads, writes and atomics
that end at the top of HBM; a put to the end of a live team's scratch, one of two flits to a saved team, and one that no team
receives; an injector of the last link. -/
def linkState (l : Link) : State := { ready with ctrl := { (ready).ctrl with ready := 1 <<< 37, featacc := 0x80 }, links := [(17, l), (25, l)] }

theorem test_witness_link_traffic :
    ((linkState {}).portUp 17 = true ∧ (∀ n ∈ [0, 767, 768, 1023], ((linkState { reserve := n }).link 17).reserve = n) ∧
      ∀ n ∈ [0, 1], let l := (linkState { injcfg := 0x8000000000000002#64, armed := true, flits := n }).link 17
        (linkState l).ctrl.featacc.getLsbD 7 = true ∧ l.armed = true ∧ (l.flits + 1 = l.injcfg.toNat % 2 ^ 32 ↔ n = 1)) ∧
    (let s := linkState { reserve := 2 }
     s.confined = false ∧ (s.link 17).lateUntil ≤ s.timeref ∧ 2 ≤ (s.link 17).reserve ∧ (640 * 2 ^ 30 - 8) + 8 ≤ 640 * 2 ^ 30 ∧ (s.putTarget 0xFF8).any (fun e => e.2.residence == .resident &&
       e.2.scratchSize == 4096 && decide (putOff 0xFF8 + 8 ≤ e.2.scratchSize)) = true ∧ s.putTarget 0x100000 = none) ∧
    (let s := { linkState { reserve := 2 } with
       hbm := Memory.writeBytes (ready).hbm 49 [2], teams := [(0, { scratchSize := 4096, residence := .saved, oldSlots := [(0, 0)] })] }
     (s.putTarget 0).any (fun e => e.2.residence == .saved && decide (putOff 0 + 257 ≤ e.2.scratchSize)) = true ∧
       s.bounceUsed 0 + (257 + 255) / 256 = s.bounceSize 0 / 256) ∧
    (∀ v ∈ [0x8000000000000001#64, 0xB000000000000001#64, 0xC000000000000001#64, 0xE000000000000001#64],
      let l := (linkState { injcfg := v, due := 1 }).link 25
      0 < l.due ∧ ((l.injcfg.extractLsb' 61 2).toNat < 2 ∨ (l.injcfg.extractLsb' 61 2).toNat = 2 ∨ 2 < (l.injcfg.extractLsb' 61 2).toNat)) := by
  refine ⟨by decide +kernel, by decide +kernel, by decide +kernel, ?_⟩
  intro v hv
  simp only [List.mem_cons, List.not_mem_nil, or_false] at hv
  rcases hv with rfl | rfl | rfl | rfl <;> decide +kernel

/-- BarriersAndDrains: a grid whose one group has arrived, at D0 and D2; an island that may resume, and one that may not; a drain. -/
def waitingGrid (det : Nat) : State := (ready fun g => { g with status := .stopped .gbar }).modLaunch 0 fun x => { x with gbarArr := [0], det }

def redEntry (k : Nat) : RedEntry := {
  core := 0, spilled := false, place := .hbm, addr := 0x10010, size := 4, ty := .i32, op := 0, operand := 1
  vcore := 0, teamix := 0, groupix := 0, lane := k, seq := 0, age := k }

theorem test_witness_barriers_and_drains :
    (∀ d ∈ [0, 2], let s := waitingGrid d
      (s.launchOf 0).gbarArr ≠ [] ∧ s.gridGroups 0 ≤ (s.launchOf 0).gbarArr.length ∧ s.portsOpen ((s.launchOf 0).red.map (·.place)) = true) ∧
    (∀ n ∈ [3, 4], let s := { (waitingGrid 0).modLaunch 0 (fun x => { x with gbarArr := [] }) with
        resumeQ := [(0, 0)], timeref := 63, resumed := List.replicate n 0 }
      s.resumeQ = [(0, 0)] ∧ s.releasedOn 0 0 ≠ [] ∧ (s.resumed.filter fun t => s.timeref < t + 64).length = n) ∧
    ((tfind ((ready).modLaunch 0 fun x => { x with freed := 1, red := [redEntry 1, redEntry 0] }).launches 0).any fun x =>
      decide (x.grid ≤ x.freed) && x.red.length == 2 && (ready).portsOpen (x.red.map (·.place))) = true := by decide +kernel

/-- QueuePackets: a packet of each type at the head of queue 15; events 0 and 1023; a launch that is rejected and one that is not. -/
def queued (p : BitVec 512) : State := { ready with
  ctxs := [(0, { live := true, events := [0, 1023] })]
  queues := [(15, { ctx := some 0, prio := 3, packets := [p], level := 1 })]
  launches := [(0, { phase := .complete, queue := 15 })], nextLaunch := 1, nextObj := 2
  ctrl := { (ready).ctrl with featWritten := true, featacc := 0x3FF }
  objects := (ready).objects ++ [{
    id := 1, ctx := 0, heapoff := 0x20000, codeSize := 0x1000, size := 0x1000, starts := [0]
    kernels := [0x1001001010000000000000000], rawEntries := [0], symbols := [], name := [], deps := [], digest := 0
    requires := 0, bound := 0, superseded := false, unloaded := false, freed := false }] }

/-- A packet from fields: their first bits and values. -/
def packet (l : List (Nat × Nat)) : BitVec 512 := BitVec.ofNat 512 (l.foldl (fun n f => n + f.2 * 2 ^ f.1) 0)

def launchPacket (l : List (Nat × Nat)) : BitVec 512 :=
  packet ([(8, 3), (20, 1), (24, 1), (64, 1), (128, 1), (144, 1), (160, 1), (192, 0x7777), (256, 0x8000), (272, 0x83FF)] ++ l)

/-- No queue has a head of higher priority. -/
theorem test_witness_queue_heads :
    ([packet [(0, 1), (256, 0x8000), (304, 0x83FF)], packet [(0, 2)], packet [(0, 3), (12, 2)], packet [(0, 15)], launchPacket []].all fun p =>
      (List.range 16).all fun r => decide ((queued p).headPrio r ≤ (queued p).headPrio 15)) = true := by decide +kernel

theorem test_witness_queue_packets :
    ((queued 0).queue 15).ctx = some 0 ∧
    ((queued (packet [(0, 4)])).queue 15).packets = [packet [(0, 4)]] ∧ 4 ≤ pktTYPE (packet [(0, 4)]) ∧
    (let p := packet [(0, 1), (256, 0x8000), (304, 0x83FF)]
     ((queued p).queue 15).packets = [p] ∧ pktTYPE p = 1 ∧ pktReserved p = false ∧ pktWaits p = [0, 1023] ∧
     ∀ e ∈ pktWaits p, e ∈ ((queued p).ctx 0).events) ∧
    (∀ c ∈ [([(320, 0x83FF)], some 1023, false), ([(320, 0x83FF), (8, 1)], some 1023, true), ([], none, false)],
      let p := packet ((0, 2) :: c.1)
      ((queued p).queue 15).packets = [p] ∧ pktTYPE p = 2 ∧ pktReserved p = false ∧ packetSigev p = c.2.1 ∧ p.getLsbD 8 = c.2.2 ∧
      ∀ e ∈ (queued p).launches, e.2.phase = .complete) ∧
    (let p := packet [(0, 3), (12, 2)]
     ((queued p).queue 15).packets = [p] ∧ pktTYPE p = 3 ∧ pktReserved p = false) ∧
    (∀ c ∈ [([], none), ([(128, 0xFFFE), (144, 0xFFFE)], some 5), ([(64, 8)], some 6), ([(12, 2), (20, 1)], some 4)],
      let p := launchPacket c.1
      let s := queued p
      (s.queue 15).packets = [p] ∧ pktTYPE p = 0 ∧ s.placing 15 = none ∧ s.ctrl.featWritten = true ∧ (s.ctx 0).preempted = false ∧
      (∀ e ∈ pktWaits p, e ∈ (s.ctx 0).events) ∧ pktCOOP p = false ∧ s.rejection 0 15 (s.queue 15) p = c.2 ∧
      (c.2 = none → ((s.current 0 (pktOBJ p)).any fun o => (o.kernel (pktENTRY p)).isSome) = true)) := by
  decide +kernel


/-- TeamsAndLaunches: a saved team of a context being restored; a queue of priority 3 alone with a launch to place; a team whose group
has retired; a launch with its one team freed. -/
def dieUp (s : State) : State := { s with ctrl := { s.ctrl with ready := s.ctrl.ready ||| 0x3100 } }

def savedTeam : State := dieUp { State.reset with
  hbm := [(0, 1)]
  teams := [(0, { scratchSize := 4096, residence := .saved, oldSlots := [(0, 0)], saved := [(0, { status := .ready })] })]
  launches := [(0, { phase := .running, nextTeam := 1, sigev := some 1023 })]
  ctxs := [(0, { live := true, restoring := true })] }

def placingLaunch : State := dieUp { ready with
  queues := [(15, { ctx := some 0, prio := 3, packets := [launchPacket []] })]
  launches := [(0, { queue := 15 })] }

/-- Queues 3 and 15, of priorities 3 and `prio`, each with a launch of its own number to place; queue `last` of priority 3 was served
last. -/
def turning (low last : Nat) : State := dieUp { ready with
  queues := [(3, { ctx := some 0, prio := 3, packets := [launchPacket []] }), (15, { ctx := some 0, prio := if low = 0 then 3 else low, packets := [launchPacket []] })]
  launches := [(3, { queue := 3 }), (15, { queue := 15 })], lastServed := [(3, last)] }

/-- A co-operative launch of one team at the head of queue 15. -/
def coopHead : State := let p := launchPacket [(10, 1)]
  dieUp { queued p with teams := [], groups := [], cur := none, ctrl := { (queued p).ctrl with ready := 0x3100 } }

def doneTeam : State := ready fun g => { g with status := .retired }

theorem test_witness_teams_restored : savedTeam.nextRestore.isSome = true := by decide +kernel

theorem test_witness_teams_placed :
    placingLaunch.nextRestore.isNone = true ∧ (placingLaunch.headState 15 == .place 0 [0]) = true ∧
    ((List.range 15).all fun r => placingLaunch.headState r == .idle) = true := by decide +kernel

theorem test_witness_teams_turns :
    ([((0, 14), 15), ((2, 15), 3)].all fun c => let s := turning c.1.1 c.1.2
      s.nextRestore.isNone && s.headState c.2 == .place c.2 [0] && (List.range 16).all fun r => s.headState r == .idle ||
        s.headState r != .blocks && (decide (s.headPrio r < s.headPrio c.2) || s.headPrio r == s.headPrio c.2 &&
          decide ((c.2 + 15 * (tget s.lastServed (s.headPrio c.2) 15 + 1)) % 16 ≤ (r + 15 * (tget s.lastServed (s.headPrio c.2) 15 + 1)) % 16)))
      = true := by decide +kernel

theorem test_witness_teams_cooperative :
    (coopHead.nextRestore.isNone && match coopHead.headState 15 with
      | .begins x cores => x.coop && cores == [0]
      | _ => false) = true := by decide +kernel

theorem test_witness_teams_and_launches :
    (((tfind doneTeam.teams 0).any fun t => doneTeam.teamDone 0 t && (tfind doneTeam.launches t.launch).isSome &&
      t.slots.all fun e => (doneTeam.group e.2).all fun g => g.putErr.isNone) = true) ∧
    ((member doneTeam).windowAccesses 0).windowBusy 0 = false ∧
    ((tfind ((doneTeam).modLaunch 0 fun x => { x with freed := 1, sigev := some 1023 }).launches 0).any fun x =>
      x.phase == .running && decide (x.grid ≤ x.freed) && x.red.isEmpty && x.sigev == some 1023) = true := by decide +kernel

/-- Preemption: each command with none in progress; a drain and a seize at their deadlines, with SEIZE accepted and not; a team
whose one group stands and has no operation. -/
def draining (st : Nat) (acc : W64) : State := { ready with
  timeref := 9, ctrl := { (ready).ctrl with preState := st, preDeadline := 9, featacc := acc } }

def savingTeam : State :=
  let s := (ready fun g => { g with status := .ready }).modTeam 0 fun t => { t with residence := .saving }
  { s with hbm := Memory.writeBytes s.hbm 66 [0x10, 0, 0, 0, 0, 0, 0, 0, 0x10] }

theorem test_witness_preemption :
    (∀ st ∈ [0, 3], (draining st 0).ctrl.preState ≠ 1 ∧ (draining st 0).ctrl.preState ≠ 2 ∧ (draining st 0).hasTeams (0x100#64).toNat = false ∧
      (draining st 0).hasTeams ((0x100#64).toNat % 64) = true ∧ (draining st 0).ctrl.tdrain ≠ 0 ∧ (0x100#64).getLsbD 8 = true ∧
      (0x100#64).getLsbD 9 = false ∧ (0x200#64).getLsbD 8 = false ∧ (0x200#64).getLsbD 9 = true) ∧
    (∀ c ∈ [(1, true), (1, false), (2, true)], let s := draining c.1 (if c.2 then 8 else 0)
      s.hasTeams s.ctrl.preCtx = true ∧ s.ctrl.preDeadline ≤ s.timeref ∧ s.ctrl.preState = c.1 ∧ s.ctrl.featacc.getLsbD 3 = c.2) ∧
    ((tfind savingTeam.teams 0).any fun t => t.residence == .saving && t.slots.all (fun e => savingTeam.savable e.2) &&
      (let u := t.slots.foldl (fun s e => s.settleGroup e.2) savingTeam
       (tfind u.teams 0).any fun y => !u.unsettled y && y.slots.length == 1 && u.areaAt y.ctx (saveLayout y (y.slots.filterMap fun e =>
         (u.group e.2).map fun g => (e.1, g))).2.2.2 == some 0x100000)) = true := by decide +kernel

/-- ClocksAndRegisters: the last island, from the middle ratio; a converter at the end of its settling; the last core and port;
BAR2 of each size, an access that ends at its end; every vector's ends. -/
theorem test_witness_clocks_and_registers :
    (let s := { State.reset with timeref := 2100, islands := [(23, { ratio := 1, settling := 2100 })] }
     23 < 24 ∧ s.hot.contains (23 / 6) = false ∧ (s.island 23).ratio < 3 ∧ 0 < stepCount (s.island 23).ratio ∧
     stepCount 2 - 1 < stepCount 2 ∧ (s.island 23).ratio ≠ 2 ∧ (s.island 23).settling ≠ 0 ∧
     (s.island 23).settling ≤ (s.timeref - (s.island 23).tick).toNat) ∧
    (255 < 256 ∧ 17 < 18 ∧ 0x201 % 8 ≠ 0 ∧ 0x200C00 ≤ 0x200C00 ∧ 0x10 ∉ [0x18, 0x20, 0x28] ∧ 4 ≠ 8 ∧ 0x30 / 8 * 8 ∉ [0x18, 0x20, 0x28] ∧
      0x22 % 4 ≠ 0 ∧ State.reset.confined = false) ∧
    (∀ c ∈ [(28, 0#64), (40, 0x10000000#64)], let s := { State.reset with ctrl := { State.reset.ctrl with bar2log2 := c.1, bar2base := c.2 } }
      let a := if c.1 = 28 then 2 ^ 28 - 8 else 640 * 2 ^ 30 - 8
      a + 8 ≤ 2 ^ s.ctrl.bar2log2 ∧ s.ctrl.bar2base.toNat / 2 ^ s.ctrl.bar2log2 * 2 ^ s.ctrl.bar2log2 + a + 8 ≤ 640 * 2 ^ 30) ∧
    (28 ≤ 28 ∧ 40 ≤ 40 ∧ 63 < 64) := by decide +kernel

/-- DroopsAndThermalMarks: an alarm in its last cycle; the last stretched and the last capped cycle; each mark set and not set. -/
def pulsing (st : Nat) (al : List Nat) : State := { State.reset with islands := [(23, { capState := st, capLeft := 1, alarms := al })] }

/-- Every sensor shows a value. -/
def heated (s : State) (t : W16) : State := s.sense (List.replicate 25 t)

theorem test_witness_droops_and_thermal_marks :
    1 ∈ ((pulsing 0 [1]).island 23).alarms ∧ ((pulsing 0 [1]).island 23).settling = 0 ∧
    (∀ st ∈ [1, 2], ((pulsing st [2]).island 23).capState = st ∧ ((pulsing st [2]).island 23).capLeft = 1 ∧
      ∀ a ∈ ((pulsing st [2]).island 23).alarms, 1 < a) ∧
    (∀ c ∈ [(760, 760), (840, 840), (920, 920)], let s := heated (ready) c.1
     s.warn = false ∧ 3 < 4 ∧ 3 ∉ s.hot ∧ s.critical = false ∧ s.ctrl.preState ≠ 2 ∧ s.seizeOrder = [0] ∧ s.hasTeams 0 = true ∧
       s.deviceTemp.toInt = c.2 ∧ (s.dieTemp 3).toInt = c.2) ∧
    (∀ c ∈ [(720, 720), (800, 800), (880, 880), (0xFF00, -256)],
     let s := heated { State.reset with warn := true, hot := [3], critical := true, mgmt := { State.reset.mgmt with collector := [4] } } c.1
     s.warn = true ∧ 3 ∈ s.hot ∧ s.critical = true ∧ s.mgmt.collector ≠ [] ∧ s.deviceTemp.toInt = c.2 ∧ (s.dieTemp 3).toInt = c.2) := by decide +kernel

/-- PowerAndReliability: functions that can rise; a fault of the last link; a restart; the last lane; a word of HBM. -/
theorem test_witness_power_and_reliability :
    (State.reset.canRise .keystone = true ∧ (let s : State := { State.reset with osFound := true, ctrl := { State.reset.ctrl with ready := 5, featacc := 0x10 } }
      s.canRise (.die 3) = true ∧ s.canRise (.hbm 7) = true ∧ s.canRise .mgmt = true ∧ s.canRise (.link 17) = true ∧ s.canRise .os = true)) ∧
    (functionExists (.link 17) = true ∧ functionExists .os = true) ∧
    (({ State.reset with ctrl := { State.reset.ctrl with ready := 4 } } : State).ctrl.ready.getLsbD 2 = true) ∧
    (State.reset.confined = false ∧ ({ State.reset with confined := true } : State).confined = true) ∧
    (3 < 4 ∧ 71 < 72 ∧ 63 < 64 ∧ (State.reset.mgmt.retiredLanes.get (3 * 72 + 71)).getLsbD 63 = false) ∧
    ∀ w ∈ [ProtWord.hbm 0, .l2 16, .l1 0 (.hbm 496)], let s := { holding (ready) with l2 := [{ line := 1, dirty := false }] }
      w ∉ s.poison ∧ s.holdsCopy w = true := by
  decide +kernel

/-! ### Management operations -/

/-- A request of an operation, signed by the holder of the key with identifier 7. -/
def requestKey : List Byte := List.replicate 64 9

def unsigned (op : Byte) (body : List Byte) : MgmtMsg := {
  src := ⟨[10, 0, 0, 9], 9⟩, dst := ⟨[10, 0, 0, 1], 4160⟩, magic := 0x4D47, version := 1, op, flags := 0, len := BitVec.ofNat 16 body.length, seq := 5, keyId := 7, stamp := 3, zero := 0, body, sig := [] }

def request (op : Byte) (body : List Byte) : MgmtMsg :=
  { unsigned op body with sig := Config.sm2Signature requestKey (Config.sm3 (signedBytes (unsigned op body))) }

/-- A device whose management list holds that key, with its controller's state changed. -/
def managed (f : Mgmt → Mgmt := id) : State := { State.reset with
  ctrl := { State.reset.ctrl with ready := 1 <<< 38 }
  mgmt := let m := f { State.reset.mgmt with trust := [[], [bytesOf 7 4 ++ requestKey]], stamps := [(7, 2)] }
    { m with net := { taken := [[10, 0, 0, 1]] } } }

theorem request_signed (op : Byte) (body : List Byte) (s : State) (h : trustedKey (s.mgmt.trust.getD 1 []) 7 = some requestKey) :
    s.signedOk (request op body) = true := by
  unfold State.signedOk
  rw [show (request op body).keyId.toNat = 7 from rfl, h]
  show Config.sm2Verify requestKey (Config.sm3 (signedBytes (unsigned op body))) _ = true
  simp [Config.sm2Verify, request]

theorem managed_takes_up (op : Byte) (body : List Byte) (f : Mgmt → Mgmt) (h : body.length ≤ 1152)
    (hf : (f { State.reset.mgmt with trust := [[], [bytesOf 7 4 ++ requestKey]], stamps := [(7, 2)] }).trust = [[], [bytesOf 7 4 ++ requestKey]])
    (hr : (f { State.reset.mgmt with trust := [[], [bytesOf 7 4 ++ requestKey]], stamps := [(7, 2)] }).responses = [])
    (hs : (f { State.reset.mgmt with trust := [[], [bytesOf 7 4 ++ requestKey]], stamps := [(7, 2)] }).stamps = [(7, 2)]) :
    TakesUp (managed f) (request op body) where
  ready := by show (1#64 <<< 38).getLsbD 38 = true; decide
  datagram := ⟨.inl (List.mem_singleton.mpr rfl), rfl⟩
  header := ⟨rfl, rfl, rfl, rfl⟩
  length := ⟨by show (BitVec.ofNat 16 body.length).toNat = _; rw [BitVec.toNat_ofNat]; exact Nat.mod_eq_of_lt (by omega), h⟩
  signed := request_signed op body _ (by show trustedKey ((f _).trust.getD 1 []) 7 = _; rw [hf]; decide)
  fresh := by intro r hr'; rw [show (managed f).mgmt.responses = [] from hr] at hr'; cases hr'
  stamp := by
    intro l hl
    rw [State.lastStamp, show (managed f).mgmt.stamps = [(7, 2)] from hs] at hl
    cases hl
    show (2 : W64) < 3
    decide

/-- ManagementOperations: each operation taken up with the longest body, the last counter and the fullest slot that its clause
admits; a code that R281 does not list. -/
theorem test_witness_management_operations :
    (∀ op ∈ [0x01, 0x02, 0x04, 0x12, 0xFF], TakesUp (managed id) (request (BitVec.ofNat 8 op) [])) ∧
    (TakesUp (managed id) (request 0x03 (bytesOf 1009 4 ++ bytesOf 64 4)) ∧ 1009 < 2 ^ 32 ∧ 64 ≤ 64 ∧ 1009 + 64 ≤ 1073) ∧
    (∀ o ∈ [none, some (true, 0, [])], let f := fun x : Mgmt => { x with openImage := o }
      TakesUp (managed f) (request 0x10 (bytesOf 1 1 ++ bytesOf 4096 4)) ∧ (managed f).mgmt.openImage = o) ∧
    (let f := fun x : Mgmt => { x with openImage := some (true, 1025, []) }
     TakesUp (managed f) (request 0x11 (bytesOf 1 4 ++ List.replicate 1024 0)) ∧ 1 + (List.replicate 1024 (0 : Byte)).length ≤ 1025 ∧
     TakesUp (managed f) (request 0x12 []) ∧ (managed f).mgmt.openImage = some (true, 1025, [])) ∧
    (∀ v ∈ [true, false], let f := fun x : Mgmt => { x with slots := [(false, 0, []), (v, 0, [])] }
      TakesUp (managed f) (request 0x13 [1]) ∧ ((managed f).mgmt.slots.getD 1 (false, 0, [])).1 = v) ∧
    (TakesUp (managed id) (request 0x20 (4 :: List.replicate 18 0)) ∧ TakesUp (managed id) (request 0x20 (6 :: List.replicate 18 0))) ∧
    (let f := fun x : Mgmt => { x with unacked := [(0xFFFFFFFF, 1)] }
     TakesUp (managed f) (request 0x22 (bytesOf 0xFFFFFFFF 4)) ∧ (BitVec.ofNat 32 0xFFFFFFFF, 1) ∈ (managed f).mgmt.unacked) ∧
    (TakesUp (managed id) (request 0x30 (bytesOf 1 1 ++ List.replicate 1088 0)) ∧ (List.replicate 1088 (0 : Byte)).length % 68 = 0) ∧
    (let e : List Byte := [3, 1, 6, 0] ++ List.replicate 252 0
     TakesUp (managed id) (request 0x31 e) ∧ (∀ x ∈ chunks 256 4 e, storeEntryOk x = true) ∧ ((chunks 256 4 e).map fun x => (x.getD 0 0).toNat).Nodup) := by
  have h (op : Byte) (body : List Byte) (n : Nat) (k : body.length = n) (hn : n ≤ 1152) := fun f => managed_takes_up op body f (k ▸ hn)
  refine ⟨?_, ⟨h _ _ 8 (by decide) (by decide) _ rfl rfl rfl, by decide, by decide, by decide⟩, ?_, ?_, ?_, ?_, ?_, ?_, ?_⟩
  · intro op _; exact h _ _ 0 rfl (by decide) _ rfl rfl rfl
  · intro o _; exact ⟨h _ _ 5 (by decide) (by decide) _ rfl rfl rfl, rfl⟩
  · exact ⟨h _ _ 1028 (by decide +kernel) (by decide) _ rfl rfl rfl, by decide +kernel, h _ _ 0 rfl (by decide) _ rfl rfl rfl, rfl⟩
  · intro v _; exact ⟨h _ _ 1 rfl (by decide) _ rfl rfl rfl, rfl⟩
  · exact ⟨h _ _ 19 rfl (by decide) _ rfl rfl rfl, h _ _ 19 rfl (by decide) _ rfl rfl rfl⟩
  · exact ⟨h _ _ 4 (by decide) (by decide) _ rfl rfl rfl, by decide⟩
  · exact ⟨h _ _ 1089 (by decide +kernel) (by decide) _ rfl rfl rfl, by decide +kernel⟩
  · exact ⟨h _ _ 256 (by decide +kernel) (by decide) _ rfl rfl rfl, by decide +kernel, by decide +kernel⟩

/-- A message signed by no trusted key, a repeated one, and one whose STAMP is not new. -/
theorem test_witness_management_intake :
    (let m := request 0x01 []
     m.magic = 0x4D47 ∧ m.version = 1 ∧ m.flags.getLsbD 0 = false ∧ m.op = 0x01 ∧ State.reset.signedOk m = false) ∧
    (let s := managed fun x => { x with responses := [(7, 5, 1, false, [])] }
     s.ctrl.ready.getLsbD 38 = true ∧ s.delivered (request 0x01 []) = true ∧ s.signedOk (request 0x01 []) = true ∧
     s.mgmt.responses.find? (fun r => r.1 == (request 0x01 []).keyId && r.2.1 == (request 0x01 []).seq) = some (7, 5, 1, false, [])) ∧
    (let s := managed fun x => { x with stamps := [(7, 3)] }
     s.ctrl.ready.getLsbD 38 = true ∧ s.delivered (request 0x01 []) = true ∧ s.signedOk (request 0x01 []) = true ∧ s.lastStamp (request 0x01 []).keyId.toNat = some 3 ∧
     (request 0x01 []).stamp ≤ 3) :=
  ⟨⟨rfl, rfl, by decide, rfl, rfl⟩, ⟨by decide, rfl, request_signed _ _ _ (by decide), rfl⟩,
    ⟨by decide, rfl, request_signed _ _ _ (by decide), rfl, by decide⟩⟩

/-! ### System calls -/

/-- A room exists when the used ranges, each with a room and an alignment to spare, leave one below the limit. -/
theorem room_exists {align n limit : Nat} (ha : 0 < align) : ∀ (used : List (Nat × Nat)) (a : Nat),
    a + n + (used.map fun u => u.2 + n + align).sum ≤ limit →
    ∃ b, a ≤ b ∧ (b = a ∨ ∃ u ∈ used, b = (u.1 + u.2 + align - 1) / align * align) ∧ roomFree used limit b n = true := by
  intro used
  induction hk : used.length generalizing used with
  | zero =>
    intro a h
    obtain rfl := List.length_eq_zero_iff.mp hk
    exact ⟨a, Nat.le_refl _, .inl rfl, by simpa [roomFree] using h⟩
  | succ k ih =>
    intro a h
    by_cases hf : roomFree used limit a n = true
    · exact ⟨a, Nat.le_refl _, .inl rfl, hf⟩
    · have hle : a + n ≤ limit := by omega
      obtain ⟨u, hu, h1, h2⟩ : ∃ u ∈ used, a < u.1 + u.2 ∧ u.1 < a + n := by
        refine Classical.byContradiction fun hc => hf ?_
        simp only [roomFree, Bool.and_eq_true, decide_eq_true_eq, List.all_eq_true, Bool.or_eq_true]
        refine ⟨hle, fun u hu => ?_⟩
        rcases Nat.lt_or_ge a (u.1 + u.2) with h | h
        · exact .inr (Nat.le_of_not_lt fun h' => hc ⟨u, hu, h, h'⟩)
        · exact .inl h
      have hs := ((List.perm_cons_erase hu).map fun u => u.2 + n + align).sum_nat
      rw [List.map_cons, List.sum_cons] at hs
      have hb : u.1 + u.2 ≤ (u.1 + u.2 + align - 1) / align * align ∧ (u.1 + u.2 + align - 1) / align * align ≤ u.1 + u.2 + align - 1 := by
        refine ⟨?_, Nat.div_mul_le_self _ _⟩
        have := Nat.div_add_mod (u.1 + u.2 + align - 1) align
        have := Nat.mod_lt (u.1 + u.2 + align - 1) ha
        rw [Nat.mul_comm]
        omega
      obtain ⟨b, hb1, hb2, hb3⟩ := ih (used.erase u) (by rw [List.length_erase_of_mem hu]; omega)
        ((u.1 + u.2 + align - 1) / align * align) (by omega)
      refine ⟨b, by omega, .inr ?_, ?_⟩
      · rcases hb2 with rfl | ⟨w, hw, rfl⟩
        · exact ⟨u, hu, rfl⟩
        · exact ⟨w, List.mem_of_mem_erase hw, rfl⟩
      · simp only [roomFree, Bool.and_eq_true, decide_eq_true_eq, List.all_eq_true, Bool.or_eq_true] at hb3 ⊢
        refine ⟨hb3.1, fun w hw => ?_⟩
        by_cases hwu : w = u
        · subst hwu; exact .inl (by omega)
        · exact hb3.2 w ((List.mem_erase_of_ne hwu).mpr hw)

theorem chooseRoom_some {used : List (Nat × Nat)} {limit align n : Nat} (choice : Nat) (ha : 0 < align)
    (h : n + (used.map fun u => u.2 + n + align).sum ≤ limit) : ∃ a, chooseRoom used 0 limit align n choice = some a := by
  obtain ⟨b, -, hb, hf⟩ := room_exists (n := n) (limit := limit) ha used 0 (by omega)
  unfold chooseRoom
  simp only [Nat.zero_le, decide_true, Bool.true_and]
  split
  · exact ⟨_, rfl⟩
  · refine Option.isSome_iff_exists.mp (List.find?_isSome.mpr ⟨b, ?_, hf⟩)
    simp only [List.map_cons, List.map_map, List.mem_cons, List.mem_map, Function.comp_apply]
    rcases hb with rfl | ⟨u, hu, rfl⟩
    · exact .inl (by rw [Nat.div_eq_of_lt (by omega), Nat.zero_mul])
    · exact .inr ⟨u, hu, rfl⟩

/-- A room that is the only one is chosen. -/
theorem chooseRoom_only {used : List (Nat × Nat)} {lo limit align n : Nat} (choice x : Nat)
    (only : ∀ a, lo ≤ a → roomFree used limit a n = true → a = x)
    (free : lo ≤ x ∧ roomFree used limit x n = true) (mem : x ∈ (lo :: used.map fun u => u.1 + u.2).map fun a => (a + align - 1) / align * align) :
    chooseRoom used lo limit align n choice = some x := by
  unfold chooseRoom
  dsimp only
  split
  · next h =>
    rw [Bool.and_eq_true, decide_eq_true_eq] at h
    rw [only _ h.1 h.2]
  · obtain ⟨y, hy⟩ := Option.isSome_iff_exists.mp (List.find?_isSome (p := fun a => decide (lo ≤ a) && roomFree used limit a n) |>.mpr
      ⟨x, mem, by simp [free]⟩)
    have h := List.find?_some hy
    rw [Bool.and_eq_true, decide_eq_true_eq] at h
    rw [hy, only _ h.1 h.2]

/-- Vilaz finds HBM while what it has allocated leaves room. -/
theorem allocHbm_some {s : State} {align n : Nat} (ha : 0 < align) (hfb : s.ctrl.fbsize = 0)
    (h : 4 * n + 3 * align + 2 ^ 32 + 8192 + (s.reserved.map fun u => u.2 + n + align).sum ≤ controlBase) :
    ∃ a, s.allocHbm 4 align n = some (({ s with reserved := (a, n) :: s.reserved } : State).draw, a) := by
  obtain ⟨a, h⟩ := chooseRoom_some (used := s.hbmUsed) (limit := controlBase) (align := align) (n := n) (Config.freeWord s.freeCtr).toNat ha
    (by simp only [State.hbmUsed, List.map_cons, List.sum_cons, hfb, heapSize, show BitVec.toNat (0 : W64) = 0 from rfl]; omega)
  exact ⟨a, by simp [State.allocHbm, h]⟩

/-- A control program at a call, in context 63 on hart 0: a7 and the other registers; the state changed by `h`. -/
def atCall (num : Nat) (regs : List (Nat × W64)) (f : Ctx → Ctx := id) (h : State → State := id) : State := h { State.reset with
  ctrl := { State.reset.ctrl with ready := 8, ctxtbl := 0x1000, featacc := 0x10 }
  ctxs := [(63, f { live := true, running := true })]
  harts := [(0, { mode := .user, process := some 63
                  x := (regs.map fun r => (10 + r.1, r.2)) ++ if num = 0 then [] else [(17, BitVec.ofNat 64 num)] })]
  queues := [(15, { ctx := some 63, prio := 3 })] }

theorem at_call {num : Nat} {s : State} (h : (s.ctrl.ready.getLsbD 3 && (s.ctx 63).live && (s.ctx 63).running && (s.ctx 63).waiting.isNone &&
    s.hartOf 63 == some 0 && ((s.hart 0).x.get 17).toNat == num) = true) : AtCall s 63 0 num := by
  simp only [Bool.and_eq_true, beq_iff_eq, Option.isNone_iff_eq_none] at h
  exact ⟨h.1.1.1.1.1, ⟨h.1.1.1.1.2, h.1.1.1.2, h.1.1.2⟩, ⟨by decide, h.1.2⟩, h.2⟩

/-- Page tables of context 63, and one free virtual range, of 64 KiB at 2^32. -/
def onePage (s : State) : State := { s with
  hbm := [(0x2F80, 1), (0x2F89, 0x80), (0x8000, 1), (0x8002, 1), (0x10080, 1), (0x10081, 0x80), (0x10082, 1)] ++ s.hbm }

def held : Ctx → Ctx := fun c => { c with allocs := [{
  kind := 4, va := 2 ^ 32 + 65536, size := 2 ^ 52 - 2 ^ 32 - 65536, phys := 0, handle := 0, offset := 0, writable := false }] }

theorem one_page_va {s : State} (h : s.vaUsed 63 = [(0, 2 ^ 32), (2 ^ 32 + 65536, 2 ^ 52 - 2 ^ 32 - 65536)]) {n : Nat} (hn : pagesOf n = 1) :
    s.chooseVa 63 n = some (2 ^ 32) := by
  unfold State.chooseVa
  rw [h, hn]
  refine chooseRoom_only _ _ ?_ (by decide) (by decide)
  intro a h1 h2
  simp only [roomFree, List.all_cons, List.all_nil, Bool.and_true, Bool.and_eq_true, decide_eq_true_eq, Bool.or_eq_true] at h2
  omega

/-- A range of one page is mapped where its address and its page are found. -/
theorem map_one {s t : State} {va kind space peer phys n : Nat} {w : Bool} (hv : s.chooseVa 63 (phys + n - phys / 65536 * 65536) = some va)
    (hm : s.draw.mapPages 63 va (fun i => leafOf w false space peer (phys / 65536 * 65536 + 65536 * i))
      (pagesOf (phys + n - phys / 65536 * 65536)) = some t) :
    ∃ u va, s.mapNamed 63 kind space peer phys n w = some (u, va) := by
  generalize hf : @State.mapNamed = f
  delta State.mapNamed at hf
  subst hf
  generalize hf : @State.mapRange = f
  delta State.mapRange at hf
  subst hf
  revert hv hm
  generalize State.chooseVa = chooseVa
  generalize State.mapPages = mapPages
  as_aux_lemma =>
    intro hv hm
    simp only [hv, hm, Option.map_some]
    exact ⟨_, _, rfl⟩

/-- A native object of no code and one kernel. -/
def emptyObject : List Byte :=
  [0x53, 0x4A, 0x42, 0x4F, 1, 0, 2, 0] ++ (List.replicate 28 0 ++ ([128, 0, 0, 0, 1, 0] ++ List.replicate 118 0))

theorem empty_object_facts : objectForm emptyObject = true ∧ objKIND emptyObject = 2 ∧ objREQUIRES emptyObject = 0 ∧ objSize emptyObject = 0 ∧
    relocEntries emptyObject = [] ∧ importEntries emptyObject = [] ∧ courseStarts emptyObject = [] ∧ emptyObject.length = 160 := by decide +kernel

theorem empty_object_loads (s : State) (ctx : Nat) (hs : s.objects = []) : ∃ u id, s.loadObject ctx none emptyObject = .ok (u, id) := by
  obtain ⟨a, ha⟩ := chooseRoom_some (used := s.heapUsed) (limit := heapSize) (align := 65536) (n := 65536 * pagesOf 0) (Config.freeWord s.freeCtr).toNat
    (by decide) (by simp [State.heapUsed, hs, show pagesOf 0 = 0 from rfl])
  obtain ⟨h1, h2, h3, h4, h5, h6, h7, -⟩ := empty_object_facts
  have h8 : missingFeature emptyObject s.ctrl.featacc = false := by simp [missingFeature, h2, h3]
  have h9 : s.nativeOf emptyObject = .ok emptyObject := by simp [State.nativeOf, h2]
  have h10 (t : State) (c v : Nat) (l : Nat → Nat) : t.mapPages c v l (pagesOf 0) = some t := rfl
  have h11 (h : Nat) (p : Patched) : relocate emptyObject h [] p = .ok p := rfl
  have h12 (h : Nat) (p : Patched) : s.importAll ctx emptyObject h [] p = .ok p := rfl
  have h13 (h : Nat) (m : Memory) : s.targetsOk ctx h [] m = true := rfl
  have h14 : ¬ 16383 ≤ (s.objects.filter fun o => !o.freed).length := by rw [hs]; decide
  generalize hf : @State.loadObject = f
  delta State.loadObject at hf
  subst hf
  revert ha h1 h4 h5 h6 h7 h8 h9 h10 h11 h12 h13 h14
  clear h2 h3 hs
  generalize chooseRoom = chooseRoom, State.mapPages = mapPages, emptyObject = b, @State.nativeOf = nativeOf, pagesOf = pagesOf
  as_aux_lemma =>
    intro ha h1 h4 h5 h6 h7 h8 h9 h10 h11 h12 h13 h14
    simp only [h1, h4, h5, h6, h7, h8, h9, h10, h11, h12, h13, h14, ha, Bool.not_true, Bool.false_eq_true, if_false]
    exact ⟨_, _, rfl⟩

/-- The page at 2^32 of context 63 is mapped where its tables stand. -/
theorem page_mapped {s : State} (leaf : Nat) (h : s.root 63 = 0x8000) (h1 : s.hbm.readNat 0x8000 8 = 0x10001)
    (h2 : s.hbm.readNat 0x10080 8 = 0x18001) : ∃ u, s.mapPage 63 (2 ^ 32) leaf = some u := by
  have step {table index v : Nat} (h : s.hbm.readNat (table + 8 * index) 8 = v) (h0 : (BitVec.ofNat 64 v).getLsbD 0 = true)
      (h1 : (BitVec.ofNat 64 v).getLsbD 1 = false) :
      s.stepTable table index = some (s, ((BitVec.ofNat 64 v).extractLsb' 15 33).toNat * 2 ^ 15) := by
    simp only [State.stepTable, h, h0, h1, Bool.and_false, Bool.false_eq_true, if_false, if_true]
  have s1 := step (table := 0x8000) (index := 2 ^ 32 / 2 ^ 40 % 4096) (v := 0x10001)
    (by rw [show 0x8000 + 8 * (2 ^ 32 / 2 ^ 40 % 4096) = 0x8000 from by decide]; exact h1) (by decide) (by decide)
  have s2 := step (table := ((BitVec.ofNat 64 0x10001).extractLsb' 15 33).toNat * 2 ^ 15) (index := 2 ^ 32 / 2 ^ 28 % 4096) (v := 0x18001)
    (by rw [show ((BitVec.ofNat 64 0x10001).extractLsb' 15 33).toNat * 2 ^ 15 + 8 * (2 ^ 32 / 2 ^ 28 % 4096) = 0x10080 from by decide]; exact h2) (by decide) (by decide)
  generalize hf : @State.mapPage = f
  delta State.mapPage at hf
  subst hf
  rw [← h] at s1
  revert s1 s2
  generalize State.stepTable = stepTable
  as_aux_lemma =>
    intro s1 s2
    simp only [s1, s2]
    exact ⟨_, rfl⟩

theorem fresh_mapped {s : State} (h : s.root 63 = 0x8000) (h1 : s.hbm.readNat 0x8000 8 = 0x10001) (h2 : s.hbm.readNat 0x10080 8 = 0x18001)
    (hf : s.ctrl.fbsize = 0) (hr : s.reserved = []) : ∃ u, s.mapFresh 63 (2 ^ 32) 4 1 = some u := by
  obtain ⟨a, ha⟩ := allocHbm_some (s := s) (align := 65536) (n := 65536) (by decide) hf (by rw [hr]; decide +kernel)
  obtain ⟨u, hu⟩ := page_mapped (s := ({ s with reserved := (a, 65536) :: s.reserved } : State).draw) (leafOf true false 0 0 a)
    (by rw [← h]; simp only [State.root, State.desc, State.draw]) h1 h2
  have h0 : s.mapFresh 63 (2 ^ 32) 4 0 = some s := State.mapFresh.eq_1 ..
  rw [show (1 : Nat) = 0 + 1 from rfl, State.mapFresh.eq_2]
  revert ha hu h0
  generalize State.mapPage = mapPage, State.allocHbm = allocHbm, State.mapFresh = mapFresh
  as_aux_lemma =>
    intro ha hu h0
    simp only [h0, ha, Nat.mul_zero, Nat.add_zero]
    exact ⟨_, hu⟩

theorem pages_mapped {s : State} (f : Nat → Nat) (h : s.root 63 = 0x8000) (h1 : s.hbm.readNat 0x8000 8 = 0x10001)
    (h2 : s.hbm.readNat 0x10080 8 = 0x18001) : ∃ u, s.mapPages 63 (2 ^ 32) f 1 = some u := by
  obtain ⟨u, hu⟩ := page_mapped (f 0) h h1 h2
  have h0 : s.mapPages 63 (2 ^ 32) f 0 = some s := State.mapPages.eq_1 ..
  rw [show (1 : Nat) = 0 + 1 from rfl, State.mapPages.eq_2]
  revert hu h0
  generalize State.mapPage = mapPage, State.mapPages = mapPages
  as_aux_lemma =>
    intro hu h0
    simp only [h0, Nat.mul_zero, Nat.add_zero]
    exact ⟨_, hu⟩

theorem allocClear_some {s : State} {align n : Nat} (ha : 0 < align) (hfb : s.ctrl.fbsize = 0)
    (h : 4 * n + 3 * align + 2 ^ 32 + 8192 + (s.reserved.map fun u => u.2 + n + align).sum ≤ controlBase) :
    ∃ t a, s.allocClear align n = some (t, a) ∧ t.reserved = (a, n) :: s.reserved ∧ t.ctrl = s.ctrl := by
  obtain ⟨a, h⟩ := allocHbm_some ha hfb h
  refine ⟨_, a, by rw [State.allocClear, h, Option.map_some], ?_, ?_⟩ <;> rfl

/-- A context can be created while Vilaz has allocated nothing. -/
theorem context_created (s : State) (ctx : Nat) (image : List Byte) (hf : s.ctrl.fbsize = 0) (hr : s.reserved = []) :
    (s.createCtx ctx image).isSome = true := by
  obtain ⟨a1, h1⟩ := allocHbm_some (s := s) (align := 32768) (n := 32768) (by decide) hf (by rw [hr]; decide +kernel)
  have h1 : ∃ s1 r, s.newTable = some (s1, r) ∧ s1.reserved = [(r, 32768)] ∧ s1.ctrl = s.ctrl := by
    refine ⟨_, a1, by rw [State.newTable, h1, Option.map_some], ?_, ?_⟩
    · rw [← hr]; rfl
    · rfl
  obtain ⟨s1, r1, h1, e1, c1⟩ := h1
  obtain ⟨s2, r2, h2, e2, c2⟩ := allocClear_some (s := s1) (align := 256) (n := 256) (by decide) (c1 ▸ hf) (by rw [e1]; simp only [List.map_cons, List.map_nil, List.sum_cons, List.sum_nil, controlBase]; omega)
  rw [e1] at e2
  obtain ⟨s3, r3, h3, e3, c3⟩ := allocClear_some (s := s2) (align := 4096) (n := 4096) (by decide) (c2 ▸ c1 ▸ hf) (by rw [e2]; simp only [List.map_cons, List.map_nil, List.sum_cons, List.sum_nil, controlBase]; omega)
  rw [e2] at e3
  obtain ⟨n4, hn4, b4⟩ : ∃ n, 256 * (1 + (Config.freeWord s3.freeCtr).toNat % 4096) = n ∧ n ≤ 2 ^ 20 := ⟨_, rfl, by omega⟩
  obtain ⟨s4, r4, h4, e4, c4⟩ := allocClear_some (s := s3.draw) (align := 256) (n := n4) (by decide) (c3 ▸ c2 ▸ c1 ▸ hf)
    (by show 4 * n4 + 3 * 256 + 2 ^ 32 + 8192 + (s3.reserved.map _).sum ≤ _
        rw [e3]; simp only [List.map_cons, List.map_nil, List.sum_cons, List.sum_nil, controlBase]; omega)
  obtain ⟨n5, hn5, b5⟩ : ∃ n, 4096 * (1 + (Config.freeWord s4.freeCtr).toNat % 4096) = n ∧ n ≤ 2 ^ 24 := ⟨_, rfl, by omega⟩
  obtain ⟨s5, r5, h5, e5, c5⟩ := allocClear_some (s := s4.draw) (align := 4096) (n := n5) (by decide) (c4 ▸ c3 ▸ c2 ▸ c1 ▸ hf)
    (by show 4 * n5 + 3 * 4096 + 2 ^ 32 + 8192 + (s4.reserved.map _).sum ≤ _
        rw [e4, show s3.draw.reserved = s3.reserved from rfl, e3]
        simp only [List.map_cons, List.map_nil, List.sum_cons, List.sum_nil, controlBase]; omega)
  generalize hf : @State.createCtx = f
  delta State.createCtx at hf
  subst hf
  revert h1 h2 h3 h4 h5 hn4 hn5
  clear e1 e2 e3 e4 e5
  generalize State.newTable = newTable, State.allocClear = allocClear
  as_aux_lemma =>
    intro h1 h2 h3 h4 h5 hn4 hn5
    simp only [h1, h2, h3, hn4, h4, hn5, h5, Option.bind_eq_bind, Option.bind_some]
    rfl

/-- SystemCalls: the control program of context 63 at each call, its arguments at the ends of their ranges. -/
theorem test_witness_system_calls : ∀ n < 256, AtCall (atCall n []) 63 0 n := fun n h => at_call (by
  revert n; decide +kernel)

/-- A launch of context 63 that is placing, or none. -/
def inFlightIf (b : Bool) (s : State) : State := { s with launches := if b then [(0, { ctx := 63 })] else [] }

/-- The calls of memory: the last stream; one page to be had; a launch in flight and none. -/
theorem test_witness_calls_of_memory :
    (∀ r ∈ [0#64, 1, 2], AtCall (atCall 1 [(0, r), (2, 2)]) 63 0 1) ∧
    (let s := onePage (atCall 2 [(0, 1)] held)
     AtCall s 63 0 2 ∧ ((s.hart 0).x.get 10).toNat = 1 ∧ ((s.hart 0).x.get 11).toNat = 0 ∧ ∃ u, s.chooseVa 63 1 = some (2 ^ 32) ∧
       s.draw.mapFresh 63 (2 ^ 32) 4 (pagesOf 1) = some u) ∧
    (∀ b ∈ [true, false], let s := atCall 3 [(0, 0x10000)] (fun c => { c with allocs := [⟨1, 0x10000, 1, 0, 0, 0, true⟩] }) (inFlightIf b)
      AtCall s 63 0 3 ∧ s.inFlight 63 = b ∧ ((s.ctx 63).allocAt 0x10000).isSome = true) ∧
    (let s := onePage (atCall 4 [(1, 65536), (2, 1)] held)
     AtCall s 63 0 4 ∧ 65536 ≤ 2 ^ 48 ∧ 1 < 2 ∧ ∃ u va, s.mapNamed 63 3 1 0 0 65536 true = some (u, va)) ∧
    (let s := onePage (atCall 16 [(0, 1), (2, 65536), (3, 2)] fun c => { held c with handles := [.storage [], .peer 255] })
     AtCall s 63 0 16 ∧ (s.ctx 63).handles[1]? = some (.peer 255) ∧ ∃ u va, s.mapNamed 63 4 2 255 0 65536 true = some (u, va)) := by
  refine ⟨?_, ?_, ?_, ?_, ?_⟩
  · intro r hr
    simp only [List.mem_cons, List.not_mem_nil, or_false] at hr
    rcases hr with rfl | rfl | rfl <;> exact at_call (by decide +kernel)
  · obtain ⟨u, hu⟩ := fresh_mapped (s := (onePage (atCall 2 [(0, 1)] held)).draw) (by decide +kernel) (by decide +kernel) (by decide +kernel) rfl rfl
    exact ⟨at_call (by decide +kernel), by decide +kernel, by decide +kernel, u, one_page_va (by decide +kernel) rfl, hu⟩
  · intro b _
    cases b <;> exact ⟨at_call (by decide +kernel), by decide +kernel, by decide +kernel⟩
  · obtain ⟨u, hu⟩ := pages_mapped (s := (onePage (atCall 4 [(1, 65536), (2, 1)] held)).draw) (fun i => leafOf true false 1 0 (0 / 65536 * 65536 + 65536 * i))
      (by decide +kernel) (by decide +kernel) (by decide +kernel)
    exact ⟨at_call (by decide +kernel), by decide, by decide, map_one (one_page_va (by decide +kernel) rfl) hu⟩
  · obtain ⟨u, hu⟩ := pages_mapped (s := (onePage (atCall 16 [(0, 1), (2, 65536), (3, 2)] fun c => { held c with handles := [.storage [], .peer 255] })).draw)
      (fun i => leafOf true false 2 255 (0 / 65536 * 65536 + 65536 * i)) (by decide +kernel) (by decide +kernel) (by decide +kernel)
    exact ⟨at_call (by decide +kernel), rfl, map_one (one_page_va (by decide +kernel) rfl) hu⟩

/-- A translation of context 63. -/
def loaded : Translation := {
  id := 1, ctx := 63, heapoff := 0x10000, codeSize := 16, size := 16, starts := [0], kernels := [], rawEntries := [], symbols := [([65], 4)]
  name := [], deps := [], digest := 0, requires := 0, bound := 0, superseded := false, unloaded := false, freed := false }

/-- The calls of objects: memory that holds the image and that does not; an object that loads, where the section table that R258
leaves open names it; an object that is there and one that is not; a name. -/
theorem test_witness_calls_of_objects :
    (∀ same ∈ [true, false], let s := atCall 5 [] fun c => { c with image := [5], mem := if same then [(0, 5)] else [] }
      AtCall s 63 0 5 ∧ (Memory.readBytes (s.ctx 63).mem 0 1 = (s.ctx 63).image ↔ same = true)) ∧
    (let s := atCall 5 [] fun c => { c with image := emptyObject, mem := Memory.writeBytes [] 0 emptyObject }
     AtCall s 63 0 5 ∧ Memory.readBytes (s.ctx 63).mem 0 160 = (s.ctx 63).image ∧
     (Config.imageSections emptyObject = [(1, 0, 0), (2, 0, 160)] → (objectSections (s.ctx 63).image)[0]? = some (2, 0, 160) ∧
       ((s.ctx 63).image.drop 0).take 160 = emptyObject) ∧
     objectForm emptyObject = true ∧ objKIND emptyObject = 2 ∧ missingFeature emptyObject s.ctrl.featacc = false ∧
     ∃ u id, s.loadObject 63 none emptyObject = .ok (u, id)) ∧
    (∀ r ∈ [1, 2], let s := atCall 6 [(0, BitVec.ofNat 64 r)] id fun s => { s with objects := [loaded] }
      AtCall s 63 0 6 ∧ ((s.current 63 r).isSome = true ↔ r = 1)) ∧
    (let s := atCall 7 [(0, 1)] (fun c => { c with mem := [(0, 65)] }) fun s => { s with objects := [loaded] }
     AtCall s 63 0 7 ∧ s.current 63 1 = some loaded ∧
     loaded.symbols.find? (fun e => e.1 == nameAt (s.ctx 63).mem 0 (((loaded.symbols.map fun e => e.1.length).foldl max 0) + 1)) = some ([65], 4)) := by
  refine ⟨?_, ?_, ?_, ?_⟩
  · intro b _
    cases b <;> exact ⟨at_call (by decide +kernel), by decide +kernel⟩
  · obtain ⟨h1, h2, h3, -⟩ := empty_object_facts
    refine ⟨at_call (by decide +kernel), by decide +kernel, fun h => ⟨?_, by decide +kernel⟩, h1, h2, ?_, empty_object_loads _ _ rfl⟩
    · show ((Config.imageSections emptyObject).filter _)[0]? = _
      rw [h]; rfl
    · simp [missingFeature, h2, h3]
  · intro r hr
    simp only [List.mem_cons, List.not_mem_nil, or_false] at hr
    rcases hr with rfl | rfl <;> exact ⟨at_call (by decide +kernel), by decide +kernel⟩
  · exact ⟨at_call (by decide +kernel), by decide +kernel, by decide +kernel⟩

/-- The calls of queues and events, and those of peers and debuggers: the last queue, the last event, the highest priority. -/
theorem test_witness_calls_of_queues :
    (∀ n ∈ [8, 18], let s := atCall n [(0, 15)]
      AtCall s 63 0 n ∧ ((s.hart 0).x.get 10).toNat = 15 ∧ (s.queue 15).ctx = some 63 ∧ s.descDbg 63 = false) ∧
    (∀ es ∈ [[1023], []], let s := atCall 9 [(0, 1023)] fun c => { c with events := es }
      AtCall s 63 0 9 ∧ ((s.hart 0).x.get 10).toNat < 1024 ∧ (s.ctx 63).events = es) ∧
    (∀ es ∈ [[1023], []], let s := atCall 9 [] (fun c => { c with events := es, waiting := some (1023, some 7) }) fun s => { s with timeref := 7, harts := [] }
     s.hartOf 63 = none ∧ s.ctrl.ready.getLsbD 3 = true ∧ (s.ctx 63).waiting = some (1023, some 7) ∧ 7 ≤ s.timeref ∧ (s.ctx 63).events = es) ∧
    (let s := atCall 10 [(0, 1023), (1, 15)]
     AtCall s 63 0 10 ∧ ((s.hart 0).x.get 10).toNat < 1024 ∧ (s.queue ((s.hart 0).x.get 11).toNat).ctx = some 63) ∧
    (∀ k ∈ [0, 15, 16], let s := atCall 11 [(0, 3)] id fun s => { s with queues := (List.range k).map fun q => (q, { ctx := some 0 }) }
      AtCall s 63 0 11 ∧ ((s.hart 0).x.get 10).toNat ≤ 3 ∧ (∀ q < 16, (s.queue q).ctx = none ↔ k ≤ q)) ∧
    (∀ ps ∈ [[], [0]], let s := atCall 12 [(0, 15)] id fun s => { s with queues := [(15, { ctx := some 63, packets := ps })] }
      AtCall s 63 0 12 ∧ (s.queue ((s.hart 0).x.get 10).toNat).ctx = some 63 ∧ (s.queue 15).packets = ps) ∧
    (let s := atCall 15 [(0, 255)] id fun s => { s with ctrl := { s.ctrl with ready := 0x3FFFF00008 } }
     AtCall s 63 0 15 ∧ ((s.hart 0).x.get 10).toNat < 256 ∧ (List.range 18).all s.portUp = true) ∧
    (∀ l ∈ [[], [(3, [3, 1, 4, 0])]], let s := atCall 15 [(0, 0x10003)] id fun s => { s with mgmt := { s.mgmt with storage := l } }
      AtCall s 63 0 15 ∧ 0x10000 ≤ ((s.hart 0).x.get 10).toNat ∧ tfind s.mgmt.storage 3 = l.head?.map (·.2) ∧ (s.connect [3, 1, 4, 0]).isSome = true) ∧
    (let s := atCall 18 [(0, 15)] id fun s => { s with hbm := [(0x2F80, 3)] }
     AtCall s 63 0 18 ∧ (s.queue 15).ctx = some 63 ∧ s.descDbg 63 = true ∧ ((s.hart 0).x.get 11).toNat = 0) := by
  have all {P : Nat → Prop} (h : P 0 ∧ P 15 ∧ P 16) : ∀ k ∈ [0, 15, 16], P k := by
    intro k hk
    simp only [List.mem_cons, List.not_mem_nil, or_false] at hk
    rcases hk with rfl | rfl | rfl
    · exact h.1
    · exact h.2.1
    · exact h.2.2
  refine ⟨?_, ?_, by decide +kernel, ⟨at_call (by decide +kernel), by decide +kernel, by decide +kernel⟩, all ⟨?_, ?_, ?_⟩, ?_,
    ⟨at_call (by decide +kernel), by decide +kernel, by decide +kernel⟩, ?_,
    ⟨at_call (by decide +kernel), by decide +kernel, by decide +kernel, by decide +kernel⟩⟩
  · intro n hn
    simp only [List.mem_cons, List.not_mem_nil, or_false] at hn
    rcases hn with rfl | rfl <;> exact ⟨at_call (by decide +kernel), by decide +kernel⟩
  · intro n hn
    simp only [List.mem_cons, List.not_mem_nil, or_false] at hn
    rcases hn with rfl | rfl <;> exact ⟨at_call (by decide +kernel), by decide +kernel⟩
  all_goals first
    | exact ⟨at_call (by decide +kernel), by decide +kernel, by decide +kernel⟩
    | (intro n hn
       simp only [List.mem_cons, List.not_mem_nil, or_false] at hn
       rcases hn with rfl | rfl <;> exact ⟨at_call (by decide +kernel), by decide +kernel⟩)

/-- An image of one control program, signed by the holder of the key that the image list holds; it may start once the table of sections
that R258 leaves open is as its second hypothesis says. -/
def startImage : List Byte :=
  let body : List Byte := [0x42, 0x4C, 0x41, 0x47]
  body ++ Config.sm2Signature requestKey (Config.sm3 body) ++ bytesOf 7 4

def bootedState : State := { State.reset with
  ctrl := { State.reset.ctrl with ready := 8 }, mgmt := { State.reset.mgmt with trust := [[bytesOf 7 4 ++ requestKey], []] } }

theorem one_survivor {s : State} {c : Ctx} {image : List Byte} (h : s.ctxs = [(63, c)]) (hl : c.live = true) (hr : c.running = false)
    (hi : c.image = image) : s.survivor image = some 63 := by
  have e (x : Nat) : s.ctx x = if 63 = x then c else {} := by by_cases e : 63 = x <;> simp [State.ctx, h, tget, tfind, e]
  refine List.find?_range_eq_some.mpr ⟨by simp [e, hl, hr, hi], by simp, fun j hj => ?_⟩
  simp [e, show ¬63 = j by omega]

theorem test_witness_image_start (h : Config.imageSections startImage = [(1, 0, 4)]) :
    bootedState.imageOk startImage = true ∧ bootedState.ctrl.ready.getLsbD 3 = true ∧ bootedState.survivor startImage = none ∧
      bootedState.ctxUsed 63 = false ∧ (∀ x, x < 64 → ((bootedState.reclaim x).draw.createCtx x startImage).isSome = true) ∧
      State.survivor { bootedState with ctxs := [(63, { live := true, image := startImage })] } startImage = some 63 := by
  refine ⟨?_, by decide, by decide +kernel, by decide +kernel, fun x hx => ?_, ?_⟩
  rotate_left
  · have v : ∀ x < 64, (bootedState.descValid x || !(bootedState.ctx x).allocs.isEmpty ||
        bootedState.objects.any fun o => o.ctx == x && !o.freed) = false := by decide +kernel
    have r : bootedState.reclaim x = bootedState := by simp [State.reclaim, v x hx]
    rw [r]; exact context_created _ _ _ rfl rfl
  · exact one_survivor rfl rfl rfl rfl
  have l : startImage.length = 72 := by simp [startImage, Config.sm2Signature, bytesOf]
  have d : startImage.drop 68 = bytesOf 7 4 := by simp [startImage, Config.sm2Signature, bytesOf]
  have t : startImage.take 4 = [0x42, 0x4C, 0x41, 0x47] := by simp [startImage]
  have u : (startImage.drop 4).take 64 = Config.sm2Signature requestKey (Config.sm3 [0x42, 0x4C, 0x41, 0x47]) := by
    simp [startImage, Config.sm2Signature]
  have k : trustedKey (bootedState.mgmt.trust[0]?.getD []) 7 = some requestKey := by decide
  simp [State.imageOk, l, d, t, u, h, k, Config.sm2Verify, natOfBytes, bytesOf]

/-! ### Further clauses -/

/-- The watchpoint matches an access, as a Boolean. -/
def watched (e : Env) (store : Bool) (size a : Nat) : Bool :=
  e.g.watchm.getLsbD 31 && e.g.watchm.getLsbD (if store then 30 else 29) && e.g.shadow == none && e.g.suppress != some e.here &&
  (List.range size).any fun i => (List.range 20).all fun j => !e.g.watchm.getLsbD j || (a + i).testBit j == e.g.watcha.getLsbD j

theorem watchHit_iff {e : Env} {store : Bool} {size a : Nat} : WatchHit e store size a ↔ watched e store size a = true := by
  simp only [WatchHit, watched, Bool.and_eq_true, beq_iff_eq, bne_iff_ne, ne_eq, List.any_eq_true, List.all_eq_true, List.mem_range,
    Bool.or_eq_true, Bool.not_eq_true']
  constructor
  · rintro ⟨h1, h2, h3, h4, b, h5, h6, h7⟩
    refine ⟨⟨⟨⟨h1, h2⟩, h3⟩, h4⟩, b - a, by omega, fun j hj => ?_⟩
    rw [show a + (b - a) = b by omega]
    cases hm : e.g.watchm.getLsbD j
    · exact .inl rfl
    · exact .inr (h7 j hj hm)
  · rintro ⟨⟨⟨⟨h1, h2⟩, h3⟩, h4⟩, i, h5, h6⟩
    exact ⟨h1, h2, h3, h4, a + i, by omega, by omega, fun j hj hm => (h6 j hj).resolve_left (by simp [hm])⟩

/-- LoadsIssue and StoresIssue: a watchpoint on the word at 0xFFC, which only lane 31 reaches. -/
theorem test_witness_watchpoint : let s := mapped 0 fun g => { g with watchm := 0xE00FFFFF, watcha := 0xFFC }
    s.poison = [] ∧ lowest 0x80000000#32 = some 31 ∧
    ∀ c ∈ ([(.lds (at4 (mem h12 .n32 511 5 2)), at4 (mem h12 .n32 511 5 2), false), (.sts (at4 (mem h12 .n32 511 5 2)), at4 (mem h12 .n32 511 5 2), true)] :
      List (Instr × MemOp × Bool)), ∃ e p, Issues c.1 s e p ∧
      (∀ t ∈ e.lanes, (landed s e).locate e .scratch 4 (MemOp.addr c.2.1 e.g t) = .ok (.scratch 0) (0xF80 + 4 * t)) ∧
      ∀ t, t < 32 → ((0x80000000#32).getLsbD t = true ↔ t ∈ e.lanes ∧ WatchHit e c.2.2 4 (0xF80 + 4 * t)) := by
  intro s
  refine ⟨rfl, by decide, fun c hc => ?_⟩
  let q (c : Instr × MemOp × Bool) (e : Env) : Bool :=
    (e.lanes.all fun t => (landed s e).locate e .scratch 4 (MemOp.addr c.2.1 e.g t) == .ok (.scratch 0) (0xF80 + 4 * t)) &&
    exactly 0x80000000 fun t => decide (t ∈ e.lanes) && watched e c.2.2 4 (0xF80 + 4 * t)
  have key : ((issuing c.1 s).any fun x => q c x.1) = true := by revert c; decide +kernel
  obtain ⟨e, p, h, k⟩ := issues_at (q c) key
  rw [Bool.and_eq_true] at k
  exact ⟨e, p, h, fun t ht => beq_iff_eq.mp (List.all_eq_true.mp k.1 t ht), fun t ht => by
    simpa [watchHit_iff] using exactly_iff k.2 t ht⟩

/-- AddressesAndViolations: an address beyond the canonical ones; a leaf at the first level and one at the third, below two tables, with no
cached leaf and with one that covers the page; the window of a team's only mate, and of none; an address inside an object. -/
theorem test_witness_addresses :
    let leaf : W64 := 7
    let o : Translation := { loaded with ctx := 0 }
    (∃ va : W64, va.extractLsb' 52 12 ≠ 0) ∧ (mapped).tlb = [] ∧
    (let e1 := BitVec.ofNat 64 ((mapped).hbm.readNat ((mapped).root 0 + 8 * 0) 8)
     e1.getLsbD 0 = true ∧ e1.getLsbD 1 = true ∧ e1.getLsbD 4 = false ∧ e1.extractLsb' 48 16 = 0) ∧
    (let s := onePage (atCall 2 [])
     let e1 := BitVec.ofNat 64 (s.hbm.readNat (s.root 63) 8)
     let e2 := BitVec.ofNat 64 (s.hbm.readNat ((e1.extractLsb' 15 33).toNat * 2 ^ 15 + 8 * 16) 8)
     s.tlb = [] ∧ (2 ^ 32 / 2 ^ 40 % 4096 = 0 ∧ 2 ^ 32 / 2 ^ 28 % 4096 = 16) ∧ (e1.getLsbD 0 = true ∧ e1.getLsbD 1 = false) ∧
       e2.getLsbD 0 = true ∧ e2.getLsbD 1 = false) ∧
    (let t : TlbEntry := { place := .die 0, ctx := 0, vpn := 1, pages := 1, leaf }
     t ∈ [t] ∧ t.place = .die (0 / 64) ∧ t.vpn ≤ 65536 / 65536 ∧ 65536 / 65536 < t.vpn + t.pages) ∧
    (∃ t : Team, (ready).teams = [(0, t)] ∧ t.launch = 0 ∧ t.teamincl = 0 / 2 ^ 20 ∧ t.teamincl ≠ 2 ^ 20 / 2 ^ 20) ∧
    o ∈ [o] ∧ o.ctx = 0 ∧ o.freed = false ∧ o.heapoff ≤ 0x1000F ∧ 0x1000F < o.heapoff + o.size ∧ ¬ 0x10010 < o.heapoff + o.size := by
  refine ⟨⟨2 ^ 52, by decide⟩, rfl, by decide +kernel, by decide +kernel, by decide, ⟨_, rfl, by decide +kernel, by decide +kernel, by decide +kernel⟩,
    by decide, by decide, by decide, by decide, by decide, by decide⟩

/-- MatrixStateAndTiles: the first operation of tile 7 a step, or an access behind those of other tiles; canonical tiles; a read's value
awaited. -/
theorem test_witness_tile_accesses :
    let s (ops : List EngineOp) := (ready fun g => { g with await := [{ seq := 5, iaddr := 0, names := [], req := .engine, val := none, lf := 0 }] }).modTeam 0
      fun t => { t with engine := ops, tiles := [(7 * 4096, 1#32)] }
    let step : EngineOp := .steps 0 0 0 7 0 (0, 0, 0) (0, 0, 0) 0 1 true [] [] [] [] 0
    (∀ ops ∈ [[], [.zero 6], [step, .zero 7]], ∃ t, tfind (s ops).teams 0 = some t ∧
      ((t.engine.find? fun x => x.tile == 7).all fun o => o.isStep) = true) ∧
    (∀ o ∈ [EngineOp.zero 7, .write 7 15 (List.replicate 256 1), .read 0 5 7 15 true 0], ∃ t, tfind (s [.zero 6, o, .zero 7]).teams 0 = some t ∧
      t.engine = [.zero 6] ++ o :: [.zero 7] ∧ (EngineOp.zero 6).tile ≠ 7 ∧ o.tile = 7 ∧ o.isStep = false ∧ Sparse.wf t.tiles = true) ∧
    (s []).poison = [] ∧ (List.replicate 256 (1#32)).length = 256 ∧
    groupIs (s []) (fun g => g.await.length == 1 && g.await.all fun a => a.seq == 5) = true := by
  refine ⟨?_, ?_, rfl, by decide +kernel, by decide +kernel⟩
  · intro ops h
    simp only [List.mem_cons, List.not_mem_nil, or_false] at h
    rcases h with rfl | rfl | rfl <;> exact ⟨_, rfl, by decide +kernel⟩
  · intro o h
    simp only [List.mem_cons, List.not_mem_nil, or_false] at h
    rcases h with rfl | rfl | rfl <;> exact ⟨_, rfl, rfl, by decide +kernel, rfl, rfl, by decide +kernel⟩

/-- MatrixSteps: scales of A and of B beyond a scratch of 4,096 bytes, of an `mma` and of an `mloop`; an `mloop` whose rows of B leave it. -/
theorem test_witness_matrix_violations :
    let fmt (a b : W64) : W64 := (1#64 <<< 6) ||| (a <<< 8) ||| (b <<< 28)
    let fits (e : Env) : Bool := all e && decide (7 < e.team.heavy) && !fmtFaults e.g.mfmt && !overlapping e.g 0 1 && decide (fmtBLK e.g.mfmt ≠ 0) &&
      layFails (e.g.mlay.getD 0 (0, 0, 0)) 1 e.team.scratchSize == none && layFails (e.g.mlay.getD 1 (0, 0, 0)) 1 e.team.scratchSize == none
    (∀ w, (looped w).poison = []) ∧
    (∀ i ∈ [Instr.mma (pop h6 7 496 480), .mloop (pop h8 7 0 1 12)], ∃ e p, Issues i (looped (fmt 0xF82 0)) e p ∧
      (fits e && decide (e.team.scratchSize < fmtASB e.g.mfmt + 128)) = true) ∧
    (∀ i ∈ [Instr.mma (pop h6 7 496 480), .mloop (pop h8 7 0 1 12)], ∃ e p, Issues i (looped (fmt 0xF80 0xF82)) e p ∧
      (fits e && decide (fmtASB e.g.mfmt + 128 ≤ e.team.scratchSize) && decide (e.team.scratchSize < fmtBSB e.g.mfmt + 128)) = true) ∧
    ∃ e p, Issues (.mloop (pop h8 7 1 2 12)) (looped) e p ∧ (all e && decide (7 < e.team.heavy) && !fmtFaults e.g.mfmt && !overlapping e.g 1 2 &&
      layFails (e.g.mlay.getD 1 (0, 0, 0)) 1 e.team.scratchSize == none && (layFails (e.g.mlay.getD 2 (0, 0, 0)) 1 e.team.scratchSize).isSome) = true := by
  refine ⟨fun _ => rfl, ?_, ?_, issues_at _ (by decide +kernel)⟩ <;>
  · intro i h
    simp only [List.mem_cons, List.not_mem_nil, or_false] at h
    rcases h with rfl | rfl <;> exact issues_at _ (by decide +kernel)

/-- SpecialRegisters: outside a handler and inside one; no `kick` of the group; its first `kick` faulted, held by a paused link, and neither. -/
def ownKick (faulted : Bool) : Kick := { gid := 0, seq := 1, iaddr := 0, promise := 64, reqs := [
  { record := 0x100000#256 ||| 4#256 <<< 64, rows := [0], fault := if faulted then some 2 else none, dests := [] }] }

def otherKick : Kick := { ownKick true with gid := 1 }

def kicked (faulted paused : Bool) : State := { (mapped 2).modTeam 0 (fun t => { t with hod := [otherKick, ownKick faulted] }) with
  links := (List.range 18).map fun q => (q, { (default : Link) with paused }) }

theorem paused_waits (f : Bool) : (kicked f true).readRow 0 0 (0x100000#256 ||| 4#256 <<< 64) 0 = .wait := by
  have row : (kicked f true).readGlobalRow 0 0 0x100000 1 = .bytes (((kicked f true).readBytesAt (.peer 0) 0x100000 4).map fun b => (b, false)) := by
    cases f <;> rfl
  have places : byDevice ((kicked f true).rowPlaces 0 0 0x100000 1) = [(0, 4)] := by cases f <;> decide +kernel
  have ports : ∀ q < 18, (kicked f true).portTakes q 1 = false := by cases f <;> decide +kernel
  have closed : (kicked f true).bytesOpen ((kicked f true).rowPlaces 0 0 0x100000 1) = false := by
    unfold State.bytesOpen
    rw [places]
    simp only [State.sends, List.map_cons, List.map_nil, List.all_cons, List.all_nil, Bool.and_true]
    simpa [sumList, flitsOf] using ports (portTo 0) (Nat.mod_lt _ (by decide))
  unfold State.readRow
  simp only [show recSKIND (0x100000#256 ||| 4#256 <<< 64) = 0 from by decide, if_true,
    show (recSource (0x100000#256 ||| 4#256 <<< 64) 0).toNat = 0x100000 from by decide, show recROWLEN (0x100000#256 ||| 4#256 <<< 64) / 4 = 1 from by decide, row, closed,
    Bool.false_eq_true, if_false]

theorem test_witness_special_registers :
    groupIs (ready) (fun g => g.shadow == none) = true ∧ groupIs (handling default) (fun g => g.shadow == some default) = true ∧
    ((ready).team 0).hod = [] ∧
    ∀ f ∈ [true, false], ((kicked f true).team 0).hod = [otherKick] ++ ownKick f :: [] ∧ otherKick.gid ≠ 0 ∧
      ((ownKick f).reqs.any fun r => r.fault.isSome) = f ∧
      (∀ r ∈ (ownKick f).reqs, ∀ row ∈ r.rows, (kicked f true).readRow 0 0 r.record row = .wait) := by
  refine ⟨by decide +kernel, by decide +kernel, by decide +kernel, fun f _ => ?_⟩
  refine ⟨by cases f <;> rfl, by decide, by cases f <;> rfl, fun r hr row hw => ?_⟩
  rw [List.mem_singleton.mp hr] at hw ⊢
  rw [List.mem_singleton.mp hw]
  exact paused_waits f

/-- ResultsLand: several results under way, before, in and after the slot asked for; one with no `csrw` in it. -/
theorem test_witness_results_under_way :
    let q (land : Nat) (csr : Bool) (w : RegWrite) : Pend := { land, csr, writer := 0, writes := [w], ff := 1, lf := 0 }
    let g := { startGroup {} 0 0 0 0 with pend := [q 1 false (.lane true 3 31 9), q 2 false (.uni 4 7), q 2 false (.upred 7 true), q 3 false (.uni 4 8)] }
    ((g.pend.filter fun x => decide (x.land ≤ 2)).flatMap (·.writes)).length = 3 ∧
      (((g.pend.filter fun x => decide (x.land ≤ 2)).flatMap (·.writes)).all fun w => match w with
        | .csr _ _ => false
        | _ => true) = true ∧ (q 2 true (.csr 0x10 1)).key = 4 ∧ (q 2 false (.uni 4 7)).key = 5 := by decide +kernel

/-- CourseTurns: a census of a group: lanes released by each condition and by a complete rejoin; the lowest label at or above the cursor, and
a wrap; every lane ended, without and with a trap kept; every lane in an incomplete rejoin; every lane asleep. -/
def counting (f : Group → Group) : State := { ready (fun g => f { g with status := .running }) with timeref := 5 }

def heldNow (s : State) (x : Group) (l : Nat) : Bool := x.waits.any fun e => e.1 == l && match e.2 with
  | .time d => decide (d ≤ s.timeref)
  | .bar off => !x.objectQueued off && s.objectCount x.team off == 0
  | .ne _ _ _ _ h _ => h
  | .rejoin _ _ => false

def atRejoin (s : State) (x : Group) (a : W32) (l : Nat) : Bool := !heldNow s x l && x.waits.any fun e => e.1 == l && match e.2 with
  | .rejoin b _ => b == a
  | _ => false

def neededAt (s : State) (x : Group) (a : W32) (u : Nat) : Bool := !x.ended.getLsbD u && x.waits.any fun e => !heldNow s x e.1 && match e.2 with
  | .rejoin b k => b == a && (u == e.1 || k.getLsbD u)
  | _ => false

def freedNow (s : State) (x : Group) (l : Nat) : Bool := heldNow s x l || x.waits.any fun e => match e.2 with
  | .rejoin a _ => atRejoin s x a l && lanes.all fun u => !neededAt s x a u || atRejoin s x a u
  | _ => false

/-- The lanes freed, those that may run, and what the census finds. -/
def censusIs (s : State) (freed may : LaneMask) (q : Group → Bool) : Bool := s.upsets.isEmpty && groupIs s fun x =>
  exactly freed (freedNow s x) && exactly may (fun l => !(x.parked &&& ~~~freed).getLsbD l && !x.ended.getLsbD l) && q x &&
  x.waits.all fun e => match e.2 with
    | .ne _ _ _ due _ faulted => faulted.isSome || due.any fun d => decide (s.timeref < d)
    | _ => true

theorem test_witness_census :
    let wants (a b : W32) (g : Group) : Group := { g with wl := (lanes.map fun t => (t, a)).dropLast ++ [(31, b)], cursor := 0x10010 }
    (censusIs (counting (wants 0x10020 0x10000)) 0 0xFFFFFFFF fun x => x.wl.get 0 == 0x10020 && decide (x.cursor < x.wl.get 0) &&
      decide (x.wl.get 31 < x.cursor)) = true ∧
    (censusIs (counting (wants 0x10000 0x10000)) 0 0xFFFFFFFF fun x => lanes.all fun l => decide (x.wl.get l < x.cursor)) = true ∧
    (censusIs (counting fun g => { g with parked := 0xF, waits := [(0, .time 5), (1, .bar 0xFF8), (2, .ne 0 0 0 (some 6) true none), (3, .time 6)] })
      7 0xFFFFFFF7 fun _ => true) = true ∧
    (censusIs (counting fun g => { g with parked := 3, waits := [(0, .rejoin 0x10000 3), (1, .rejoin 0x10000 2)] }) 3 0xFFFFFFFF fun _ => true) = true ∧
    (∀ p ∈ [none, some (20, 0x10000#32, 0#64, 0)], censusIs (counting fun g => { g with ended := 0xFFFFFFFF, pendingTrap := p }) 0 0 (fun x =>
      x.ended == 0xFFFFFFFF && x.pendingTrap == p) = true) ∧
    (censusIs (counting fun g => { g with ended := ~~~3, parked := 3, waits := [(0, .rejoin 0x10000 2), (1, .rejoin 0x10010 1)] }) 0 0 fun x =>
      lowest (~~~x.ended) == some 0 && x.ended != 0xFFFFFFFF) = true ∧
    (censusIs (counting fun g => { g with ended := ~~~3, parked := 3, waits := [(0, .rejoin 0x10000 2), (1, .time 6)] }) 0 0 fun x =>
      x.ended != 0xFFFFFFFF) = true := by decide +kernel

/-- ArrivalsAndStores: an acquiring load of each scope; a releasing store with nothing before it, into the team's scratch and to HBM, and one
of system scope behind an unfinished put. -/
theorem test_witness_acquire_and_release :
    (∀ sc ∈ [Scope.grp, .team, .clu, .dev, .sys], let s := ready (asking (fun l => .load false (some sc) 4 false l false 5) .hbm)
      groupIs s (fun x => x.await.length == 1 && x.await.all (fun a => a.val.isNone && a.home == .here) && x.stq.isEmpty && x.status != .retired) = true ∧
      (s.core 0).flight = [] ∧ s.portsOpen [.hbm] = true ∧ s.poison = []) ∧
    (∀ c ∈ [(Place.scratch 0, ([] : List OpClass), true), (.hbm, [], true), (.hbm, [.remote], false)],
      let e := { entryTo c.1 0xFFC with rel := some .sys, seq := 1 }
      let s := ready fun g => { g with stq := [e], ops := c.2.1.map fun k => { cls := k, seq := 0, finished := false, region := 0, puts := [] } }
      let r := s.reachWhere 0 (releases 0 .sys)
      groupIs s (fun x => x.await.isEmpty && x.stq == [e]) = true ∧ s.poison = [] ∧ (s.core 0).l1 = [] ∧
      ((r.core 0).flight.all (fun f => !releases 0 .sys f) && groupIs r fun y => y.ops.all fun o => !(o.cls == .remote && decide (o.seq < e.seq)) || o.finished)
        = c.2.2 ∧
      ((∀ b ∈ e.bytes, b.place = .scratch 0) ∨ ∀ b ∈ e.bytes, b.place.isScratchOf 0 = false)) := by decide +kernel

/-- MatrixStepAndEmulation: elements of each type, without scales, with them, with a zero one and with NaR; a binary32 accumulator of each
kind; and a step behind the access of another tile. -/
theorem test_witness_elements :
    (∀ c ∈ [(ETy.ln16x2, 16), (.ln8x4, 32), (.ln4x8, 64)], c.1 ∈ logTypes ∧ (List.replicate c.2 (1, 1)).length = c.2 ∧
      ∀ x ∈ List.replicate c.2 (1, 1) ++ [(2 ^ (c.1.width - 1), 0)], x.1 < 2 ^ c.1.width ∧ x.2 < 2 ^ c.1.width) ∧
    (∀ x ∈ [(1, 0xFFFF), (0, 5), (0x8000, 3)], x.1 < 2 ^ 16 ∧ x.2 < 2 ^ 16) ∧ (3 ≠ 0 ∧ 0xFFFF ≠ 0x8000 ∧ (0 = 0 ∨ 5 = 0) ∧ 0x8000 = 2 ^ 15) ∧
    fmt32.decode 0x7F800001 = .nan true ∧ fmt32.decode 0xFF800000 = .inf true ∧ fmt32.decode 0 = .fin false 0 (-149) ∧
    (let o := oneStep 0 0 2 false
     let s := (ready).modTeam 0 fun t => { t with heavy := 8, engine := [.zero 6, o, .zero 7] }
     s.engineTurn 0 = some 0 ∧ 7 ∈ (s.team 0).readyTiles ∧ (s.team 0).engine = [.zero 6] ++ o :: [.zero 7] ∧ (EngineOp.zero 6).tile ≠ 7) := by
  decide +kernel

/-- LinkTraffic: a port that is not paused; one that takes its last flit within the time, one more than it takes, and one that is late. -/
theorem test_witness_paused_ports :
    ([({ (default : Link) with paused := false }, 0, true), ({ (default : Link) with paused := true, stopIn := 64, stopAt := 77 }, 64, true),
      ({ (default : Link) with paused := true, stopIn := 64, stopAt := 77 }, 65, false), ({ (default : Link) with paused := true, stopIn := 64 }, 1, false)] :
      List (Link × Nat × Bool)).all (fun c => let s := linkState { c.1 with reserve := 1 }
      s.portUp 17 && s.portTakes 17 c.2.1 == c.2.2 && !s.confined && (s.link 17).reserve == 1) = true := by decide +kernel

/-- QueuePackets: a co-operative launch that fits, in its turn and behind another of its priority, and one that waits for a core. -/
def coopTurn (last : Nat) : State := { coopHead with
  queues := (3, { ctx := some 0, prio := 3, packets := [launchPacket [(10, 1)]], level := 1 }) :: coopHead.queues, lastServed := [(3, last)] }

def coopBlocked : State := { coopHead with
  teams := (List.range 64).flatMap fun c => [(c, { core := c, scratchSize := 2 ^ 20, launch := 0, slots := [(0, 16 * c)] })] }

theorem test_witness_queue_cooperative :
    let p := launchPacket [(10, 1)]
    let asks (s : State) : Bool := (s.queue 15).packets == [p] && decide (pktTYPE p = 0) && (s.placing 15).isNone && s.ctrl.featWritten &&
      !(s.ctx 0).preempted && (pktWaits p).all (fun e => (s.ctx 0).events.contains e) && (s.rejection 0 15 (s.queue 15) p).isNone && pktCOOP p &&
      s.descValid 0 && ((s.current 0 (pktOBJ p)).any fun o => (o.kernel (pktENTRY p)).isSome) &&
      (List.range 16).all fun r => decide (s.headPrio r ≤ s.headPrio 15)
    (asks coopHead && coopHead.chosenQueue [3, 2, 1, 0] == some 15 && (coopHead.asked 0 15 p).any (coopHead.coopFits .now)) = true ∧
    (asks (coopTurn 15) && (coopTurn 15).chosenQueue [3, 2, 1, 0] == some 3 && ((coopTurn 15).asked 0 15 p).any ((coopTurn 15).coopFits .now)) = true ∧
    (asks coopBlocked && (coopBlocked.asked 0 15 p).any fun y => !coopBlocked.coopFits .now y) = true := by decide +kernel

/-! ### Clauses of the third review -/

/-- FloatCompareConvertSpecial: the reciprocal of the least number is too large, that of the greatest subnormal, and a third is inexact;
the reciprocal root of four thirds and of a quarter. -/
theorem test_witness_special_rounding : (∀ x ∈ [1, 0x7F7FFFFF, 0x40400000, 0x3FAAAAAB, 0x3E800000], 0 < x ∧ x < 0x7F800000) ∧
    sfu1 0 false 1 = (0x7F800000, flOF ||| flNX) ∧ sfu1 0 false 0x7F7FFFFF = (0x00200000, flNX ||| flUF) ∧
    sfu1 0 false 0x40400000 = (0x3EAAAAAB, flNX) ∧ sfu1 1 false 0x3E800000 = (0x40000000, 0) := by decide +kernel

/-- LoadsIssue: the last word of the scratch, and of bank memory, is poisoned; lanes 30 and 31 read it. -/
def marked : State := { mapped with poison := [.scratch 0 0x1FF, .bank 0x1FFFFFF] }

theorem test_witness_poisoned_loads : (marked.core 0).flight = [] ∧ (marked.core 0).l1 = [] ∧ ∀ r ∈ ([
    (.lds (at4 (mem h12 .n32 511 5 2)), at4 (mem h12 .n32 511 5 2), .scratch, .scratch 0, fun t => 0xF80 + 4 * t),
    (.ldb (at4 (mem h12 .n32 511 6 2)), at4 (mem h12 .n32 511 6 2), .bank, .bank, fun t => 0xFFFFF80 + 4 * t)] : List Placed),
    ∃ e p, Issues r.1 marked e p ∧ (unwatched e && e.g.await.isEmpty && e.g.stq.isEmpty && e.lanes.contains 30 &&
      (landed marked e).poison.contains (if r.2.2.1 = .bank then .bank (r.2.2.2.2 30 / 8) else .scratch e.g.team (r.2.2.2.2 30 / 8)) &&
      (List.range 30).all fun u => !(landed marked e).poison.contains
        (if r.2.2.1 = .bank then .bank (r.2.2.2.2 u / 8) else .scratch e.g.team (r.2.2.2.2 u / 8))) = true ∧ ∀ t ∈ e.lanes,
      (landed marked e).locate e r.2.2.1 r.2.1.bytes (MemOp.addr r.2.1 e.g t) = .ok r.2.2.2.1 (r.2.2.2.2 t) := by
  refine ⟨by decide +kernel, by decide +kernel, fun r hr => accepts _ _ _ ?_⟩
  revert r
  refine List.all_eq_true.mp ?_
  decide +kernel

/-- FenceAndBankOperation and BarriersStop: a releasing atomic waits for a put that has not been acknowledged, and every fence and
barrier behind it waits; `bop` with its destination, its source and their overlap refused. -/
def stalled : State := (ready fun g => { g with
    seq := 2, ops := [{ cls := .remote, seq := 0, finished := false, region := 0, puts := [] }]
    await := [{ seq := 1, iaddr := 0x10000, names := [⟨false, 15, 1, false⟩], val := none, lf := 0, req := .atom 0 .n32 4 .sys .rel [{
      lane := 0, place := .hbm, addr := 0xFFC, va := 0, operand := 7, operand2 := 9 }] false 15 }] }).modLaunch 0 fun l => { l with coop := true }

theorem test_witness_holds :
    let held (sc : Scope) (e : Env) : Bool := ((landed stalled e).fenceAt e.gid sc).fenced e.gid sc == false
    ∀ c ∈ ([(.fence { mem h12 .none 0 0 0 with scope := .grp }, held .grp), (.fence { mem h12 .none 0 0 0 with scope := .sys }, held .sys),
      (.bar (pop h6 0 0 0), fun e => all e && held .team e), (.cbar (pop h6 0 0 0), fun e => all e && held .clu e),
      (.gbar (pop h6 0 0 0), fun e => all e && e.launch.coop && held .dev e)] : List (Instr × (Env → Bool))),
      ∃ e p, Issues c.1 stalled e p ∧ c.2 e = true := issue_with (by decide +kernel)

theorem test_witness_bop_ranges : let s := mapped 0 fun g => { g with s := [(8, 0xFFFFFFC#64), (9, 0xFFFFFFE#64), (10, 2#64), (11, 0x1000#64), (12, 0x1004#64)] }
    let o := { mem h12 .f32 8 8 10 with op := 2 }
    let inside (s : State) (e : Env) (a : Nat) : Bool := a % 4 == 0 && decide (a + 4 * 2 ≤ 2 ^ 28) && decide (s.bankFirst e.g.ctx ≤ a / 65536) &&
      decide ((a + 4 * 2 - 1) / 65536 < s.bankFirst e.g.ctx + s.bankCount e.g.ctx)
    (∃ e p, Issues (.bop o) s e p ∧ (!inside s e 0xFFFFFFC) = true) ∧
    (∃ e p, Issues (.bop { o with dst := 11, a := 9 }) s e p ∧ (inside s e 0x1000 && !inside s e 0xFFFFFFE) = true) ∧
    (∃ e p, Issues (.bop { o with dst := 11, a := 12 }) s e p ∧ (inside s e 0x1000 && inside s e 0x1004 && decide (0x1004 < 0x1000 + 4 * 2)) = true) ∧
    ∃ e p, Issues (.bop o) banked e p ∧ decide (banked.bankFirst e.g.ctx ≤ 0xFFFFFFC / 65536 ∧
      (0xFFFFFFC + 4 * 1 - 1) / 65536 < banked.bankFirst e.g.ctx + banked.bankCount e.g.ctx) = true :=
  ⟨issues_at _ (by decide +kernel), issues_at _ (by decide +kernel), issues_at _ (by decide +kernel), issues_at _ (by decide +kernel)⟩

/-- KickPromises: a count of 257, a list at an offset that is no multiple of 32, a second record beyond the scratch, a record whose
ROWLEN is no multiple of 4, and one for a cluster by a team that is no member. -/
theorem test_witness_kick_traps :
    let s (a n : W64) (m : Memory) : State := (ready fun g => { g with s := [(4, a), (5, n)] }).modTeam 0 fun t => { t with scratch := m }
    let good : Memory := [(0xFE8, 4), (0xFF8, 1)]
    let k := Instr.kick (pop h6 127 4 5)
    let drained (u : State) (e : Env) : State := (landed u e).leaveOwn e.gid
    let check (u : State) (e : Env) (i : Nat) : Except Nat (List Nat) :=
      (drained u e).checkRecord e (BitVec.ofNat 256 ((drained u e).readAt (.scratch e.g.team) (0xFE0 + 32 * i) 32))
    let fails (u : State) (e : Env) (c : Nat) : Bool := match check u e 0 with
      | .ok _ => c == 0
      | .error x => c == x
    let at_ (e : Env) : Bool := decide ((e.g.s.get 4).toNat % 2 ^ 20 = 0xFE0)
    (∃ e p, Issues k (s 0xFE0 257 good) e p ∧ decide ((e.g.s.get 5).toNat % 2 ^ 32 = 257) = true) ∧
    (∃ e p, Issues k (s 0xFF0 256 good) e p ∧ decide ((e.g.s.get 4).toNat % 2 ^ 20 % 32 ≠ 0) = true) ∧
    (∃ e p, Issues k (s 0xFE0 2 good) e p ∧ (at_ e && (drained (s 0xFE0 2 good) e).queueEmpty e.gid && fails (s 0xFE0 2 good) e 0 &&
      decide (e.team.scratchSize < 0xFE0 + 32 * 1 + 32)) = true) ∧
    (∃ e p, Issues k (s 0xFE0 1 [(0xFE8, 3), (0xFF8, 1)]) e p ∧ (at_ e && fails (s 0xFE0 1 [(0xFE8, 3), (0xFF8, 1)]) e 2) = true) ∧
    (∃ e p, Issues k (s 0xFE0 1 [(0xFE8, 4), (0xFEB, 0x40), (0xFF8, 1)]) e p ∧
      (at_ e && fails (s 0xFE0 1 [(0xFE8, 4), (0xFEB, 0x40), (0xFF8, 1)]) e 14) = true) :=
  ⟨issues_at _ (by decide +kernel), issues_at _ (by decide +kernel), issues_at _ (by decide +kernel), issues_at _ (by decide +kernel),
    issues_at _ (by decide +kernel)⟩

/-- KickPromises: records that are formed, with a source in its space, of a team that is a member, or alone. -/
def recordHolds (r : BitVec 256) (formed source placed : Bool) : Bool :=
  let f (lo n : Nat) : Nat := (r.extractLsb' lo n).toNat
  let sstr : Int := (r.extractLsb' 160 32).toInt
  formed == decide (f 84 9 = 0 ∧ f 193 23 = 0 ∧ f 236 20 = 0 ∧ f 216 20 % 8 = 0 ∧ f 94 2 ≠ 3 ∧ (f 192 1 = 1 → f 216 20 = 0) ∧
    (f 94 2 = 0 → f 96 12 = 0) ∧ (f 94 2 = 1 → f 96 12 < 16) ∧ f 0 64 % 4 = 0 ∧ sstr % 4 = 0 ∧ f 108 20 % 4 = 0 ∧ f 140 20 % 4 = 0 ∧
    f 64 20 % 4 = 0 ∧ f 64 20 ≠ 0 ∧ (0 < f 128 12 → f 64 20 ≤ f 140 20)) &&
  source == decide (∀ row, row < f 128 12 + 1 → 0 ≤ (f 0 64 : Int) + row * sstr ∧ f 93 1 = 0 ∧ (f 0 64 : Int) + row * sstr + f 64 20 ≤ 2 ^ 52) &&
  placed == decide ((∀ row, row < f 128 12 + 1 → f 108 20 + row * f 140 20 + f 64 20 ≤ 4096) ∧ f 216 20 + 8 ≤ 4096)

theorem test_witness_records :
    let one : BitVec 256 := 4#256 <<< 64 ||| 1#256 <<< 192
    ((ready).team 0).scratchSize = 4096 ∧ (member (ready)).clusterTeams ((member (ready)).team 0) ≠ [] ∧
    recordHolds 0 false true true = true ∧ recordHolds (one ||| 0xFFFFFFFFFFFFC#256) true true true = true ∧
    recordHolds (one ||| 0x10000000000000#256) true false true = true ∧ recordHolds (one ||| 1#256 <<< 94) true true true = true ∧
    recordHolds (one ||| 1#256 <<< 128 ||| 4#256 <<< 140 ||| 4096#256 <<< 108) true true false = true := by decide +kernel

/-- BarrierObjectsAndSleep: an object just beyond the scratch. -/
theorem test_witness_objects_beyond : let s := ready fun g => { g with s := [(4, 0x1000#64)] }
    ∀ c ∈ ([(.barinit (pop h6 0 4 6), fun e => decide (e.team.scratchSize ≤ 0x1000)), (.waitb (pop h6 0 4 0), fun e => decide (e.team.scratchSize ≤ 0x1000))] :
      List (Instr × (Env → Bool))), ∃ e p, Issues c.1 s e p ∧ c.2 e = true := issue_with (by decide +kernel)

/-- NopChangesNothing and LegalityAndGuards: a group that steps by instruction, which would issue were it not for that; and a poisoned
register of a lane that reads it, and of the group. -/
def stepped : State := ready fun g => { g with stepctl := 1 }

theorem test_witness_single_step :
    (∀ i ∈ [Instr.nop (sys h6 .none 0 0), .nopCompact (comp 0 0 0)], ∃ e p, Admitted i stepped e p ∧
      (e.g.stepctl == 1 && e.g.shadow.isNone && !i.last) = true) ∧
    (let i := Instr.bar (pop { h8 with guard := .on .q false 7, stall := 1 } 0 0 0)
     ((stepped.env i (pairable i)).any fun x => i.wf && (x.1.g.guardMask i.guard x.1.v.active).isNone && x.1.g.stepctl == 1 && x.1.g.shadow.isNone &&
       !i.last && decide (0 < i.stall)) = true) := by
  refine ⟨fun i hi => ?_, by decide +kernel⟩
  have admitted : ∀ i ∈ [Instr.nop (sys h6 .none 0 0), .nopCompact (comp 0 0 0)], ((stepped.env i (pairable i)).any fun x =>
      x.1.mask == x.1.v.active && i.wf && x.1.g.nregOk i && (landed stepped x.1).awaitOk x.1.gid x.1.g x.1.v i && !x.1.launch.check &&
      (x.1.g.pendingName i).isNone && x.1.g.guardMask i.guard x.1.v.active == some x.1.mask && !(landed stepped x.1).poisonedSource x.1 &&
      (x.1.g.stepctl == 1 && x.1.g.shadow.isNone && !i.last)) = true := List.all_eq_true.mp (by decide +kernel)
  have h := admitted i hi
  cases hx : stepped.env i (pairable i) with
  | none => rw [hx] at h; cases h
  | some x =>
    rw [hx] at h
    simp only [Option.any_some, Bool.and_eq_true, beq_iff_eq, Bool.not_eq_true', Option.isNone_iff_eq_none] at h
    obtain ⟨⟨⟨⟨⟨⟨⟨⟨h1, h2⟩, h3⟩, h4⟩, h5⟩, h6⟩, h7⟩, h8⟩, h9, h10⟩ := h
    refine ⟨x.1, x.2, ⟨by rw [hx, ← h1], h2, h3, h4, fun k => ?_, h6, h7, h8⟩, ?_⟩
    · rw [h5] at k; cases k
    · simp [h9, h10]

theorem test_witness_poisoned_registers :
    ∀ c ∈ [(Instr.add (vop h6 .i32 1 2 3), ProtWord.vreg 0 3 31), (.sadd (vop h6 .i32 1 2 3), .ureg 0 2)],
      let s : State := { ready with poison := [c.2] }
      ((s.env c.1 (pairable c.1)).any fun x => c.1.wf && x.1.g.guardMask c.1.guard x.1.v.active == some allLanes && !chosenReads c.1 &&
        (landed s x.1).poison.contains c.2 && (match c.2 with
          | .vreg g r _ => g == x.1.gid && c.1.names0.reads.contains (.v r)
          | .ureg g r => g == x.1.gid && c.1.names0.reads.contains (.s r)
          | _ => false)) = true := by decide +kernel

/-- CourseTurns: an event inside the open region, before and after three rollbacks, outside it, and inside a handler; the end of a
course with a matrix event that waits, in both modes of the single step, and with a next course that is no start. -/
theorem test_witness_events :
    (∀ n ∈ [2, 3], groupIs (ready fun g => { g with regionl := 0x10001, rollbacks := n }) (fun x => x.shadow.isNone && x.regionl.getLsbD 0 &&
      x.regionSeq == 0 && x.rollbacks == n) = true) ∧
    groupIs (ready) (fun x => x.shadow.isNone && !x.regionl.getLsbD 0) = true ∧ groupIs (handling default) (fun x => x.shadow == some default) = true ∧
    (∀ n ∈ [1, 2], let s := (ending [0xEF, 0xFC, 0, 0, 0, 0, 0, 0, 0, 0, 0, 0]).modGroup 0 fun g => { g with stepctl := BitVec.ofNat 32 n }
      groupIs s (fun x => x.shadow.isNone && x.stepctl == BitVec.ofNat 32 n && x.pendingTrap.isNone && visitIs x fun v => v.ended && v.raised.isNone) = true) ∧
    (let s := (ending [0xEF, 0xFC, 0, 0, 0, 0, 0, 0, 0, 0, 0, 0]).modGroup 0 fun g => { g with pendingTrap := some (19, 0x10000, 1, 0) }
     groupIs s (fun x => x.pendingTrap == some (19, 0x10000, 1, 0)) = true) ∧
    (let s := (stands [0xEF, 0xFC, 0, 0, 0, 0, 0, 0, 0, 0, 0, 0] fun g => { g with visit := g.visit.map fun v => { v with ended := true } })
     groupIs s (fun x => visitIs x fun v => !(s.isStart 0 (nextCourse v.pos.toNat)) && x.wl.get 31 == v.start && v.active.getLsbD 31 &&
       !v.wanted.getLsbD 31) = true) := by decide +kernel

/-- ArrivalsAndStores and OperationsComplete: NaNs, and both signs at the ends of each range. -/
theorem test_witness_combinations : (fmt32.decode 0x7FA00000).isNan = true ∧ atomNew 1 .i32 0x80000000 0x7FFFFFFF = 0x80000000 ∧
    atomNew 2 .n32 0x80000000 0x7FFFFFFF = 0x80000000 ∧ atomNew 1 .b64 (2 ^ 63) 0 = 2 ^ 63 ∧ bankElem 3 .i32 0x80000000 0 0 = 0 ∧
    bankElem 4 .i32 1 0xFFFFFFFF 0xFFFFFFFF = 2 := by decide +kernel

/-! Galbel code (R268, R269): a `pfor` of the register s8, each thread a store of its index to scratch, and `pend`. -/

def region : List Instr := [.pfor (pop h12 1 8 0 0 .n32), .sts { mem h12 .n32 1 9 1 with sc := 2 }, .pend (pop h12 0 0 0)]

def teamRun (n : Nat) : GalbelRun := {
  s := (State.reset.alone { loaded with ctx := 0 } { groups := 1, scratch := 4096, entry := 0x10000, nreg := 16 } 0).modGroup 0 fun g =>
    { g with s := Sparse.set [] 8 (BitVec.ofNat 64 n) }
  pc := 0 }

/-- SystemCalls: bytes that are no native object; a `pfor` of no thread, of one, and of the most. -/
theorem test_witness_galbel : objKIND [] ≠ 2 ∧ ∀ n ∈ [0, 1, 0x100000],
    (teamRun n).ended = false ∧ (teamRun n).threads = none ∧ region[(teamRun n).pc]? = some (.pfor (pop h12 1 8 0 0 .n32)) ∧
    groupIs (teamRun n).s (fun x => x.acts (.pfor (pop h12 1 8 0 0 .n32)) && (x.s.get 8).toNat == n && ((teamRun n).s.team x.team).hod.isEmpty) = true := by
  decide +kernel

/-- A region of three threads runs to its `pend`, and each has stored its index (R268: vi holds the index, s9 is zero). -/
theorem test_galbel_region : ((((teamRun 3).next region 0).bind (·.piece region 0 4 [])).map fun r =>
    (r.pc, r.threads.isNone, (List.range 4).map fun i => r.s.readAt (.scratch 0) (4 * i) 4)) = some (3, true, [0, 1, 2, 0]) := by decide +kernel

/-! ### Round trips, and other contexts -/

/-- DecodeInvertsEncode: instructions of each form, well formed and native. -/
theorem test_witness_round_trip : ([Instr.addI32Compact (comp 255 0 255), .exit (pop { h6 with last := true } 0 0 0),
    .shl (vop h6 .n32 511 0 511), .fsl (vop h8 .n32 1 2 3 511), .movi (liop 7 0 0 0x3F800000 0 .n32)] : List Instr).all
    (fun i => i.native && i.wf && (match encode i with
      | some bs => (match decode (bs ++ [0xFF, 0, 0]) with
        | .ok (j, n) => j == i && n == bs.length
        | _ => false)
      | none => false)) = true := by decide +kernel

end Sys2Proof.Tests
end

section
/-!
SUPPORT. The integer and bit operations in arithmetic and in bits: the shifts element by element (R80, R316, R359), the bit
fields (R81), the counts and the bit reversal (R298, R347), and what they give on the 32-bit words of the compact forms (R97).
-/
namespace Sys2Proof

/-- A number that is its own element 0, read in two's complement, is the integer of the word with its bits. -/
theorem toInt_true_eq_ofNat {w x : Nat} (hw : 0 < w) (h : x < 2 ^ w) : toInt true w x = (BitVec.ofNat w x).toInt := by
  have half : 2 ^ w = 2 * 2 ^ (w - 1) := by rw [← Nat.pow_succ']; congr 1; omega
  rw [BitVec.toInt_eq_toNat_cond, BitVec.toNat_ofNat, Nat.mod_eq_of_lt h]
  unfold toInt
  simp only [Bool.true_and, decide_eq_true_eq]
  push_cast
  split <;> split <;> omega

theorem wrap_eq_ofInt (w : Nat) (y : Int) : wrap w y = (BitVec.ofInt w y).toNat := (BitVec.toNat_ofInt y).symm

/-- Wrapping a field's number to a wider word extends the field: by its top bit where it is signed, else by zeros. -/
theorem testBit_wrap_toInt (s : Bool) {w n x j : Nat} (hn : 0 < n) (hx : x < 2 ^ n) (hj : j < w) :
    (wrap w (toInt s n x)).testBit j = if j < n then x.testBit j else s && x.testBit (n - 1) := by
  cases s with
  | true =>
    have ext : wrap w (toInt true n x) = ((BitVec.ofNat n x).signExtend w).toNat := by
      rw [toInt_true_eq_ofNat hn hx, wrap_eq_ofInt]; rfl
    rw [ext, BitVec.testBit_toNat, BitVec.getLsbD_signExtend, BitVec.msb_eq_getLsbD_last, BitVec.getLsbD_ofNat,
      BitVec.getLsbD_ofNat]
    simp only [hj, decide_true, Bool.true_and, show n - 1 < n by omega]
    split
    · next h => simp [h]
    · rfl
  | false =>
    have low : wrap w (toInt false n x) = x % 2 ^ w := by
      unfold wrap toInt
      simp only [Bool.false_and, Bool.false_eq_true, if_false]
      omega
    rw [low, Nat.testBit_mod_two_pow]
    split
    · simp [hj]
    · next h => simp [Nat.testBit_lt_two_pow (Nat.lt_of_lt_of_le hx (Nat.pow_le_pow_right (by omega) (Nat.le_of_not_lt h)))]

/-- A division by a power of two at or above the range leaves the sign alone, as one at the range does. -/
theorem ediv_two_pow_min {w n : Nat} {y : Int} (lo : -(2 ^ w : Nat) ≤ y) (hi : y < (2 ^ w : Nat)) :
    y / (2 ^ Nat.min n w : Nat) = y / (2 ^ n : Nat) := by
  rcases Nat.le_total n w with h | h
  · rw [show Nat.min n w = n from Nat.min_eq_left h]
  · rw [show Nat.min n w = w from Nat.min_eq_right h]
    have le : ((2 ^ w : Nat) : Int) ≤ (2 ^ n : Nat) := by exact_mod_cast Nat.pow_le_pow_right (by omega) h
    by_cases neg : y < 0
    · rw [Int.ediv_eq_neg_one_of_neg_of_le neg (by omega), Int.ediv_eq_neg_one_of_neg_of_le neg (by omega)]
    · rw [Int.ediv_eq_zero_of_lt (by omega) hi, Int.ediv_eq_zero_of_lt (by omega) (by omega)]

/-- A signed number lies within its range. -/
theorem toInt_bounds (s : Bool) {w x : Nat} (h : x < 2 ^ w) : -(2 ^ w : Nat) ≤ toInt s w x ∧ toInt s w x < (2 ^ w : Nat) := by
  have cast : (x : Int) < 2 ^ w := by exact_mod_cast h
  unfold toInt
  push_cast
  split <;> omega

theorem testBit_eq_elem_one (x j : Nat) : x.testBit j = decide (elem 1 x j = 1) := by
  rw [Nat.testBit_eq_decide_div_mod_eq, elem, Nat.one_mul, Nat.pow_one]

/-- A word is its own element 0. -/
theorem elem_word (x : W32) : elem 32 x.toNat 0 = x.toNat := by
  simp [elem, Nat.mod_eq_of_lt x.isLt]

/-- A word is known by its element 0. -/
theorem ofNat_eq_of_elem {x : Nat} {y : W32} (h : elem 32 x 0 = y.toNat) : BitVec.ofNat 32 x = y := by
  apply BitVec.eq_of_toNat_eq
  rw [← h, BitVec.toNat_ofNat]
  simp [elem]

theorem pack_lt_of_le {w n : Nat} {xs : List Nat} (h : w * xs.length ≤ n) : pack w xs < 2 ^ n :=
  Nat.lt_of_lt_of_le (pack_lt w xs) (Nat.pow_le_pow_right (by omega) h)

namespace Machine

theorem wordBits_eq (ty : ETy) : wordBits ty = if ty = .b64 then 64 else 32 := by simp [wordBits]

theorem wordBits_ge (ty : ETy) : 32 ≤ wordBits ty := by cases ty <;> decide

/-- The elements of a type fill no more than its word. -/
theorem width_mul_count_le (ty : ETy) : ty.width * ty.count ≤ wordBits ty := by cases ty <;> decide

/-! Sources lie within their word (R59, R93). -/

theorem Group.src_lt (g : Group) (c : Cls) (r : BitVec 9) (ty : ETy) (t : Nat) :
    g.src c r (ty == .b64) t < 2 ^ wordBits ty := by
  have hv (r : Nat) : g.vreg r t < 2 ^ 32 := BitVec.isLt _
  have hk (r : Nat) : g.kreg r t < 2 ^ 32 := BitVec.isLt _
  have hs (r : Nat) : (g.sreg r).toNat < 2 ^ 64 := BitVec.isLt _
  have v0 := hv r.toNat
  have v1 := hv (r.toNat + 1)
  have k0 := hk r.toNat
  have k1 := hk (r.toNat + 1)
  have s0 := hs r.toNat
  unfold Group.src wordBits
  by_cases h : (ty == .b64) = true
  · simp only [h, if_true]
    cases c <;> dsimp only <;> omega
  · simp only [h, if_false, Bool.false_eq_true]
    cases c <;> dsimp only <;> omega

end Machine

open Machine in
theorem Modif.apply_lt (m : Modif) (ty : ETy) {x : Nat} (h : x < 2 ^ wordBits ty) : m.apply ty x < 2 ^ wordBits ty := by
  have picked := width_mul_count_le ty
  have word := wordBits_ge ty
  cases m with
  | none => exact h
  | h0 | h1 | hx | b0 | b1 | b2 | b3 => exact pack_lt_of_le (by simpa using word)
  | rev | pair | bcl | bch => exact pack_lt_of_le (by simpa using picked)

/-- The type of a well-formed instruction is one its opcode takes. -/
theorem VOp.has_type {o : VOp} {sh : Shape} (h : o.has sh = true) : o.ty ∈ sh.types := by
  simp only [VOp.has, Bool.and_eq_true] at h
  obtain ⟨⟨⟨⟨⟨⟨⟨⟨⟨⟨_, types⟩, _⟩, _⟩, _⟩, _⟩, _⟩, _⟩, _⟩, _⟩, _⟩ := h
  exact List.contains_iff_mem.1 types

theorem signed_of_mem_signedTypes {ty : ETy} (h : ty ∈ signedTypes) : ty.signed = true := by
  revert ty; decide

theorem VOp.srcA_lt (o : VOp) (g : Machine.Group) (t : Nat) : o.srcA g t < 2 ^ Machine.wordBits o.ty :=
  Modif.apply_lt _ _ (g.src_lt _ _ _ _)

namespace Machine

/-! Bit operations (R288, R343, R374). -/

theorem testBit_notW (ty : ETy) (x : Nat) {j : Nat} (h : j < wordBits ty) : (notW ty x).testBit j = !x.testBit j := by
  have sub : notW ty x = 2 ^ wordBits ty - (x % 2 ^ wordBits ty + 1) := by
    unfold notW wordBits; dsimp only; omega
  rw [sub, Nat.testBit_two_pow_sub_succ (Nat.mod_lt _ (Nat.two_pow_pos _)), Nat.testBit_mod_two_pow]
  simp [h]

theorem notW_word (x : W32) : BitVec.ofNat 32 (notW .n32 x.toNat) = ~~~x := by
  apply BitVec.eq_of_getLsbD_eq
  intro j hj
  rw [BitVec.getLsbD_ofNat, testBit_notW .n32 _ hj, BitVec.testBit_toNat, BitVec.getLsbD_not]

theorem land_word (x y : W32) : BitVec.ofNat 32 (Nat.land x.toNat y.toNat) = x &&& y := by
  rw [show Nat.land x.toNat y.toNat = (x &&& y).toNat from (BitVec.toNat_and x y).symm, BitVec.ofNat_toNat, BitVec.setWidth_eq]

theorem lor_word (x y : W32) : BitVec.ofNat 32 (Nat.lor x.toNat y.toNat) = x ||| y := by
  rw [show Nat.lor x.toNat y.toNat = (x ||| y).toNat from (BitVec.toNat_or x y).symm, BitVec.ofNat_toNat, BitVec.setWidth_eq]

theorem xor_word (x y : W32) : BitVec.ofNat 32 (Nat.xor x.toNat y.toNat) = x ^^^ y := by
  rw [show Nat.xor x.toNat y.toNat = (x ^^^ y).toNat from (BitVec.toNat_xor x y).symm, BitVec.ofNat_toNat, BitVec.setWidth_eq]

/-! Shifts (R80, R316, R359). -/

theorem shlW_elem (ty : ETy) (x y : Nat) {k : Nat} (h : k < ty.count) : elem ty.width (shlW ty x y) k =
    elem ty.width x k * 2 ^ (elem ty.width y k % 256) % 2 ^ ty.width := by
  rw [shlW, map2_elem ty _ x y h, amount]
  split
  · next big => rw [Nat.zero_mod, Nat.mod_eq_zero_of_dvd (Nat.dvd_mul_left_of_dvd (Nat.pow_dvd_pow 2 big) _)]
  · rw [Nat.mod_mod]

theorem shrW_elem (ty : ETy) (x y : Nat) {k : Nat} (h : k < ty.count) : elem ty.width (shrW ty x y) k =
    elem ty.width x k / 2 ^ (elem ty.width y k % 256) := by
  have lt := elem_lt ty.width x k
  rw [shrW, map2_elem ty _ x y h, amount]
  split
  · next big => rw [Nat.zero_mod, Nat.div_eq_of_lt (Nat.lt_of_lt_of_le lt (Nat.pow_le_pow_right (by omega) big))]
  · exact Nat.mod_eq_of_lt (Nat.lt_of_le_of_lt (Nat.div_le_self _ _) lt)

theorem sarW_elem (ty : ETy) (x y : Nat) {k : Nat} (h : k < ty.count) : elem ty.width (sarW ty x y) k =
    wrap ty.width (toInt true ty.width (elem ty.width x k) / (2 ^ (elem ty.width y k % 256) : Nat)) := by
  obtain ⟨lo, hi⟩ := toInt_bounds true (elem_lt ty.width x k)
  rw [sarW, map2_elem ty _ x y h, amount, Nat.mod_eq_of_lt (wrap_lt _ _), ediv_two_pow_min lo hi]

theorem fslW_elem (ty : ETy) (x y z : Nat) {k : Nat} (h : k < ty.count) : elem ty.width (fslW ty x y z) k =
    (elem ty.width x k * 2 ^ ty.width + elem ty.width y k) * 2 ^ (elem ty.width z k % 256) / 2 ^ ty.width % 2 ^ ty.width := by
  rw [fslW, map3_elem ty _ x y z h, amount]
  generalize elem ty.width x k * 2 ^ ty.width + elem ty.width y k = v, elem ty.width z k % 256 = n
  rw [Nat.two_mul, Nat.pow_add, ← Nat.mod_mul_right_div_self]
  split
  · next big =>
    have zero : v * 2 ^ n % (2 ^ ty.width * 2 ^ ty.width) = 0 := by
      rw [← Nat.pow_add]
      exact Nat.mod_eq_zero_of_dvd (Nat.dvd_mul_left_of_dvd (Nat.pow_dvd_pow 2 big) _)
    rw [zero, Nat.zero_mod, Nat.zero_div]
  · exact Nat.mod_eq_of_lt (Nat.div_lt_of_lt_mul (Nat.mod_lt _ (Nat.mul_pos (Nat.two_pow_pos _) (Nat.two_pow_pos _))))

theorem fsrW_elem (ty : ETy) (x y z : Nat) {k : Nat} (h : k < ty.count) : elem ty.width (fsrW ty x y z) k =
    (elem ty.width x k * 2 ^ ty.width + elem ty.width y k) / 2 ^ (elem ty.width z k % 256) % 2 ^ ty.width := by
  have concat : elem ty.width x k * 2 ^ ty.width + elem ty.width y k < 2 ^ (2 * ty.width) := by
    have hx := elem_lt ty.width x k
    have hy := elem_lt ty.width y k
    calc elem ty.width x k * 2 ^ ty.width + elem ty.width y k < (elem ty.width x k + 1) * 2 ^ ty.width := by
          rw [Nat.add_mul]; omega
      _ ≤ 2 ^ ty.width * 2 ^ ty.width := Nat.mul_le_mul_right _ hx
      _ = 2 ^ (2 * ty.width) := by rw [Nat.two_mul, Nat.pow_add]
  rw [fsrW, map3_elem ty _ x y z h, amount]
  split
  · next big => rw [Nat.div_eq_of_lt (Nat.lt_of_lt_of_le concat (Nat.pow_le_pow_right (by omega) big))]
  · exact Nat.mod_mod _ _

theorem fslW_lt (ty : ETy) (x y z : Nat) : fslW ty x y z < 2 ^ (ty.width * ty.count) := map3_lt _ _ _ _ _

theorem fsrW_lt (ty : ETy) (x y z : Nat) : fsrW ty x y z < 2 ^ (ty.width * ty.count) := map3_lt _ _ _ _ _

theorem shlW_word (x y : W32) : BitVec.ofNat 32 (shlW .n32 x.toNat y.toNat) = x <<< (y.toNat % 256) := by
  apply ofNat_eq_of_elem
  rw [BitVec.toNat_shiftLeft, Nat.shiftLeft_eq]
  refine (shlW_elem .n32 _ _ (by decide)).trans ?_
  simp only [ETy.width, elem_word]

theorem shrW_word (x y : W32) : BitVec.ofNat 32 (shrW .n32 x.toNat y.toNat) = x >>> (y.toNat % 256) := by
  apply ofNat_eq_of_elem
  rw [BitVec.toNat_ushiftRight, Nat.shiftRight_eq_div_pow]
  refine (shrW_elem .n32 _ _ (by decide)).trans ?_
  simp only [ETy.width, elem_word]

theorem sarW_word (x y : W32) : BitVec.ofNat 32 (sarW .i32 x.toNat y.toNat) = x.sshiftRight (y.toNat % 256) := by
  apply ofNat_eq_of_elem
  refine (sarW_elem .i32 _ _ (by decide)).trans ?_
  simp only [ETy.width, elem_word]
  rw [toInt_true_eq_ofNat (by decide) x.isLt, BitVec.ofNat_toNat, BitVec.setWidth_eq, wrap_eq_ofInt, ← Int.shiftRight_eq_div_pow]
  rfl

/-! Bit fields (R81). -/

theorem fieldWidth_eq (at_ n : Nat) : fieldWidth at_ n = min n (32 - at_) := by
  unfold fieldWidth
  split
  · omega
  · rfl

theorem bfxW_lt (ty : ETy) (a b c : Nat) : bfxW ty a b c < 2 ^ 32 := by
  unfold bfxW
  dsimp only
  split
  · decide
  · exact wrap_lt _ _

theorem testBit_bfxW (ty : ETy) (a b c : Nat) {j : Nat} (hj : j < 32) : (bfxW ty a b c).testBit j =
    if j < min (c % 256) (32 - b % 256) then a.testBit (b % 256 + j)
    else ty.signed && decide (0 < min (c % 256) (32 - b % 256)) && a.testBit (b % 256 + min (c % 256) (32 - b % 256) - 1) := by
  unfold bfxW
  dsimp only
  rw [fieldWidth_eq]
  generalize b % 256 = at_, min (c % 256) (32 - b % 256) = n
  have field (i : Nat) (hi : i < n) : (a / 2 ^ at_ % 2 ^ n).testBit i = a.testBit (at_ + i) := by
    rw [Nat.testBit_mod_two_pow, Nat.testBit_div_two_pow, Nat.add_comm]
    simp [hi]
  rcases Nat.eq_zero_or_pos n with rfl | pos
  · simp
  · rw [if_neg (by omega), testBit_wrap_toInt ty.signed pos (Nat.mod_lt _ (Nat.two_pow_pos n)) hj,
      field (n - 1) (by omega), decide_eq_true pos, Bool.and_true, Nat.add_sub_assoc pos]
    split
    · next h => exact field j h
    · rfl

theorem testBit_bfiW (d a b c j : Nat) : (bfiW d a b c).testBit j =
    if b % 256 ≤ j ∧ j < b % 256 + min (c % 256) (32 - b % 256) then a.testBit (j - b % 256) else d.testBit j := by
  unfold bfiW
  dsimp only
  rw [fieldWidth_eq]
  generalize b % 256 = at_, min (c % 256) (32 - b % 256) = n
  rcases Nat.eq_zero_or_pos n with rfl | pos
  · rw [if_pos rfl, if_neg (by omega)]
  · have low : d % 2 ^ at_ < 2 ^ at_ := Nat.mod_lt _ (Nat.two_pow_pos _)
    have mid : 2 ^ at_ * (a % 2 ^ n) + d % 2 ^ at_ < 2 ^ (at_ + n) := by
      have lt : a % 2 ^ n < 2 ^ n := Nat.mod_lt _ (Nat.two_pow_pos _)
      calc 2 ^ at_ * (a % 2 ^ n) + d % 2 ^ at_ < 2 ^ at_ * (a % 2 ^ n + 1) := by rw [Nat.mul_add]; omega
        _ ≤ 2 ^ at_ * 2 ^ n := Nat.mul_le_mul_left _ lt
        _ = 2 ^ (at_ + n) := (Nat.pow_add _ _ _).symm
    have parts : d % 2 ^ at_ + a % 2 ^ n * 2 ^ at_ + d / 2 ^ (at_ + n) * 2 ^ (at_ + n) =
        2 ^ (at_ + n) * (d / 2 ^ (at_ + n)) + (2 ^ at_ * (a % 2 ^ n) + d % 2 ^ at_) := by
      rw [Nat.mul_comm (a % 2 ^ n), Nat.mul_comm (d / _)]; omega
    rw [if_neg (by omega), parts, Nat.testBit_two_pow_mul_add _ mid, Nat.testBit_two_pow_mul_add _ low,
      Nat.testBit_div_two_pow, Nat.testBit_mod_two_pow, Nat.testBit_mod_two_pow]
    rcases Nat.lt_or_ge j at_ with below | above
    · simp [below, show j < at_ + n by omega, show ¬ at_ ≤ j by omega]
    · rcases Nat.lt_or_ge j (at_ + n) with inside | beyond
      · simp [inside, above, show ¬ j < at_ by omega, show j - at_ < n by omega]
      · simp [show ¬ j < at_ + n by omega, Nat.sub_add_cancel beyond]

/-! Counts and the bit reversal (R298, R347). -/

/-- `clz` counts the zeros above the highest 1 bit, and every bit where there is none. -/
theorem clzW_spec (ty : ETy) {x : Nat} (hx : x < 2 ^ wordBits ty) :
    clzW ty x ≤ wordBits ty ∧ (∀ j, j < clzW ty x → x.testBit (wordBits ty - 1 - j) = false) ∧
    (clzW ty x < wordBits ty → x.testBit (wordBits ty - 1 - clzW ty x) = true) := by
  unfold clzW
  split
  · next zero => simp [zero]
  · next nonzero =>
    have top : x.log2 < wordBits ty := (Nat.log2_lt nonzero).2 hx
    refine ⟨by omega, fun j hj => ?_, fun _ => ?_⟩
    · exact Nat.testBit_lt_two_pow (Nat.lt_of_lt_of_le Nat.lt_log2_self (Nat.pow_le_pow_right (by omega) (by omega)))
    · rw [show wordBits ty - 1 - (wordBits ty - 1 - x.log2) = x.log2 by omega]
      exact Nat.testBit_log2 nonzero

theorem testBit_brevW (ty : ETy) (x : Nat) {j : Nat} (hj : j < wordBits ty) :
    (brevW ty x).testBit j = x.testBit (wordBits ty - 1 - j) := by
  rw [testBit_eq_elem_one, testBit_eq_elem_one x, brevW, elem_pack _ _ (by simpa using hj),
    List.getElem_reverse, List.getElem_map, List.getElem_range, List.length_map, List.length_range,
    Nat.mod_eq_of_lt (elem_lt 1 x _)]

end Machine

namespace Safety

open Machine

/-! What an instruction without flags posts. -/

/-- A lane-wise instruction that raises no flag posts in each active lane the value its form computes. -/
theorem Issues.postsSuch {i : Instr} {s : State} {e : Env} {p : Bool} {latency : Nat} {write : Nat → Nat → List RegWrite}
    {f : Env → Nat → Nat × Fl} {holds : Nat → Nat → Prop} (h : Issues i s e p)
    (hx : exec i s = Machine.lanewise i latency write f s) (noFlags : ∀ t, (f e t).2 = {})
    (hv : ∀ t, holds t (f e t).1) : PostsSuch i s e latency write holds := by
  have posts := h.lanewise hx
  simp only [noFlags] at posts
  exact ⟨fun t => (f e t).1, posts, hv⟩

/-- A compact instruction posts a word of its two sources in each active lane. -/
theorem Issues.postsCompact {i : Instr} {s : State} {e : Env} {p : Bool} {f : Env → Nat → Nat × Fl}
    (h : Issues i s e p) (o : CompactOp) (word : W32 → W32 → W32)
    (hx : exec i s = Machine.lanewise i 2 (CompactOp.dest o) f s) (noFlags : ∀ t, (f e t).2 = {})
    (hw : ∀ t, BitVec.ofNat 32 (f e t).1 =
      word (e.g.v.get (o.a.toNat * 32 + t)) (e.g.v.get (o.b.toNat * 32 + t))) :
    Posts i s e .vector 2 (e.lanes.flatMap fun t => [.lane false o.d.toNat t
      (word (e.g.v.get (o.a.toNat * 32 + t)) (e.g.v.get (o.b.toNat * 32 + t)))]) {} := by
  have posts := h.lanewise hx
  simp only [CompactOp.dest, noFlags, hw] at posts
  rwa [laneFlags_none] at posts

/-! The two obligations. -/

/-- Settles O2, by what each shift does to an element and what each bit operation does to a bit. -/
theorem bitwiseAndShifts : Obligations.BitwiseAndShifts := by
  unfold Obligations.BitwiseAndShifts
  refine ⟨fun o s e p => ?_, fun o s e p => ?_⟩
  · dsimp only
    simp only [← wordBits_eq]
    refine ⟨fun h => ?and, fun h => ?or, fun h => ?xor, fun h => ?not, fun h => ?shl, fun h => ?shr, fun h => ?sar,
      fun h => ?fsl, fun h => ?fsr⟩
    case and => exact h.postsSuch rfl (fun _ => rfl) fun t j _ => Nat.testBit_and _ _ j
    case or => exact h.postsSuch rfl (fun _ => rfl) fun t j _ => Nat.testBit_or _ _ j
    case xor => exact h.postsSuch rfl (fun _ => rfl) fun t j _ => Nat.testBit_xor _ _ j
    case not => exact h.postsSuch rfl (fun _ => rfl) fun t j hj => testBit_notW o.ty _ hj
    case shl => exact h.postsSuch rfl (fun _ => rfl) fun t => ⟨map2_lt _ _ _ _, fun k hk => shlW_elem o.ty _ _ hk⟩
    case shr => exact h.postsSuch rfl (fun _ => rfl) fun t => ⟨map2_lt _ _ _ _, fun k hk => shrW_elem o.ty _ _ hk⟩
    case sar =>
      have signed : o.ty.signed = true := signed_of_mem_signedTypes (VOp.has_type h.legal)
      refine h.postsSuch rfl (fun _ => rfl) fun t => ⟨map2_lt _ _ _ _, fun k hk => ?_⟩
      unfold numAt
      rw [signed]
      exact_mod_cast sarW_elem o.ty _ _ hk
    case fsl => exact h.postsSuch rfl (fun _ => rfl) fun t => ⟨fslW_lt _ _ _ _, fun k hk => fslW_elem o.ty _ _ _ hk⟩
    case fsr => exact h.postsSuch rfl (fun _ => rfl) fun t => ⟨fsrW_lt _ _ _ _, fun k hk => fsrW_elem o.ty _ _ _ hk⟩
  · refine ⟨fun h => ?and, fun h => ?or, fun h => ?xor, fun h => ?not, fun h => ?shl, fun h => ?shr, fun h => ?sar⟩
    case and => exact h.postsCompact o (· &&& ·) rfl (fun _ => rfl) fun t => land_word _ _
    case or => exact h.postsCompact o (· ||| ·) rfl (fun _ => rfl) fun t => lor_word _ _
    case xor => exact h.postsCompact o (· ^^^ ·) rfl (fun _ => rfl) fun t => xor_word _ _
    case not => exact h.postsCompact o (fun x _ => ~~~x) rfl (fun _ => rfl) fun t => notW_word _
    case shl => exact h.postsCompact o (fun x y => x <<< (y.toNat % 256)) rfl (fun _ => rfl) fun t => shlW_word _ _
    case shr => exact h.postsCompact o (fun x y => x >>> (y.toNat % 256)) rfl (fun _ => rfl) fun t => shrW_word _ _
    case sar => exact h.postsCompact o (fun x y => x.sshiftRight (y.toNat % 256)) rfl (fun _ => rfl) fun t => sarW_word _ _

/-- Settles O3, by the bits of a field, and by the highest 1 bit of a word for `clz`. -/
theorem fieldsAndCounts : Obligations.FieldsAndCounts := by
  unfold Obligations.FieldsAndCounts
  refine ⟨fun o s e p => ?_, fun o s e p => ?_⟩
  · dsimp only
    simp only [← wordBits_eq]
    refine ⟨fun h => ?bfx, fun h => ?bfi, fun h => ?popc, fun h => ?clz, fun h => ?brev⟩
    case bfx => exact h.postsSuch rfl (fun _ => rfl) fun t => ⟨bfxW_lt _ _ _ _, fun j hj => testBit_bfxW o.ty _ _ _ hj⟩
    case bfi =>
      exact h.postsSuch (f := fun e t => VOp.lane3 o (bfiW (e.g.src o.cd o.dst false t)) e t) rfl (fun _ => rfl)
        fun t j _ => testBit_bfiW _ _ _ _ j
    case popc => exact h.postsSuch rfl (fun _ => rfl) fun t => rfl
    case clz => exact h.postsSuch rfl (fun _ => rfl) fun t => clzW_spec o.ty (o.srcA_lt e.g t)
    case brev => exact h.postsSuch rfl (fun _ => rfl) fun t j hj => testBit_brevW o.ty _ hj
  · refine ⟨fun h => ?popc, fun h => ?clz, fun h => ?brev⟩
    case popc => exact h.postsSuch rfl (fun _ => rfl) fun t => rfl
    case clz => exact h.postsSuch rfl (fun _ => rfl) fun t => clzW_spec .n32 (BitVec.isLt _)
    case brev => exact h.postsSuch rfl (fun _ => rfl) fun t j hj => testBit_brevW .n32 _ hj

end Safety
end Sys2Proof
end

section
/-!
SUPPORT. What an instruction does that is single-stepped (R223): what landing leaves alone, the outcome of `issue` whatever the
step mode is, and the trap of cause 16 that follows a completed instruction. With it `nop` (R98).
-/
namespace Sys2Proof

namespace Machine

/-! Landing writes registers and flags: the group's status and its visit stay (R107). -/

/-- A fold leaves alone what each of its steps leaves alone. -/
theorem foldl_keeps {α β γ : Type} {f : β → α → β} (proj : β → γ) (step : ∀ b a, proj (f b a) = proj b) (l : List α) (b : β) :
    proj (l.foldl f b) = proj b :=
  List.foldlRecOn (motive := fun c => proj c = proj b) l f rfl fun c same a _ => (step c a).trans same

/-- Where a group stands: its status and its visit. -/
def Group.standing (g : Group) : Status × Option Visit := (g.status, g.visit)

theorem Group.writeCsr_standing (g : Group) (n : Nat) (v : W64) : (g.writeCsr n v).standing = g.standing := by
  unfold Group.writeCsr; split <;> rfl

theorem Group.write_standing (g : Group) (w : RegWrite) : (g.write w).standing = g.standing := by
  cases w with
  | lane k r t v => cases k <;> rfl
  | uni r v => rfl
  | pred r m v => rfl
  | upred r v => cases v <;> rfl
  | csr n v => exact g.writeCsr_standing n v
  | lk t v => unfold Group.write; dsimp only; split <;> rfl

theorem Group.landOne_standing (g : Group) (p : Pend) : (g.landOne p).standing = g.standing :=
  foldl_keeps Group.standing Group.write_standing p.writes g

theorem Group.land_standing (g : Group) (slot : Nat) : (g.land slot).standing = g.standing :=
  foldl_keeps Group.standing Group.landOne_standing _ g

@[simp] theorem Group.land_status (g : Group) (slot : Nat) : (g.land slot).status = g.status :=
  congrArg Prod.fst (g.land_standing slot)

@[simp] theorem Group.land_visit (g : Group) (slot : Nat) : (g.land slot).visit = g.visit :=
  congrArg Prod.snd (g.land_standing slot)

/-- Advancing a visit keeps its active lanes. -/
@[simp] theorem Group.advance_active (g : Group) (e : Env) (cls : IClass) :
    (g.advance e cls).visit.map (·.active) = g.visit.map (·.active) := by
  unfold Group.advance
  cases g.visit <;> rfl

/-- The environment of an issue turn: a running group's visit and instruction, with its visible results landed. -/
theorem State.env_some {s : State} {i : Instr} {co paired : Bool} {e : Env} (h : s.env i co = some (e, paired)) :
    ∃ g, s.group e.gid = some g ∧ e.g = g.land e.slot ∧ g.status = .running ∧ g.visit = some e.v ∧ e.i = i := by
  unfold State.env at h
  split at h
  · cases h
  · split at h
    · cases h
    · next g group =>
      split at h
      · cases h
      · next v visit =>
        split at h
        · next turn =>
          simp only [Bool.and_eq_true, beq_iff_eq] at turn
          cases h
          exact ⟨g, group, rfl, turn.1, visit, rfl⟩
        · cases h

/-- The single step (R223): where the group still runs and no uniform partner follows, cause 16 is taken at the instruction,
with EPC the next one. -/
theorem State.stepTrap_eq_takeTrap {t : State} {e : Env} {cls : IClass} {g : Group} {lanes : LaneMask}
    (group : t.group e.gid = some g) (running : g.status = .running) (active : g.visit.map (·.active) = some lanes)
    (mode : e.g.stepctl = 1) (outside : e.g.shadow = none) (inner : e.i.last = false) (alone : cls ≠ .vector) :
    t.stepTrap e cls =
      t.takeTrap e.gid { cause := 16, addr := e.here, val := 0, lanes := lanes, epc := e.next, pos := 0 } := by
  have noPartner : t.pairFollows e cls = false := by simp [State.pairFollows, alone]
  simp [State.stepTrap, group, running, active, mode, outside, inner, noPartner]

end Machine

namespace Safety

open Machine

variable {i : Instr} {s : State} {e : Env} {p : Bool}

/-- The group that issues an admitted instruction, before its results land. -/
theorem Admitted.group_eq (h : Admitted i s e p) :
    ∃ g, s.group e.gid = some g ∧ e.g = g.land e.slot ∧ g.status = .running ∧ g.visit = some e.v ∧ e.i = i :=
  (State.env_some h.turn :)

/-- The environment of an admitted instruction holds that instruction. -/
theorem Admitted.instr_eq (h : Admitted i s e p) : e.i = i := by
  obtain ⟨_, _, _, _, _, instr⟩ := h.group_eq
  exact instr

theorem Admitted.status_eq (h : Admitted i s e p) : e.g.status = .running := by
  obtain ⟨g, _, landing, status, _, _⟩ := h.group_eq
  rw [landing, Group.land_status, status]

theorem Admitted.visit_eq (h : Admitted i s e p) : e.g.visit = some e.v := by
  obtain ⟨g, _, landing, _, visit, _⟩ := h.group_eq
  rw [landing, Group.land_visit, visit]

/-- In the state in which an admitted instruction takes effect its group is that of the environment. -/
theorem Admitted.landed_group (h : Admitted i s e p) : (landed s e).group e.gid = some e.g := by
  obtain ⟨g, group, landing, _, _, _⟩ := h.group_eq
  simp [landed, State.landed, State.landAt, group, landing]

/-- An admitted instruction reaches its effect, single-stepped or not (R106). -/
theorem Admitted.issue_eq (h : Admitted i s e p) (cls : IClass) (legal : Env → State → Bool) (eff : Env → State → Eff)
    (hl : legal { e with mask := e.v.active } (landed s e) = true) :
    issue i cls legal eff s = .next ((landed s e).finish e cls p (eff e (landed s e))) := by
  have unmet : (if e.launch.check then e.g.meets i.names else none) = none := ite_eq_right_iff.2 h.checked
  have awaited := h.awaited
  have clean : (landed s e).poisonedSource { e with mask := e.mask } = false := h.clean
  unfold landed at hl awaited clean ⊢
  unfold issue
  rw [h.turn]
  dsimp only
  simp only [h.legal, h.registers, awaited, hl, unmet, h.pending, h.guard, clean, Bool.and_self, Bool.not_true,
    Bool.false_eq_true, if_false]

/-- An instruction that is done and whose group still runs the same lanes is followed by the single step in mode 1 of STEPCTL,
outside a handler, unless it ends its course (R223). -/
theorem Admitted.completesThenSteps (h : Admitted i s e p) {cls : IClass} {legal : Env → State → Bool}
    {eff : Env → State → Eff} {u : State} {g : Group} (hx : exec i s = issue i cls legal eff s)
    (hl : legal { e with mask := e.v.active } (landed s e) = true) (hd : eff e (landed s e) = .done u)
    (group : u.group e.gid = some g) (running : g.status = .running) (visit : g.visit = some e.v)
    (alone : cls ≠ .vector) (mode : e.g.stepctl = 1) (outside : e.g.shadow = none) (inner : i.last = false) :
    CompletesThenSteps i s e cls u := by
  have time := elapsed_advance u e cls p
  refine ⟨u.advance e cls p, time, ?_⟩
  have advanced : (u.advance e cls p).group e.gid = some (g.advance e cls) := by
    rw [time.group, State.modGroup_group, if_pos rfl, group]; rfl
  have active : (g.advance e cls).visit.map (·.active) = some e.v.active := by rw [Group.advance_active, visit]; rfl
  have last : e.i.last = false := by rw [h.instr_eq, inner]
  rw [hx, h.issue_eq cls legal eff hl, hd, State.finish,
    State.stepTrap_eq_takeTrap advanced running active mode outside last alone]

/-- An instruction whose effect changes nothing leaves the state in which it issued, then takes the single step. -/
theorem Admitted.idle_completesThenSteps (h : Admitted i s e p) {cls : IClass}
    (hx : exec i s = issue i cls always (fun _ s => .done s) s) (alone : cls ≠ .vector) (mode : e.g.stepctl = 1)
    (outside : e.g.shadow = none) (inner : i.last = false) : CompletesThenSteps i s e cls (landed s e) :=
  h.completesThenSteps hx rfl rfl h.landed_group h.status_eq h.visit_eq alone mode outside inner

/-- `nop` issues with no effect (R98). -/
theorem exec_nop (o : SysOp) (s : State) : exec (.nop o) s = issue (.nop o) .other always (fun _ s => .done s) s := rfl

/-- The compact `nop` issues with no effect (R97, R98). -/
theorem exec_nopCompact (c : CompactOp) (s : State) :
    exec (.nopCompact c) s = issue (.nopCompact c) .other always (fun _ s => .done s) s := rfl

/-- Settles O32: both forms issue with an effect that changes nothing, and a stepped one then takes cause 16. -/
theorem nopChangesNothing : Obligations.NopChangesNothing := by
  unfold Obligations.NopChangesNothing
  intro o c s e p
  refine ⟨fun h => h.completes (exec_nop o s) rfl rfl, fun h => h.completes (exec_nopCompact c s) rfl rfl, ?_⟩
  rintro i (rfl | rfl) mode outside inner h
  · exact h.idle_completesThenSteps (exec_nop o s) nofun mode outside inner
  · exact h.idle_completesThenSteps (exec_nopCompact c s) nofun mode outside inner

end Safety
end Sys2Proof
end
